-- ==== Sys2Proof/Word.lean ====
section
/-! DEFINITION. The word types of the KX-4816 and their plainest arithmetic (00_scope.md 4.1 to 4.6). -/

namespace Sys2Proof

/-- One byte. -/
abbrev Byte := BitVec 8
/-- A 16-bit field. -/
abbrev Half := BitVec 16
/-- A 32-bit register, field or wrapping count. -/
abbrev Word := BitVec 32
/-- An address in shared memory. -/
abbrev Addr := BitVec 64
/-- A signed 16-bit audio sample (section 4.4). -/
abbrev Sample := BitVec 16

/-- A holding counter (section 4.5): it stops at its largest value. -/
def holdAdd (largest n k : Nat) : Nat := min largest (n + k)

/-- The largest value of a 16-bit holding counter. -/
abbrev hold16 : Nat := 65535
/-- The largest value of a 32-bit holding counter. -/
abbrev hold32 : Nat := 4294967295

/-- A setting outside its range is replaced by the nearest value in the range (section 4.6). -/
def clampTo (lo hi n : Nat) : Nat := max lo (min hi n)

/-- The `n` low bytes of a number, least significant first (section 4.1: little-endian). -/
def bytesOf : Nat → Nat → List Byte
  | 0, _ => []
  | n + 1, v => BitVec.ofNat 8 v :: bytesOf n (v / 256)

/-- The number that little-endian bytes spell. -/
def numberOf : List Byte → Nat
  | [] => 0
  | b :: bs => b.toNat + 256 * numberOf bs

/-- The number in `width` bytes at byte offset `at_` of a record; bytes beyond its end read as absent. -/
def fieldAt (bytes : List Byte) (at_ width : Nat) : Nat := numberOf ((bytes.drop at_).take width)

/-- `n` zero bytes. -/
def zeros (n : Nat) : List Byte := List.replicate n 0

/-- Bytes filled up to length `n` with zero. -/
def padTo (n : Nat) (bytes : List Byte) : List Byte := bytes ++ zeros (n - bytes.length)

end Sys2Proof
end

