-- ==== Sys2Proof/Table.lean ====
section
/-! DEFINITION. Tables of a fixed number of like things, held as a list of that length (plain data). -/

namespace Sys2Proof

/-- `n` cells of one type. -/
structure Table (n : Nat) (α : Type) where
  cells : List α
  size : cells.length = n
  deriving DecidableEq, Repr

namespace Table
variable {n : Nat} {α β : Type}

/-- The cell at an index. -/
def get (t : Table n α) (i : Fin n) : α := t.cells[i.val]'(by rw [t.size]; exact i.isLt)

/-- The table with one cell replaced. -/
def set (t : Table n α) (i : Fin n) (a : α) : Table n α := ⟨t.cells.set i a, by simp [t.size]⟩

/-- The table with one cell changed by a function. -/
def upd (t : Table n α) (i : Fin n) (f : α → α) : Table n α := t.set i (f (t.get i))

/-- Every cell the same. -/
def fill (n : Nat) (a : α) : Table n α := ⟨List.replicate n a, by simp⟩

/-- The table whose cell at `i` is `f i`. -/
def ofFn (f : Fin n → α) : Table n α := ⟨(List.finRange n).map f, by simp⟩

/-- A function on every cell. -/
def map (f : α → β) (t : Table n α) : Table n β := ⟨t.cells.map f, by simp [t.size]⟩

@[simp] theorem get_set_self (t : Table n α) (i : Fin n) (a : α) : (t.set i a).get i = a := by
  simp [get, set]

theorem get_set_ne (t : Table n α) {i j : Fin n} (a : α) (h : i ≠ j) : (t.set i a).get j = t.get j := by
  have : i.val ≠ j.val := fun e => h (Fin.ext e)
  simp [get, set, this]

theorem get_set (t : Table n α) (i j : Fin n) (a : α) : (t.set i a).get j = if i = j then a else t.get j := by
  by_cases h : i = j
  · subst h; simp
  · simp [h, get_set_ne]

@[simp] theorem get_upd_self (t : Table n α) (i : Fin n) (f : α → α) : (t.upd i f).get i = f (t.get i) := by
  simp [upd]

theorem get_upd_ne (t : Table n α) {i j : Fin n} (f : α → α) (h : i ≠ j) : (t.upd i f).get j = t.get j :=
  get_set_ne t _ h

theorem get_upd (t : Table n α) (i j : Fin n) (f : α → α) :
    (t.upd i f).get j = if i = j then f (t.get i) else t.get j := get_set t i j _

@[simp] theorem get_fill (a : α) (i : Fin n) : (fill n a).get i = a := by simp [get, fill]

@[simp] theorem get_ofFn (f : Fin n → α) (i : Fin n) : (ofFn f).get i = f i := by
  simp [get, ofFn]

@[simp] theorem get_map (f : α → β) (t : Table n α) (i : Fin n) : (t.map f).get i = f (t.get i) := by
  simp [get, map]

theorem ext_get {t u : Table n α} (h : ∀ i, t.get i = u.get i) : t = u := by
  obtain ⟨a, ha⟩ := t
  obtain ⟨b, hb⟩ := u
  subst ha
  congr 1
  apply List.ext_getElem
  · exact hb.symm
  · intro i h1 h2
    exact h ⟨i, h1⟩

end Table
end Sys2Proof
end

