-- ==== Sys2Proof/Types.lean ====
section
/-! DEFINITION. The names the spec gives to kinds, states, causes and codes, and the numbers of lines, handsets and bridges
(00_scope.md 4.2, chapter 12.5). -/

namespace Sys2Proof

abbrev LineNo := Fin 256
abbrev CardNo := Fin 16
abbrev PositionNo := Fin 32
abbrev HandsetNo := Fin 64
abbrev GroupNo := Fin 64
abbrev HootNo := Fin 32
abbrev BridgeNo := Fin 352
abbrev SlotNo := Fin 1024
abbrev ChannelNo := Fin 8
abbrev CadenceNo := Fin 8
abbrev TapNo := Fin 64

/-- One frame of one signal: 32 samples (section 4.4). -/
abbrev Block := Table 32 Sample

/-- Silence is a block of 32 zeros (section 4.4). -/
def silence : Block := Table.fill 32 0

/-- The four run states (R162, R164). -/
inductive RunState | stopped | starting | running | stopping
  deriving DecidableEq, Repr

/-- The five attention causes (R163), in the bit order of chapter 12.1. -/
inductive Cause | journal | chainFault | memFault | startFail | stopped
  deriving DecidableEq, Repr

/-- MPT's requesters in their fixed order (R175). -/
inductive Requester | tpe | jnu | stw | oru
  deriving DecidableEq, Repr

/-- Line kinds (R37). -/
inductive LineKind | signalled | knock | opened
  deriving DecidableEq, Repr

/-- Line privacy (R37). -/
inductive Privacy | shared | exclusive
  deriving DecidableEq, Repr

/-- Line states (R37). -/
inductive LineState | disabled | idle | alerting | outgoing | connected | held | clearing | fault | test | leg
  deriving DecidableEq, Repr

/-- Signalling codes (section 2.1). -/
inductive Code | quiet | seize | ring | fault
  deriving DecidableEq, Repr

/-- Why a line is in FAULT (R37). -/
inductive FaultCause | none | dead | farEnd
  deriving DecidableEq, Repr

/-- Where a line's output came from (R21, R28). -/
inductive Origin | good | concealed | silent
  deriving DecidableEq, Repr

/-- Speaker outputs of a position. -/
inductive Side | left | right
  deriving DecidableEq, Repr

/-- Ringer side setting (R80). -/
inductive RingerSide | left | right | both
  deriving DecidableEq, Repr

/-- Nesting mode of announcements (R80). -/
inductive Nesting | higherOnly | equalOrHigher
  deriving DecidableEq, Repr

/-- Group states (R92). -/
inductive GroupState | idle | calling | active
  deriving DecidableEq, Repr

/-- Handset states (R77). -/
inductive HandsetState | onHook | idle | connected
  deriving DecidableEq, Repr

/-- Tap states (R150). -/
inductive TapState | stopped | running | dropping
  deriving DecidableEq, Repr

/-- Tap modes (section 10.2). -/
inductive TapMode | connectedOnly | continuous
  deriving DecidableEq, Repr

/-- Ringer states (R68). -/
inductive RingerState | idle | ringing | done
  deriving DecidableEq, Repr

/-- Talk status of a position (R105). -/
inductive TalkStatus | idle | talking | queued
  deriving DecidableEq, Repr

/-- Why an alert was placed (R61). -/
inductive AlertReason | line | knock | intercom | recall
  deriving DecidableEq, Repr

/-- Why alerts were removed (R66). -/
inductive AlertEnd | answered | abandoned | timeout | fault | removed | cleared
  deriving DecidableEq, Repr

/-- Member modes (R2). -/
inductive Mode | active | held | suspended | cut
  deriving DecidableEq, Repr

/-- Who takes part (R2): the kind of a member with the fields present for it. -/
inductive MemberKind
  | handset (h : HandsetNo)
  | mic (p : PositionNo)
  | speaker (p : PositionNo) (c : ChannelNo)
  deriving DecidableEq, Repr

/-- Origin of a channel entry (R118). -/
inductive EntryOrigin | assigned | announced
  deriving DecidableEq, Repr

/-- What a bridge is (section 4.2). -/
inductive BridgeKind
  | line (l : LineNo)
  | group (g : GroupNo)
  | hoot (k : HootNo)
  deriving DecidableEq, Repr

/-- The outputs that have clip records (R145). -/
inductive Output
  | ear (h : HandsetNo)
  | channel (p : PositionNo) (c : ChannelNo)
  | side (p : PositionNo) (side : Side)
  | transmit (l : LineNo)
  deriving DecidableEq, Repr

/-- The entries of the status image (R174). -/
inductive Entry
  | line (l : LineNo)
  | handset (h : HandsetNo)
  | position (p : PositionNo)
  | hoot (k : HootNo)
  deriving DecidableEq, Repr

/-- Result codes of orders (chapter 12.5). -/
inductive ResultCode
  | ok | badKind | badNumber | badValue | badAddress | wrongKind | noAppearance | notRostered | onHook
  | lineUnavailable | linePrivate | lineBusy | holdFull | notConnected | nothingHeld | poolFull | notIdle | busy
  | alreadyOn | micBusy | noRoom
  deriving DecidableEq, Repr

/-- Bridge n is line n (section 4.2). -/
def lineBridge (l : LineNo) : BridgeNo := ⟨l.val, by omega⟩
/-- Bridge 256 + g is group g (section 4.2). -/
def groupBridge (g : GroupNo) : BridgeNo := ⟨256 + g.val, by omega⟩
/-- Bridge 320 + k is hoot k (section 4.2). -/
def hootBridge (k : HootNo) : BridgeNo := ⟨320 + k.val, by omega⟩

/-- The kind of a bridge follows from its number (R1). -/
def bridgeKind (b : BridgeNo) : BridgeKind :=
  if h : b.val < 256 then .line ⟨b.val, h⟩
  else if h2 : b.val < 320 then .group ⟨b.val - 256, by omega⟩
  else .hoot ⟨b.val - 320, by omega⟩

/-- Handset 2p and 2p + 1 belong to position p (section 4.2). -/
def handsetPosition (h : HandsetNo) : PositionNo := ⟨h.val / 2, by omega⟩
/-- Side A of a position. -/
def handsetA (p : PositionNo) : HandsetNo := ⟨2 * p.val, by omega⟩
/-- Side B of a position. -/
def handsetB (p : PositionNo) : HandsetNo := ⟨2 * p.val + 1, by omega⟩
/-- Whether a handset is side B of its position. -/
def isSideB (h : HandsetNo) : Bool := h.val % 2 == 1

/-- The card of a line: line = card x 16 + port (section 4.2). -/
def lineCard (l : LineNo) : CardNo := ⟨l.val / 16, by omega⟩

/-- The owning position of a member (R2). -/
def MemberKind.position : MemberKind → PositionNo
  | .handset h => handsetPosition h
  | .mic p => p
  | .speaker p _ => p

/-- Whether a mask names a position: bit p stands for position p (R177). -/
def inMask (m : Word) (p : PositionNo) : Bool := m.getLsbD p.val

/-- The mask of one position. -/
def maskOf (p : PositionNo) : Word := (1#32) <<< p.val

/-- The positions a mask names, ascending. -/
def maskPositions (m : Word) : List PositionNo := (List.finRange 32).filter (inMask m)

/-- An event that an earlier command raised at a block: an expiry, a filtered change, an accepted change (section 3.3 of
00_scope.md). It is taken before any other command, or by its own row of the table. -/
inductive Raised
  | cardPresence (card : CardNo)
  | linkDown (p : PositionNo)
  | linkUp (p : PositionNo)
  | hook (h : HandsetNo)
  | press (p : PositionNo)
  | unpress (p : PositionNo)
  | accepted (l : LineNo)
  | lineDead (l : LineNo)
  | knockExpiry (l : LineNo)
  | ringoutPhase (l : LineNo)
  | recall (h : HandsetNo) (b : BridgeNo)
  | groupAlert (g : GroupNo)
  | ringerPhase (p : PositionNo)
  | clipEnd (o : Output)
  | activityEnd (p : PositionNo) (c : ChannelNo)
  | grantPass
  deriving DecidableEq, Repr

/-- SET_LINE's argument fields (chapter 12.4). -/
structure SetLineArgs where
  line : Half
  enable : Byte
  kind : Byte
  privacy : Byte
  cadence : Byte
  rxGain : Half
  txGain : Half
  prime : Byte
  persistence : Byte
  deadTime : Half
  knockTime : Byte
  deriving DecidableEq, Repr

/-- SET_APPEARANCE's argument fields (chapter 12.4). -/
structure SetAppearanceArgs where
  position : Byte
  line : Half
  present : Byte
  ring : Byte
  speaker : Byte
  deriving DecidableEq, Repr

/-- SET_CADENCE's argument fields (chapter 12.4): the four segments as (ON, OFF). -/
structure SetCadenceArgs where
  cadence : Byte
  count : Byte
  segments : Table 4 (Half × Half)
  repeats : Half
  deriving DecidableEq, Repr

/-- SET_POSITION's argument fields (chapter 12.4). -/
structure SetPositionArgs where
  position : Byte
  autoHold : Byte
  ringerSide : Byte
  announceChannel : Byte
  nesting : Byte
  halfPeriod : Byte
  recallTime : Half
  volumeA : Half
  volumeB : Half
  micGainA : Half
  micGainB : Half
  deskGain : Half
  sideLeft : Half
  sideRight : Half
  ringAmplitude : Half
  deriving DecidableEq, Repr

/-- SET_GROUP's argument fields (chapter 12.4). -/
structure SetGroupArgs where
  group : Byte
  cadence : Byte
  timeout : Half
  roster : Word
  deriving DecidableEq, Repr

/-- SET_HOOT's argument fields (chapter 12.4). -/
structure SetHootArgs where
  hoot : Byte
  limit : Byte
  priority : Byte
  legCount : Byte
  leg0 : Half
  leg1 : Half
  roster : Word
  talk : Word
  deriving DecidableEq, Repr

/-- ASSIGN_SPEAKER's argument fields (chapter 12.4). -/
structure AssignArgs where
  position : Byte
  channel : Byte
  source : Half
  gain : Half
  side : Byte
  deriving DecidableEq, Repr

/-- SET_MIX's argument fields (chapter 12.4). -/
structure SetMixArgs where
  rampStep : Half
  threshold : Half
  window : Byte
  count : Half
  ringAmplitude : Half
  deriving DecidableEq, Repr

end Sys2Proof
end

