-- ==== Sys2Proof/Syntax.lean ====
section
/-! DEFINITION. The commands of the block: one constructor per row of spec/opcode_table.json, with the operands its rule
names. Argument fields of orders have the full width of chapter 12.4 (R177). -/

namespace Sys2Proof

inductive Instr
  /-- RST# low (R167). -/
  | pinReset
  /-- A write of RUN to the run register (R164). -/
  | run
  /-- A write of STOP (R164, R166). -/
  | stop
  /-- A write of RESET (R167). -/
  | reset
  /-- A write of one half of CB_ADDR, the upper half at 0Ch when `high` (R162). -/
  | cbAddrWrite (high : Bool) (value : Word)
  /-- A write of any value to NUDGE (R170). -/
  | nudge (value : Word)
  /-- A write to ATTN: ones clear (R163). -/
  | attnWrite (value : Word)
  /-- A write to ATTN_MASK (R163). -/
  | attnMaskWrite (value : Word)
  /-- A write to IDENT, to an unlisted offset, or of another value to the run register (R162, R177). -/
  | otherRegisterWrite (offset : Word) (value : Word)
  /-- The 80 bytes of the control block have come (R165). -/
  | controlBlockReadDone (block : List Byte)
  /-- One of the three start writes has completed (R165). -/
  | startWritesDone
  /-- The clearing of STOPPING (R166). -/
  | stoppingClear
  /-- The end of STOPPING (R166). -/
  | stoppingComplete
  /-- The 2 ms mark, with the levels of CARD0# to CARD15# (bit set: high) (R19, R73). -/
  | frameMark (cards : Half)
  /-- A card's presence changes (R19). -/
  | cardPresenceChange (card : CardNo)
  /-- A link goes DOWN (R74, R79). -/
  | linkDown (p : PositionNo)
  /-- A link comes UP (R74, R79). -/
  | linkUp (p : PositionNo)
  /-- The bytes of a link frame from a position (R73, chapter 12.9). -/
  | positionLinkFrameArrival (p : PositionNo) (frame : List Byte)
  /-- A filtered hook change of a handset (R75, R78). -/
  | filteredHookChange (h : HandsetNo)
  /-- A filtered key press (R75, R113). -/
  | filteredPttPress (p : PositionNo)
  /-- A filtered key release (R75, R114). -/
  | filteredPttRelease (p : PositionNo)
  /-- The bytes of a line parcel (R20, chapter 12.9). -/
  | lineParcelArrival (parcel : List Byte)
  /-- A candidate code is accepted (R40). -/
  | acceptedChange (l : LineNo)
  /-- The dead counter has reached the dead time (R40, R48). -/
  | lineDeadExpiry (l : LineNo)
  /-- The knock timer has reached 0 (R45). -/
  | knockTimerExpiry (l : LineNo)
  /-- A ring-out phase has run out (R47). -/
  | ringoutPhaseExpiry (l : LineNo)
  /-- A held call has waited its recall time (R83). -/
  | recallExpiry (h : HandsetNo) (b : BridgeNo)
  /-- A group's alert timer has reached 0 (R100). -/
  | groupAlertTimerExpiry (g : GroupNo)
  /-- A ringer phase has run out (R68). -/
  | ringerPhaseExpiry (p : PositionNo)
  /-- An output's 500th clean frame (R145). -/
  | clipEpisodeEnd (o : Output)
  /-- An activity window has ended (R146). -/
  | activityWindowEnd (p : PositionNo) (c : ChannelNo)
  /-- The grant passes that follow a frame event (R115). -/
  | frameGrantPass
  /-- The 2 ms tick of MXE in RUNNING (R135). -/
  | frameEvent
  /-- The poll timer has run out (R170). -/
  | pollExpiry
  /-- The link field of the cursor record has come (R168). -/
  | orderLinkReadDone (link : Addr)
  /-- The 64 bytes of the next record have come (R168, R169). -/
  | orderRecordReadDone (record : List Byte)
  /-- One of the two result writes has completed (R169). -/
  | orderResultWriteDone
  /-- The state write has completed (R169). -/
  | orderStateWriteDone
  /-- The cursor write has completed (R169). -/
  | orderCursorWriteDone
  | nop
  | setLine (args : SetLineArgs)
  | ringOut (line : Half) (cadence : Byte)
  | ringStop (line : Half)
  | loopTest (line : Half)
  | endTest (line : Half)
  | flush (line : Half)
  | setAppearance (args : SetAppearanceArgs)
  | setCadence (args : SetCadenceArgs)
  | setPosition (args : SetPositionArgs)
  /-- `notify` is the record's NOTIFY flag (R86). -/
  | select (handset : Byte) (bridge : Half) (notify : Bool)
  | callGroup (handset : Byte) (group : Byte) (notify : Bool)
  | hold (handset : Byte)
  | retrieve (handset : Byte)
  | release (handset : Byte)
  | dropHeld (handset : Byte) (bridge : Half)
  | setGroup (args : SetGroupArgs)
  | setHoot (args : SetHootArgs)
  | pttTarget (position : Byte) (hoot : Byte)
  | assignSpeaker (args : AssignArgs)
  | speakerGain (position : Byte) (channel : Byte) (gain : Half)
  | announce (source : Half) (priority : Byte) (mask : Word)
  | endAnnounce (source : Half)
  | setMix (args : SetMixArgs)
  | tapStart (tap : Byte)
  /-- The bytes of the tap descriptor have come (R151). -/
  | tapStartDescriptorReadDone (descriptor : List Byte)
  /-- One of the two descriptor writes of TAP_START has completed (R151). -/
  | tapStartWriteDone
  | tapStop (tap : Byte)
  /-- The link can take a request (R175). -/
  | mptIssue
  /-- An error completion for a requester's access in flight (R175). -/
  | memBusError (r : Requester)
  /-- A requester's read has had no completion for 50 ms (R175). -/
  | readTimeout (r : Requester)
  /-- A read completion after its timeout (R175). -/
  | lateReadCompletion (r : Requester)
  /-- JNU takes the head of its note queue (R172). -/
  | journalAppendStart
  /-- The consumed count has come (R172). -/
  | journalConsumedReadDone (consumed : Word)
  | journalNoteWriteDone
  | journalProducedWriteDone
  | journalLostWriteDone
  /-- The linger timer has run out (R173). -/
  | lingerExpiry
  /-- STW takes the head of its queue (R174). -/
  | statusRewriteStart
  | statusCountOddWriteDone
  | statusBodyWriteDone
  | statusCountEvenWriteDone
  /-- TPE takes the head of the staging queue (R155). -/
  | stagingDrainTake
  /-- The returned count has come (R155). -/
  | tapReturnedReadDone (returned : Word)
  | tapFrameWriteDone
  | tapFilledWriteDone
  | tapDroppedTotalWriteDone
  /-- An access of before a reset completes on the link (R167). -/
  | accessCompletionAfterReset (r : Requester)
  deriving DecidableEq, Repr

end Sys2Proof
end

