-- ==== Sys2Proof/Config.lean ====
section
/-! DEFINITION. What the part fixes: sizes, limits and constants of the data sheet. No value is left free: no rule of spec/
calls a value undefined. -/

namespace Sys2Proof.Config

/-- IDENT: part code 4816h, revision 0001h (chapter 12.1). -/
def ident : Word := 0x48160001#32

/-- R21: places of a receive queue. -/
abbrev queuePlaces : Nat := 16
/-- R19: frame marks at the opposite level that change a card's presence. -/
abbrev presenceMarks : Nat := 8
/-- R74: missed frames that take a link DOWN. -/
abbrev missedForDown : Nat := 3
/-- R74: good frames that bring a link UP. -/
abbrev goodForUp : Nat := 16
/-- R75: differing reports that a filter accepts. -/
abbrev filterReports : Nat := 4
/-- R82: depth of a hold stack. -/
abbrev holdDepth : Nat := 4
/-- R61: places of a ring list. -/
abbrev ringPlaces : Nat := 16
/-- R56: present appearances of one position. -/
abbrev appearanceLimit : Nat := 96
/-- R118: depth of a preemption stack. -/
abbrev preemptDepth : Nat := 3
/-- R92: handset members of one group. -/
abbrev groupMembers : Nat := 8
/-- R13: handset members of a SHARED line. -/
abbrev sharedMembers : Nat := 4
/-- R154: places of the staging queue. -/
abbrev stagingPlaces : Nat := 64
/-- R172: places of the note queue. -/
abbrev notePlaces : Nat := 64
/-- R145: clean frames that end a clip episode. -/
abbrev cleanFrames : Nat := 500
/-- Section 4.3: frames of one second. -/
abbrev framesPerSecond : Nat := 500
/-- Section 4.4: unity gain in Q12. -/
abbrev unity : Nat := 4096
/-- Section 4.4: the largest gain code. -/
abbrev gainMax : Nat := 8191

end Sys2Proof.Config
end

