-- ==== Sys2Proof/Machine/State.lean ====
section
/-! DEFINITION. The state of the KX-4816: every register, queue, counter, timer and table the spec gives it, block by block
(section 2.1 of 00_scope.md), the queue of commands and the events raised but not yet taken; and the state after pin reset. -/

namespace Sys2Proof.Machine

/-! ### Stops -/

/-- No command faults: the spec names no condition under which the part ceases to take events. -/
inductive Fault
  deriving DecidableEq, Repr

/-- Why a command has no answer. -/
inductive Refusal
  /-- Raised by `exec` alone, for a row that has no meaning yet; safe, since nothing can be proved of it. -/
  | notModelled (mnemonic : String)
  deriving DecidableEq, Repr

/-! ### MPT: accesses and ports (R175) -/

/-- What an access does: read so many bytes, or write these bytes. -/
inductive AccessOp
  | read (length : Nat)
  | write (bytes : List Byte)
  deriving DecidableEq, Repr

/-- One access of up to 256 contiguous bytes (R175). -/
structure Access where
  addr : Addr
  op : AccessOp
  deriving DecidableEq, Repr

/-- What becomes of a completion on the link: its requester awaits it; STOP has discarded it, so that it changes no record
(R154, R166); or a reset has, so that it changes nothing in the part (R167). -/
inductive Fate | live | discarded | void
  deriving DecidableEq, Repr

/-- An access on the link. -/
structure Flight where
  access : Access
  fate : Fate
  deriving DecidableEq, Repr

/-- One requester's port: at most one access waiting and at most one in flight (R175). -/
structure Port where
  waiting : Option Access
  inFlight : Option Flight
  deriving DecidableEq, Repr

/-- MPT's four ports. -/
structure Mpt where
  tpe : Port
  jnu : Port
  stw : Port
  oru : Port
  deriving DecidableEq, Repr

/-! ### Run control and registers (R162 to R167) -/

/-- The control block values held for the run (R165). -/
structure HeldValues where
  anchor : Addr
  pollMs : Nat
  journalBase : Addr
  exponent : Nat
  trigger : Nat
  lingerMs : Nat
  statusBase : Addr
  tapBase : Addr
  consumed : Word
  deriving DecidableEq, Repr

/-- Which access of STARTING is being made (R165). -/
inductive StartPhase | none | reading | cursor | produced | lost
  deriving DecidableEq, Repr

structure RunControl where
  runState : RunState
  cbAddr : Addr
  attn : BitVec 5
  attnMask : BitVec 5
  held : HeldValues
  startPhase : StartPhase
  /-- STOP was written in STARTING; the start ends when its access in flight completes (R164). -/
  abandoning : Bool
  /-- STOPPING has cleared the dynamic state (R166). -/
  cleared : Bool
  deriving DecidableEq, Repr

/-! ### ORU (R168 to R171) -/

inductive OruStep | linkRead | recordRead | execute | resultWrite | stateWrite | cursorWrite
  deriving DecidableEq, Repr

/-- The outcome of an order: result code and up to 8 bytes of result data (R169). -/
structure OrderResult where
  code : ResultCode
  data : List Byte
  deriving DecidableEq, Repr

/-- The order in progress: its record's kind, NOTIFY flag and tag, the order its arguments spell (none for an unknown
kind), whether its owner has taken it with the outcome still to come, and how far the write-back has come (R169). -/
structure Dispatched where
  kind : Byte
  notify : Bool
  tag : Word
  order : Option Instr
  taken : Bool
  outcome : Option OrderResult
  codeWritten : Bool
  deriving DecidableEq, Repr

structure Oru where
  cursor : Addr
  next : Option Addr
  step : OruStep
  active : Bool
  nudged : Bool
  /-- The poll timer: stopped, or running with its interval in milliseconds. -/
  poll : Option Nat
  order : Option Dispatched
  lastOutcome : Option OrderResult
  deriving DecidableEq, Repr

/-! ### JNU (R172, R173) -/

inductive RingOutEnd | complete | stopped | aborted
  deriving DecidableEq, Repr
inductive MissedReason | abandoned | timeout
  deriving DecidableEq, Repr
inductive RecallCause | timer | knock
  deriving DecidableEq, Repr
inductive DropCause | cleared | fault | linkDown
  deriving DecidableEq, Repr
inductive PttCause | released | linkDown | roster
  deriving DecidableEq, Repr
inductive Displaced | none | held (b : BridgeNo) | released (b : BridgeNo)
  deriving DecidableEq, Repr
/-- A line state or a group state, as SELECT_DONE carries it (R86). -/
inductive StateAfter | line (s : LineState) | group (s : GroupState)
  deriving DecidableEq, Repr

/-- Journal notes with the fields their rules name (chapter 12.6). -/
inductive NoteBody
  | overrun (lost : Nat)
  | orderDone (tag : Word) (kind : Byte) (code : ResultCode)
  | rxUnderflow (l : LineNo) (count : Nat)
  | rxOverflow (l : LineNo) (count : Nat)
  | rxResync (l : LineNo) (expected arriving : Byte)
  | missed (l : LineNo) (reason : MissedReason) (since : Option Word)
  | knock (l : LineNo) (state : LineState)
  | lineFault (l : LineNo) (cause : FaultCause) (left : LineState)
  | ringOutDone (l : LineNo) (reason : RingOutEnd) (cycles : Nat)
  | alertDropped (p : PositionNo) (b : BridgeNo) (reason : AlertReason)
  | alertEnd (b : BridgeNo) (reason : AlertEnd) (mask : Word)
  | linkDown (p : PositionNo)
  | linkUp (p : PositionNo)
  | hook (h : HandsetNo) (offHook : Bool) (released : Option BridgeNo)
  | holdRecall (h : HandsetNo) (b : BridgeNo) (cause : RecallCause) (holdFrame : Word)
  | holdDropped (h : HandsetNo) (b : BridgeNo) (cause : DropCause) (holdFrame : Word) (recalled : Bool)
  | selectDone (h : HandsetNo) (b : BridgeNo) (after : StateAfter) (retrieve : Bool) (displaced : Displaced)
  | groupState (g : GroupNo) (before after : GroupState) (members : Nat)
  | noAnswer (g : GroupNo) (mask : Word)
  | pttGranted (p : PositionNo) (k : HootNo) (talkers : Nat)
  | pttQueued (p : PositionNo) (k : HootNo) (place : Nat)
  | pttEnd (p : PositionNo) (k : HootNo) (cause : PttCause) (status : TalkStatus)
  | pttBumped (p : PositionNo) (k : HootNo) (place : Nat)
  | pttIgnored (p : PositionNo)
  | announceEnd (p : PositionNo) (c : ChannelNo) (source : BridgeNo) (saved : Bool)
  | clip (o : Output) (count : Nat)
  | activity (p : PositionNo) (c : ChannelNo) (active : Bool)
  | tapSegment (n : TapNo) (segment : Nat) (filled : Word) (frames : Nat) (last : Word)
  | tapGap (n : TapNo) (frame : Option Word) (dropped total : Nat)
  | tapMark (n : TapNo) (frame : Word) (new last : Option BridgeNo)
  deriving DecidableEq, Repr

/-- A note with the frame counter at the event that raised it (chapter 12.6). -/
structure Note where
  frame : Word
  body : NoteBody
  deriving DecidableEq, Repr

/-- Where the append of the head note stands (R172). -/
inductive JnuPhase
  | idle
  | readConsumed
  | writeOverrun
  | writeNote (afterOverrun : Bool)
  | writeProduced (afterOverrun : Bool)
  | writeLost
  deriving DecidableEq, Repr

structure Jnu where
  produced : Word
  consumed : Word
  lost : Nat
  queue : List Note
  phase : JnuPhase
  /-- The linger timer: stopped, or running with its time in milliseconds. -/
  linger : Option Nat
  deriving DecidableEq, Repr

/-! ### STW (R174) -/

/-- The rewrite in progress: none, or the entry and which of its three writes is being made. -/
inductive StwPhase
  | idle
  | countOdd (e : Entry)
  | body (e : Entry)
  | countEven (e : Entry)
  deriving DecidableEq, Repr

structure Stw where
  lineCounts : Table 256 Word
  handsetCounts : Table 64 Word
  positionCounts : Table 32 Word
  hootCounts : Table 32 Word
  /-- The depth of each line's queue when its entry was last handed over, which the entry shows (R32). -/
  depths : Table 256 Nat
  /-- The transmit saturation counter of each line when its entry was last handed over, which the entry shows (R149). -/
  saturations : Table 256 Nat
  queue : List Entry
  phase : StwPhase
  deriving DecidableEq, Repr

/-! ### LHP (R19, R35) -/

structure CardRec where
  present : Bool
  marks : Nat
  deriving DecidableEq, Repr

structure Lhp where
  cards : Table 16 CardRec
  txSeq : Table 256 Byte
  /-- HWTX: the parcels sent in the last highway frame. -/
  sent : List (List Byte)
  deriving DecidableEq, Repr

/-! ### LTM (R21) -/

inductive QEntry
  | parcel (samples : Block) (err : Bool)
  | placeholder
  deriving DecidableEq, Repr

/-- The seven 16-bit holding counters (R31). -/
structure RxCounters where
  underflow : Nat
  overflow : Nat
  resync : Nat
  duplicate : Nat
  slip : Nat
  concealed : Nat
  discard : Nat
  deriving DecidableEq, Repr

structure TermRec where
  queue : List QEntry
  playing : Bool
  first : Bool
  lastSeq : Option Byte
  episode : Bool
  lastBlock : Block
  lastOrigin : Origin
  errored : Nat
  counters : RxCounters
  deriving DecidableEq, Repr

/-! ### LSV (R37, R47) -/

structure LineConfig where
  enable : Bool
  kind : LineKind
  privacy : Privacy
  rxGain : Nat
  txGain : Nat
  prime : Nat
  persistence : Nat
  deadTime : Nat
  knockTime : Nat
  cadence : CadenceNo
  deriving DecidableEq, Repr

/-- The progress record of a ring-out (R47). -/
structure RingOut where
  segments : List (Nat × Nat)
  repeats : Nat
  segment : Nat
  on : Bool
  framesLeft : Nat
  cyclesLeft : Nat
  deriving DecidableEq, Repr

structure LineRec where
  cfg : LineConfig
  state : LineState
  cause : FaultCause
  accepted : Code
  candidate : Option Code
  run : Nat
  dead : Nat
  knock : Option Nat
  alertingSince : Option Word
  ringOut : Option RingOut
  deriving DecidableEq, Repr

/-! ### PLP (R73 to R76) -/

/-- What a valid link frame from a position carries (R73). -/
structure LinkFrame where
  hookA : Bool
  hookB : Bool
  ptt : Bool
  micA : Block
  micB : Block
  desk : Block
  deriving DecidableEq, Repr

/-- A filter: the accepted state (off-hook or pressed when set) and its run count (R75). -/
structure Filter where
  accepted : Bool
  run : Nat
  deriving DecidableEq, Repr

structure LinkRec where
  up : Bool
  good : Nat
  missed : Nat
  hookA : Filter
  hookB : Filter
  ptt : Filter
  /-- The latest valid frame since the last frame mark. -/
  arrived : Option LinkFrame
  /-- The frame judged good at the last frame mark. -/
  judged : Option LinkFrame
  /-- Whether the filters take the judged frame: the link was UP before it. -/
  filtering : Bool
  deriving DecidableEq, Repr

structure Plp where
  links : Table 32 LinkRec
  /-- PLTX: the link frame last sent to each position. -/
  sent : Table 32 (List Byte)
  /-- A mark taken in RUNNING awaits its frame event: its link frames and its highway frame are still to be sent (R35, R76). -/
  owed : Bool
  deriving DecidableEq, Repr

/-! ### CNC (chapters 1 and 4 to 8) -/

structure Member where
  kind : MemberKind
  bridge : BridgeNo
  mode : Mode
  joinFrame : Word
  deriving DecidableEq, Repr

structure BridgeRec where
  members : List SlotNo
  talkers : Nat
  deriving DecidableEq, Repr

structure Appearance where
  ring : Bool
  speaker : Bool
  deriving DecidableEq, Repr

structure Cadence where
  segments : List (Nat × Nat)
  repeats : Nat
  deriving DecidableEq, Repr

structure Alert where
  bridge : BridgeNo
  reason : AlertReason
  cadence : CadenceNo
  arrival : Word
  deriving DecidableEq, Repr

/-- Position settings (R80); `ringAmplitude` none is FOLLOW. -/
structure Settings where
  autoHold : Bool
  recallTime : Nat
  volumeA : Nat
  volumeB : Nat
  micGainA : Nat
  micGainB : Nat
  deskGain : Nat
  sideLeft : Nat
  sideRight : Nat
  ringerSide : RingerSide
  ringAmplitude : Option Nat
  halfPeriod : Nat
  announceChannel : ChannelNo
  nesting : Nesting
  deriving DecidableEq, Repr

structure HoldEntry where
  bridge : BridgeNo
  holdFrame : Word
  recalled : Bool
  deriving DecidableEq, Repr

/-- A handset record; the hold stack is given top first. -/
structure HandsetRec where
  state : HandsetState
  active : Option SlotNo
  stack : List HoldEntry
  deriving DecidableEq, Repr

structure GroupRec where
  roster : Word
  timeout : Nat
  cadence : CadenceNo
  state : GroupState
  timer : Option Nat
  alerted : Word
  deriving DecidableEq, Repr

/-- A hoot record; the talker set is the list of MIC members of its bridge (R104). -/
structure HootRec where
  roster : Word
  talk : Word
  limit : Nat
  priority : Nat
  legs : List LineNo
  queue : List PositionNo
  deriving DecidableEq, Repr

structure TalkRec where
  target : Option HootNo
  key : Bool
  status : TalkStatus
  deriving DecidableEq, Repr

structure ChannelEntry where
  source : Option BridgeNo
  origin : EntryOrigin
  priority : Nat
  target : Nat
  side : Side
  member : Option SlotNo
  deriving DecidableEq, Repr

/-- A channel record; the preemption stack is given top first. -/
structure ChannelRec where
  current : ChannelEntry
  stack : List ChannelEntry
  deriving DecidableEq, Repr

structure Cnc where
  bridges : Table 352 BridgeRec
  pool : Table 1024 (Option Member)
  appearances : Table 32 (Table 256 (Option Appearance))
  cadences : Table 8 Cadence
  ringLists : Table 32 (List Alert)
  settings : Table 32 Settings
  handsets : Table 64 HandsetRec
  groups : Table 64 GroupRec
  hoots : Table 32 HootRec
  talks : Table 32 TalkRec
  channels : Table 32 (Table 8 ChannelRec)
  deriving DecidableEq, Repr

/-! ### MXE (chapter 9, R68) -/

structure LineGains where
  rx : Nat
  tx : Nat
  deriving DecidableEq, Repr

structure PositionGains where
  micA : Nat
  micB : Nat
  desk : Nat
  volA : Nat
  volB : Nat
  left : Nat
  right : Nat
  deriving DecidableEq, Repr

structure Ringer where
  state : RingerState
  cadence : CadenceNo
  segment : Nat
  on : Bool
  framesLeft : Nat
  cyclesDone : Nat
  tone : Nat
  deriving DecidableEq, Repr

structure ClipRec where
  clipping : Bool
  cleanRun : Nat
  count : Nat
  deriving DecidableEq, Repr

structure SideClips where
  left : ClipRec
  right : ClipRec
  deriving DecidableEq, Repr

structure ActivityRec where
  active : Bool
  window : Nat
  count : Nat
  deriving DecidableEq, Repr

structure MixSettings where
  rampStep : Nat
  threshold : Nat
  window : Nat
  count : Nat
  ringAmplitude : Nat
  deriving DecidableEq, Repr

structure Mxe where
  frame : Word
  lineGains : Table 256 LineGains
  positionGains : Table 32 PositionGains
  channelGains : Table 32 (Table 8 Nat)
  ringers : Table 32 Ringer
  earClips : Table 64 ClipRec
  channelClips : Table 32 (Table 8 ClipRec)
  sideClips : Table 32 SideClips
  transmitClips : Table 256 ClipRec
  activity : Table 32 (Table 8 ActivityRec)
  mix : MixSettings
  deriving DecidableEq, Repr

/-! ### TPE (chapter 10) -/

structure TapRec where
  state : TapState
  closing : Bool
  base : Addr
  frames : Nat
  segments : Nat
  mode : TapMode
  segment : Nat
  index : Nat
  granted : Bool
  filled : Word
  returned : Word
  number : Word
  stagingDrops : Nat
  pendingDrops : Nat
  episode : Bool
  droppedTotal : Nat
  lastBridge : Option BridgeNo
  /-- The tap frame number of the last written frame, which TAP_SEGMENT carries (R152, R156). -/
  lastWritten : Word
  deriving DecidableEq, Repr

/-- A tap frame in the staging queue with its staging snapshot (R153, R154). -/
structure StagedFrame where
  tap : TapNo
  number : Word
  bridge : Option BridgeNo
  frame : Word
  concealed : Bool
  underflow : Bool
  heldOrIdle : Bool
  onHook : Bool
  ear : Block
  mic : Block
  snapshot : Nat
  deriving DecidableEq, Repr

/-- The accesses TPE makes (R151 to R158). -/
inductive TpeJob
  | startRead (n : TapNo)
  | startFilled (n : TapNo)
  | startTotal (n : TapNo)
  | readReturned
  | writeFrame
  | gapTotal (n : TapNo)
  | segmentFilled (n : TapNo)
  | closeFilled (n : TapNo)
  | closeTotal (n : TapNo)
  deriving DecidableEq, Repr

structure Tpe where
  taps : Table 64 TapRec
  staging : List StagedFrame
  /-- What TPE has still to do at MPT; the head's access stands in TPE's port. -/
  jobs : List TpeJob
  deriving DecidableEq, Repr

/-! ### The part -/

/-- The blocks that carry the floor's lines, positions and audio. -/
structure Floor where
  lhp : Lhp
  ltm : Table 256 TermRec
  lsv : Table 256 LineRec
  plp : Plp
  cnc : Cnc
  mxe : Mxe
  deriving DecidableEq, Repr

structure State where
  rc : RunControl
  mpt : Mpt
  oru : Oru
  jnu : Jnu
  stw : Stw
  floor : Floor
  tpe : Tpe
  /-- Events raised by earlier commands and not yet taken, oldest first. -/
  due : List Raised
  /-- The commands that are waiting, first in, first out. -/
  pending : List Instr
  deriving DecidableEq, Repr

/-! ### Reset values -/

/-- R37: the default column. -/
def LineConfig.initial : LineConfig :=
  { enable := false, kind := .signalled, privacy := .shared, rxGain := 4096, txGain := 4096, prime := 4,
    persistence := 3, deadTime := 100, knockTime := 10, cadence := 0 }

/-- R55: the state part at reset, over a configuration. -/
def LineRec.cleared (cfg : LineConfig) (state : LineState) : LineRec :=
  { cfg := cfg, state := state, cause := .none, accepted := .quiet, candidate := none, run := 0, dead := 0,
    knock := none, alertingSince := none, ringOut := none }

def RxCounters.zero : RxCounters :=
  { underflow := 0, overflow := 0, resync := 0, duplicate := 0, slip := 0, concealed := 0, discard := 0 }

/-- R36: the row of reset, over the counters it leaves. -/
def TermRec.cleared (counters : RxCounters) : TermRec :=
  { queue := [], playing := false, first := true, lastSeq := none, episode := false, lastBlock := silence,
    lastOrigin := .silent, errored := 0, counters := counters }

/-- R75: the value filters hold while the link is DOWN. -/
def Filter.rest : Filter := { accepted := false, run := 0 }

/-- R73: a link DOWN with both counts 0. R73 resets the link state and the counts; that a valid frame which arrived before the
reset and is not yet judged does not count at the next mark is the model's (DESIGN CHOICE, entry 41). -/
def LinkRec.initial : LinkRec :=
  { up := false, good := 0, missed := 0, hookA := .rest, hookB := .rest, ptt := .rest, arrived := none,
    judged := none, filtering := false }

/-- R80: the default column. -/
def Settings.initial : Settings :=
  { autoHold := true, recallTime := 0, volumeA := 4096, volumeB := 4096, micGainA := 4096, micGainB := 4096,
    deskGain := 4096, sideLeft := 4096, sideRight := 4096, ringerSide := .both, ringAmplitude := none,
    halfPeriod := 20, announceChannel := 0, nesting := .higherOnly }

def HandsetRec.initial : HandsetRec := { state := .onHook, active := none, stack := [] }

/-- R92: the default configuration and the reset state part. -/
def GroupRec.initial : GroupRec :=
  { roster := 0, timeout := 0, cadence := 0, state := .idle, timer := none, alerted := 0 }

/-- R104. -/
def HootRec.initial : HootRec := { roster := 0, talk := 0, limit := 1, priority := 1, legs := [], queue := [] }

/-- R105. -/
def TalkRec.initial : TalkRec := { target := none, key := false, status := .idle }

/-- R118: the side of a channel's reset entry. -/
def ChannelEntry.initial (c : ChannelNo) : ChannelEntry :=
  { source := none, origin := .assigned, priority := 0, target := 4096,
    side := if c.val < 4 then .left else .right, member := none }

def ChannelRec.initial (c : ChannelNo) : ChannelRec := { current := .initial c, stack := [] }

/-- R59. -/
def Cadence.initial : Cadence := { segments := [(0, 0)], repeats := 0 }

def BridgeRec.empty : BridgeRec := { members := [], talkers := 0 }

/-- R137. -/
def LineGains.initial : LineGains := { rx := 4096, tx := 4096 }
def PositionGains.initial : PositionGains :=
  { micA := 4096, micB := 4096, desk := 4096, volA := 4096, volB := 4096, left := 4096, right := 4096 }

/-- R72: IDLE; the fields without a stated value are 0 and ON (DESIGN CHOICE, entry 9). -/
def Ringer.initial : Ringer :=
  { state := .idle, cadence := 0, segment := 0, on := true, framesLeft := 0, cyclesDone := 0, tone := 0 }

/-- R145. -/
def ClipRec.initial : ClipRec := { clipping := false, cleanRun := 0, count := 0 }
/-- R146. -/
def ActivityRec.initial : ActivityRec := { active := false, window := 0, count := 0 }
/-- R147: the default column. -/
def MixSettings.initial : MixSettings :=
  { rampStep := 128, threshold := 1000, window := 50, count := 200, ringAmplitude := 8192 }

/-- R150; the write position, segment granted, the number last written and the fields copied from a descriptor have the
values of entry 9 (DESIGN CHOICE), after reset and at the end of STOPPING. -/
def TapRec.initial : TapRec :=
  { state := .stopped, closing := false, base := 0, frames := 0, segments := 0, mode := .connectedOnly, segment := 0,
    index := 0, granted := false, filled := 0, returned := 0, number := 0, stagingDrops := 0, pendingDrops := 0,
    episode := false, droppedTotal := 0, lastBridge := none, lastWritten := 0 }

def Tpe.initial : Tpe := { taps := Table.fill 64 .initial, staging := [], jobs := [] }

/-- R19, R36. -/
def Lhp.initial : Lhp :=
  { cards := Table.fill 16 { present := false, marks := 0 }, txSeq := Table.fill 256 0, sent := [] }

def Plp.initial : Plp := { links := Table.fill 32 .initial, sent := Table.fill 32 [], owed := false }

def Cnc.initial : Cnc :=
  { bridges := Table.fill 352 .empty, pool := Table.fill 1024 none,
    appearances := Table.fill 32 (Table.fill 256 none), cadences := Table.fill 8 .initial,
    ringLists := Table.fill 32 [], settings := Table.fill 32 .initial, handsets := Table.fill 64 .initial,
    groups := Table.fill 64 .initial, hoots := Table.fill 32 .initial, talks := Table.fill 32 .initial,
    channels := Table.fill 32 (Table.ofFn ChannelRec.initial) }

def Mxe.initial : Mxe :=
  { frame := 0, lineGains := Table.fill 256 .initial, positionGains := Table.fill 32 .initial,
    channelGains := Table.fill 32 (Table.fill 8 0), ringers := Table.fill 32 .initial,
    earClips := Table.fill 64 .initial, channelClips := Table.fill 32 (Table.fill 8 .initial),
    sideClips := Table.fill 32 { left := .initial, right := .initial }, transmitClips := Table.fill 256 .initial,
    activity := Table.fill 32 (Table.fill 8 .initial), mix := .initial }

def Floor.initial : Floor :=
  { lhp := .initial, ltm := Table.fill 256 (.cleared .zero), lsv := Table.fill 256 (.cleared .initial .disabled),
    plp := .initial, cnc := .initial, mxe := .initial }

def Port.empty : Port := { waiting := none, inFlight := none }
def Mpt.empty : Mpt := { tpe := .empty, jnu := .empty, stw := .empty, oru := .empty }

def HeldValues.none : HeldValues :=
  { anchor := 0, pollMs := 0, journalBase := 0, exponent := 0, trigger := 0, lingerMs := 0, statusBase := 0,
    tapBase := 0, consumed := 0 }

/-- R162: STOPPED, all causes and mask bits clear, CB_ADDR 0. -/
def RunControl.initial : RunControl :=
  { runState := .stopped, cbAddr := 0, attn := 0, attnMask := 0, held := .none, startPhase := .none,
    abandoning := false, cleared := false }

def Oru.initial : Oru :=
  { cursor := 0, next := none, step := .linkRead, active := false, nudged := false, poll := none, order := none,
    lastOutcome := none }

def Jnu.initial : Jnu := { produced := 0, consumed := 0, lost := 0, queue := [], phase := .idle, linger := none }

/-- R174: counts 0, queue empty; R36: every receive queue is empty. -/
def Stw.initial : Stw :=
  { lineCounts := Table.fill 256 0, handsetCounts := Table.fill 64 0, positionCounts := Table.fill 32 0,
    hootCounts := Table.fill 32 0, depths := Table.fill 256 0, saturations := Table.fill 256 0,
    queue := [], phase := .idle }

/-- The part right after pin reset, with no command waiting. -/
def State.reset : State :=
  { rc := .initial, mpt := .empty, oru := .initial, jnu := .initial, stw := .initial, floor := .initial,
    tpe := .initial, due := [], pending := [] }

end Sys2Proof.Machine
end

