-- ==== Sys2Proof/Machine/Operands.lean ====
section
/-! DEFINITION. Operand forms: the argument fields of orders with their range checks (R177, section 4.6), the enumerated
bytes of chapter 12.5, and the result data fields. -/

namespace Sys2Proof.Machine

/-- A number field against the count of what it numbers: none is BAD_NUMBER. -/
def indexArg (bound n : Nat) : Option (Fin bound) := if h : n < bound then some ⟨n, h⟩ else none

def lineArg (n : Half) : Option LineNo := indexArg 256 n.toNat
def positionArg (n : Byte) : Option PositionNo := indexArg 32 n.toNat
def handsetArg (n : Byte) : Option HandsetNo := indexArg 64 n.toNat
def groupArg (n : Byte) : Option GroupNo := indexArg 64 n.toNat
def hootArg (n : Byte) : Option HootNo := indexArg 32 n.toNat
def bridgeArg (n : Half) : Option BridgeNo := indexArg 352 n.toNat
def channelArg (n : Byte) : Option ChannelNo := indexArg 8 n.toNat
def cadenceArg (n : Byte) : Option CadenceNo := indexArg 8 n.toNat
def tapArg (n : Byte) : Option TapNo := indexArg 64 n.toNat

/-- A source that may be none, FFFFh (R177): a bridge, none, or out of range. -/
inductive SourceArg | bad | none | bridge (b : BridgeNo)
  deriving DecidableEq, Repr

def sourceArg (n : Half) : SourceArg :=
  if n = 0xFFFF#16 then .none else match bridgeArg n with
    | some b => .bridge b
    | .none => .bad

/-- The single-bit fields use bit 0 alone (R177). -/
def bitArg (n : Byte) : Bool := n.getLsbD 0

/-- An enumerated byte: 0 off, 1 on (R177). -/
def onOffArg (n : Byte) : Option Bool :=
  if n = 0#8 then some false else if n = 1#8 then some true else none

def lineKindArg (n : Byte) : Option LineKind :=
  if n = 0#8 then some .signalled else if n = 1#8 then some .knock else if n = 2#8 then some .opened else none

def privacyArg (n : Byte) : Option Privacy :=
  if n = 0#8 then some .shared else if n = 1#8 then some .exclusive else none

def sideArg (n : Byte) : Option Side :=
  if n = 0#8 then some .left else if n = 1#8 then some .right else none

def ringerSideArg (n : Byte) : Option RingerSide :=
  if n = 0#8 then some .left else if n = 1#8 then some .right else if n = 2#8 then some .both else none

def nestingArg (n : Byte) : Option Nesting :=
  if n = 0#8 then some .higherOnly else if n = 1#8 then some .equalOrHigher else none

def tapModeArg (n : Nat) : Option TapMode :=
  if n = 0 then some .connectedOnly else if n = 1 then some .continuous else none

/-- A gain field, clamped to 0 to 8191. -/
def gainArg (n : Half) : Nat := clampTo 0 Config.gainMax n.toNat

/-- Ring amplitude: FFFFh is FOLLOW, anything else is clamped to 0 to 16384 (R80, R177). -/
def ringAmplitudeArg (n : Half) : Option Nat :=
  if n = 0xFFFF#16 then none else some (clampTo 0 16384 n.toNat)

/-! ### Result data -/

def data1 (n : Nat) : List Byte := bytesOf 1 n
def data2 (n : Nat) : List Byte := bytesOf 2 n
def data4 (n : Nat) : List Byte := bytesOf 4 n

/-- A 16-bit bridge field: FFFFh for none (chapter 12). -/
def bridgeField (b : Option BridgeNo) : Nat := match b with
  | some b => b.val
  | none => 0xFFFF

/-- The bridge of a displaced call (R86). -/
def Displaced.bridge : Displaced → Option BridgeNo
  | .none => Option.none
  | .held b => some b
  | .released b => some b

end Sys2Proof.Machine
end

