-- ==== Sys2Proof/Machine/Layout.lean ====
section
/-! DEFINITION. Chapter 12: the bytes of parcels, link frames, tap frames and notes, the enumerations of section 12.5, and
the order that a record's kind and argument area spell. -/

namespace Sys2Proof.Machine

/-! ### Enumerations (section 12.5) -/

def LineState.code : LineState → Nat
  | .disabled => 0
  | .idle => 1
  | .alerting => 2
  | .outgoing => 3
  | .connected => 4
  | .held => 5
  | .clearing => 6
  | .fault => 7
  | .test => 8
  | .leg => 9

def Code.code : Code → Nat
  | .quiet => 0
  | .seize => 1
  | .ring => 2
  | .fault => 3

/-- The outgoing code shown: 4 for none. -/
def outgoingField (c : Option Code) : Nat := match c with
  | some c => Code.code c
  | none => 4

def FaultCause.code : FaultCause → Nat
  | .none => 0
  | .dead => 1
  | .farEnd => 2

def Side.code : Side → Nat
  | .left => 0
  | .right => 1

def GroupState.code : GroupState → Nat
  | .idle => 0
  | .calling => 1
  | .active => 2

def HandsetState.code : HandsetState → Nat
  | .onHook => 0
  | .idle => 1
  | .connected => 2

def TapState.code : TapState → Nat
  | .stopped => 0
  | .running => 1
  | .dropping => 2

def RingerState.code : RingerState → Nat
  | .idle => 0
  | .ringing => 1
  | .done => 2

def TalkStatus.code : TalkStatus → Nat
  | .idle => 0
  | .talking => 1
  | .queued => 2

def AlertReason.code : AlertReason → Nat
  | .line => 0
  | .knock => 1
  | .intercom => 2
  | .recall => 3

def AlertEnd.code : AlertEnd → Nat
  | .answered => 0
  | .abandoned => 1
  | .timeout => 2
  | .fault => 3
  | .removed => 4
  | .cleared => 5

def ResultCode.code : ResultCode → Nat
  | .ok => 0x00
  | .badKind => 0x01
  | .badNumber => 0x02
  | .badValue => 0x03
  | .badAddress => 0x04
  | .wrongKind => 0x05
  | .noAppearance => 0x06
  | .notRostered => 0x07
  | .onHook => 0x08
  | .lineUnavailable => 0x09
  | .linePrivate => 0x0A
  | .lineBusy => 0x0B
  | .holdFull => 0x0C
  | .notConnected => 0x0D
  | .nothingHeld => 0x0E
  | .poolFull => 0x0F
  | .notIdle => 0x10
  | .busy => 0x11
  | .alreadyOn => 0x12
  | .micBusy => 0x13
  | .noRoom => 0x14

def bit (b : Bool) : Nat := if b then 1 else 0

/-- An 8-bit position field: FFh for none. -/
def positionField (p : Option PositionNo) : Nat := match p with
  | some p => p.val
  | none => 0xFF

/-! ### Blocks, parcels and link frames (section 12.9) -/

def blockBytes (b : Block) : List Byte := b.cells.flatMap (fun s => bytesOf 2 s.toNat)

/-- The block at a byte offset of a frame. -/
def blockAt (bytes : List Byte) (at_ : Nat) : Block :=
  Table.ofFn (fun i => BitVec.ofNat 16 (fieldAt bytes (at_ + 2 * i.val) 2))

/-- The sum modulo 2^32 of the 32-bit words of a frame. -/
def wordSum : List Byte → Word
  | a :: b :: c :: d :: rest => BitVec.ofNat 32 (numberOf [a, b, c, d]) + wordSum rest
  | _ => 0

/-- The check field: the complement of that sum. -/
def checkOf (bytes : List Byte) : Word := ~~~(wordSum bytes)

/-- A frame followed by its check. -/
def withCheck (bytes : List Byte) : List Byte := bytes ++ bytesOf 4 (checkOf bytes).toNat

/-- The link frame to a position (264 bytes); bits 1 to 7 of byte 00h, which section 12.9 does not list, are 0 (DESIGN CHOICE,
entry 32). -/
def linkFrameBytes (up : Bool) (earA earB left right : Block) : List Byte :=
  withCheck (bytesOf 4 (bit up) ++ blockBytes earA ++ blockBytes earB ++ blockBytes left ++ blockBytes right)

/-- What a link frame from a position carries, when its length and its check agree (R73). -/
def parseLinkFrame (bytes : List Byte) : Option LinkFrame :=
  if bytes.length = 200 ∧ fieldAt bytes 0xC4 4 = (checkOf (bytes.take 0xC4)).toNat then
    let flags := fieldAt bytes 0 1
    some
      { hookA := flags.testBit 0, hookB := flags.testBit 1, ptt := flags.testBit 2
        micA := blockAt bytes 0x04, micB := blockAt bytes 0x44, desk := blockAt bytes 0x84 }
  else none

def codeOfBits (n : Nat) : Code := if n = 0 then .quiet else if n = 1 then .seize else if n = 2 then .ring else .fault

/-- A line parcel in either direction. -/
structure Parcel where
  line : LineNo
  sequence : Byte
  code : Code
  err : Bool
  samples : Block
  deriving DecidableEq, Repr

/-- The 68 bytes of a parcel; bits 2 to 6 of byte 2, which section 12.9 does not list, are 0 (DESIGN CHOICE, entry 32). -/
def Parcel.bytes (x : Parcel) : List Byte :=
  [BitVec.ofNat 8 x.line.val, x.sequence, BitVec.ofNat 8 (Code.code x.code + 128 * bit x.err), 0#8] ++ blockBytes x.samples

/-- What 68 bytes of the highway carry. -/
def parseParcel (bytes : List Byte) : Option Parcel :=
  if bytes.length = 68 then
    some
      { line := ⟨fieldAt bytes 0 1 % 256, Nat.mod_lt _ (by decide)⟩
        sequence := BitVec.ofNat 8 (fieldAt bytes 1 1)
        code := codeOfBits (fieldAt bytes 2 1 % 4)
        err := (fieldAt bytes 2 1).testBit 7
        samples := blockAt bytes 4 }
  else none

/-! ### Tap frames (section 12.8) -/

/-- The 144 bytes of a tap frame with its GAP flag and dropped count as the drain writes them (R153, R155, R157); flag bits 5
to 7, which section 12.8 does not list, are 0 (DESIGN CHOICE, entry 32). -/
def tapFrameBytes (x : StagedFrame) (gap : Bool) (dropped : Nat) : List Byte :=
  bytesOf 4 x.number.toNat ++ bytesOf 2 (bridgeField x.bridge) ++
    bytesOf 1 (bit gap + 2 * bit x.concealed + 4 * bit x.underflow + 8 * bit x.heldOrIdle + 16 * bit x.onHook) ++
    bytesOf 1 x.tap.val ++ bytesOf 4 x.frame.toNat ++ bytesOf 4 dropped ++ blockBytes x.ear ++ blockBytes x.mic

/-! ### Notes (section 12.6) -/

def RingOutEnd.code : RingOutEnd → Nat
  | .complete => 0
  | .stopped => 1
  | .aborted => 2

def MissedReason.code : MissedReason → Nat
  | .abandoned => 0
  | .timeout => 1

def RecallCause.code : RecallCause → Nat
  | .timer => 0
  | .knock => 1

def DropCause.code : DropCause → Nat
  | .cleared => 0
  | .fault => 1
  | .linkDown => 2

def PttCause.code : PttCause → Nat
  | .released => 0
  | .linkDown => 1
  | .roster => 2

/-- The outcome byte of a displaced call. -/
def Displaced.code : Displaced → Nat
  | .none => 0
  | .held _ => 1
  | .released _ => 2

def StateAfter.code : StateAfter → Nat
  | .line s => LineState.code s
  | .group s => GroupState.code s

/-- A line's alerting since, 0 for none. -/
def sinceField (w : Option Word) : Nat := match w with
  | some w => w.toNat
  | none => 0

/-- The output fields of CLIP: kind, number, channel or side; an ear or a transmit has neither, and the byte is 0 (DESIGN
CHOICE, entry 32). -/
def Output.fields : Output → Nat × Nat × Nat
  | .ear h => (0, h.val, 0)
  | .channel p c => (1, p.val, c.val)
  | .side p side => (2, p.val, Side.code side)
  | .transmit l => (3, l.val, 0)

/-- A note's kind and its fields from byte 08h. -/
def NoteBody.fields : NoteBody → Nat × List Byte
  | .overrun lost => (0x01, bytesOf 4 lost)
  | .orderDone tag kind code => (0x02, bytesOf 4 tag.toNat ++ [kind] ++ bytesOf 1 (ResultCode.code code))
  | .rxUnderflow l n => (0x10, bytesOf 2 l.val ++ bytesOf 2 n)
  | .rxOverflow l n => (0x11, bytesOf 2 l.val ++ bytesOf 2 n)
  | .rxResync l e a => (0x12, bytesOf 2 l.val ++ [e, a])
  | .missed l r since => (0x18, bytesOf 2 l.val ++ bytesOf 1 r.code ++ bytesOf 4 (sinceField since))
  | .knock l s => (0x19, bytesOf 2 l.val ++ bytesOf 1 (LineState.code s))
  | .lineFault l c s => (0x1A, bytesOf 2 l.val ++ bytesOf 1 (FaultCause.code c) ++ bytesOf 1 (LineState.code s))
  | .ringOutDone l r n => (0x1B, bytesOf 2 l.val ++ bytesOf 1 r.code ++ bytesOf 1 n)
  | .alertDropped p b r => (0x20, bytesOf 1 p.val ++ bytesOf 2 b.val ++ bytesOf 1 (AlertReason.code r))
  | .alertEnd b r m => (0x21, bytesOf 2 b.val ++ bytesOf 1 (AlertEnd.code r) ++ bytesOf 4 m.toNat)
  | .linkDown p => (0x28, bytesOf 1 p.val)
  | .linkUp p => (0x29, bytesOf 1 p.val)
  | .hook h off b => (0x2A, bytesOf 1 h.val ++ bytesOf 1 (bit off) ++ bytesOf 2 (bridgeField b))
  | .holdRecall h b c f => (0x2B, bytesOf 1 h.val ++ bytesOf 2 b.val ++ bytesOf 1 c.code ++ bytesOf 4 f.toNat)
  | .holdDropped h b c f r =>
    (0x2C, bytesOf 1 h.val ++ bytesOf 2 b.val ++ bytesOf 1 c.code ++ bytesOf 4 f.toNat ++ bytesOf 1 (bit r))
  | .selectDone h b after retrieve d =>
    (0x2D, bytesOf 1 h.val ++ bytesOf 2 b.val ++ bytesOf 1 after.code ++ bytesOf 1 (bit retrieve) ++
      bytesOf 2 (bridgeField d.bridge) ++ bytesOf 1 d.code)
  | .groupState g before after n =>
    (0x30, bytesOf 1 g.val ++ bytesOf 1 (GroupState.code before) ++ bytesOf 1 (GroupState.code after) ++ bytesOf 1 n)
  | .noAnswer g m => (0x31, bytesOf 1 g.val ++ bytesOf 4 m.toNat)
  | .pttGranted p k n => (0x38, bytesOf 1 p.val ++ bytesOf 1 k.val ++ bytesOf 1 n)
  | .pttQueued p k n => (0x39, bytesOf 1 p.val ++ bytesOf 1 k.val ++ bytesOf 1 n)
  | .pttEnd p k c s => (0x3A, bytesOf 1 p.val ++ bytesOf 1 k.val ++ bytesOf 1 c.code ++ bytesOf 1 (TalkStatus.code s))
  | .pttBumped p k n => (0x3B, bytesOf 1 p.val ++ bytesOf 1 k.val ++ bytesOf 1 n)
  | .pttIgnored p => (0x3C, bytesOf 1 p.val)
  | .announceEnd p c s saved =>
    (0x40, bytesOf 1 p.val ++ bytesOf 1 c.val ++ bytesOf 2 s.val ++ bytesOf 1 0 ++ bytesOf 1 (bit saved))
  | .clip o n =>
    let f := Output.fields o
    (0x48, bytesOf 1 f.1 ++ bytesOf 2 f.2.1 ++ bytesOf 1 f.2.2 ++ bytesOf 4 n)
  | .activity p c a => (0x49, bytesOf 1 p.val ++ bytesOf 1 c.val ++ bytesOf 1 (bit a))
  | .tapSegment n s filled frames last =>
    (0x50, bytesOf 1 n.val ++ bytesOf 1 s ++ bytesOf 4 filled.toNat ++ bytesOf 2 frames ++ bytesOf 4 last.toNat)
  | .tapGap n frame dropped total =>
    (0x51, bytesOf 1 n.val ++ bytesOf 4 (match frame with
      | some f => f.toNat
      | none => 0xFFFFFFFF) ++ bytesOf 4 dropped ++ bytesOf 4 total)
  | .tapMark n frame new last =>
    (0x52, bytesOf 1 n.val ++ bytesOf 4 frame.toNat ++ bytesOf 2 (bridgeField new) ++ bytesOf 2 (bridgeField last))

/-- The 32 bytes of a note (section 12.6); bytes after the last field of its kind are 0 (DESIGN CHOICE, entry 32). -/
def Note.bytes (n : Note) : List Byte :=
  padTo 32 (bytesOf 1 n.body.fields.1 ++ zeros 3 ++ bytesOf 4 n.frame.toNat ++ n.body.fields.2)

/-! ### Order records (sections 12.3, 12.4) -/

def byteField (bytes : List Byte) (at_ : Nat) : Byte := BitVec.ofNat 8 (fieldAt bytes at_ 1)
def halfField (bytes : List Byte) (at_ : Nat) : Half := BitVec.ofNat 16 (fieldAt bytes at_ 2)
def wordField (bytes : List Byte) (at_ : Nat) : Word := BitVec.ofNat 32 (fieldAt bytes at_ 4)
def addrField (bytes : List Byte) (at_ : Nat) : Addr := BitVec.ofNat 64 (fieldAt bytes at_ 8)

/-- The order that a kind byte, the NOTIFY flag and the 40 argument bytes spell; none for an unknown kind (R169). -/
def decodeOrder (kind : Byte) (notify : Bool) (a : List Byte) : Option Instr :=
  if kind = 0x00#8 then some .nop
  else if kind = 0x01#8 then some (.setLine
    { line := halfField a 0, enable := byteField a 2, kind := byteField a 3, privacy := byteField a 4,
      cadence := byteField a 5, rxGain := halfField a 6, txGain := halfField a 8, prime := byteField a 10,
      persistence := byteField a 11, deadTime := halfField a 12, knockTime := byteField a 14 })
  else if kind = 0x02#8 then some (.ringOut (halfField a 0) (byteField a 2))
  else if kind = 0x03#8 then some (.ringStop (halfField a 0))
  else if kind = 0x04#8 then some (.loopTest (halfField a 0))
  else if kind = 0x05#8 then some (.endTest (halfField a 0))
  else if kind = 0x08#8 then some (.flush (halfField a 0))
  else if kind = 0x10#8 then some (.setAppearance
    { position := byteField a 0, line := halfField a 1, present := byteField a 3, ring := byteField a 4,
      speaker := byteField a 5 })
  else if kind = 0x11#8 then some (.setCadence
    { cadence := byteField a 0, count := byteField a 1,
      segments := Table.ofFn (fun i => (halfField a (2 + 4 * i.val), halfField a (4 + 4 * i.val))),
      repeats := halfField a 18 })
  else if kind = 0x12#8 then some (.setPosition
    { position := byteField a 0, autoHold := byteField a 1, ringerSide := byteField a 2,
      announceChannel := byteField a 3, nesting := byteField a 4, halfPeriod := byteField a 5,
      recallTime := halfField a 6, volumeA := halfField a 8, volumeB := halfField a 10, micGainA := halfField a 12,
      micGainB := halfField a 14, deskGain := halfField a 16, sideLeft := halfField a 18, sideRight := halfField a 20,
      ringAmplitude := halfField a 22 })
  else if kind = 0x13#8 then some (.select (byteField a 0) (halfField a 1) notify)
  else if kind = 0x14#8 then some (.callGroup (byteField a 0) (byteField a 1) notify)
  else if kind = 0x15#8 then some (.hold (byteField a 0))
  else if kind = 0x16#8 then some (.retrieve (byteField a 0))
  else if kind = 0x17#8 then some (.release (byteField a 0))
  else if kind = 0x18#8 then some (.dropHeld (byteField a 0) (halfField a 1))
  else if kind = 0x19#8 then some (.setGroup
    { group := byteField a 0, cadence := byteField a 1, timeout := halfField a 2, roster := wordField a 4 })
  else if kind = 0x1A#8 then some (.setHoot
    { hoot := byteField a 0, limit := byteField a 1, priority := byteField a 2, legCount := byteField a 3,
      leg0 := halfField a 4, leg1 := halfField a 6, roster := wordField a 8, talk := wordField a 12 })
  else if kind = 0x1B#8 then some (.pttTarget (byteField a 0) (byteField a 1))
  else if kind = 0x1C#8 then some (.assignSpeaker
    { position := byteField a 0, channel := byteField a 1, source := halfField a 2, gain := halfField a 4,
      side := byteField a 6 })
  else if kind = 0x1D#8 then some (.speakerGain (byteField a 0) (byteField a 1) (halfField a 2))
  else if kind = 0x1E#8 then some (.announce (halfField a 0) (byteField a 2) (wordField a 3))
  else if kind = 0x1F#8 then some (.endAnnounce (halfField a 0))
  else if kind = 0x20#8 then some (.setMix
    { rampStep := halfField a 0, threshold := halfField a 2, window := byteField a 4, count := halfField a 5,
      ringAmplitude := halfField a 7 })
  else if kind = 0x28#8 then some (.tapStart (byteField a 0))
  else if kind = 0x29#8 then some (.tapStop (byteField a 0))
  else none

end Sys2Proof.Machine
end

