-- ==== Sys2Proof/Machine/Flags.lean ====
section
/-! DEFINITION. The attention causes and their mask, the ATTN# output, and the register window as the host reads it
(R162, R163, chapter 12.1). -/

namespace Sys2Proof.Machine

/-- The bit of a cause (chapter 12.1). -/
def Cause.bit : Cause → Nat
  | .journal => 0
  | .chainFault => 1
  | .memFault => 2
  | .startFail => 3
  | .stopped => 4

/-- The causes with one more set; a cause already set stays set (R163). -/
def raiseCause (c : Cause) (attn : BitVec 5) : BitVec 5 := attn ||| (1#5 <<< Cause.bit c)

/-- A write to ATTN clears each cause whose bit is 1 in the value (R163). -/
def clearCauses (value : Word) (attn : BitVec 5) : BitVec 5 := attn &&& ~~~(value.setWidth 5)

/-- Whether a cause is set. -/
def causeSet (c : Cause) (attn : BitVec 5) : Bool := attn.getLsbD (Cause.bit c)

/-- ATTN# is low while at least one set cause has its mask bit set (R163). -/
def State.attnLow (s : State) : Bool := s.rc.attn &&& s.rc.attnMask ≠ 0#5

/-- Set an attention cause. -/
def State.setCause (c : Cause) (s : State) : State :=
  { s with rc := { s.rc with attn := raiseCause c s.rc.attn } }

/-- The run state as RUN reads (chapter 12.1). -/
def RunState.code : RunState → Nat
  | .stopped => 0
  | .starting => 1
  | .running => 2
  | .stopping => 3

/-- A register read: it has no effect on the part (R162); offsets not listed read 0 (R177). -/
def State.readRegister (s : State) (offset : Nat) : Word :=
  if offset = 0x00 then Config.ident
  else if offset = 0x08 then s.rc.cbAddr.setWidth 32
  else if offset = 0x0C then (s.rc.cbAddr >>> 32).setWidth 32
  else if offset = 0x10 then BitVec.ofNat 32 (RunState.code s.rc.runState)
  else if offset = 0x18 then s.rc.attn.setWidth 32
  else if offset = 0x1C then s.rc.attnMask.setWidth 32
  else 0

end Sys2Proof.Machine
end

