-- ==== Sys2Proof/Machine/Ops.lean ====
section
/-! DEFINITION. The operations every meaning uses: notes handed to JNU, entries handed to STW, accesses at MPT, and the
event in progress over the floor's blocks. -/

namespace Sys2Proof.Machine

/-- The outcome of every command: a next state, or a stop. -/
abbrev Answer := Host.Outcome State Fault Refusal

/-! ### JNU's and STW's queues -/

/-- A note handed to JNU's tail; a note handed to a full queue is counted lost at once (R172). -/
def Jnu.hand (frame : Word) (j : Jnu) (b : NoteBody) : Jnu :=
  if j.queue.length < Config.notePlaces then { j with queue := j.queue ++ [{ frame := frame, body := b }] }
  else { j with lost := holdAdd hold32 j.lost 1 }

/-- The depths shown after a hand-over: a line's is the depth of its queue at that moment (R32). -/
def depthsShown (ltm : Table 256 TermRec) (depths : Table 256 Nat) : Entry → Table 256 Nat
  | .line l => depths.set l (ltm.get l).queue.length
  | .handset _ => depths
  | .position _ => depths
  | .hoot _ => depths

/-- The transmit saturation counters shown after a hand-over: a line's is its counter at that moment (R149; entry 30). -/
def saturationsShown (clips : Table 256 ClipRec) (shown : Table 256 Nat) : Entry → Table 256 Nat
  | .line l => shown.set l (clips.get l).count
  | .handset _ => shown
  | .position _ => shown
  | .hoot _ => shown

/-- An entry handed to STW: one already in the queue keeps its place, any other joins the tail (R174). -/
def Stw.hand (f : Floor) (w : Stw) (e : Entry) : Stw :=
  { w with
    depths := depthsShown f.ltm w.depths e
    saturations := saturationsShown f.mxe.transmitClips w.saturations e
    queue := if e ∈ w.queue then w.queue else w.queue ++ [e] }

/-- A note raised outside the floor's blocks. -/
def State.note (b : NoteBody) (s : State) : State := { s with jnu := s.jnu.hand s.floor.mxe.frame b }

/-- A hand-over made outside the floor's blocks. -/
def State.handEntry (e : Entry) (s : State) : State := { s with stw := s.stw.hand s.floor e }

/-! ### MPT's ports (R175) -/

def Mpt.port (m : Mpt) : Requester → Port
  | .tpe => m.tpe
  | .jnu => m.jnu
  | .stw => m.stw
  | .oru => m.oru

def Mpt.setPort (m : Mpt) (r : Requester) (p : Port) : Mpt := match r with
  | .tpe => { m with tpe := p }
  | .jnu => { m with jnu := p }
  | .stw => { m with stw := p }
  | .oru => { m with oru := p }

/-- A requester puts an access at its port; MPT issues it when its turn comes (R175). -/
def State.request (r : Requester) (a : Access) (s : State) : State :=
  { s with mpt := s.mpt.setPort r { s.mpt.port r with waiting := some a } }

/-- The access in flight of a requester has completed on the link. -/
def State.freePort (r : Requester) (s : State) : State :=
  { s with mpt := s.mpt.setPort r { s.mpt.port r with inFlight := none } }

/-- A requester gives up its access: one not yet issued is withdrawn, one in flight completes without effect. -/
def Port.abandon (fate : Fate) (p : Port) : Port :=
  { waiting := none, inFlight := p.inFlight.map (fun f => { f with fate := if f.fate = .void then .void else fate }) }

def State.abandonPort (r : Requester) (fate : Fate) (s : State) : State :=
  { s with mpt := s.mpt.setPort r ((s.mpt.port r).abandon fate) }

/-- A requester withdraws an access that MPT has not issued yet. -/
def State.withdraw (r : Requester) (s : State) : State :=
  { s with mpt := s.mpt.setPort r { s.mpt.port r with waiting := none } }

/-- Whether a requester has an access in flight whose completion it awaits. -/
def State.liveFlight (r : Requester) (s : State) : Bool := match (s.mpt.port r).inFlight with
  | some f => f.fate = .live
  | none => false

/-- A success completion for requester `r`, of the kind that `awaits` names: the port is free again and the requester
acts (`act`). An access that STOP or a reset has given up only frees the port (R154, R167); a completion that nothing
awaits cannot come and changes nothing. -/
def completion (r : Requester) (awaits : State → Bool) (act : State → State) (s : State) : State :=
  match (s.mpt.port r).inFlight with
  | none => s
  | some f =>
    if f.fate ≠ .live then s.freePort r
    else if awaits s then act (s.freePort r)
    else s

def readAccess (addr : Addr) (length : Nat) : Access := { addr := addr, op := .read length }
def writeAccess (addr : Addr) (bytes : List Byte) : Access := { addr := addr, op := .write bytes }

/-- An address at a byte offset. -/
def atOffset (a : Addr) (offset : Nat) : Addr := a + BitVec.ofNat 64 offset

/-! ### The event in progress over the floor's blocks -/

/-- An event being taken: the floor's blocks, the notes and hand-overs it makes in order, and the events it raises. Each
event is taken whole (section 3.3 of 00_scope.md). -/
structure Work where
  floor : Floor
  notes : List NoteBody
  handed : List Entry
  raised : List Raised
  deriving DecidableEq, Repr

def Work.of (f : Floor) : Work := { floor := f, notes := [], handed := [], raised := [] }

def Work.note (w : Work) (b : NoteBody) : Work := { w with notes := w.notes ++ [b] }
def Work.hand (w : Work) (e : Entry) : Work := { w with handed := w.handed ++ [e] }
def Work.raise (w : Work) (r : Raised) : Work := { w with raised := w.raised ++ [r] }

/-- Hand an entry over when a mirrored field has changed. -/
def Work.handIf (w : Work) (changed : Bool) (e : Entry) : Work := if changed then w.hand e else w

/-- The end of an event: the blocks stand as it left them, its notes join JNU's queue and its entries STW's, in order. A line
entry takes the queue depth and the saturation counter that the whole event leaves, so that of a line in TEST shows the
depth after the loop's append of the same frame event (R30, R32, R149; DESIGN CHOICE, entry 39). -/
def State.commit (s : State) (w : Work) : State :=
  { s with
    floor := w.floor
    jnu := w.notes.foldl (Jnu.hand w.floor.mxe.frame) s.jnu
    stw := w.handed.foldl (Stw.hand w.floor) s.stw
    due := s.due ++ w.raised }

/-- One event over the floor's blocks. -/
def State.onFloor (s : State) (f : Work → Work) : State := s.commit (f (Work.of s.floor))

/-! ### Records of the floor -/

abbrev Work.cnc (w : Work) : Cnc := w.floor.cnc
abbrev Work.mxe (w : Work) : Mxe := w.floor.mxe
/-- The frame counter at the event: the value of the most recent frame event (R135). -/
abbrev Work.frame (w : Work) : Word := w.floor.mxe.frame

def Work.setCnc (w : Work) (c : Cnc) : Work := { w with floor := { w.floor with cnc := c } }
def Work.setMxe (w : Work) (m : Mxe) : Work := { w with floor := { w.floor with mxe := m } }

abbrev Work.line (w : Work) (l : LineNo) : LineRec := w.floor.lsv.get l
abbrev Work.term (w : Work) (l : LineNo) : TermRec := w.floor.ltm.get l
abbrev Work.link (w : Work) (p : PositionNo) : LinkRec := w.floor.plp.links.get p
abbrev Work.handset (w : Work) (h : HandsetNo) : HandsetRec := w.cnc.handsets.get h
abbrev Work.group (w : Work) (g : GroupNo) : GroupRec := w.cnc.groups.get g
abbrev Work.hoot (w : Work) (k : HootNo) : HootRec := w.cnc.hoots.get k
abbrev Work.talk (w : Work) (p : PositionNo) : TalkRec := w.cnc.talks.get p
abbrev Work.settings (w : Work) (p : PositionNo) : Settings := w.cnc.settings.get p
abbrev Work.channel (w : Work) (p : PositionNo) (c : ChannelNo) : ChannelRec := (w.cnc.channels.get p).get c
abbrev Work.ringList (w : Work) (p : PositionNo) : List Alert := w.cnc.ringLists.get p

/-- The outgoing code of the line state alone (R41); none where no parcel is sent. -/
def baseOutgoing (kind : LineKind) (state : LineState) : Option Code := match state with
  | .disabled => none
  | .test => none
  | .idle => some .quiet
  | .alerting => some .quiet
  | .clearing => some .quiet
  | .fault => some .quiet
  | .leg => some .quiet
  | .outgoing => if kind = .opened then some .quiet else some .seize
  | .connected => if kind = .opened then some .quiet else some .seize
  | .held => if kind = .opened then some .quiet else some .seize

/-- The line fields that R54 mirrors. -/
def LineRec.mirror (r : LineRec) : LineState × FaultCause × Code × Option Code × Bool :=
  (r.state, r.cause, r.accepted, baseOutgoing r.cfg.kind r.state, r.ringOut.isSome)

/-- Write a line record; its status entry is handed over when a field of R54 changes. -/
def Work.putLine (w : Work) (l : LineNo) (r : LineRec) : Work :=
  ({ w with floor := { w.floor with lsv := w.floor.lsv.set l r } } : Work).handIf
    ((w.line l).mirror ≠ r.mirror) (.line l)

/-- The queue state shown (R32): playing, and the first-priming flag while priming. -/
def TermRec.mirror (t : TermRec) : Bool × Bool × RxCounters × Nat :=
  (t.playing, !t.playing && t.first, t.counters, t.errored)

/-- Write a termination record; the line's status entry is handed over when a field of R32 changes. -/
def Work.putTerm (w : Work) (l : LineNo) (t : TermRec) : Work :=
  ({ w with floor := { w.floor with ltm := w.floor.ltm.set l t } } : Work).handIf
    ((w.term l).mirror ≠ t.mirror) (.line l)

/-- Write a link record; the position's entry is handed over when the link state changes (R74, R91). -/
def Work.putLink (w : Work) (p : PositionNo) (r : LinkRec) : Work :=
  ({ w with floor := { w.floor with plp := { w.floor.plp with links := w.floor.plp.links.set p r } } } : Work).handIf
    ((w.link p).up ≠ r.up) (.position p)

/-- Write a handset record; its entry is handed over when it changes (R91). -/
def Work.putHandset (w : Work) (h : HandsetNo) (r : HandsetRec) : Work :=
  (w.setCnc { w.cnc with handsets := w.cnc.handsets.set h r }).handIf (w.handset h ≠ r) (.handset h)

/-- Write a group record, which is not mirrored (R103). -/
def Work.putGroup (w : Work) (g : GroupNo) (r : GroupRec) : Work :=
  w.setCnc { w.cnc with groups := w.cnc.groups.set g r }

/-- Write a hoot record; its entry is handed over when its queue or legs change (R117). -/
def Work.putHoot (w : Work) (k : HootNo) (r : HootRec) : Work :=
  (w.setCnc { w.cnc with hoots := w.cnc.hoots.set k r }).handIf
    ((w.hoot k).queue ≠ r.queue ∨ (w.hoot k).legs ≠ r.legs) (.hoot k)

/-- Write a talk record; the position's entry is handed over when it changes (R117). -/
def Work.putTalk (w : Work) (p : PositionNo) (r : TalkRec) : Work :=
  (w.setCnc { w.cnc with talks := w.cnc.talks.set p r }).handIf (w.talk p ≠ r) (.position p)

/-- The channel fields that R134 mirrors: sources, origins, priorities and sides, not the target gains. -/
def ChannelRec.mirror (c : ChannelRec) : (Option BridgeNo × Nat × Side) × List (Option BridgeNo × Nat) :=
  ((c.current.source, c.current.priority, c.current.side), c.stack.map (fun e => (e.source, e.priority)))

/-- Write a channel record; the position's entry is handed over when a field of R134 changes. -/
def Work.putChannel (w : Work) (p : PositionNo) (c : ChannelNo) (r : ChannelRec) : Work :=
  (w.setCnc { w.cnc with channels := w.cnc.channels.upd p (fun t => t.set c r) }).handIf
    ((w.channel p c).mirror ≠ r.mirror) (.position p)

/-! ### Outcomes of orders over the floor -/

/-- An order that completes with OK and result data (R169). -/
def okWith (data : List Byte) (w : Work) : Work × OrderResult := (w, { code := .ok, data := data })

/-- An order that is refused: nothing changes (section 4.6). -/
def refuse (code : ResultCode) (w : Work) : Work × OrderResult := (w, { code := code, data := [] })

/-- Set a channel's current gain to 0: "ramps from 0" (R119, R138). -/
def Work.zeroGain (w : Work) (p : PositionNo) (c : ChannelNo) : Work :=
  w.setMxe { w.mxe with channelGains := w.mxe.channelGains.upd p (fun t => t.set c 0) }

end Sys2Proof.Machine
end

