-- ==== Sys2Proof/Machine/Members.lean ====
section
/-! DEFINITION. Chapter 1: the member pool, joining and leaving a bridge, the privacy cut. The re-evaluation steps that
reach LSV and the groups follow in Reevaluation.lean. -/

namespace Sys2Proof.Machine

/-- The lowest-numbered free slot (R7). -/
def freeSlot (c : Cnc) : Option SlotNo := (List.finRange 1024).find? (fun i => (c.pool.get i).isNone)

/-- The member records of a bridge in join order (R1, R10). -/
def membersOf (c : Cnc) (b : BridgeNo) : List (SlotNo × Member) :=
  (c.bridges.get b).members.filterMap (fun sl => (c.pool.get sl).map (fun m => (sl, m)))

def Member.handset? (m : Member) : Option HandsetNo := match m.kind with
  | .handset h => some h
  | .mic _ => none
  | .speaker _ _ => none

def Member.speaker? (m : Member) : Option (PositionNo × ChannelNo) := match m.kind with
  | .speaker p c => some (p, c)
  | .handset _ => none
  | .mic _ => none

def Member.mic? (m : Member) : Option PositionNo := match m.kind with
  | .mic p => some p
  | .handset _ => none
  | .speaker _ _ => none

/-- A member talks when it is an ACTIVE HANDSET or MIC member (R3, R6). -/
def Member.talks (m : Member) : Bool := m.mode = .active && m.speaker?.isNone

/-- The handset members of a bridge in join order, with slot and handset. -/
def handsetMembers (c : Cnc) (b : BridgeNo) : List (SlotNo × HandsetNo × Mode) :=
  (membersOf c b).filterMap (fun x => x.2.handset?.map (fun h => (x.1, h, x.2.mode)))

/-- The positions of the MIC members of a bridge in join order: a hoot's talker set in grant order (R104). -/
def micMembers (c : Cnc) (b : BridgeNo) : List (SlotNo × PositionNo) :=
  (membersOf c b).filterMap (fun x => x.2.mic?.map (fun p => (x.1, p)))

/-- The slot of a handset's member on a bridge. -/
def handsetSlot (c : Cnc) (b : BridgeNo) (h : HandsetNo) : Option SlotNo :=
  ((handsetMembers c b).find? (fun x => x.2.1 = h)).map (fun x => x.1)

/-- The SPEAKER member of a position on a bridge, at most one (R5). -/
def speakerMember (c : Cnc) (b : BridgeNo) (p : PositionNo) : Option (SlotNo × Member) :=
  (membersOf c b).find? (fun x => match x.2.speaker? with
    | some (q, _) => q = p
    | none => false)

/-- The holding position of a line: the cut condition holds when there is one (R13). -/
def holdingPosition (f : Floor) (l : LineNo) : Option PositionNo :=
  if (f.lsv.get l).cfg.privacy = .exclusive then
    (handsetMembers f.cnc (lineBridge l)).head?.map (fun x => handsetPosition x.2.1)
  else none

/-- Whether the cut condition holds for a bridge against a position (R13, R132). -/
def cutAgainst (f : Floor) (b : BridgeNo) (p : PositionNo) : Bool := match bridgeKind b with
  | .line l => match holdingPosition f l with
    | some q => q ≠ p
    | none => false
  | .group _ => false
  | .hoot _ => false

/-- The entries that mirror a member (R17): the line or hoot for a HANDSET or MIC member, the position for a SPEAKER. -/
def Work.handMember (w : Work) (m : Member) : Work := match m.kind with
  | .handset _ => match bridgeKind m.bridge with
    | .line l => w.hand (.line l)
    | .group _ => w
    | .hoot _ => w
  | .mic _ => match bridgeKind m.bridge with
    | .hoot k => w.hand (.hoot k)
    | .line _ => w
    | .group _ => w
  | .speaker p _ => w.hand (.position p)

/-- Put a record into a slot (R9): appended at the tail of its bridge's list, the talker count raised if it talks. -/
def Cnc.insert (c : Cnc) (sl : SlotNo) (m : Member) : Cnc :=
  { c with
    pool := c.pool.set sl (some m)
    bridges := c.bridges.upd m.bridge (fun b =>
      { members := b.members ++ [sl], talkers := b.talkers + (if m.talks then 1 else 0) }) }

/-- Take a record off its bridge and free its slot (R11). -/
def Cnc.erase (c : Cnc) (sl : SlotNo) (m : Member) : Cnc :=
  { c with
    pool := c.pool.set sl none
    bridges := c.bridges.upd m.bridge (fun b =>
      { members := b.members.erase sl, talkers := b.talkers - (if m.talks then 1 else 0) }) }

/-- Change a member's mode in place (R10); the talker count follows (R6). -/
def Cnc.changeMode (c : Cnc) (sl : SlotNo) (m : Member) (mode : Mode) : Cnc :=
  let n : Member := { m with mode := mode }
  { c with
    pool := c.pool.set sl (some n)
    bridges := c.bridges.upd m.bridge (fun b =>
      { b with talkers := b.talkers - (if m.talks then 1 else 0) + (if n.talks then 1 else 0) }) }

/-- Create a member in the lowest free slot (R7, R9), before the re-evaluation; none when the pool is full. -/
def Work.create (w : Work) (kind : MemberKind) (b : BridgeNo) (mode : Mode) : Option (Work × SlotNo) :=
  match freeSlot w.cnc with
  | none => none
  | some sl =>
    let m : Member := { kind := kind, bridge := b, mode := mode, joinFrame := w.frame }
    some ((w.setCnc (w.cnc.insert sl m)).handMember m, sl)

/-- Remove a member (R11), before the re-evaluation. -/
def Work.remove (w : Work) (sl : SlotNo) : Work := match w.cnc.pool.get sl with
  | none => w
  | some m => (w.setCnc (w.cnc.erase sl m)).handMember m

/-- Change a member's mode (R4), before the re-evaluation. -/
def Work.setMode (w : Work) (sl : SlotNo) (mode : Mode) : Work := match w.cnc.pool.get sl with
  | none => w
  | some m => (w.setCnc (w.cnc.changeMode sl m mode)).handMember m

/-- One SPEAKER member under the cut (R14): an ACTIVE one of another position becomes CUT with its channel's gain 0. -/
def applyCut (holder : PositionNo) (w : Work) (x : SlotNo × Member) : Work := match x.2.speaker? with
  | none => w
  | some (p, c) =>
    if p ≠ holder ∧ x.2.mode = .active then (w.setMode x.1 .cut).zeroGain p c else w

/-- One SPEAKER member when the cut is undone (R15): a CUT one becomes ACTIVE and its channel ramps from 0. -/
def undoCut (w : Work) (x : SlotNo × Member) : Work := match x.2.speaker? with
  | none => w
  | some (p, c) => if x.2.mode = .cut then (w.setMode x.1 .active).zeroGain p c else w

/-- Step 1 of the re-evaluation of a line bridge (R12, R14, R15). -/
def cutStep (l : LineNo) (w : Work) : Work :=
  let members := membersOf w.cnc (lineBridge l)
  match holdingPosition w.floor l with
  | some q => members.foldl (applyCut q) w
  | none => members.foldl undoCut w

/-- The re-evaluation after a SPEAKER or MIC membership change: it starts steps 1 and 4 alone (R12). -/
def reevalCut (b : BridgeNo) (w : Work) : Work := match bridgeKind b with
  | .line l => cutStep l w
  | .group _ => w
  | .hoot _ => w

/-- The mode of a SPEAKER member that is not saved: CUT where the cut condition holds against its position, else ACTIVE
(R14, R132). -/
def speakerMode (f : Floor) (b : BridgeNo) (p : PositionNo) : Mode := if cutAgainst f b p then .cut else .active

/-- The bridge of a slot's member. -/
def slotBridge (c : Cnc) (sl : SlotNo) : Option BridgeNo := (c.pool.get sl).map Member.bridge

/-- Remove a SPEAKER or MIC member with its re-evaluation. -/
def Work.removeAndCut (w : Work) (sl : SlotNo) : Work := match slotBridge w.cnc sl with
  | none => w
  | some b => reevalCut b (w.remove sl)

/-- Change a SPEAKER member's mode with its re-evaluation. -/
def Work.setModeAndCut (w : Work) (sl : SlotNo) (mode : Mode) : Work := match slotBridge w.cnc sl with
  | none => w
  | some b => reevalCut b (w.setMode sl mode)

end Sys2Proof.Machine
end

