-- ==== Sys2Proof/Machine/Alerts.lean ====
section
/-! DEFINITION. Chapter 4: ring lists, the ringers' starts and restarts, cadences. -/

namespace Sys2Proof.Machine

/-- The durations of a cadence's segment; a segment beyond its count has none. -/
def segmentAt (segments : List (Nat × Nat)) (i : Nat) : Nat × Nat := (segments[i]?).getD (0, 0)

/-- Start or restart a ringer on a cadence (R69); the ON phase sets the tone count to 0 (R143). -/
def Ringer.start (table : Cadence) (c : CadenceNo) (_r : Ringer) : Ringer :=
  { state := .ringing, cadence := c, segment := 0, on := true, framesLeft := (segmentAt table.segments 0).1,
    cyclesDone := 0, tone := 0 }

/-- The ringer of an emptied list: IDLE (R69); R71 makes the record the same whatever the old progress was, so its other
fields are those of reset (DESIGN CHOICE, entry 9), but for the tone count, which is kept (R143). -/
def Ringer.emptied (r : Ringer) : Ringer := { Ringer.initial with tone := r.tone }

/-- Write a ringer; the position's entry is handed over when the ringer state changes (R72). -/
def Work.putRinger (w : Work) (p : PositionNo) (r : Ringer) : Work :=
  (w.setMxe { w.mxe with ringers := w.mxe.ringers.set p r }).handIf
    ((w.mxe.ringers.get p).state ≠ r.state) (.position p)

/-- The ringer follows a head change (R69). -/
def ringerHead (p : PositionNo) (head : Option Alert) (w : Work) : Work :=
  let r := w.mxe.ringers.get p
  match head with
  | some a => w.putRinger p (r.start (w.cnc.cadences.get a.cadence) a.cadence)
  | none => w.putRinger p r.emptied

/-- Replace a position's ring list; the head change, if there is one, reaches the ringer, and the position's entry is
handed over (R61, R69, R72). -/
def setRingList (p : PositionNo) (new : List Alert) (w : Work) : Work :=
  let old := w.ringList p
  let w1 := (w.setCnc { w.cnc with ringLists := w.cnc.ringLists.set p new }).hand (.position p)
  if old.head? = new.head? then w1 else ringerHead p new.head? w1

/-- Add an alert (R62); the result also says whether an entry was appended. -/
def addAlert (p : PositionNo) (b : BridgeNo) (reason : AlertReason) (c : CadenceNo) (w : Work) : Work × Bool :=
  let list := w.ringList p
  if list.any (fun a => a.bridge = b) then (w, false)
  else if list.length < Config.ringPlaces then
    (setRingList p (list ++ [{ bridge := b, reason := reason, cadence := c, arrival := w.frame }]) w, true)
  else (w.note (.alertDropped p b reason), false)

/-- Take the entry for a bridge off one position's list, if an entry of a covered reason is there; the mask gathers the
positions where one was (R65). -/
def removeAlertAt (b : BridgeNo) (covers : AlertReason → Bool) (acc : Work × Word) (p : PositionNo) : Work × Word :=
  let list := acc.1.ringList p
  if list.any (fun a => a.bridge = b && covers a.reason) then
    (setRingList p (list.filter (fun a => !(a.bridge = b && covers a.reason))) acc.1, acc.2 ||| maskOf p)
  else acc

/-- Remove alerts at positions given in ascending order, with one ALERT_END note if any was removed (R65). -/
def removeAlerts (b : BridgeNo) (positions : List PositionNo) (covers : AlertReason → Bool) (reason : AlertEnd)
    (w : Work) : Work :=
  let r := positions.foldl (removeAlertAt b covers) (w, 0#32)
  if r.2 = 0#32 then r.1 else r.1.note (.alertEnd b reason r.2)

def allPositions : List PositionNo := List.finRange 32

/-- LINE and KNOCK entries. -/
def coversLine (r : AlertReason) : Bool := r = .line || r = .knock
/-- INTERCOM entries. -/
def coversIntercom (r : AlertReason) : Bool := r = .intercom
/-- RECALL entries. -/
def coversRecall (r : AlertReason) : Bool := r = .recall

/-- The positions with a present appearance on a line and ring enabled, ascending (R63). -/
def ringPositions (c : Cnc) (l : LineNo) : List PositionNo :=
  (List.finRange 32).filter (fun p => match (c.appearances.get p).get l with
    | some a => a.ring
    | none => false)

/-- The reason of a line's alerts (R58, R63). -/
def lineReason (kind : LineKind) : AlertReason := if kind = .knock then .knock else .line

/-- The alerts of a line entering ALERTING (R63). -/
def addLineAlerts (l : LineNo) (w : Work) : Work :=
  let cfg := (w.line l).cfg
  (ringPositions w.cnc l).foldl (fun w p => (addAlert p (lineBridge l) (lineReason cfg.kind) cfg.cadence w).1) w

/-- The cadence of a bridge's line or group record (R64); a hoot has none and is never held. -/
def bridgeCadence (f : Floor) (b : BridgeNo) : CadenceNo := match bridgeKind b with
  | .line l => (f.lsv.get l).cfg.cadence
  | .group g => (f.cnc.groups.get g).cadence
  | .hoot _ => 0

/-- Whether a handset's stack holds a recalled entry for a bridge. -/
def holdsRecalled (w : Work) (h : HandsetNo) (b : BridgeNo) : Bool :=
  (w.handset h).stack.any (fun e => e.bridge = b && e.recalled)

/-- After a recalled entry has left a stack: the RECALL alert goes when no other recalled entry for the bridge remains at
the position (R67). -/
def clearRecall (h : HandsetNo) (b : BridgeNo) (wasRecalled : Bool) (w : Work) : Work :=
  let p := handsetPosition h
  if wasRecalled && !holdsRecalled w (handsetA p) b && !holdsRecalled w (handsetB p) b then
    removeAlerts b [p] coversRecall .cleared w
  else w

/-- Mark a hold stack entry recalled, with HOLD_RECALL and a RECALL alert (R64, R83, R84). An entry already recalled, or
gone, is left as it is. -/
def recallEntry (h : HandsetNo) (b : BridgeNo) (cause : RecallCause) (w : Work) : Work :=
  let r := w.handset h
  match r.stack.find? (fun e => e.bridge = b && !e.recalled) with
  | none => w
  | some e =>
    let stack := r.stack.map (fun x => if x.bridge = b then { x with recalled := true } else x)
    let w1 := (w.putHandset h { r with stack := stack }).note (.holdRecall h b cause e.holdFrame)
    (addAlert (handsetPosition h) b .recall (bridgeCadence w1.floor b) w1).1

end Sys2Proof.Machine
end

