-- ==== Sys2Proof/Machine/Speakers.lean ====
section
/-! DEFINITION. Chapter 8: pops, pushes and endings of announcements, and the removal of a channel's member from outside. -/

namespace Sys2Proof.Machine

/-- The member of an entry is removed, if the entry has one (R124, R128, R129). -/
def Work.dropMember (m : Option SlotNo) (w : Work) : Work := match m with
  | some sl => w.removeAndCut sl
  | none => w

/-- The member of an entry that becomes current takes the mode that R123 gives it (R128). -/
def Work.judgeMember (m : Option SlotNo) (p : PositionNo) (w : Work) : Work := match m with
  | none => w
  | some sl => match slotBridge w.cnc sl with
    | none => w
    | some b => w.setModeAndCut sl (speakerMode w.floor b p)

/-- A pop of a channel (R128): the current member goes, the top saved entry becomes current with its member's mode judged
afresh, and the channel ramps from 0. Only a channel with saved entries is popped. -/
def popChannel (p : PositionNo) (c : ChannelNo) (w : Work) : Work :=
  let r := w.channel p c
  match r.stack with
  | [] => w
  | top :: rest =>
    (((w.dropMember r.current.member).putChannel p c { current := top, stack := rest }).zeroGain p c).judgeMember
      top.member p

/-- What an ending does on one channel: the entry was current (popped), saved (removed from the middle), or not there
(R129). -/
inductive EndingAt | current | saved | none
  deriving DecidableEq, Repr

def isAnnouncementOf (s : BridgeNo) (e : ChannelEntry) : Bool := e.origin = .announced && e.source = some s

def endingAt (s : BridgeNo) (r : ChannelRec) : EndingAt :=
  if isAnnouncementOf s r.current then .current
  else if r.stack.any (isAnnouncementOf s) then .saved
  else .none

/-- The running result of an ending: channels affected and the positions where one was (R130). -/
structure Ending where
  work : Work
  count : Nat
  mask : Word

/-- The ending of a source's announcements on one channel (R129); with `journal` the note of R131 is handed. -/
def endChannel (s : BridgeNo) (journal : Bool) (acc : Ending) (x : PositionNo × ChannelNo) : Ending :=
  let r := acc.work.channel x.1 x.2
  match endingAt s r with
  | .none => acc
  | .current =>
    let w := popChannel x.1 x.2 acc.work
    { work := if journal then w.note (.announceEnd x.1 x.2 s false) else w
      count := acc.count + 1, mask := acc.mask ||| maskOf x.1 }
  | .saved =>
    let gone := r.stack.find? (isAnnouncementOf s)
    let w := (acc.work.putChannel x.1 x.2
      { r with stack := r.stack.filter (fun e => !isAnnouncementOf s e) }).dropMember (gone.bind ChannelEntry.member)
    { work := if journal then w.note (.announceEnd x.1 x.2 s true) else w
      count := acc.count + 1, mask := acc.mask ||| maskOf x.1 }

/-- Every position in ascending number and, within a position, every channel in ascending number (R129). -/
def allChannels : List (PositionNo × ChannelNo) :=
  (List.finRange 32).flatMap (fun p => (List.finRange 8).map (fun c => (p, c)))

/-- An ending of the announcements of a source bridge (R129). -/
def endAnnouncements (s : BridgeNo) (journal : Bool) (w : Work) : Ending :=
  allChannels.foldl (endChannel s journal) { work := w, count := 0, mask := 0 }

/-- A source ends on its own (R131). -/
def sourceEnds (s : BridgeNo) (w : Work) : Work := (endAnnouncements s true w).work

/-- Set an entry's source and member to none when its member is the one that has been removed (R124). -/
def ChannelEntry.lose (sl : SlotNo) (e : ChannelEntry) : ChannelEntry :=
  if e.member = some sl then { e with source := none, member := none } else e

/-- A SPEAKER member of an ASSIGNED entry is removed by a cause outside chapter 8 (R124): its entry keeps its place with
source and member none, and a current entry's channel falls to gain 0. -/
def loseSpeaker (sl : SlotNo) (p : PositionNo) (c : ChannelNo) (w : Work) : Work :=
  let w1 := w.removeAndCut sl
  let r := w1.channel p c
  let wasCurrent : Bool := r.current.member = some sl
  let w2 := w1.putChannel p c { current := r.current.lose sl, stack := r.stack.map (ChannelEntry.lose sl) }
  if wasCurrent then w2.zeroGain p c else w2

/-- The slot of a position's SPEAKER member on a bridge when it stands in an entry placed by ASSIGN_SPEAKER, current or
base (R94, R108). -/
def assignedSpeaker (w : Work) (b : BridgeNo) (p : PositionNo) : Option (SlotNo × ChannelNo) :=
  match speakerMember w.cnc b p with
  | none => none
  | some (sl, m) => match m.speaker? with
    | none => none
    | some (_, c) =>
      let r := w.channel p c
      if (r.current :: r.stack).any (fun e => e.origin = .assigned && e.member = some sl) then some (sl, c) else none

/-- A position removed from a roster loses its assigned SPEAKER member on the bridge (R94, R108). -/
def loseAssignedSpeaker (b : BridgeNo) (p : PositionNo) (w : Work) : Work := match assignedSpeaker w b p with
  | none => w
  | some (sl, c) => loseSpeaker sl p c w

/-- Whether an announcement's priority is admitted over a channel's current priority (R126). -/
def admits (nesting : Nesting) (current priority : Nat) : Bool := match nesting with
  | .higherOnly => current < priority
  | .equalOrHigher => current ≤ priority

/-- The member of an entry that is preempted becomes SUSPENDED, if the entry has one (R127). -/
def Work.suspendMember (m : Option SlotNo) (w : Work) : Work := match m with
  | some sl => w.setModeAndCut sl .suspended
  | none => w

/-- A push at a position's channel (R127); the caller has found a free slot. -/
def pushChannel (p : PositionNo) (c : ChannelNo) (s : BridgeNo) (priority : Nat) (w : Work) : Work :=
  let r := w.channel p c
  let w1 := w.suspendMember r.current.member
  match w1.create (.speaker p c) s (speakerMode w1.floor s p) with
  | none => w1
  | some (w2, sl) =>
    let entry : ChannelEntry :=
      { source := some s, origin := .announced, priority := priority, target := r.current.target,
        side := r.current.side, member := some sl }
    (reevalCut s (w2.putChannel p c { current := entry, stack := r.current :: r.stack })).zeroGain p c

/-- How ANNOUNCE finds one position (R126): the first row that applies. -/
inductive Reach | already | no | push
  deriving DecidableEq, Repr

def announceReach (p : PositionNo) (s : BridgeNo) (priority : Nat) (w : Work) : Reach :=
  let settings := w.settings p
  let r := w.channel p settings.announceChannel
  match speakerMember w.cnc s p with
  | some (_, m) => if m.mode = .active then .already else .no
  | none =>
    if !admits settings.nesting r.current.priority priority then .no
    else if Config.preemptDepth ≤ r.stack.length then .no
    else if (freeSlot w.cnc).isNone then .no
    else .push

/-- ANNOUNCE at one position, gathering the mask of positions reached (R125, R126). -/
def announceAt (s : BridgeNo) (priority : Nat) (acc : Work × Word) (p : PositionNo) : Work × Word :=
  match announceReach p s priority acc.1 with
  | .no => acc
  | .already => (acc.1, acc.2 ||| maskOf p)
  | .push => (pushChannel p (acc.1.settings p).announceChannel s priority acc.1, acc.2 ||| maskOf p)

end Sys2Proof.Machine
end

