-- ==== Sys2Proof/Machine/Reevaluation.lean ====
section
/-! DEFINITION. The bridge re-evaluation after a handset membership change (R12): privacy cut, line state from membership
(R42), group state (R95, R101). -/

namespace Sys2Proof.Machine

/-- The code as a kind reads it (section 3.4 of chapter 3). -/
def effective (kind : LineKind) (c : Code) : Code := match kind, c with
  | .signalled, .ring => .seize
  | .signalled, c => c
  | .knock, .seize => .quiet
  | .knock, c => c
  | .opened, .fault => .fault
  | .opened, _ => .quiet

/-- The numbers of ACTIVE and of HELD handset members of a bridge. -/
def handsetCounts (c : Cnc) (b : BridgeNo) : Nat × Nat :=
  let ms := handsetMembers c b
  (ms.countP (fun x => x.2.2 = .active), ms.countP (fun x => x.2.2 = .held))

/-- "By modes": CONNECTED with an ACTIVE member, HELD when all members are HELD, IDLE with none (R42). -/
def byModes (active held : Nat) : LineState :=
  if 0 < active then .connected else if 0 < held then .held else .idle

/-- The line state that membership gives (R42). -/
def membershipState (kind : LineKind) (eff : Code) (before : LineState) (active held : Nat) : LineState :=
  let joined : Bool := 0 < active + held
  match before with
  | .idle =>
    if joined then (if kind = .signalled ∧ eff ≠ .seize then .outgoing else .connected) else .idle
  | .alerting => if joined then .connected else .alerting
  | .outgoing => if joined then .outgoing else .idle
  | .clearing => if joined then .clearing else .idle
  | .connected => byModes active held
  | .held => byModes active held
  | .fault => .fault
  | .test => .test
  | .leg => .leg
  | .disabled => .disabled

/-- Step 2 for a line (R42): answering a KNOCK line stops its knock timer. -/
def lineMembership (l : LineNo) (w : Work) : Work :=
  let r := w.line l
  let n := handsetCounts w.cnc (lineBridge l)
  let after := membershipState r.cfg.kind (effective r.cfg.kind r.accepted) r.state n.1 n.2
  w.putLine l { r with
    state := after
    knock := if r.state = .alerting ∧ after ≠ .alerting then none else r.knock }

/-- The group state of a number of handset members (R95). -/
def groupStateOf (n : Nat) : GroupState := if n = 0 then .idle else if n = 1 then .calling else .active

/-- A group's INTERCOM alerts are removed everywhere, its alerted set becomes empty and its timer stops (R99). -/
def endIntercom (g : GroupNo) (positions : List PositionNo) (reason : AlertEnd) (w : Work) : Work :=
  let w1 := removeAlerts (groupBridge g) positions coversIntercom reason w
  w1.putGroup g { w1.group g with timer := none, alerted := 0 }

/-- Step 3 for a group (R95); a group that becomes IDLE ends its alerts and its announcements (R101). -/
def groupMembership (g : GroupNo) (w : Work) : Work :=
  let r := w.group g
  let n := (handsetMembers w.cnc (groupBridge g)).length
  let after := groupStateOf n
  if after = r.state then w
  else
    let w1 := (w.putGroup g { r with state := after }).note (.groupState g r.state after n)
    if after = .idle then sourceEnds (groupBridge g) (endIntercom g allPositions .abandoned w1) else w1

/-- The re-evaluation of a bridge after a HANDSET join, removal or mode change (R12). With `hold` LSV keeps the line state
as it was while the removals run (R43). -/
def reevalHandset (hold : Bool) (b : BridgeNo) (w : Work) : Work := match bridgeKind b with
  | .line l => if hold then cutStep l w else lineMembership l (cutStep l w)
  | .group g => groupMembership g w
  | .hoot _ => w

/-- Remove a HANDSET member with its re-evaluation (R11). -/
def removeHandsetMember (hold : Bool) (sl : SlotNo) (w : Work) : Work := match slotBridge w.cnc sl with
  | none => w
  | some b => reevalHandset hold b (w.remove sl)

/-- Change a HANDSET member's mode with its re-evaluation (R4). -/
def setHandsetMode (sl : SlotNo) (mode : Mode) (w : Work) : Work := match slotBridge w.cnc sl with
  | none => w
  | some b => reevalHandset false b (w.setMode sl mode)

/-- A held entry leaves a stack with its HELD member (R82): HOLD_DROPPED when a cause is given, the entry, the member with
its re-evaluation, and the RECALL alert (R67). -/
def dropHeldEntry (hold : Bool) (h : HandsetNo) (b : BridgeNo) (cause : Option DropCause) (w : Work) : Work :=
  let r := w.handset h
  match r.stack.find? (fun e => e.bridge = b) with
  | none => w
  | some e =>
    let w1 := match cause with
      | some c => w.note (.holdDropped h b c e.holdFrame e.recalled)
      | none => w
    let w2 := w1.putHandset h { r with stack := r.stack.filter (fun x => x.bridge ≠ b) }
    let w3 := match handsetSlot w2.cnc b h with
      | some sl => removeHandsetMember hold sl w2
      | none => w2
    clearRecall h b e.recalled w3

/-- The active member of a handset is removed; the handset takes a state (R77). -/
def releaseActive (h : HandsetNo) (after : HandsetState) (w : Work) : Work :=
  let r := w.handset h
  let w1 := w.putHandset h { r with state := after, active := none }
  match r.active with
  | some sl => removeHandsetMember false sl w1
  | none => w1

/-- The active bridge of a handset: the bridge of its active member (R77). -/
def activeBridge (c : Cnc) (h : HandsetNo) : Option BridgeNo :=
  (c.handsets.get h).active.bind (slotBridge c)

/-- The state that SELECT_DONE carries for a bridge (R86). -/
def stateAfter (f : Floor) (b : BridgeNo) : StateAfter := match bridgeKind b with
  | .line l => .line (f.lsv.get l).state
  | .group g => .group (f.cnc.groups.get g).state
  | .hoot _ => .group .idle

end Sys2Proof.Machine
end

