-- ==== Sys2Proof/Machine/Groups.lean ====
section
/-! DEFINITION. Chapter 6: SET_GROUP, the roster's alerting, the alert timeout. -/

namespace Sys2Proof.Machine

/-- How many positions a mask names. -/
def maskCount (m : Word) : Nat := (maskPositions m).length

/-- A mask without one position. -/
def maskWithout (m : Word) (p : PositionNo) : Word := m &&& ~~~(maskOf p)

/-- One roster position alerted by a call (R98): it joins the alerted set when its entry is appended. -/
def alertRosterAt (g : GroupNo) (c : CadenceNo) (acc : Work × Word) (p : PositionNo) : Work × Word :=
  let x := addAlert p (groupBridge g) .intercom c acc.1
  (x.1, if x.2 then acc.2 ||| maskOf p else acc.2)

/-- A call from IDLE alerts the roster other than the caller's position; the timer starts when someone was alerted and the
timeout is not 0 (R98). The result is the mask of positions alerted. -/
def alertRoster (g : GroupNo) (caller : PositionNo) (w : Work) : Work × Word :=
  let r := w.group g
  let x := (maskPositions (maskWithout r.roster caller)).foldl (alertRosterAt g r.cadence) (w, 0#32)
  (x.1.putGroup g { x.1.group g with
    alerted := x.2
    timer := if x.2 ≠ 0#32 ∧ r.timeout ≠ 0 then some (r.timeout * Config.framesPerSecond) else none }, x.2)

/-- A new handset member has joined the group: its call is answered (R96, R99). -/
def answerGroup (g : GroupNo) (w : Work) : Work := endIntercom g allPositions .answered w

/-- A position removed from a roster (R94): its alert, then its assigned speaker member. -/
def rosterRemoval (g : GroupNo) (w : Work) (p : PositionNo) : Work :=
  let w1 :=
    if inMask (w.group g).alerted p then
      let w0 := removeAlerts (groupBridge g) [p] coversIntercom .removed w
      let left := maskWithout (w0.group g).alerted p
      w0.putGroup g { w0.group g with
        alerted := left, timer := if left = 0#32 then none else (w0.group g).timer }
    else w
  loseAssignedSpeaker (groupBridge g) p w1

/-- SET_GROUP (R93). -/
def setGroupOrder (a : SetGroupArgs) (w : Work) : Work × OrderResult := match groupArg a.group, cadenceArg a.cadence with
  | some g, some c =>
    if 8 < maskCount a.roster then refuse .badValue w
    else
      let r := w.group g
      let w1 := w.putGroup g { r with
        roster := a.roster, timeout := clampTo 0 120 a.timeout.toNat, cadence := c }
      let w2 := (maskPositions (r.roster &&& ~~~a.roster)).foldl (rosterRemoval g) w1
      okWith (data1 (GroupState.code (w2.group g).state) ++ data1 (maskCount a.roster)) w2
  | _, _ => refuse .badNumber w

/-- The alert timer has reached 0 (R100). -/
def groupAlertExpiry (g : GroupNo) (w : Work) : Work :=
  let r := w.group g
  if r.timer = some 0 then
    endIntercom g (maskPositions r.alerted) .timeout (w.note (.noAnswer g r.alerted))
  else w

end Sys2Proof.Machine
end

