-- ==== Sys2Proof/Machine/Handsets.lean ====
section
/-! DEFINITION. Chapter 5: SELECT and CALL_GROUP, HOLD, RETRIEVE, RELEASE, DROP_HELD, SET_POSITION, hook changes and recalls.
TPE reads the active bridge from the handset record at each frame, so it need not be told (R86). -/

namespace Sys2Proof.Machine

/-! ### SELECT (R85, R86, R96, R97) -/

/-- Whether a handset can act on calls: its link is UP and it is not ON_HOOK (R85, R88). -/
def offHook (w : Work) (h : HandsetNo) : Bool :=
  (w.link (handsetPosition h)).up && (w.handset h).state ≠ .onHook

/-- The handset members of a bridge, leaving out a HELD member of one handset (R85). -/
def membersBut (c : Cnc) (b : BridgeNo) (h : HandsetNo) : Nat :=
  (handsetMembers c b).countP (fun x => !(x.2.1 = h && x.2.2 = .held))

/-- Whether a handset other than `h` has a member on a bridge. -/
def othersOn (c : Cnc) (b : BridgeNo) (h : HandsetNo) : Bool := (handsetMembers c b).any (fun x => x.2.1 ≠ h)

/-- Step 4 of SELECT's checks (R85, R96): none when the bridge may be joined. -/
def joinCheck (w : Work) (h : HandsetNo) (b : BridgeNo) : Option ResultCode :=
  let p := handsetPosition h
  match bridgeKind b with
  | .line l =>
    let r := w.line l
    if ((w.cnc.appearances.get p).get l).isNone then some .noAppearance
    else if r.state = .disabled ∨ r.state = .fault ∨ r.state = .test ∨ r.state = .leg then some .lineUnavailable
    else if r.cfg.privacy = .exclusive then (if othersOn w.cnc b h then some .linePrivate else none)
    else if Config.sharedMembers ≤ membersBut w.cnc b h then some .lineBusy
    else none
  | .group g =>
    if !inMask (w.group g).roster p then some .notRostered
    else if Config.groupMembers ≤ membersBut w.cnc b h then some .lineBusy
    else none
  | .hoot _ => some .wrongKind

/-- Whether a bridge is on a handset's stack. -/
def onStack (r : HandsetRec) (b : BridgeNo) : Bool := r.stack.any (fun e => e.bridge = b)

/-- Steps 5 to 7 of SELECT's checks (R85). -/
def roomCheck (w : Work) (h : HandsetNo) (b : BridgeNo) : Option ResultCode :=
  let r := w.handset h
  let retrieve := onStack r b
  let depth := r.stack.length - (if retrieve then 1 else 0)
  if r.active.isSome ∧ (w.settings (handsetPosition h)).autoHold ∧ Config.holdDepth ≤ depth then some .holdFull
  else if !retrieve && (freeSlot w.cnc).isNone then some .poolFull
  else none

/-- Push an entry on a handset's stack (R82). -/
def pushHeld (h : HandsetNo) (b : BridgeNo) (w : Work) : Work :=
  let r := w.handset h
  w.putHandset h { r with stack := { bridge := b, holdFrame := w.frame, recalled := false } :: r.stack }

/-- The active member becomes HELD and is pushed; the handset takes a state (R87). -/
def holdActive (h : HandsetNo) (after : HandsetState) (w : Work) : Work :=
  let r := w.handset h
  match r.active, activeBridge w.cnc h with
  | some sl, some b =>
    setHandsetMode sl .held
      (pushHeld h b (w.putHandset h { r with state := after, active := none }))
  | _, _ => w

/-- The current member of a CONNECTED handset is displaced: HELD with auto-hold, removed without (R85, R86). -/
def displace (h : HandsetNo) (w : Work) : Work × Displaced := match activeBridge w.cnc h with
  | none => (w, .none)
  | some b =>
    if (w.settings (handsetPosition h)).autoHold then (holdActive h .idle w, .held b)
    else (releaseActive h .idle w, .released b)

/-- The entry for a bridge leaves a stack by retrieve, with its RECALL alert (R82, R86); its member stays for now. -/
def popEntry (h : HandsetNo) (b : BridgeNo) (w : Work) : Work :=
  let r := w.handset h
  let recalled := r.stack.any (fun e => e.bridge = b && e.recalled)
  clearRecall h b recalled (w.putHandset h { r with stack := r.stack.filter (fun e => e.bridge ≠ b) })

/-- The handset is CONNECTED on a member (R86, step 5). -/
def connect (h : HandsetNo) (sl : SlotNo) (w : Work) : Work :=
  w.putHandset h { w.handset h with state := .connected, active := some sl }

/-- A handset's HELD member on a bridge becomes ACTIVE again (R86, R88). -/
def reviveMember (h : HandsetNo) (b : BridgeNo) (w : Work) : Work := match handsetSlot w.cnc b h with
  | none => w
  | some sl => connect h sl (setHandsetMode sl .active w)

/-- Step 4 of SELECT for a new member: the alerts of the bridge are answered (R86, R96). -/
def answerBridge (b : BridgeNo) (w : Work) : Work := match bridgeKind b with
  | .line _ => removeAlerts b allPositions coversLine .answered w
  | .group g => answerGroup g w
  | .hoot _ => w

/-- A new ACTIVE member joins a bridge and its alerts are answered (R86, steps 3 to 5). -/
def joinNew (h : HandsetNo) (b : BridgeNo) (w : Work) : Work := match w.create (.handset h) b .active with
  | none => w
  | some (w1, sl) => connect h sl (answerBridge b (reevalHandset false b w1))

/-- Which group CALL_GROUP would ring: the one that is IDLE when the order is taken (R97). -/
def ringsGroup (call : Bool) (b : BridgeNo) (w : Work) : Option GroupNo := match bridgeKind b with
  | .group g => if call ∧ (w.group g).state = .idle then some g else none
  | .line _ => none
  | .hoot _ => none

/-- The order's own alerts (R97, R98), with the mask of positions alerted. -/
def callAlerts (ring : Option GroupNo) (h : HandsetNo) (w : Work) : Work × Word := match ring with
  | some g => alertRoster g (handsetPosition h) w
  | none => (w, 0#32)

/-- What a join has done: the event, the displaced call and the mask alerted. -/
structure Joined where
  work : Work
  displaced : Displaced
  alerted : Word

/-- A checked SELECT or CALL_GROUP carried out (R86, R97). -/
def performSelect (h : HandsetNo) (b : BridgeNo) (notify call : Bool) (w : Work) : Joined :=
  let retrieve := onStack (w.handset h) b
  let ring := ringsGroup call b w
  let w1 := if retrieve then popEntry h b w else w
  let d := displace h w1
  let w2 := if retrieve then reviveMember h b d.1 else joinNew h b d.1
  let a := callAlerts ring h w2
  let w3 := if notify then a.1.note (.selectDone h b (stateAfter a.1.floor b) retrieve d.2) else a.1
  { work := w3, displaced := d.2, alerted := a.2 }

/-- The result data of SELECT: stack depth and displaced bridge, and for CALL_GROUP the alerted mask. -/
def selectData (h : HandsetNo) (call : Bool) (j : Joined) : List Byte :=
  data1 (j.work.handset h).stack.length ++ data2 (bridgeField j.displaced.bridge) ++
    (if call then data4 j.alerted.toNat else [])

/-- SELECT and CALL_GROUP of a bridge by a handset (R85, R86, R96, R97). -/
def selectBridge (h : HandsetNo) (b : BridgeNo) (notify call : Bool) (w : Work) : Work × OrderResult :=
  match bridgeKind b with
  | .hoot _ => refuse .wrongKind w
  | _ =>
    if !offHook w h then refuse .onHook w
    else if activeBridge w.cnc h = some b then
      let j : Joined :=
        { work := if notify then w.note (.selectDone h b (stateAfter w.floor b) false .none) else w
          displaced := .none, alerted := 0 }
      okWith (selectData h call j) j.work
    else match joinCheck w h b with
      | some code => refuse code w
      | none => match roomCheck w h b with
        | some code => refuse code w
        | none =>
          let j := performSelect h b notify call w
          okWith (selectData h call j) j.work

/-- SELECT (R85, R86). -/
def selectOrder (handset : Byte) (bridge : Half) (notify : Bool) (w : Work) : Work × OrderResult :=
  match handsetArg handset, bridgeArg bridge with
  | some h, some b => selectBridge h b notify false w
  | _, _ => refuse .badNumber w

/-- CALL_GROUP (R97). -/
def callGroupOrder (handset group : Byte) (notify : Bool) (w : Work) : Work × OrderResult :=
  match handsetArg handset, groupArg group with
  | some h, some g => selectBridge h (groupBridge g) notify true w
  | _, _ => refuse .badNumber w

/-! ### HOLD, RETRIEVE, RELEASE, DROP_HELD (R87 to R89) -/

/-- The depth of a handset's stack, as result data. -/
def depthData (w : Work) (h : HandsetNo) : List Byte := data1 (w.handset h).stack.length

/-- HOLD (R87); its refusals are tried in the order in which R87 names them (DESIGN CHOICE, entry 40). -/
def holdOrder (handset : Byte) (w : Work) : Work × OrderResult := match handsetArg handset with
  | none => refuse .badNumber w
  | some h =>
    if (activeBridge w.cnc h).isNone then refuse .notConnected w
    else if Config.holdDepth ≤ (w.handset h).stack.length then refuse .holdFull w
    else
      let w1 := holdActive h .idle w
      okWith (depthData w1 h) w1

/-- RETRIEVE (R88); its refusals are tried in the order in which R88 names them (DESIGN CHOICE, entry 40). -/
def retrieveOrder (handset : Byte) (w : Work) : Work × OrderResult := match handsetArg handset with
  | none => refuse .badNumber w
  | some h =>
    if !offHook w h then refuse .onHook w
    else match (w.handset h).stack with
      | [] => refuse .nothingHeld w
      | top :: _ =>
        let w1 := reviveMember h top.bridge (displace h (popEntry h top.bridge w)).1
        okWith (data2 top.bridge.val ++ depthData w1 h) w1

/-- RELEASE (R89). -/
def releaseOrder (handset : Byte) (w : Work) : Work × OrderResult := match handsetArg handset with
  | none => refuse .badNumber w
  | some h => match activeBridge w.cnc h with
    | none => refuse .notConnected w
    | some b => okWith (data2 b.val) (releaseActive h .idle w)

/-- DROP_HELD (R89). -/
def dropHeldOrder (handset : Byte) (bridge : Half) (w : Work) : Work × OrderResult :=
  match handsetArg handset, bridgeArg bridge with
  | some h, some b =>
    if onStack (w.handset h) b then
      let w1 := dropHeldEntry false h b none w
      okWith (depthData w1 h) w1
    else refuse .nothingHeld w
  | _, _ => refuse .badNumber w

/-! ### SET_POSITION (R80, R81) -/

/-- The settings that SET_POSITION's fields spell, clamped; or the code that refuses them, in the order of R80's table. -/
def settingsOf (a : SetPositionArgs) : Settings ⊕ ResultCode := match onOffArg a.autoHold with
  | none => .inr .badValue
  | some autoHold => match ringerSideArg a.ringerSide with
    | none => .inr .badValue
    | some ringerSide => match channelArg a.announceChannel with
      | none => .inr .badNumber
      | some announceChannel => match nestingArg a.nesting with
        | none => .inr .badValue
        | some nesting => .inl
          { autoHold := autoHold, recallTime := clampTo 0 600 a.recallTime.toNat, volumeA := gainArg a.volumeA,
            volumeB := gainArg a.volumeB, micGainA := gainArg a.micGainA, micGainB := gainArg a.micGainB,
            deskGain := gainArg a.deskGain, sideLeft := gainArg a.sideLeft, sideRight := gainArg a.sideRight,
            ringerSide := ringerSide, ringAmplitude := ringAmplitudeArg a.ringAmplitude,
            halfPeriod := clampTo 2 64 a.halfPeriod.toNat, announceChannel := announceChannel, nesting := nesting }

/-- Whether a channel of a position has saved entries (R81). -/
def anyPreempted (w : Work) (p : PositionNo) : Bool :=
  (List.finRange 8).any (fun c => !(w.channel p c).stack.isEmpty)

/-- SET_POSITION (R81). -/
def setPositionOrder (a : SetPositionArgs) (w : Work) : Work × OrderResult := match positionArg a.position with
  | none => refuse .badNumber w
  | some p => match settingsOf a with
    | .inr code => refuse code w
    | .inl s =>
      if s.nesting ≠ (w.settings p).nesting ∧ anyPreempted w p then refuse .busy w
      else okWith [] (w.setCnc { w.cnc with settings := w.cnc.settings.set p s })

/-! ### Hook changes and recalls (R78, R83) -/

/-- The accepted state of a handset's hook filter. -/
def hookAccepted (w : Work) (h : HandsetNo) : Bool :=
  if isSideB h then (w.link (handsetPosition h)).hookB.accepted else (w.link (handsetPosition h)).hookA.accepted

/-- A filtered hook change (R78). -/
def hookChange (h : HandsetNo) (w : Work) : Work :=
  let r := w.handset h
  if hookAccepted w h then
    if r.state = .onHook then (w.putHandset h { r with state := .idle }).note (.hook h true none) else w
  else if r.state = .onHook then w
  else releaseActive h .onHook (w.note (.hook h false (activeBridge w.cnc h)))

/-- Whether a stack entry has waited the recall time (R83). -/
def recallDue (recallTime : Nat) (frame : Word) (e : HoldEntry) : Bool :=
  !e.recalled && recallTime ≠ 0 && decide (recallTime * Config.framesPerSecond ≤ (frame - e.holdFrame).toNat)

/-- A recall expiry (R83). -/
def recallExpiry (h : HandsetNo) (b : BridgeNo) (w : Work) : Work :=
  let time := (w.settings (handsetPosition h)).recallTime
  if (w.handset h).stack.any (fun e => e.bridge = b && recallDue time w.frame e) then recallEntry h b .timer w else w

end Sys2Proof.Machine
end

