-- ==== Sys2Proof/Machine/Termination.lean ====
section
/-! DEFINITION. Chapter 2: the sequence check, the receive queue, the take, concealment, FLUSH, and the termination record
at each change of the line. -/

namespace Sys2Proof.Machine

/-! ### Counters (R31) -/

def inc16 (n : Nat) : Nat := holdAdd hold16 n 1

/-! ### Arrival: sequence check and queue (R22 to R24) -/

/-- What the sequence check says of an arrival (R22). -/
inductive SeqCheck
  | accept (placeholders : Nat)
  | duplicate
  | resync (expected : Byte)
  deriving DecidableEq, Repr

/-- R22: differences are taken modulo 256. -/
def sequenceCheck (last : Option Byte) (a : Byte) : SeqCheck := match last with
  | none => .accept 0
  | some s =>
    if a = s + 1 then .accept 0
    else if a = s + 2 then .accept 1
    else if a = s + 3 then .accept 2
    else if a = s then .duplicate
    else .resync (s + 1)

/-- Whether a queue entry is a parcel; a parcel that is queued closes the overflow episode (R23). -/
def QEntry.isParcel : QEntry → Bool
  | .parcel _ _ => true
  | .placeholder => false

/-- Offer one entry to the queue (R23); the result also says whether the drop opened the overflow episode. -/
def TermRec.offer (t : TermRec) (e : QEntry) : TermRec × Bool :=
  if t.queue.length < Config.queuePlaces then
    ({ t with queue := t.queue ++ [e], episode := t.episode && !e.isParcel }, false)
  else
    ({ t with counters := { t.counters with overflow := inc16 t.counters.overflow }, episode := true }, !t.episode)

/-- Empty the queue to re-prime it (R33); the first-priming flag, the last output and the counters are kept. -/
def TermRec.flush (t : TermRec) : TermRec :=
  { t with queue := [], playing := false, lastSeq := none, episode := false }

/-- What an arrival does to the record and the notes it would raise outside FAULT, and whether its code goes to the
filter (R20, R22 to R24). -/
structure Arrived where
  term : TermRec
  notes : List NoteBody
  filtered : Bool

/-- The note of an overflow that opened the episode, with the counter after the drop (R23). -/
def overflowNote (l : LineNo) (x : TermRec × Bool) : List NoteBody :=
  if x.2 then [.rxOverflow l x.1.counters.overflow] else []

/-- An arrival for a line that is not in TEST (R22). -/
def TermRec.arrive (l : LineNo) (t : TermRec) (seq : Byte) (err : Bool) (samples : Block) : Arrived :=
  match sequenceCheck t.lastSeq seq with
  | .duplicate =>
    { term := { t with counters := { t.counters with duplicate := inc16 t.counters.duplicate } }
      notes := []
      filtered := false }
  | .resync expected =>
    { term := { t with
        queue := [.parcel samples err], playing := false, lastSeq := some seq, episode := false
        counters := { t.counters with resync := inc16 t.counters.resync } }
      notes := [.rxResync l expected seq]
      filtered := true }
  | .accept 0 =>
    let x := TermRec.offer { t with lastSeq := some seq } (.parcel samples err)
    { term := x.1, notes := overflowNote l x, filtered := true }
  | .accept 1 =>
    let x := TermRec.offer { t with lastSeq := some seq } .placeholder
    let y := TermRec.offer x.1 (.parcel samples err)
    { term := y.1, notes := overflowNote l x ++ overflowNote l y, filtered := true }
  | .accept _ =>
    let x := TermRec.offer { t with lastSeq := some seq } .placeholder
    let y := TermRec.offer x.1 .placeholder
    let z := TermRec.offer y.1 (.parcel samples err)
    { term := z.1, notes := overflowNote l x ++ overflowNote l y ++ overflowNote l z, filtered := true }

/-! ### The take (R25 to R29) -/

/-- The smaller of the prime threshold plus 6 and 15 (R25). -/
def trimMark (prime : Nat) : Nat := min (prime + 6) 15

/-- Concealment: each sample s becomes floor((s + 1) / 2) (R28). -/
def halve (s : Sample) : Sample := BitVec.ofInt 16 ((s.toInt + 1) / 2)

/-- The block and origin that a queue entry yields after the last output (R28). -/
def entryOutput (e : QEntry) (lastOrigin : Origin) (lastBlock : Block) : Block × Origin := match e with
  | .parcel samples false => (samples, .good)
  | .parcel _ true => if lastOrigin = .good then (lastBlock.map halve, .concealed) else (silence, .silent)
  | .placeholder => if lastOrigin = .good then (lastBlock.map halve, .concealed) else (silence, .silent)

/-- Whether an entry counts as errored (R21). -/
def QEntry.errored : QEntry → Bool
  | .parcel _ err => err
  | .placeholder => true

/-- Deliver one entry: the output becomes the last output; an errored take counts (R28). -/
def TermRec.deliver (t : TermRec) (e : QEntry) : TermRec :=
  let out := entryOutput e t.lastOrigin t.lastBlock
  { t with
    lastBlock := out.1, lastOrigin := out.2
    errored := if e.errored then holdAdd 255 t.errored 1 else 0
    counters := if e.errored then { t.counters with concealed := inc16 t.counters.concealed } else t.counters }

/-- A frame in which nothing leaves the queue: silence with origin SILENT (R25, R27). -/
def TermRec.silent (t : TermRec) : TermRec := { t with lastBlock := silence, lastOrigin := .silent }

/-- A take in PLAYING (R26, R27); the result also says whether it was an underflow. -/
def TermRec.takePlaying (prime : Nat) (t : TermRec) : TermRec × Bool :=
  let trimmed : TermRec :=
    if trimMark prime ≤ t.queue.length then
      { t with queue := t.queue.tail, counters := { t.counters with slip := inc16 t.counters.slip } }
    else t
  match trimmed.queue with
  | [] =>
    (({ t with playing := false, counters := { t.counters with underflow := inc16 t.counters.underflow } } :
      TermRec).silent, true)
  | e :: rest => (TermRec.deliver { trimmed with queue := rest } e, false)

/-- The take of one frame event (R25). -/
def TermRec.take (prime : Nat) (t : TermRec) : TermRec × Bool :=
  if t.playing then t.takePlaying prime
  else if t.queue.length < prime then (t.silent, false)
  else TermRec.takePlaying prime { t with playing := true, first := false }

/-- The delivered block of a line with its origin and the queue state after the take (R29). -/
structure Delivered where
  block : Block
  origin : Origin
  playing : Bool
  deriving DecidableEq, Repr

/-- The take of a line in a line state (R27, R29): a DISABLED line's queue is not touched, a FAULT line delivers silence;
the flag says whether RX_UNDERFLOW is journalled, which FAULT and TEST withhold. -/
structure LineTake where
  term : TermRec
  delivered : Delivered
  underflow : Bool

def takeLine (state : LineState) (prime : Nat) (t : TermRec) : LineTake := match state with
  | .disabled => { term := t, delivered := { block := silence, origin := .silent, playing := t.playing }, underflow := false }
  | .fault =>
    let x := t.take prime
    { term := x.1, delivered := { block := silence, origin := .silent, playing := x.1.playing }, underflow := false }
  | .test =>
    let x := t.take prime
    { term := x.1, delivered := { block := x.1.lastBlock, origin := x.1.lastOrigin, playing := x.1.playing },
      underflow := false }
  | _ =>
    let x := t.take prime
    { term := x.1, delivered := { block := x.1.lastBlock, origin := x.1.lastOrigin, playing := x.1.playing },
      underflow := x.2 }

/-! ### Loopback and the other changes of the line (R30, R36) -/

/-- A line in TEST takes its own transmit block as a parcel, without sequence check (R30): appended, it closes an overflow
episode (R23); dropped, it counts without an episode or a note. -/
def TermRec.loop (t : TermRec) (block : Block) : TermRec :=
  if t.queue.length < Config.queuePlaces then { t with queue := t.queue ++ [.parcel block false], episode := false }
  else { t with counters := { t.counters with overflow := inc16 t.counters.overflow } }

/-- LOOP_TEST empties the queue and sets PRIMING (R30). -/
def TermRec.startLoop (t : TermRec) : TermRec := { t with queue := [], playing := false }

/-- END_TEST and exit from FAULT (R30): the consecutive errored count and the counters are kept. -/
def TermRec.reprime (t : TermRec) : TermRec :=
  { t with queue := [], playing := false, first := true, lastSeq := none, episode := false, lastBlock := silence,
           lastOrigin := .silent }

/-- R36: the row "end of STOPPING". -/
def TermRec.stop (t : TermRec) : TermRec := .cleared t.counters

/-- R36: the rows that set the counters to 0 too. -/
def TermRec.fresh : TermRec := .cleared .zero

end Sys2Proof.Machine
end

