-- ==== Sys2Proof/Machine/Supervisor.lean ====
section
/-! DEFINITION. Chapter 3: SET_LINE, the signalling filter and accepted changes, FAULT, the knock timer, ring-out, loopback,
and a line's passage into and out of LEG. -/

namespace Sys2Proof.Machine

/-! ### Ring-out (R47) -/

/-- The cycles of a ring-out completed so far. -/
def RingOut.cyclesDone (x : RingOut) : Nat := x.repeats - x.cyclesLeft

/-- A running ring-out ends with RING_OUT_DONE and its record is cleared (R47, R50). -/
def endRingOut (l : LineNo) (reason : RingOutEnd) (w : Work) : Work := match (w.line l).ringOut with
  | none => w
  | some x => (w.putLine l { w.line l with ringOut := none }).note (.ringOutDone l reason x.cyclesDone)

/-- Whether every phase of a cadence is 0 frames. -/
def allZero (segments : List (Nat × Nat)) : Bool := segments.all (fun x => x.1 = 0 && x.2 = 0)

/-- The next phase of a ring-out, taken when the frames left have reached 0 (R47). -/
def RingOut.advance (x : RingOut) : RingOut :=
  if x.on then { x with on := false, framesLeft := (segmentAt x.segments x.segment).2 }
  else if x.segment + 1 < x.segments.length then
    { x with segment := x.segment + 1, on := true, framesLeft := (segmentAt x.segments (x.segment + 1)).1 }
  else
    { x with segment := 0, on := true, framesLeft := (segmentAt x.segments 0).1, cyclesLeft := x.cyclesLeft - 1 }

/-- Pass over phases of 0 frames, at most `fuel` of them; a ring-out with no cycle left is complete. -/
def RingOut.passZero : Nat → RingOut → RingOut
  | 0, x => x
  | fuel + 1, x => if x.framesLeft = 0 ∧ 0 < x.cyclesLeft then RingOut.passZero fuel x.advance else x

/-- Pass over every phase that has run out (R47). A cadence whose phases are all 0 completes all its cycles. Nine phases
reach a phase with frames, or the end of the last cycle, since a cadence has at most four segments. -/
def RingOut.settle (x : RingOut) : RingOut :=
  if allZero x.segments then { x with cyclesLeft := 0 } else x.passZero 9

/-- Store a ring-out that has passed over its ended phases; it completes when no cycle is left (R47). -/
def putRingOut (l : LineNo) (x : RingOut) (w : Work) : Work :=
  let w1 := w.putLine l { w.line l with ringOut := some x }
  if x.cyclesLeft = 0 then endRingOut l .complete w1 else w1

/-- A ring-out phase that has run out advances (R47). -/
def ringoutPhase (l : LineNo) (w : Work) : Work := match (w.line l).ringOut with
  | none => w
  | some x => if x.framesLeft = 0 then putRingOut l x.settle w else w

/-! ### FAULT (R48) -/

/-- Remove a handset's HELD member from a bridge with its stack entry; an ACTIVE one is left. -/
def dropHeldMember (hold : Bool) (b : BridgeNo) (cause : DropCause) (w : Work) (h : HandsetNo) : Work :=
  match (handsetMembers w.cnc b).find? (fun x => x.2.1 = h) with
  | none => w
  | some x => if x.2.2 = .held then dropHeldEntry hold h b (some cause) w else w

/-- Remove a handset's member from a faulted line: an ACTIVE one leaves its handset IDLE, a HELD one takes its stack entry
(R48, step 4). -/
def faultMember (b : BridgeNo) (w : Work) (h : HandsetNo) : Work :=
  match (handsetMembers w.cnc b).find? (fun x => x.2.1 = h) with
  | none => w
  | some x => if x.2.2 = .held then dropHeldEntry false h b (some .fault) w else releaseActive h .idle w

/-- A line enters FAULT (R48). The run length is set to 0 with the candidate (DEDUCED, entry 29). -/
def enterFault (l : LineNo) (cause : FaultCause) (w : Work) : Work :=
  let r := w.line l
  let w1 := (w.putLine l { r with
    state := .fault, cause := cause, accepted := .fault, candidate := none, run := 0, dead := 0, knock := none,
    alertingSince := none }).note (.lineFault l cause r.state)
  let w2 := endRingOut l .aborted w1
  let w3 := if r.state = .alerting then removeAlerts (lineBridge l) allPositions coversLine .fault w2 else w2
  let w4 := sourceEnds (lineBridge l) w3
  (List.finRange 64).foldl (faultMember (lineBridge l)) w4

/-! ### Accepted changes (R40, R43, R44, R46, R49) -/

/-- A SIGNALLED line is seized, or a KNOCK line knocked, in IDLE: ALERTING with its alerts (R43, R44). -/
def enterAlerting (l : LineNo) (knock : Option Nat) (w : Work) : Work :=
  addLineAlerts l (w.putLine l { w.line l with state := .alerting, alertingSince := some w.frame, knock := knock })

/-- The full knock alert time in frames (R44). -/
def knockFrames (cfg : LineConfig) : Nat := cfg.knockTime * Config.framesPerSecond

/-- ALERTING ends unanswered: IDLE, MISSED, and the alerts removed (R43, R45). -/
def endAlerting (l : LineNo) (missed : MissedReason) (reason : AlertEnd) (w : Work) : Work :=
  let r := w.line l
  let w1 := (w.putLine l { r with state := .idle, knock := none }).note (.missed l missed r.alertingSince)
  removeAlerts (lineBridge l) allPositions coversLine reason w1

/-- The far end clears a CONNECTED or HELD line (R43): its HELD members go in handset-number order with the state held, then
the line is CLEARING if an ACTIVE member remains, else IDLE. -/
def farEndClear (l : LineNo) (w : Work) : Work :=
  let w1 := (List.finRange 64).foldl (dropHeldMember true (lineBridge l) .cleared) w
  w1.putLine l { w1.line l with
    state := if 0 < (handsetCounts w1.cnc (lineBridge l)).1 then .clearing else .idle }

/-- The state of a line with members by their modes (R42, R43). -/
def toModes (l : LineNo) (w : Work) : Work :=
  let n := handsetCounts w.cnc (lineBridge l)
  w.putLine l { w.line l with state := byModes n.1 n.2 }

/-- An accepted effective SEIZE on a SIGNALLED line (R43). -/
def signalledSeize (l : LineNo) (w : Work) : Work := match (w.line l).state with
  | .idle => enterAlerting l none w
  | .outgoing => toModes l w
  | .clearing => toModes l w
  | _ => w

/-- An accepted effective QUIET on a SIGNALLED line (R43). -/
def signalledQuiet (l : LineNo) (w : Work) : Work := match (w.line l).state with
  | .alerting => endAlerting l .abandoned .abandoned w
  | .connected => farEndClear l w
  | .held => farEndClear l w
  | _ => w

/-- A knock on a held line recalls its held entries in handset-number order (R84). -/
def recallHeld (l : LineNo) (w : Work) : Work :=
  (List.finRange 64).foldl (fun w h => recallEntry h (lineBridge l) .knock w) w

/-- The trailing edge of a knock (R44). -/
def trailingEdge (l : LineNo) (w : Work) : Work :=
  let r := w.line l
  match r.state with
  | .idle => enterAlerting l (some (knockFrames r.cfg)) w
  | .alerting => w.putLine l { r with knock := some (knockFrames r.cfg) }
  | .connected => w.note (.knock l .connected)
  | .held => recallHeld l (w.note (.knock l .held))
  | _ => w

/-- An accepted non-FAULT code on a line in FAULT (R49): IDLE, the queue re-primed, and the code handled as in IDLE. -/
def exitFault (l : LineNo) (code : Code) (w : Work) : Work :=
  let r := w.line l
  let w1 := (w.putLine l { r with state := .idle, cause := .none, dead := 0 }).putTerm l (w.term l).reprime
  if r.cfg.kind = .signalled ∧ effective r.cfg.kind code = .seize then signalledSeize l w1 else w1

/-- What an accepted change from one code to another does in the states where codes act (R43, R44, R46, R48). -/
def actOnCode (l : LineNo) (before code : Code) (w : Work) : Work :=
  let r := w.line l
  if code = .fault then enterFault l .farEnd w
  else match r.cfg.kind with
    | .signalled =>
      if effective .signalled before = effective .signalled code then w
      else if effective .signalled code = .seize then signalledSeize l w
      else signalledQuiet l w
    | .knock => if before = .ring then trailingEdge l w else w
    | .opened => w

/-- An accepted change: the candidate that has run for the persistence becomes the accepted code and is handled by the
line's kind and state (R40). A line in LEG only keeps its accepted code current (R46). -/
def acceptChange (l : LineNo) (w : Work) : Work :=
  let r := w.line l
  match r.candidate with
  | none => w
  | some code =>
    if r.run < r.cfg.persistence then w
    else
      let w1 := w.putLine l { r with accepted := code, candidate := none, run := 0 }
      match r.state with
      | .disabled => w
      | .test => w
      | .leg => w1
      | .fault => exitFault l code w1
      | _ => actOnCode l r.accepted code w1

/-- One code taken by the filter (R40); a run that reaches the persistence raises the accepted change. -/
def filterCode (l : LineNo) (code : Code) (w : Work) : Work :=
  let r := w.line l
  if code = r.accepted then w.putLine l { r with candidate := none, run := 0 }
  else
    let run := if r.candidate = some code then min 15 (r.run + 1) else 1
    let w1 := w.putLine l { r with candidate := some code, run := run }
    if r.cfg.persistence ≤ run then w1.raise (.accepted l) else w1

/-- The dead counter has reached the dead time (R40, R48). -/
def deadExpiry (l : LineNo) (w : Work) : Work :=
  let r := w.line l
  if r.cfg.deadTime ≤ r.dead ∧ r.state ∈ [.idle, .alerting, .outgoing, .connected, .held, .clearing] then
    enterFault l .dead w
  else w

/-- The knock timer has reached 0 (R45). -/
def knockExpiry (l : LineNo) (w : Work) : Work :=
  let r := w.line l
  if r.knock = some 0 ∧ r.state = .alerting then endAlerting l .timeout .timeout w else w

/-! ### Legs (R46, R110) -/

/-- A line that becomes a leg of a hoot enters LEG; its dead counter is set to 0 (R40). -/
def enterLeg (l : LineNo) (w : Work) : Work := w.putLine l { w.line l with state := .leg, dead := 0 }

/-- A line that is a leg no more returns to IDLE, or to FAULT when its accepted code is FAULT (R46). -/
def leaveLeg (l : LineNo) (w : Work) : Work :=
  let w1 := w.putLine l { w.line l with state := .idle, dead := 0 }
  if (w.line l).accepted = .fault then enterFault l .farEnd w1 else w1

/-! ### Orders -/

/-- SET_LINE's configuration, its numeric fields clamped (R37, R38). -/
def lineConfigOf (a : SetLineArgs) (kind : LineKind) (privacy : Privacy) (cadence : CadenceNo) : LineConfig :=
  { enable := bitArg a.enable, kind := kind, privacy := privacy, rxGain := gainArg a.rxGain, txGain := gainArg a.txGain,
    prime := clampTo 2 12 a.prime.toNat, persistence := clampTo 1 15 a.persistence.toNat,
    deadTime := clampTo 10 1000 a.deadTime.toNat, knockTime := clampTo 1 60 a.knockTime.toNat, cadence := cadence }

/-- Remove every member of a line's bridge in join order; each leaves its channel entry with no member (R39). -/
def removeAllSpeakers (b : BridgeNo) (w : Work) : Work :=
  (membersOf w.cnc b).foldl (fun w x => match x.2.speaker? with
    | some (p, c) => loseSpeaker x.1 p c w
    | none => w) w

/-- A line is enabled (R39, R137): its state part, its termination record, its transmit sequence and its current gains
start afresh. -/
def enableLine (l : LineNo) (cfg : LineConfig) (w : Work) : Work :=
  let w0 := (w.putLine l (.cleared cfg .idle)).putTerm l .fresh
  let w1 := w0.setMxe { w0.mxe with lineGains := w0.mxe.lineGains.set l { rx := cfg.rxGain, tx := cfg.txGain } }
  { w1 with floor := { w1.floor with lhp := { w1.floor.lhp with txSeq := w1.floor.lhp.txSeq.set l 0 } } }

/-- A line is disabled (R39); LSV's own note, RING_OUT_DONE, is handed before CNC's (R54). -/
def disableLine (l : LineNo) (cfg : LineConfig) (w : Work) : Work :=
  let w1 := removeAllSpeakers (lineBridge l) (sourceEnds (lineBridge l) (endRingOut l .aborted w))
  let w2 := (w1.putLine l (.cleared cfg .disabled)).putTerm l .fresh
  { w2 with floor := { w2.floor with lhp := { w2.floor.lhp with txSeq := w2.floor.lhp.txSeq.set l 0 } } }

/-- A configuration written without a change of enable (R38): a change of kind from KNOCK ends a ring-out and stops the
knock timer. -/
def rewriteLine (l : LineNo) (cfg : LineConfig) (w : Work) : Work :=
  if (w.line l).cfg.kind = .knock ∧ cfg.kind ≠ .knock then
    let w1 := endRingOut l .aborted w
    w1.putLine l { w1.line l with cfg := cfg, knock := none }
  else w.putLine l { w.line l with cfg := cfg }

/-- The states in which enable, kind and privacy may change (R38). -/
def LineState.mayReconfigure (s : LineState) : Bool := s = .disabled || s = .idle || s = .fault

/-- SET_LINE on a line whose fields are in range (R38, R39). -/
def writeLine (l : LineNo) (cfg : LineConfig) (w : Work) : Work × OrderResult :=
  let r := w.line l
  let structural : Bool := r.cfg.enable ≠ cfg.enable || r.cfg.kind ≠ cfg.kind || r.cfg.privacy ≠ cfg.privacy
  if structural && !LineState.mayReconfigure r.state then refuse .notIdle w
  else
    let w1 :=
      if cfg.enable && r.state = .disabled then enableLine l cfg w
      else if !cfg.enable && r.state ≠ .disabled then disableLine l cfg w
      else rewriteLine l cfg w
    okWith (data1 (LineState.code (w1.line l).state)) w1

/-- SET_LINE (R38). -/
def setLineOrder (a : SetLineArgs) (w : Work) : Work × OrderResult := match lineArg a.line with
  | none => refuse .badNumber w
  | some l => match lineKindArg a.kind with
    | none => refuse .badValue w
    | some kind => match privacyArg a.privacy with
      | none => refuse .badValue w
      | some privacy => match cadenceArg a.cadence with
        | none => refuse .badNumber w
        | some cadence => writeLine l (lineConfigOf a kind privacy cadence) w

/-- The progress record that a RING_OUT starts (R47). -/
def RingOut.start (c : Cadence) : RingOut :=
  { segments := c.segments, repeats := c.repeats, segment := 0, on := true,
    framesLeft := (segmentAt c.segments 0).1, cyclesLeft := c.repeats }

/-- RING_OUT (R50). -/
def ringOutOrder (line : Half) (cadence : Byte) (w : Work) : Work × OrderResult :=
  match lineArg line, cadenceArg cadence with
  | some l, some c =>
    let r := w.line l
    if r.cfg.kind ≠ .knock then refuse .wrongKind w
    else if r.state = .disabled ∨ r.state = .fault ∨ r.state = .test then refuse .lineUnavailable w
    else if r.state = .alerting then refuse .notIdle w
    else if (w.cnc.cadences.get c).repeats = 0 then refuse .badValue w
    else if r.ringOut.isSome then refuse .busy w
    else okWith [] (w.putLine l { r with ringOut := some (.start (w.cnc.cadences.get c)) })
  | _, _ => refuse .badNumber w

/-- RING_STOP (R50). -/
def ringStopOrder (line : Half) (w : Work) : Work × OrderResult := match lineArg line with
  | none => refuse .badNumber w
  | some l =>
    if (w.line l).cfg.kind ≠ .knock then refuse .wrongKind w
    else if (w.line l).ringOut.isSome then okWith (data1 1) (endRingOut l .stopped w)
    else okWith (data1 0) w

/-- LOOP_TEST (R51); its refusals are tried in the order in which R51 names them (DESIGN CHOICE, entry 40). -/
def loopTestOrder (line : Half) (w : Work) : Work × OrderResult := match lineArg line with
  | none => refuse .badNumber w
  | some l =>
    let r := w.line l
    if r.state = .disabled then refuse .lineUnavailable w
    else if r.state ≠ .idle then refuse .notIdle w
    else if r.ringOut.isSome then refuse .busy w
    else okWith [] ((w.putLine l { r with state := .test, dead := 0 }).putTerm l (w.term l).startLoop)

/-- END_TEST (R52). The run length is set to 0 with the candidate that R52 clears (DEDUCED, entry 29). -/
def endTestOrder (line : Half) (w : Work) : Work × OrderResult := match lineArg line with
  | none => refuse .badNumber w
  | some l =>
    let r := w.line l
    if r.state ≠ .test then refuse .notIdle w
    else okWith []
      ((w.putLine l { r with state := .idle, accepted := .quiet, candidate := none, run := 0, dead := 0 }).putTerm l
        (w.term l).reprime)

/-- FLUSH (R33). -/
def flushOrder (line : Half) (w : Work) : Work × OrderResult := match lineArg line with
  | none => refuse .badNumber w
  | some l =>
    if (w.line l).state = .disabled then refuse .lineUnavailable w
    else okWith (data1 (w.term l).queue.length) (w.putTerm l (w.term l).flush)

end Sys2Proof.Machine
end

