-- ==== Sys2Proof/Machine/Hoots.lean ====
section
/-! DEFINITION. Chapter 7: grants, the key, SET_HOOT, PTT_TARGET, and what a link loss and a link's return do at CNC. -/

namespace Sys2Proof.Machine

/-! ### Grants (R113, R115) -/

/-- The talkers of a hoot: the number of its MIC members (R104). -/
def talkerCount (c : Cnc) (k : HootNo) : Nat := (micMembers c (hootBridge k)).length

/-- Whether a position could be granted now: room in the talker set and a free slot (R113, R115). -/
def canGrant (w : Work) (k : HootNo) : Bool := talkerCount w.cnc k < (w.hoot k).limit && (freeSlot w.cnc).isSome

/-- A position is granted: its MIC member joins the hoot's bridge (R113). -/
def grant (p : PositionNo) (k : HootNo) (w : Work) : Work := match w.create (.mic p) (hootBridge k) .active with
  | none => w
  | some (w1, _) =>
    let w2 := w1.putTalk p { w1.talk p with status := .talking }
    w2.note (.pttGranted p k (talkerCount w2.cnc k))

/-- A grant pass of at most `fuel` grants (R115); the queue's length is fuel enough. -/
def grantLoop : Nat → HootNo → Work → Work
  | 0, _, w => w
  | fuel + 1, k, w => match (w.hoot k).queue with
    | [] => w
    | p :: rest =>
      if canGrant w k then grantLoop fuel k (grant p k (w.putHoot k { w.hoot k with queue := rest })) else w

/-- A grant pass (R115). -/
def grantPass (k : HootNo) (w : Work) : Work := grantLoop (w.hoot k).queue.length k w

/-- The passes that follow a frame event, in ascending hoot number (R115). -/
def framePasses (w : Work) : Work := (List.finRange 32).foldl (fun w k => grantPass k w) w

/-! ### The key (R113, R114) -/

/-- A position joins the tail of a hoot's queue (R113). -/
def enqueue (p : PositionNo) (k : HootNo) (w : Work) : Work :=
  let r := w.hoot k
  let w1 := w.putHoot k { r with queue := r.queue ++ [p] }
  (w1.putTalk p { w1.talk p with status := .queued }).note (.pttQueued p k (r.queue.length + 1))

/-- A press on a hoot (R113). -/
def pressOn (p : PositionNo) (k : HootNo) (w : Work) : Work :=
  if (w.hoot k).queue.isEmpty then (if canGrant w k then grant p k w else enqueue p k w)
  else grantPass k (enqueue p k w)

/-- A filtered press (R113). -/
def press (p : PositionNo) (w : Work) : Work :=
  let w1 := w.putTalk p { w.talk p with key := true }
  match (w.talk p).target with
  | none => w1.note (.pttIgnored p)
  | some k => pressOn p k w1

/-- A position's MIC member leaves a hoot (R109, R114). -/
def removeMic (p : PositionNo) (k : HootNo) (w : Work) : Work :=
  match (micMembers w.cnc (hootBridge k)).find? (fun x => x.2 = p) with
  | none => w
  | some x => w.removeAndCut x.1

/-- A position's talk or wait on a hoot ends with PTT_END; its status becomes IDLE (R108, R114). -/
def endTalk (p : PositionNo) (k : HootNo) (cause : PttCause) (w : Work) : Work :=
  let t := w.talk p
  match t.status with
  | .idle => w
  | .talking => ((removeMic p k w).putTalk p { t with status := .idle }).note (.pttEnd p k cause .talking)
  | .queued =>
    let r := w.hoot k
    ((w.putHoot k { r with queue := r.queue.filter (fun q => q ≠ p) }).putTalk p { t with status := .idle }).note
      (.pttEnd p k cause .queued)

/-- A release of the key, by its filter or by a link loss (R114). -/
def unpress (p : PositionNo) (cause : PttCause) (w : Work) : Work :=
  let t := w.talk p
  let w1 := w.putTalk p { t with key := false }
  match t.target with
  | none => w1
  | some k =>
    let w2 := endTalk p k cause w1
    if t.status = .talking then grantPass k w2 else w2

/-- A filtered press, if the filter still shows one that CNC has not taken. -/
def pressEvent (p : PositionNo) (w : Work) : Work :=
  if (w.link p).ptt.accepted && !(w.talk p).key then press p w else w

/-- A filtered release, if the filter still shows one that CNC has not taken. -/
def unpressEvent (p : PositionNo) (w : Work) : Work :=
  if !(w.link p).ptt.accepted && (w.talk p).key then unpress p .released w else w

/-! ### SET_HOOT (R106 to R110) -/

/-- Whether a position may talk on a hoot: on the roster with talk allowed. -/
def mayTalk (r : HootRec) (p : PositionNo) : Bool := inMask r.roster p && inMask r.talk p

/-- What SET_HOOT does to one position (R108): its talk, and its assigned speaker member when it left the roster. -/
def loseTalk (k : HootNo) (old new : HootRec) (w : Work) (p : PositionNo) : Work :=
  let lost : Bool := mayTalk old p && !mayTalk new p
  let w1 :=
    if lost ∧ (w.talk p).target = some k then
      let w0 := endTalk p k .roster w
      w0.putTalk p { w0.talk p with target := none }
    else w
  if inMask old.roster p && !inMask new.roster p then loseAssignedSpeaker (hootBridge k) p w1 else w1

/-- One bumped talker's member goes and its status becomes QUEUED (R109). -/
def bumpOne (k : HootNo) (w : Work) (p : PositionNo) : Work :=
  let w1 := removeMic p k w
  w1.putTalk p { w1.talk p with status := .queued }

/-- The notes of the bumped positions in grant order, with their places (R109). -/
def bumpNotes (k : HootNo) : Nat → List PositionNo → Work → Work
  | _, [], w => w
  | place, p :: rest, w => bumpNotes k (place + 1) rest (w.note (.pttBumped p k place))

/-- Talkers beyond the limit go to the front of the queue (R109); the result counts them. -/
def bump (k : HootNo) (w : Work) : Work × Nat :=
  let excess := ((micMembers w.cnc (hootBridge k)).map (fun x => x.2)).drop (w.hoot k).limit
  let w1 := excess.reverse.foldl (bumpOne k) w
  let w2 := if excess.isEmpty then w1 else w1.putHoot k { w1.hoot k with queue := excess ++ (w1.hoot k).queue }
  (bumpNotes k 1 excess w2, excess.length)

/-- A leg that the order does not name is removed (R110). -/
def removeLeg (k : HootNo) (w : Work) (l : LineNo) : Work :=
  leaveLeg l (w.putHoot k { w.hoot k with legs := (w.hoot k).legs.filter (fun x => x ≠ l) })

/-- A named line that is not yet a leg is assigned (R110). -/
def assignLeg (k : HootNo) (w : Work) (l : LineNo) : Work :=
  enterLeg l (w.putHoot k { w.hoot k with legs := (w.hoot k).legs ++ [l] })

/-- The lines of a list, ascending. -/
def ascending (ls : List LineNo) : List LineNo := (List.finRange 256).filter (fun l => l ∈ ls)

/-- Step 4 of SET_HOOT (R107). -/
def changeLegs (k : HootNo) (named : List LineNo) (w : Work) : Work :=
  let old := (w.hoot k).legs
  let w1 := (ascending (old.filter (fun l => l ∉ named))).foldl (removeLeg k) w
  (ascending (named.filter (fun l => l ∉ old))).foldl (assignLeg k) w1

/-- The leg numbers that SET_HOOT's count takes, two at most (R177). -/
def legFields (a : SetHootArgs) : List Half := [a.leg0, a.leg1].take a.legCount.toNat

/-- The check of one new leg line (R106, step 3). -/
def legCheck (w : Work) (l : LineNo) : Option ResultCode :=
  let r := w.line l
  if r.cfg.kind ≠ .opened then some .wrongKind
  else if r.state ≠ .idle ∨ (w.cnc.bridges.get (lineBridge l)).members ≠ [] then some .notIdle
  else none

/-- The first leg check that fails (R106, step 3), the leg lines taken in the order in which the order lists them (DESIGN
CHOICE, entry 22: R106 does not say which line is checked first). -/
def legChecks (w : Work) (old named : List LineNo) : Option ResultCode :=
  (named.filter (fun l => l ∉ old)).findSome? (legCheck w)

/-- SET_HOOT carried out (R107). -/
def performSetHoot (k : HootNo) (a : SetHootArgs) (named : List LineNo) (w : Work) : Work × OrderResult :=
  let old := w.hoot k
  let new : HootRec := { old with
    roster := a.roster, talk := a.talk &&& a.roster, limit := clampTo 1 4 a.limit.toNat,
    priority := clampTo 1 7 a.priority.toNat }
  let w1 := (w.putHoot k new).hand (.hoot k)
  let w2 := (List.finRange 32).foldl (loseTalk k old new) w1
  let b := bump k w2
  let w3 := grantPass k (changeLegs k named b.1)
  okWith (data1 (talkerCount w3.cnc k) ++ data1 (w3.hoot k).queue.length ++ data1 b.2) w3

/-- SET_HOOT (R106). -/
def setHootOrder (a : SetHootArgs) (w : Work) : Work × OrderResult := match hootArg a.hoot with
  | none => refuse .badNumber w
  | some k =>
    let lines := (legFields a).filterMap lineArg
    if lines.length ≠ (legFields a).length then refuse .badNumber w
    else if 2 < a.legCount.toNat ∨ ¬ lines.Nodup then refuse .badValue w
    else match legChecks w (w.hoot k).legs lines with
      | some code => refuse code w
      | none => performSetHoot k a lines w

/-! ### PTT_TARGET (R112) -/

/-- A hoot field that may be none, FFh (R177). -/
inductive TargetArg | bad | none | hoot (k : HootNo)
  deriving DecidableEq, Repr

def targetArg (n : Byte) : TargetArg :=
  if n = 0xFF#8 then .none else match hootArg n with
    | some k => .hoot k
    | .none => .bad

/-- An 8-bit hoot field: FFh for none. -/
def hootField (k : Option HootNo) : Nat := match k with
  | some k => k.val
  | none => 0xFF

/-- Write a position's target (R112). -/
def writeTarget (p : PositionNo) (target : Option HootNo) (w : Work) : Work × OrderResult :=
  okWith (data1 (hootField (w.talk p).target)) (w.putTalk p { w.talk p with target := target })

/-- PTT_TARGET (R112). -/
def pttTargetOrder (position hoot : Byte) (w : Work) : Work × OrderResult := match positionArg position with
  | none => refuse .badNumber w
  | some p => match targetArg hoot with
    | .bad => refuse .badNumber w
    | .none => if (w.talk p).status ≠ .idle then refuse .micBusy w else writeTarget p none w
    | .hoot k =>
      if (w.talk p).status ≠ .idle then refuse .micBusy w
      else if !mayTalk (w.hoot k) p then refuse .notRostered w
      else writeTarget p (some k) w

/-! ### Link changes at CNC (R79) -/

/-- One handset at a link loss: its active member, then its stack top first, then ON_HOOK (R79). -/
def handsetLinkLoss (h : HandsetNo) (w : Work) : Work :=
  let w1 := releaseActive h .onHook w
  ((w1.handset h).stack.map (fun e => e.bridge)).foldl (fun w b => dropHeldEntry false h b (some .linkDown) w) w1

/-- A link DOWN in RUNNING at CNC, after its note: handset A, handset B, the key (R79). -/
def linkLoss (p : PositionNo) (w : Work) : Work :=
  unpress p .linkDown (handsetLinkLoss (handsetB p) (handsetLinkLoss (handsetA p) w))

/-- A link record that has gone DOWN (R74, R75). -/
def LinkRec.down (r : LinkRec) : LinkRec :=
  { r with up := false, good := 0, missed := 0, hookA := .rest, hookB := .rest, ptt := .rest, filtering := false }

/-- A link record that has come UP (R74); its filters take reports from the next good frame (R75). -/
def LinkRec.raised (r : LinkRec) : LinkRec := { r with up := true, good := 0, missed := 0, filtering := false }

/-- Change a link record alone, as outside RUNNING (R74). -/
def Work.setLink (w : Work) (p : PositionNo) (r : LinkRec) : Work :=
  { w with floor := { w.floor with plp := { w.floor.plp with links := w.floor.plp.links.set p r } } }

/-- The third missed frame of an UP link (R74, R79). -/
def linkDownEvent (running : Bool) (p : PositionNo) (w : Work) : Work :=
  let r := w.link p
  if r.up && decide (Config.missedForDown ≤ r.missed) then
    if running then linkLoss p ((w.putLink p r.down).note (.linkDown p)) else w.setLink p r.down
  else w

/-- The 16th good frame of a DOWN link (R74). -/
def linkUpEvent (running : Bool) (p : PositionNo) (w : Work) : Work :=
  let r := w.link p
  if !r.up && decide (Config.goodForUp ≤ r.good) then
    if running then (w.putLink p r.raised).note (.linkUp p) else w.setLink p r.raised
  else w

end Sys2Proof.Machine
end

