-- ==== Sys2Proof/Machine/OrderUnit.lean ====
section
/-! DEFINITION. Sections 11.3 and 11.2: ORU's walk of the chain, the outcome of an order and its write-back, waiting and
waking. -/

namespace Sys2Proof.Machine

/-- Whether the part is in RUNNING. -/
def State.running (s : State) : Bool := s.rc.runState = .running

/-- The eight bytes of result data (R177): after a refusal they are 0 (R169). -/
def OrderResult.bytes (o : OrderResult) : List Byte := padTo 8 o.data

/-- The state byte that ends an order: DONE for OK, FAILED otherwise (R169). -/
def OrderResult.stateByte (o : OrderResult) : Byte := if o.code = .ok then 2 else 3

/-- The access of ORU's step (R168, R169). -/
def oruAccess (s : State) : Option Access := match s.oru.step with
  | .linkRead => some (readAccess s.oru.cursor 8)
  | .recordRead => s.oru.next.map (fun a => readAccess a 64)
  | .execute => none
  | .resultWrite => match s.oru.next, s.oru.order.bind Dispatched.outcome with
    | some a, some o =>
      if (s.oru.order.map Dispatched.codeWritten).getD false then some (writeAccess (atOffset a 0x38) o.bytes)
      else some (writeAccess (atOffset a 0x0B) (bytesOf 1 (ResultCode.code o.code)))
    | _, _ => none
  | .stateWrite => match s.oru.next, s.oru.order.bind Dispatched.outcome with
    | some a, some o => some (writeAccess (atOffset a 0x08) [o.stateByte])
    | _, _ => none
  | .cursorWrite => some (writeAccess (atOffset s.rc.cbAddr 0x10) (bytesOf 8 s.oru.cursor.toNat))

/-- ORU makes the access of its step. -/
def oruRequest (s : State) : State := match oruAccess s with
  | some a => s.request .oru a
  | none => s

def State.setOru (s : State) (o : Oru) : State := { s with oru := o }

/-- ORU goes to a step and makes its access. -/
def oruStep (step : OruStep) (s : State) : State := oruRequest (s.setOru { s.oru with step := step })

/-- ORU leaves WAITING and makes the access of its step (R170). -/
def oruWake (s : State) : State := oruRequest (s.setOru { s.oru with active := true, poll := none })

/-- ORU enters WAITING, unless the pending-nudge flag keeps it ACTIVE (R170). -/
def oruWait (s : State) : State :=
  if s.oru.nudged then oruRequest (s.setOru { s.oru with nudged := false })
  else s.setOru { s.oru with active := false, poll := if s.rc.held.pollMs = 0 then none else some s.rc.held.pollMs }

/-- ORU's part of a stop is over (R166, R171): no order, no access; it is held WAITING (DEDUCED, entry 25). -/
def oruEnd (s : State) : State := s.setOru { s.oru with active := false, order := none }

/-! ### The walk (R168) -/

/-- Whether an address is a multiple of 64. -/
def aligned64 (a : Addr) : Bool := a.toNat % 64 = 0

/-- The link of the cursor record has come (R168). In STOPPING ORU takes no new record (R166), and a misaligned link sets
no cause then (DESIGN CHOICE, entry 34). -/
def linkRead (link : Addr) (s : State) : State :=
  if !s.running then oruEnd s
  else if link = 0 then oruWait s
  else if !aligned64 link then oruWait (s.setCause .chainFault)
  else oruStep .recordRead (s.setOru { s.oru with next := some link })

/-- The order that a record dispatches (R169). -/
def dispatchOf (record : List Byte) : Dispatched :=
  let kind := byteField record 0x09
  let notify := (fieldAt record 0x0A 1).testBit 0
  { kind := kind, notify := notify, tag := wordField record 0x0C
    order := decodeOrder kind notify ((record.drop 0x10).take 40), taken := false, outcome := none
    codeWritten := false }

/-- The order in progress has its outcome: ORU writes it back (R169). Without an order in progress the outcome is held. -/
def completeOrder (o : OrderResult) (s : State) : State := match s.oru.order with
  | none => s.setOru { s.oru with lastOutcome := some o }
  | some d =>
    oruStep .resultWrite (s.setOru
      { s.oru with order := some { d with outcome := some o, codeWritten := false }, lastOutcome := some o })

/-- An owner has taken the order in progress; its outcome comes with a later event. -/
def orderTaken (s : State) : State :=
  s.setOru { s.oru with order := s.oru.order.map (fun d => { d with taken := true }) }

/-- The outcome of an order that its owner took earlier: the order in progress has it, if its owner took that one; an order
dispatched since waits for its own (R169; entry 5). -/
def completeTaken (o : OrderResult) (s : State) : State :=
  if (s.oru.order.map Dispatched.taken).getD true then completeOrder o s else s.setOru { s.oru with lastOutcome := some o }

/-- The next record has come (R168, R169): a POSTED one is dispatched, or has the outcome BAD_KIND. -/
def recordRead (record : List Byte) (s : State) : State :=
  if !s.running then oruEnd s
  else if byteField record 0x08 ≠ 1#8 then oruWait s
  else
    let d := dispatchOf record
    let s1 := s.setOru { s.oru with step := .execute, order := some d }
    if d.order.isNone then completeOrder { code := .badKind, data := [] } s1 else s1

/-! ### The write-back (R169) -/

/-- The result code, and then the result data, has been written. -/
def resultWritten (s : State) : State := match s.oru.order with
  | none => s
  | some d =>
    if d.codeWritten then oruStep .stateWrite s
    else oruRequest (s.setOru { s.oru with order := some { d with codeWritten := true } })

/-- The ORDER_DONE note of an order with NOTIFY. -/
def orderDone (s : State) : State := match s.oru.order with
  | none => s
  | some d =>
    if d.notify then s.note (.orderDone d.tag d.kind ((d.outcome.map OrderResult.code).getD .ok)) else s

/-- The state has been written: ORDER_DONE, and the next record becomes the cursor. -/
def stateWritten (s : State) : State :=
  let s1 := orderDone s
  oruStep .cursorWrite (s1.setOru { s1.oru with cursor := s1.oru.next.getD s1.oru.cursor, next := none })

/-- The cursor has been written: ORU goes on to the next link; in STOPPING its part is over. -/
def cursorWritten (s : State) : State :=
  let s1 := s.setOru { s.oru with order := none, step := .linkRead }
  if s1.running then oruRequest s1 else oruEnd s1

/-- A bus error on an ORU access of the walk (R171). -/
def oruError (s : State) : State := if s.running then oruWait s else oruEnd s

end Sys2Proof.Machine
end

