-- ==== Sys2Proof/Machine/Image.lean ====
section
/-! DEFINITION. Sections 11.5 and 12.7: the addresses and bodies of status entries, and STW's three writes. -/

namespace Sys2Proof.Machine

/-! ### Bodies (section 12.7) -/

/-- Bit fields of a number, each a width and a value, the first at the low end. -/
def packBits : List (Nat × Nat) → Nat
  | [] => 0
  | (width, v) :: rest => v % 2 ^ width + 2 ^ width * packBits rest

/-- The queue state shown (R32). -/
def queueShown (t : TermRec) : Nat := if t.playing then 2 else if t.first then 0 else 1

/-- The handset member bytes of a line entry: four places in join order; a place without a member is a byte of 0, of which
section 12.7 states the present bit alone (DESIGN CHOICE, entry 32). -/
def memberBytes (c : Cnc) (l : LineNo) : List Byte :=
  padTo 4 (((handsetMembers c (lineBridge l)).take 4).map (fun x =>
    BitVec.ofNat 8 (packBits [(6, x.2.1.val), (1, bit (x.2.2 = .held)), (1, 1)])))

def counterBytes (x : RxCounters) : List Byte :=
  bytesOf 2 x.underflow ++ bytesOf 2 x.overflow ++ bytesOf 2 x.resync ++ bytesOf 2 x.duplicate ++ bytesOf 2 x.slip ++
    bytesOf 2 x.concealed ++ bytesOf 2 x.discard

/-- The body of a line entry, from byte 04h, with the queue depth and the transmit saturation counter of its last hand-over
(R32, R149). -/
def lineBody (f : Floor) (depth saturation : Nat) (l : LineNo) : List Byte :=
  let r := f.lsv.get l
  let t := f.ltm.get l
  let clip := f.mxe.transmitClips.get l
  bytesOf 1 (LineState.code r.state) ++
  bytesOf 1 (packBits [(2, FaultCause.code r.cause), (2, Code.code r.accepted),
    (3, outgoingField (baseOutgoing r.cfg.kind r.state)), (1, bit r.ringOut.isSome)]) ++
  bytesOf 1 (packBits [(2, queueShown t), (1, bit (f.lhp.cards.get (lineCard l)).present), (1, bit clip.clipping)]) ++
  bytesOf 1 depth ++ bytesOf 1 t.errored ++ bytesOf 1 (positionField (holdingPosition f l)) ++
  memberBytes f.cnc l ++ counterBytes t.counters ++ bytesOf 4 saturation

/-- A stack entry of a handset entry; bits 9 to 14, which section 12.7 does not list, are 0 (DESIGN CHOICE, entry 32). -/
def holdBytes (e : HoldEntry) : List Byte :=
  bytesOf 2 (packBits [(9, e.bridge.val), (6, 0), (1, bit e.recalled)]) ++ bytesOf 4 e.holdFrame.toNat

/-- The six saturation counters of a handset entry (R178). -/
def saturationBytes (m : Mxe) (h : HandsetNo) : List Byte :=
  let p := handsetPosition h
  let first : Nat := if isSideB h then 4 else 0
  let side := m.sideClips.get p
  bytesOf 4 (m.earClips.get h).count ++
  (((m.channelClips.get p).cells.drop first).take 4).flatMap (fun r => bytesOf 4 r.count) ++
  bytesOf 4 (if isSideB h then side.right.count else side.left.count)

/-- The body of a handset entry. -/
def handsetBody (f : Floor) (tap : TapRec) (h : HandsetNo) : List Byte :=
  let r := f.cnc.handsets.get h
  bytesOf 1 (packBits [(2, HandsetState.code r.state), (2, TapState.code tap.state), (1, bit tap.closing),
    (3, r.stack.length)]) ++ zeros 1 ++
  bytesOf 2 (bridgeField (activeBridge f.cnc h)) ++
  padTo 24 ((r.stack.take 4).flatMap holdBytes) ++
  bytesOf 4 tap.filled.toNat ++ bytesOf 4 tap.droppedTotal ++ saturationBytes f.mxe h

/-- A ring list entry of a position entry. -/
def alertBytes (a : Alert) : List Byte :=
  bytesOf 4 (packBits [(9, a.bridge.val), (2, AlertReason.code a.reason), (3, a.cadence.val), (2, 0),
    (16, a.arrival.toNat)])

/-- A 9-bit source: 1FFh for none. -/
def sourceField (b : Option BridgeNo) : Nat := match b with
  | some b => b.val
  | none => 0x1FF

/-- A saved entry's source, 1FEh beyond the stack depth. -/
def savedSource (e : Option ChannelEntry) : Nat := match e with
  | some e => sourceField e.source
  | none => 0x1FE

/-- A saved entry's priority; beyond the stack depth 0, to which section 12.7 gives no value (DESIGN CHOICE, entry 32). -/
def savedPriority (e : Option ChannelEntry) : Nat := match e with
  | some e => e.priority
  | none => 0

/-- Whether a channel's current member is CUT; without a source the bit, which section 12.7 then leaves open, is clear (DESIGN
CHOICE, entry 32). -/
def memberCut (c : Cnc) (e : ChannelEntry) : Bool := match e.member.bind (fun sl => c.pool.get sl) with
  | some m => m.mode = .cut
  | none => false

/-- The 48 bits of a channel. -/
def channelBytes (c : Cnc) (r : ChannelRec) : List Byte :=
  let saved := r.stack.reverse
  bytesOf 6 (packBits [(9, sourceField r.current.source), (3, r.current.priority), (1, Side.code r.current.side),
    (1, bit (memberCut c r.current)), (9, savedSource saved[0]?), (9, savedSource saved[1]?),
    (3, savedPriority saved[1]?), (9, savedSource saved[2]?), (3, savedPriority saved[2]?)])

/-- A position's place in its target's queue, 0 when not queued. -/
def queuePlace (c : Cnc) (p : PositionNo) : Nat :=
  let t := c.talks.get p
  match t.target with
  | some k => if t.status = .queued then (c.hoots.get k).queue.idxOf p + 1 else 0
  | none => 0

/-- Eight lamps in one byte. -/
def lampByte (f : ChannelNo → Bool) : List Byte :=
  bytesOf 1 (packBits ((List.finRange 8).map (fun c => (1, bit (f c)))))

/-- The body of a position entry; bits 6 and 7 of byte 04h and 4 to 7 of byte 0Ah, which section 12.7 does not list, are 0
(DESIGN CHOICE, entry 32). -/
def positionBody (f : Floor) (p : PositionNo) : List Byte :=
  let m := f.mxe
  let t := f.cnc.talks.get p
  let list := f.cnc.ringLists.get p
  let side := m.sideClips.get p
  bytesOf 1 (packBits [(1, bit (f.plp.links.get p).up), (2, RingerState.code (m.ringers.get p).state), (1, bit t.key),
    (2, TalkStatus.code t.status)]) ++
  bytesOf 1 list.length ++ bytesOf 1 (hootField t.target) ++ bytesOf 1 (queuePlace f.cnc p) ++
  lampByte (fun c => ((m.activity.get p).get c).active) ++
  lampByte (fun c => ((m.channelClips.get p).get c).clipping) ++
  bytesOf 1 (packBits [(1, bit (m.earClips.get (handsetA p)).clipping), (1, bit (m.earClips.get (handsetB p)).clipping),
    (1, bit side.left.clipping), (1, bit side.right.clipping)]) ++ zeros 5 ++
  padTo 64 ((list.take 16).flatMap alertBytes) ++
  (f.cnc.channels.get p).cells.flatMap (channelBytes f.cnc)

/-- Bytes filled up to a length with FFh. -/
def padFF (n : Nat) (bytes : List Byte) : List Byte := bytes ++ List.replicate (n - bytes.length) 0xFF#8

/-- The body of a hoot entry. -/
def hootBody (f : Floor) (k : HootNo) : List Byte :=
  let r := f.cnc.hoots.get k
  let talkers := (micMembers f.cnc (hootBridge k)).map (fun x => x.2)
  bytesOf 1 talkers.length ++ bytesOf 1 r.queue.length ++ bytesOf 1 r.limit ++ zeros 1 ++
  padFF 4 ((talkers.take 4).flatMap (fun p => bytesOf 1 p.val)) ++
  padFF 4 ((r.legs.take 2).flatMap (fun l => bytesOf 2 l.val)) ++
  padFF 32 ((r.queue.take 32).flatMap (fun p => bytesOf 1 p.val)) ++ zeros 16

/-- The body of an entry, with its fields as they stand (R174), a line's two fields of its last hand-over apart (R32, R149; entry 30). -/
def entryBody (s : State) : Entry → List Byte
  | .line l => lineBody s.floor (s.stw.depths.get l) (s.stw.saturations.get l) l
  | .handset h => handsetBody s.floor (s.tpe.taps.get h) h
  | .position p => positionBody s.floor p
  | .hoot k => hootBody s.floor k

/-! ### Addresses and counts (R174) -/

def entryOffset : Entry → Nat
  | .line l => 32 * l.val
  | .handset h => 8192 + 64 * h.val
  | .position p => 12288 + 128 * p.val
  | .hoot k => 16384 + 64 * k.val

def entryAddr (s : State) (e : Entry) : Addr := atOffset s.rc.held.statusBase (entryOffset e)

def Stw.count (w : Stw) : Entry → Word
  | .line l => w.lineCounts.get l
  | .handset h => w.handsetCounts.get h
  | .position p => w.positionCounts.get p
  | .hoot k => w.hootCounts.get k

def Stw.setCount (w : Stw) (e : Entry) (n : Word) : Stw := match e with
  | .line l => { w with lineCounts := w.lineCounts.set l n }
  | .handset h => { w with handsetCounts := w.handsetCounts.set h n }
  | .position p => { w with positionCounts := w.positionCounts.set p n }
  | .hoot k => { w with hootCounts := w.hootCounts.set k n }

/-- The odd count that opens a rewrite: count + 1 if the count is even, count + 2 if it is odd (R174). -/
def oddCount (n : Word) : Word := if n.toNat % 2 = 0 then n + 1 else n + 2

/-- Every entry in image order (R174). -/
def allEntries : List Entry :=
  (List.finRange 256).map .line ++ (List.finRange 64).map .handset ++ (List.finRange 32).map .position ++
    (List.finRange 32).map .hoot

/-! ### The three writes (R174) -/

def State.setStw (s : State) (w : Stw) : State := { s with stw := w }

/-- STW takes the head of its queue and writes the odd count. -/
def rewriteStart (s : State) : State := match s.stw.queue with
  | [] => s
  | e :: rest =>
    (s.setStw { s.stw with queue := rest, phase := .countOdd e }).request .stw
      (writeAccess (entryAddr s e) (bytesOf 4 (oddCount (s.stw.count e)).toNat))

/-- The odd count has been written: the body follows, with the fields as they stand now. -/
def countOddWritten (s : State) : State := match s.stw.phase with
  | .countOdd e =>
    (s.setStw { s.stw.setCount e (oddCount (s.stw.count e)) with phase := .body e }).request .stw
      (writeAccess (atOffset (entryAddr s e) 4) (entryBody s e))
  | _ => s

/-- The body has been written: the even count follows. -/
def bodyWritten (s : State) : State := match s.stw.phase with
  | .body e =>
    (s.setStw { s.stw with phase := .countEven e }).request .stw
      (writeAccess (entryAddr s e) (bytesOf 4 (s.stw.count e + 1).toNat))
  | _ => s

/-- The even count has been written: the rewrite is over. -/
def countEvenWritten (s : State) : State := match s.stw.phase with
  | .countEven e => s.setStw { s.stw.setCount e (s.stw.count e + 1) with phase := .idle }
  | _ => s

/-- A bus error abandons the rewrite (R174). -/
def stwError (s : State) : State := s.setStw { s.stw with phase := .idle }

end Sys2Proof.Machine
end

