-- ==== Sys2Proof/Machine/Journal.lean ====
section
/-! DEFINITION. Section 11.4: how JNU appends the head of its note queue, and the JOURNAL attention. -/

namespace Sys2Proof.Machine

def State.setJnu (s : State) (j : Jnu) : State := { s with jnu := j }

/-- The size of the journal in notes (R165). -/
def journalSize (s : State) : Nat := 2 ^ s.rc.held.exponent

/-- Unread notes: produced minus the last consumed count read, modulo 2^32 (section 11.4). -/
def unread (j : Jnu) : Nat := (j.produced - j.consumed).toNat

/-- The address of the slot of a count: 32 bytes at the count modulo the size (R172). -/
def slotAddr (s : State) (count : Word) : Addr :=
  atOffset s.rc.held.journalBase (32 * (count.toNat % journalSize s))

/-- The access of JNU's phase (R172). -/
def jnuAccess (s : State) : Option Access :=
  let j := s.jnu
  match j.phase with
  | .idle => none
  | .readConsumed => some (readAccess (atOffset s.rc.cbAddr 0x2C) 4)
  | .writeOverrun =>
    some (writeAccess (slotAddr s j.produced) (Note.bytes { frame := s.floor.mxe.frame, body := .overrun j.lost }))
  | .writeNote after =>
    j.queue.head?.map (fun n => writeAccess (slotAddr s (if after then j.produced + 1 else j.produced)) n.bytes)
  | .writeProduced after =>
    some (writeAccess (atOffset s.rc.cbAddr 0x28)
      (bytesOf 4 (if after then j.produced + 2 else j.produced + 1).toNat))
  | .writeLost => some (writeAccess (atOffset s.rc.cbAddr 0x30) (bytesOf 4 j.lost))

/-- JNU goes to a phase and makes its access. -/
def jnuPhase (phase : JnuPhase) (s : State) : State :=
  let s1 := s.setJnu { s.jnu with phase := phase }
  match jnuAccess s1 with
  | some a => s1.request .jnu a
  | none => s1

/-- The head note leaves the queue and JNU is idle. -/
def jnuDone (s : State) : State := s.setJnu { s.jnu with queue := s.jnu.queue.tail, phase := .idle }

/-- The head note is counted lost, and the lost count is written (R172, step 4). -/
def jnuLose (s : State) : State :=
  jnuPhase .writeLost (s.setJnu { s.jnu with lost := holdAdd hold32 s.jnu.lost 1 })

/-- The consumed count has come (R172, steps 1 to 4). -/
def consumedRead (consumed : Word) (s : State) : State :=
  let s1 := s.setJnu { s.jnu with consumed := consumed }
  let j := s1.jnu
  if j.lost = 0 ∧ unread j < journalSize s1 then jnuPhase (.writeNote false) s1
  else if 0 < j.lost ∧ unread j < journalSize s1 - 1 then jnuPhase .writeOverrun s1
  else jnuLose s1

/-- A slot has been written (R172). -/
def noteWritten (s : State) : State := match s.jnu.phase with
  | .writeOverrun => jnuPhase (.writeNote true) s
  | .writeNote after => jnuPhase (.writeProduced after) s
  | _ => s

/-- JOURNAL attention at a completed write of produced, and the linger timer (R173). -/
def judgeJournal (s : State) : State :=
  let s1 := if s.rc.held.trigger ≤ unread s.jnu then s.setCause .journal else s
  if s1.rc.held.lingerMs = 0 then s1 else s1.setJnu { s1.jnu with linger := some s1.rc.held.lingerMs }

/-- Produced has been written (R172, R173). -/
def producedWritten (s : State) : State := match s.jnu.phase with
  | .writeProduced after =>
    let s1 := judgeJournal (s.setJnu { s.jnu with produced := s.jnu.produced + (if after then 2 else 1) })
    if after then jnuPhase .writeLost (s1.setJnu { s1.jnu with lost := 0 }) else jnuDone s1
  | _ => s

/-- A bus error on a JNU access (R172): the note is counted lost; a failed write of the lost field ends its handling. -/
def jnuError (s : State) : State := if s.jnu.phase = .writeLost then jnuDone s else jnuLose s

/-- The linger expiry (R173). -/
def lingerEnd (s : State) : State :=
  let s1 := s.setJnu { s.jnu with linger := none }
  if 0 < unread s1.jnu then s1.setCause .journal else s1

end Sys2Proof.Machine
end

