-- ==== Sys2Proof/Machine/Mix.lean ====
section
/-! DEFINITION. Chapter 9's arithmetic and the ringers: ramps, contributions, bridge totals, listener sums, scaling, rounding
and saturation, speaker sides, the ringer tone, clip and activity judgment. -/

namespace Sys2Proof.Machine

/-! ### Ramps (R138) -/

/-- One ramp step of a current gain toward its target. -/
def ramp (step current target : Nat) : Nat :=
  if current ≤ target then (if target - current ≤ step then target else current + step)
  else (if current - target ≤ step then target else current - step)

/-- A channel's gain: 0 without a member and while its member is CUT, else one step toward the target (R138). -/
def rampChannel (c : Cnc) (step current : Nat) (r : ChannelRec) : Nat :=
  match r.current.member.bind (fun sl => c.pool.get sl) with
  | none => 0
  | some m => if m.mode = .cut then 0 else ramp step current r.current.target

def rampLine (step : Nat) (g : LineGains) (cfg : LineConfig) : LineGains :=
  { rx := ramp step g.rx cfg.rxGain, tx := ramp step g.tx cfg.txGain }

def rampPosition (step : Nat) (g : PositionGains) (s : Settings) : PositionGains :=
  { micA := ramp step g.micA s.micGainA, micB := ramp step g.micB s.micGainB, desk := ramp step g.desk s.deskGain,
    volA := ramp step g.volA s.volumeA, volB := ramp step g.volB s.volumeB, left := ramp step g.left s.sideLeft,
    right := ramp step g.right s.sideRight }

/-- Every current gain moved one step (R138). -/
def rampAll (f : Floor) : Mxe :=
  let step := f.mxe.mix.rampStep
  { f.mxe with
    lineGains := Table.ofFn (fun l => rampLine step (f.mxe.lineGains.get l) (f.lsv.get l).cfg)
    positionGains := Table.ofFn (fun p => rampPosition step (f.mxe.positionGains.get p) (f.cnc.settings.get p))
    channelGains := Table.ofFn (fun p => Table.ofFn (fun c =>
      rampChannel f.cnc step ((f.mxe.channelGains.get p).get c) ((f.cnc.channels.get p).get c))) }

/-! ### Scaling, rounding, saturation (section 4.4, R141, R142) -/

/-- R141: y = floor((L x h + 2^23) / 2^24). -/
def scaleListener (sum : Int) (gain : Nat) : Int := (sum * gain + 8388608) / 16777216

/-- R142: out = floor((S x k + 2^11) / 2^12). -/
def scaleSide (sum : Int) (gain : Nat) : Int := (sum * gain + 2048) / 4096

/-- Whether a value has to be limited. -/
def saturates (y : Int) : Bool := y < -32768 || 32767 < y

/-- Limit a value to -32768..32767. -/
def saturate (y : Int) : Sample := BitVec.ofInt 16 (max (-32768) (min 32767 y))

/-- A block with its number of saturated samples. -/
structure OutBlock where
  block : Block
  saturated : Nat
  deriving DecidableEq, Repr

/-- The output whose unlimited samples are given. -/
def outBlock (y : Fin 32 → Int) : OutBlock :=
  { block := Table.ofFn (fun i => saturate (y i)), saturated := (List.finRange 32).countP (fun i => saturates (y i)) }

/-- Silence has no saturated samples (R141). -/
def silentOut : OutBlock := { block := silence, saturated := 0 }

/-! ### Source blocks (R76, R136) -/

/-- The link frame judged at this frame event; a missing frame or a DOWN link has none (R76). -/
def judgedFrame (f : Floor) (p : PositionNo) : Option LinkFrame :=
  let r := f.plp.links.get p
  if r.up then r.judged else none

/-- A handset's mic block (R76). -/
def micBlock (f : Floor) (h : HandsetNo) : Block := match judgedFrame f (handsetPosition h) with
  | some x => if isSideB h then x.micB else x.micA
  | none => silence

/-- A position's desk microphone block (R76). -/
def deskBlock (f : Floor) (p : PositionNo) : Block := match judgedFrame f p with
  | some x => x.desk
  | none => silence

/-! ### Contributions and sums (R139, R140) -/

/-- Whose voice a contribution is: a position's, or a line's far end, which belongs to no position (R140). -/
inductive Owner
  | position (p : PositionNo)
  | farEnd (l : LineNo)
  deriving DecidableEq, Repr

/-- A talker of a bridge with its source block and its path gain (R139). -/
structure Voice where
  owner : Owner
  block : Block
  gain : Nat
  deriving DecidableEq, Repr

/-- The contribution of a talker at a sample, exact (R139). -/
def Voice.contribution (v : Voice) (i : Fin 32) : Int := (v.block.get i).toInt * v.gain

def micGain (m : Mxe) (h : HandsetNo) : Nat :=
  let g := m.positionGains.get (handsetPosition h)
  if isSideB h then g.micB else g.micA

def volume (m : Mxe) (h : HandsetNo) : Nat :=
  let g := m.positionGains.get (handsetPosition h)
  if isSideB h then g.volB else g.volA

/-- A member's voice, if it is a talker (R6, R139). -/
def memberVoice (f : Floor) (m : Member) : Option Voice :=
  if m.mode = .active then
    match m.kind with
    | .handset h => some { owner := .position (handsetPosition h), block := micBlock f h, gain := micGain f.mxe h }
    | .mic p => some { owner := .position p, block := deskBlock f p, gain := (f.mxe.positionGains.get p).desk }
    | .speaker _ _ => none
  else none

/-- A line's far end as a talker (R139). -/
def farEndVoice (f : Floor) (d : Table 256 Delivered) (l : LineNo) : Voice :=
  { owner := .farEnd l, block := (d.get l).block, gain := (f.mxe.lineGains.get l).rx }

/-- The far ends that talk on a bridge: the line's own, unless it is DISABLED, FAULT or LEG, or a hoot's legs (R136). -/
def farEnds (f : Floor) (b : BridgeNo) : List LineNo := match bridgeKind b with
  | .line l =>
    let st := (f.lsv.get l).state
    if st = .disabled ∨ st = .fault ∨ st = .leg then [] else [l]
  | .group _ => []
  | .hoot k => (f.cnc.hoots.get k).legs

/-- The talkers of a bridge. -/
def voices (f : Floor) (d : Table 256 Delivered) (b : BridgeNo) : List Voice :=
  (farEnds f b).map (farEndVoice f d) ++ (membersOf f.cnc b).filterMap (fun x => memberVoice f x.2)

/-- The exact sum of contributions at a sample. -/
def total (vs : List Voice) (i : Fin 32) : Int := (vs.map (fun v => v.contribution i)).sum

/-- A listener's sum: the bridge total less the contributions of its own talkers (R140). -/
def listenerSum (vs : List Voice) (own : Owner) (i : Fin 32) : Int :=
  total vs i - total (vs.filter (fun v => v.owner = own)) i

/-- What a listener hears: its sum scaled, rounded and saturated (R141). -/
def heard (vs : List Voice) (own : Owner) (gain : Nat) : OutBlock :=
  outBlock (fun i => scaleListener (listenerSum vs own i) gain)

/-! ### Outputs (R141, R142) -/

/-- A handset's ear (R141). -/
def earOut (f : Floor) (d : Table 256 Delivered) (h : HandsetNo) : OutBlock := match activeBridge f.cnc h with
  | none => silentOut
  | some b => heard (voices f d b) (.position (handsetPosition h)) (volume f.mxe h)

/-- A channel's output (R141). -/
def channelOut (f : Floor) (d : Table 256 Delivered) (p : PositionNo) (c : ChannelNo) : OutBlock :=
  match ((f.cnc.channels.get p).get c).current.member.bind (fun sl => f.cnc.pool.get sl) with
  | none => silentOut
  | some m =>
    if m.mode = .active then heard (voices f d m.bridge) (.position p) ((f.mxe.channelGains.get p).get c) else silentOut

/-- The hoot that a line is a leg of. -/
def legHoot (c : Cnc) (l : LineNo) : Option HootNo := (List.finRange 32).find? (fun k => l ∈ (c.hoots.get k).legs)

/-- The bridge whose sum a line transmits: a leg's hoot, or its own (R140, R141). -/
def transmitBridge (f : Floor) (l : LineNo) : BridgeNo :=
  if (f.lsv.get l).state = .leg then match legHoot f.cnc l with
    | some k => hootBridge k
    | none => lineBridge l
  else lineBridge l

/-- A line's transmit block (R141). -/
def transmitOut (f : Floor) (d : Table 256 Delivered) (l : LineNo) : OutBlock :=
  heard (voices f d (transmitBridge f l)) (.farEnd l) (f.mxe.lineGains.get l).tx

/-- Whether a ringer side setting includes a side (R142). -/
def ringerOn (r : RingerSide) (side : Side) : Bool := match r, side with
  | .both, _ => true
  | .left, .left => true
  | .right, .right => true
  | .left, .right => false
  | .right, .left => false

/-- The sum of a speaker side at a sample (R142). -/
def sideSum (f : Floor) (channels : Table 8 OutBlock) (ringer : List Int) (p : PositionNo) (side : Side) (i : Fin 32) : Int :=
  ((List.finRange 8).map (fun c =>
    if ((f.cnc.channels.get p).get c).current.side = side then ((channels.get c).block.get i).toInt else 0)).sum +
  (if ringerOn (f.cnc.settings.get p).ringerSide side then (ringer[i.val]?).getD 0 else 0)

/-- A speaker side (R142). -/
def sideOut (f : Floor) (channels : Table 8 OutBlock) (ringer : List Int) (p : PositionNo) (side : Side) : OutBlock :=
  let g := f.mxe.positionGains.get p
  outBlock (fun i => scaleSide (sideSum f channels ringer p side i) (match side with
    | .left => g.left
    | .right => g.right))

/-! ### Ringers (R68, R143) -/

/-- The ringer tone of `n` samples from a tone count: +A below the half-period, else -A; the count wraps at 2q (R143). -/
def toneSamples (a : Int) (q : Nat) : Nat → Nat → List Int × Nat
  | 0, count => ([], count)
  | n + 1, count =>
    let rest := toneSamples a q n (if 2 * q ≤ count + 1 then 0 else count + 1)
    ((if count < q then a else -a) :: rest.1, rest.2)

/-- The next phase of a ringer (R68); an ON phase sets the tone count to 0 (R143). -/
def Ringer.advance (t : Cadence) (r : Ringer) : Ringer :=
  if r.on then { r with on := false, framesLeft := (segmentAt t.segments r.segment).2 }
  else if r.segment + 1 < t.segments.length then
    { r with segment := r.segment + 1, on := true, framesLeft := (segmentAt t.segments (r.segment + 1)).1, tone := 0 }
  else if t.repeats ≠ 0 ∧ t.repeats ≤ r.cyclesDone + 1 then { r with state := .done, cyclesDone := t.repeats }
  else
    { r with
      segment := 0, on := true, framesLeft := (segmentAt t.segments 0).1, tone := 0
      cyclesDone := if t.repeats = 0 then r.cyclesDone else r.cyclesDone + 1 }

/-- Pass over phases of 0 frames, at most `fuel` of them. -/
def Ringer.passZero (t : Cadence) : Nat → Ringer → Ringer
  | 0, r => r
  | fuel + 1, r => if r.state = .ringing ∧ r.framesLeft = 0 then Ringer.passZero t fuel (r.advance t) else r

/-- Whether a ringer in a phase of the last segment ends its last cycle there (R68). -/
def Ringer.lastSegment (t : Cadence) (r : Ringer) : Bool :=
  t.segments.length ≤ r.segment + 1 && t.repeats ≤ r.cyclesDone + 1

/-- A ringer that has passed over every phase left in a cadence whose phases are all 0 (R68): DONE in the OFF phase of the
last segment, the tone count 0 at each ON phase passed (R143). -/
def Ringer.passAll (t : Cadence) (r : Ringer) : Ringer :=
  { r with
    state := .done, on := false, framesLeft := 0, cyclesDone := t.repeats
    segment := if r.lastSegment t then r.segment else t.segments.length - 1
    tone := if r.lastSegment t then r.tone else 0 }

/-- Pass over every phase that has run out (R68): a cadence whose phases are all 0 is passed over whole when its repeat
count is not 0, and otherwise the ringer stays RINGING where it stands. -/
def Ringer.settle (t : Cadence) (r : Ringer) : Ringer :=
  if r.state ≠ .ringing then r
  else if allZero t.segments then (if t.repeats = 0 then r else r.passAll t)
  else r.passZero t 9

/-- One frame of a ringer: its record afterwards, its samples, and whether its phase has run out. -/
structure RingerFrame where
  ringer : Ringer
  samples : List Int
  expired : Bool

/-- A ringer's frame (R68, R143). -/
def ringerFrame (t : Cadence) (amplitude halfPeriod : Nat) (r0 : Ringer) : RingerFrame :=
  let r := r0.settle t
  if r.state ≠ .ringing ∨ r.framesLeft = 0 then { ringer := r, samples := [], expired := false }
  else if r.on then
    let x := toneSamples amplitude halfPeriod 32 r.tone
    { ringer := { r with framesLeft := r.framesLeft - 1, tone := x.2 }, samples := x.1, expired := r.framesLeft = 1 }
  else { ringer := { r with framesLeft := r.framesLeft - 1 }, samples := [], expired := r.framesLeft = 1 }

/-- A position's ring amplitude: its own, or the SET_MIX default under FOLLOW (R143). -/
def ringAmplitude (f : Floor) (p : PositionNo) : Nat :=
  ((f.cnc.settings.get p).ringAmplitude).getD f.mxe.mix.ringAmplitude

/-- The frame of a position's ringer. -/
def positionRinger (f : Floor) (p : PositionNo) : RingerFrame :=
  let r := f.mxe.ringers.get p
  ringerFrame (f.cnc.cadences.get r.cadence) (ringAmplitude f p) (f.cnc.settings.get p).halfPeriod r

/-- The frames that a ringer's phase has in its cadence. -/
def Ringer.phaseFrames (t : Cadence) (r : Ringer) : Nat :=
  if r.on then (segmentAt t.segments r.segment).1 else (segmentAt t.segments r.segment).2

/-- A ringer phase that has run out advances (R68). A phase of 0 frames has not run out: a ringer started on one is passed
over it at its first frame event. -/
def ringerPhase (p : PositionNo) (w : Work) : Work :=
  let r := w.mxe.ringers.get p
  let t := w.cnc.cadences.get r.cadence
  if r.state = .ringing ∧ r.framesLeft = 0 ∧ 0 < r.phaseFrames t then w.putRinger p (r.settle t) else w

/-! ### Clip and activity (R145, R146) -/

/-- The judgment of one output's frame (R145). -/
def ClipRec.judge (r : ClipRec) (saturated : Nat) : ClipRec :=
  let count := holdAdd hold32 r.count saturated
  if 0 < saturated then { clipping := true, cleanRun := 0, count := count }
  else if r.clipping then { clipping := true, cleanRun := min Config.cleanFrames (r.cleanRun + 1), count := count }
  else { r with count := count }

/-- Whether the frame opens a clip episode (R145). -/
def ClipRec.opens (r : ClipRec) (saturated : Nat) : Bool := !r.clipping && 0 < saturated

/-- Whether a record stands at its 500th clean frame (R145). -/
def ClipRec.ends (r : ClipRec) : Bool := r.clipping && decide (Config.cleanFrames ≤ r.cleanRun)

/-- Whether a sample's magnitude is at or above the activity threshold (R146). -/
def loud (threshold : Nat) (s : Sample) : Bool := threshold ≤ s.toInt.natAbs

/-- One frame of an activity record (R146). -/
def ActivityRec.add (threshold : Nat) (b : Block) (r : ActivityRec) : ActivityRec :=
  { r with window := r.window + 1, count := r.count + b.cells.countP (loud threshold) }

end Sys2Proof.Machine
end

