-- ==== Sys2Proof/Machine/Frame.lean ====
section
/-! DEFINITION. The frame event over the floor's blocks, phase by phase (R135), and the events it raises. -/

namespace Sys2Proof.Machine

/-! ### Filters (R75) -/

/-- One report taken by a filter (R75). -/
def Filter.report (x : Filter) (reported : Bool) : Filter :=
  if reported = x.accepted then { x with run := 0 }
  else if Config.filterReports ≤ x.run + 1 then { accepted := reported, run := 0 }
  else { x with run := x.run + 1 }

/-- The filters of a link take the judged frame while the link is UP (R75). -/
def LinkRec.filterFrame (r : LinkRec) : LinkRec := match r.judged with
  | none => r
  | some x =>
    if r.up && r.filtering then
      { r with hookA := r.hookA.report x.hookA, hookB := r.hookB.report x.hookB, ptt := r.ptt.report x.ptt }
    else r

/-- The filtered events of one position: hook A, hook B, the key. -/
def filterEvents (p : PositionNo) (before after : LinkRec) : List Raised :=
  (if before.hookA.accepted ≠ after.hookA.accepted then [.hook (handsetA p)] else []) ++
  (if before.hookB.accepted ≠ after.hookB.accepted then [.hook (handsetB p)] else []) ++
  (if before.ptt.accepted ≠ after.ptt.accepted then [if after.ptt.accepted then .press p else .unpress p] else [])

def Work.setLinks (w : Work) (t : Table 32 LinkRec) : Work :=
  { w with floor := { w.floor with plp := { w.floor.plp with links := t } } }

def Work.raiseAll (w : Work) (rs : List Raised) : Work := { w with raised := w.raised ++ rs }
def Work.noteAll (w : Work) (ns : List NoteBody) : Work := { w with notes := w.notes ++ ns }
def Work.handAll (w : Work) (es : List Entry) : Work := { w with handed := w.handed ++ es }

def filterPhase (w : Work) : Work :=
  let new : Table 32 LinkRec := w.floor.plp.links.map LinkRec.filterFrame
  (w.setLinks new).raiseAll ((List.finRange 32).flatMap (fun p => filterEvents p (w.link p) (new.get p)))

/-! ### Takes (R25 to R29) -/

/-- Every line's take. -/
def takes (f : Floor) : Table 256 LineTake :=
  Table.ofFn (fun l => takeLine (f.lsv.get l).state (f.lsv.get l).cfg.prime (f.ltm.get l))

/-- The delivered blocks (R29). -/
def deliveries (x : Table 256 LineTake) : Table 256 Delivered := x.map LineTake.delivered

def Work.setTerms (w : Work) (t : Table 256 TermRec) : Work := { w with floor := { w.floor with ltm := t } }

/-- The lines whose mirrored termination fields differ (R32). -/
def termChanges (a b : Table 256 TermRec) : List Entry :=
  ((List.finRange 256).filter (fun l => (a.get l).mirror ≠ (b.get l).mirror)).map .line

/-- The takes written to the records (R27): RX_UNDERFLOW of several lines goes by ascending line number (DESIGN CHOICE, entry
31). -/
def takePhase (x : Table 256 LineTake) (w : Work) : Work :=
  let new := x.map LineTake.term
  let under := (List.finRange 256).filter (fun l => (x.get l).underflow)
  ((w.setTerms new).noteAll (under.map (fun l => .rxUnderflow l (new.get l).counters.underflow))).handAll
    (termChanges w.floor.ltm new)

/-! ### Outputs (R141 to R145) -/

/-- All outputs of a frame. -/
structure Outputs where
  ears : Table 64 OutBlock
  channels : Table 32 (Table 8 OutBlock)
  left : Table 32 OutBlock
  right : Table 32 OutBlock
  transmits : Table 256 OutBlock

def outputs (f : Floor) (d : Table 256 Delivered) (ringers : Table 32 RingerFrame) : Outputs :=
  let channels : Table 32 (Table 8 OutBlock) := Table.ofFn (fun p => Table.ofFn (fun c => channelOut f d p c))
  { ears := Table.ofFn (earOut f d)
    channels := channels
    left := Table.ofFn (fun p => sideOut f (channels.get p) (ringers.get p).samples p .left)
    right := Table.ofFn (fun p => sideOut f (channels.get p) (ringers.get p).samples p .right)
    transmits := Table.ofFn (transmitOut f d) }

def Outputs.of (x : Outputs) : Output → OutBlock
  | .ear h => x.ears.get h
  | .channel p c => (x.channels.get p).get c
  | .side p .left => x.left.get p
  | .side p .right => x.right.get p
  | .transmit l => x.transmits.get l

/-- The outputs in the order in which their notes are handed (R149). -/
def allOutputs : List Output :=
  (List.finRange 64).map .ear ++ allChannels.map (fun x => .channel x.1 x.2) ++
    (List.finRange 32).flatMap (fun p => [.side p .left, .side p .right]) ++ (List.finRange 256).map .transmit

/-- An output's clip record. -/
def Mxe.clip (m : Mxe) : Output → ClipRec
  | .ear h => m.earClips.get h
  | .channel p c => (m.channelClips.get p).get c
  | .side p .left => (m.sideClips.get p).left
  | .side p .right => (m.sideClips.get p).right
  | .transmit l => m.transmitClips.get l

def Mxe.setClip (m : Mxe) (o : Output) (r : ClipRec) : Mxe := match o with
  | .ear h => { m with earClips := m.earClips.set h r }
  | .channel p c => { m with channelClips := m.channelClips.upd p (fun t => t.set c r) }
  | .side p .left => { m with sideClips := m.sideClips.upd p (fun x => { x with left := r }) }
  | .side p .right => { m with sideClips := m.sideClips.upd p (fun x => { x with right := r }) }
  | .transmit l => { m with transmitClips := m.transmitClips.set l r }

/-- A position's entry and then its two handset entries (R149, R178), that of handset 2p first (DESIGN CHOICE, entry 12). -/
def lampEntries (p : PositionNo) : List Entry := [.position p, .handset (handsetA p), .handset (handsetB p)]

/-- The entries that mirror an output's clip state (R149, R178). -/
def outputEntries : Output → List Entry
  | .ear h => lampEntries (handsetPosition h)
  | .channel p _ => lampEntries p
  | .side p _ => lampEntries p
  | .transmit l => [.line l]

/-- Every clip record judged by its output's frame. -/
def judgeClips (m : Mxe) (x : Outputs) : Mxe :=
  { m with
    earClips := Table.ofFn (fun h => (m.earClips.get h).judge (x.ears.get h).saturated)
    channelClips := Table.ofFn (fun p => Table.ofFn (fun c =>
      ((m.channelClips.get p).get c).judge ((x.channels.get p).get c).saturated))
    sideClips := Table.ofFn (fun p =>
      { left := (m.sideClips.get p).left.judge (x.left.get p).saturated
        right := (m.sideClips.get p).right.judge (x.right.get p).saturated })
    transmitClips := Table.ofFn (fun l => (m.transmitClips.get l).judge (x.transmits.get l).saturated) }

/-- The clip records after a frame (R145); CLIP of several outputs goes in the order of allOutputs (DESIGN CHOICE, entry
31). -/
def clipPhase (x : Outputs) (w : Work) : Work :=
  let new := judgeClips w.mxe x
  let opened := allOutputs.filter (fun o => (w.mxe.clip o).opens (x.of o).saturated)
  (((w.setMxe new).noteAll (opened.map (fun o => .clip o (new.clip o).count))).handAll
    (opened.flatMap outputEntries)).raiseAll ((allOutputs.filter (fun o => (new.clip o).ends)).map .clipEnd)

/-- An output's 500th clean frame ends its episode without a note (R145). -/
def clipEnd (o : Output) (w : Work) : Work :=
  let r := w.mxe.clip o
  if r.ends then (w.setMxe (w.mxe.setClip o { r with clipping := false })).handAll (outputEntries o) else w

/-! ### Activity (R146) -/

def addActivity (m : Mxe) (x : Outputs) : Mxe :=
  { m with activity := Table.ofFn (fun p => Table.ofFn (fun c =>
      ActivityRec.add m.mix.threshold ((x.channels.get p).get c).block ((m.activity.get p).get c))) }

def activityPhase (x : Outputs) (w : Work) : Work :=
  let new := addActivity w.mxe x
  (w.setMxe new).raiseAll
    ((allChannels.filter (fun y => new.mix.window ≤ ((new.activity.get y.1).get y.2).window)).map
      (fun y => .activityEnd y.1 y.2))

/-- An activity window ends (R146). -/
def activityEnd (p : PositionNo) (c : ChannelNo) (w : Work) : Work :=
  let r := (w.mxe.activity.get p).get c
  if w.mxe.mix.window ≤ r.window then
    let active : Bool := w.mxe.mix.count ≤ r.count
    let w1 := w.setMxe { w.mxe with
      activity := w.mxe.activity.upd p (fun t => t.set c { active := active, window := 0, count := 0 }) }
    if active = r.active then w1 else (w1.note (.activity p c active)).handAll (lampEntries p)
  else w

/-! ### Ringers (R68) -/

def ringerPhases (x : Table 32 RingerFrame) (w : Work) : Work :=
  let new := x.map RingerFrame.ringer
  ((w.setMxe { w.mxe with ringers := new }).handAll
    (((List.finRange 32).filter (fun p => (w.mxe.ringers.get p).state ≠ (new.get p).state)).map .position)).raiseAll
    (((List.finRange 32).filter (fun p => (x.get p).expired)).map .ringerPhase)

/-! ### Transmit parcels and supervision (R35, R40, R41, R45, R47, R100) -/

/-- The outgoing code of a line's frame (R41): RING in an ON phase of a running ring-out on a KNOCK line. -/
def outgoingCode (r : LineRec) : Option Code := match baseOutgoing r.cfg.kind r.state with
  | none => none
  | some code =>
    match r.ringOut with
    | some x => if r.cfg.kind = .knock ∧ x.on ∧ 0 < x.framesLeft then some .ring else some code
    | none => some code

/-- Whether a line sends a transmit parcel: neither DISABLED nor in TEST, and its card PRESENT (R35). -/
def sendsParcel (f : Floor) (l : LineNo) : Bool :=
  (outgoingCode (f.lsv.get l)).isSome && (f.lhp.cards.get (lineCard l)).present

/-- A line's transmit parcel (R35). -/
def transmitParcel (f : Floor) (x : Outputs) (l : LineNo) : Parcel :=
  { line := l, sequence := f.lhp.txSeq.get l, code := (outgoingCode (f.lsv.get l)).getD .quiet, err := false,
    samples := (x.transmits.get l).block }

/-- The highway frame that follows the frame event, and the transmit sequences after it (R35); the parcels within the frame
go by ascending line number (DESIGN CHOICE, entry 31). -/
def transmitLhp (f : Floor) (x : Outputs) : Lhp :=
  { f.lhp with
    txSeq := Table.ofFn (fun l => if sendsParcel f l then f.lhp.txSeq.get l + 1 else f.lhp.txSeq.get l)
    sent := ((List.finRange 256).filter (sendsParcel f)).map (fun l => (transmitParcel f x l).bytes) }

/-- The queues after the loopback of lines in TEST (R30). -/
def loopTerms (f : Floor) (x : Outputs) : Table 256 TermRec :=
  Table.ofFn (fun l =>
    if (f.lsv.get l).state = .test then (f.ltm.get l).loop (x.transmits.get l).block else f.ltm.get l)

/-- Whether the dead counter of a state is raised (R40). -/
def supervised (s : LineState) : Bool := match s with
  | .idle => true
  | .alerting => true
  | .outgoing => true
  | .connected => true
  | .held => true
  | .clearing => true
  | .disabled => false
  | .fault => false
  | .test => false
  | .leg => false

/-- One frame of a line's counters: dead counter, knock timer, ring-out phase (R40, R45, R47). -/
def LineRec.tick (r : LineRec) : LineRec :=
  { r with
    dead := if supervised r.state then min 1000 (r.dead + 1) else r.dead
    knock := if r.state = .alerting then r.knock.map (fun n => n - 1) else r.knock
    ringOut := r.ringOut.map (fun x => { x with framesLeft := x.framesLeft - 1 }) }

/-- The events of a line's counters after a tick. -/
def lineEvents (l : LineNo) (r : LineRec) : List Raised :=
  (if supervised r.state ∧ r.cfg.deadTime ≤ r.dead then [.lineDead l] else []) ++
  (if r.state = .alerting ∧ r.knock = some 0 then [.knockExpiry l] else []) ++
  (match r.ringOut with
    | some x => if x.framesLeft = 0 then [.ringoutPhase l] else []
    | none => [])

def GroupRec.tick (r : GroupRec) : GroupRec := { r with timer := r.timer.map (fun n => n - 1) }

/-- Ring-outs that begin on a phase of 0 frames pass over it before the frame's code is formed (R47). -/
def ringoutStarts (w : Work) : Work := (List.finRange 256).foldl (fun w l => ringoutPhase l w) w

def transmitPhase (x : Outputs) (w : Work) : Work :=
  let terms := loopTerms w.floor x
  let lines : Table 256 LineRec := w.floor.lsv.map LineRec.tick
  let floor := { w.floor with lhp := transmitLhp w.floor x, ltm := terms, lsv := lines }
  (({ w with floor := floor } : Work).handAll (termChanges w.floor.ltm terms)).raiseAll
    ((List.finRange 256).flatMap (fun l => lineEvents l (lines.get l)))

/-- The recall expiries of a frame, by handset number and bottom first (R83). -/
def recallEvents (w : Work) (h : HandsetNo) : List Raised :=
  ((w.handset h).stack.reverse.filter
    (recallDue (w.settings (handsetPosition h)).recallTime w.frame)).map (fun e => .recall h e.bridge)

/-- The recall timers and the group timers of a frame (R83, R100); a frame raises recalls before group alerts, and those by
ascending group number (DESIGN CHOICE, entry 3: R100 and R102 give no order). -/
def timerPhase (w : Work) : Work :=
  let groups := w.cnc.groups.map GroupRec.tick
  ((w.setCnc { w.cnc with groups := groups }).raiseAll ((List.finRange 64).flatMap (recallEvents w))).raiseAll
    (((List.finRange 64).filter (fun g => (groups.get g).timer = some 0)).map .groupAlert)

/-! ### Link frames (R76) -/

/-- A link frame of four blocks of silence. -/
def silentFrame (up : Bool) : List Byte := linkFrameBytes up silence silence silence silence

/-- The link frame to a position after a frame event in RUNNING. -/
def positionFrame (f : Floor) (x : Outputs) (p : PositionNo) : List Byte :=
  if (f.plp.links.get p).up then
    linkFrameBytes true (x.ears.get (handsetA p)).block (x.ears.get (handsetB p)).block (x.left.get p).block
      (x.right.get p).block
  else silentFrame false

/-- The link state after the mark that has judged a link's frame (R74). -/
def LinkRec.upAfterMark (r : LinkRec) : Bool :=
  if r.up then r.missed < Config.missedForDown else Config.goodForUp ≤ r.good

/-- Link frames of silence, outside RUNNING, after a mark that has judged the links (R76). -/
def silentFrames (links : Table 32 LinkRec) : Table 32 (List Byte) :=
  links.map (fun r => silentFrame r.upAfterMark)

/-- The frames that a mark in RUNNING is still owed where RUNNING is left before its frame event: link frames of silence with
the link states as PLP holds them, and a highway frame without parcels (R35, R76). That the mark's frame event is then not in
progress for R166 is the model's (DESIGN CHOICE, entry 36). -/
def Floor.sendOwed (f : Floor) : Floor :=
  if f.plp.owed then
    { f with
      lhp := { f.lhp with sent := [] }
      plp := { f.plp with sent := f.plp.links.map (fun r => silentFrame r.up), owed := false } }
  else f

/-- The link frames are sent, and the judged frames have been used. -/
def linkPhase (x : Outputs) (w : Work) : Work :=
  { w with floor := { w.floor with plp :=
      { links := w.floor.plp.links.map (fun r => { r with judged := none })
        sent := Table.ofFn (positionFrame w.floor x)
        owed := false } } }

/-! ### The frame event (R135) -/

/-- What MXE hands TPE at a frame event (R144). -/
structure Audio where
  delivered : Table 256 Delivered
  ears : Table 64 OutBlock
  mics : Table 64 Block

/-- The frame counter and the ramps (R135, R138). -/
def startPhase (w : Work) : Work :=
  let w1 := w.setMxe { w.mxe with frame := w.frame + 1 }
  w1.setMxe (rampAll w1.floor)

/-- The frame event over the floor's blocks, with what it hands TPE (R135). The events it raises stand in the order hooks and
keys, ringer phases, clip ends, activity windows, lines, recalls, groups, grant pass; R70, R102 and R149 leave that order
open (DESIGN CHOICE, entry 3). -/
def frameWork (w : Work) : Work × Audio :=
  let w1 := filterPhase (startPhase w)
  let x := takes w1.floor
  let w2 := takePhase x w1
  let ringers : Table 32 RingerFrame := Table.ofFn (positionRinger w2.floor)
  let out := outputs w2.floor (deliveries x) ringers
  let w3 := activityPhase out (clipPhase out (ringerPhases ringers w2))
  let w4 := timerPhase (transmitPhase out (ringoutStarts w3))
  ((linkPhase out w4).raise .grantPass,
    { delivered := deliveries x, ears := out.ears, mics := Table.ofFn (micBlock w2.floor) })

end Sys2Proof.Machine
end

