-- ==== Sys2Proof/Machine/Taps.lean ====
section
/-! DEFINITION. Chapter 10: tap frames at the frame event, the staging queue, the drain, segments, gaps and closing. -/

namespace Sys2Proof.Machine

/-! ### Records -/

abbrev State.tap (s : State) (n : TapNo) : TapRec := s.tpe.taps.get n

/-- Write a tap record; the handset's entry is handed over when the tap state or closing changes (R161). -/
def State.putTap (s : State) (n : TapNo) (r : TapRec) : State :=
  let s1 : State := { s with tpe := { s.tpe with taps := s.tpe.taps.set n r } }
  if (s.tap n).state = r.state ∧ (s.tap n).closing = r.closing then s1 else s1.handEntry (.handset n)

def State.setStaging (s : State) (q : List StagedFrame) : State := { s with tpe := { s.tpe with staging := q } }
def State.setJobs (s : State) (jobs : List TpeJob) : State := { s with tpe := { s.tpe with jobs := jobs } }

/-- The descriptor of a tap: 64 bytes per tap at the tap descriptor base (section 10.2). -/
def descriptorAddr (s : State) (n : TapNo) : Addr := atOffset s.rc.held.tapBase (64 * n.val)

/-- The dropped count of a frame that is written: pending drops plus its snapshot (R157). -/
def droppedCount (r : TapRec) (x : StagedFrame) : Nat := holdAdd hold32 r.pendingDrops x.snapshot

/-- The place of the next written frame (R156). -/
def frameAddr (r : TapRec) : Addr := atOffset r.base ((r.segment * r.frames + r.index) * 144)

/-! ### TPE's accesses -/

/-- The access of a job (R151, R155 to R157). The one read of a descriptor spans its bytes 0Ch to 0Fh, of which nothing is
used (section 12.8 says that they are not read: DEDUCED, entry 21). -/
def tpeAccess (s : State) : TpeJob → Option Access
  | .startRead n => some (readAccess (descriptorAddr s n) 28)
  | .startFilled n => some (writeAccess (atOffset (descriptorAddr s n) 0x10) (bytesOf 4 (s.tap n).filled.toNat))
  | .startTotal n => some (writeAccess (atOffset (descriptorAddr s n) 0x18) (bytesOf 4 (s.tap n).droppedTotal))
  | .readReturned => s.tpe.staging.head?.map (fun x => readAccess (atOffset (descriptorAddr s x.tap) 0x14) 4)
  | .writeFrame => s.tpe.staging.head?.map (fun x =>
      let dropped := droppedCount (s.tap x.tap) x
      writeAccess (frameAddr (s.tap x.tap)) (tapFrameBytes x (0 < dropped) dropped))
  | .gapTotal n => some (writeAccess (atOffset (descriptorAddr s n) 0x18) (bytesOf 4 (s.tap n).droppedTotal))
  | .segmentFilled n => some (writeAccess (atOffset (descriptorAddr s n) 0x10) (bytesOf 4 (s.tap n).filled.toNat))
  | .closeFilled n => some (writeAccess (atOffset (descriptorAddr s n) 0x10) (bytesOf 4 (s.tap n).filled.toNat))
  | .closeTotal n => some (writeAccess (atOffset (descriptorAddr s n) 0x18) (bytesOf 4 (s.tap n).droppedTotal))

/-- The access of the first job goes to TPE's port. -/
def requestJob (s : State) : State := match s.tpe.jobs.head?.bind (tpeAccess s) with
  | some a => s.request .tpe a
  | none => s

/-- A job joins the tail; alone, its access goes to the port at once. -/
def addJob (j : TpeJob) (s : State) : State :=
  let s1 := s.setJobs (s.tpe.jobs ++ [j])
  if s.tpe.jobs.isEmpty then requestJob s1 else s1

/-- The first job is followed at once by others, then by the jobs that wait. -/
def followJob (next : List TpeJob) (s : State) : State := requestJob (s.setJobs (next ++ s.tpe.jobs.tail))

/-- Whether a TAP_START is being carried out. -/
def startJob : TpeJob → Bool
  | .startRead _ => true
  | .startFilled _ => true
  | .startTotal _ => true
  | _ => false

def State.starting (s : State) : Bool := s.tpe.jobs.any startJob

/-! ### Production (R153, R154, R159) -/

/-- The CONCEALED and UNDERFLOW flags of a bridge (R153). -/
def lineFlags (a : Audio) (b : Option BridgeNo) : Bool × Bool := match b with
  | none => (false, false)
  | some b => match bridgeKind b with
    | .line l =>
      let d := a.delivered.get l
      (d.playing && d.origin ≠ .good, !d.playing)
    | .group _ => (false, false)
    | .hoot _ => (false, false)

/-- The frame a tap produces. -/
def tapFrame (f : Floor) (a : Audio) (n : TapNo) (r : TapRec) : StagedFrame :=
  let b := activeBridge f.cnc n
  let state := (f.cnc.handsets.get n).state
  { tap := n, number := r.number, bridge := b, frame := f.mxe.frame, concealed := (lineFlags a b).1,
    underflow := (lineFlags a b).2, heldOrIdle := state = .idle, onHook := state = .onHook, ear := (a.ears.get n).block,
    mic := a.mics.get n, snapshot := r.stagingDrops }

/-- Whether a tap produces a frame (R153). -/
def produces (f : Floor) (n : TapNo) (r : TapRec) : Bool :=
  r.state ≠ .stopped && (r.mode = .continuous || (f.cnc.handsets.get n).state = .connected)

/-- The record of a tap that has produced a frame, and whether the frame is kept (R153, R154, R159). -/
def TapRec.produced (r : TapRec) (b : Option BridgeNo) (kept : Bool) : TapRec :=
  if kept then { r with number := r.number + 1, lastBridge := b, stagingDrops := 0 }
  else { r with
    number := r.number + 1, lastBridge := b, stagingDrops := holdAdd hold32 r.stagingDrops 1
    droppedTotal := holdAdd hold32 r.droppedTotal 1, episode := true }

/-- One tap at a frame event. -/
def produceTap (a : Audio) (s : State) (n : TapNo) : State :=
  let r := s.tap n
  if produces s.floor n r then
    let x := tapFrame s.floor a n r
    let kept : Bool := s.tpe.staging.length < Config.stagingPlaces
    let s1 := s.putTap n (r.produced x.bridge kept)
    let s2 := if kept then s1.setStaging (s1.tpe.staging ++ [x]) else s1
    if x.bridge = r.lastBridge then s2 else s2.note (.tapMark n r.number x.bridge r.lastBridge)
  else s

/-- All taps at a frame event, ascending (R153). -/
def produceTaps (a : Audio) (s : State) : State := (List.finRange 64).foldl (produceTap a) s

/-! ### Closing (R152) -/

/-- Closing is over: the flag is clear and the entry is handed over. -/
def closeDone (n : TapNo) (s : State) : State := s.putTap n { s.tap n with closing := false }

/-- Step 2 of closing: an open episode is journalled with no following frame. TAP_GAP goes to JNU and the episode closes when
the write of the dropped total is asked for; closing is cleared when that write has ended (DESIGN CHOICE, entry 46). -/
def closeGap (n : TapNo) (s : State) : State :=
  let r := s.tap n
  if r.episode then
    let s1 := (s.putTap n { r with episode := false }).note
      (.tapGap n none (holdAdd hold32 r.pendingDrops r.stagingDrops) r.droppedTotal)
    addJob (.closeTotal n) (s1.handEntry (.handset n))
  else closeDone n s

/-- A stopped tap with no frame staged closes: a partly written segment is counted as filled first (R152). -/
def closeTap (n : TapNo) (s : State) : State :=
  let r := s.tap n
  if r.granted ∧ 0 < r.index then addJob (.closeFilled n) (s.putTap n { r with filled := r.filled + 1 })
  else closeGap n s

/-- Whether a frame of a tap is staged. -/
def staged (s : State) (n : TapNo) : Bool := s.tpe.staging.any (fun x => x.tap = n)

def closeIfEmpty (n : TapNo) (s : State) : State := if (s.tap n).closing && !staged s n then closeTap n s else s

/-! ### The drain (R155 to R158) -/

/-- The first job is over and the next one's access goes to the port. -/
def jobDone (s : State) : State := followJob [] s

/-- The head of the staging queue has been handled and leaves it; a closing tap may now close. -/
def frameDone (s : State) : State := match s.tpe.staging with
  | [] => jobDone s
  | x :: rest => closeIfEmpty x.tap (jobDone (s.setStaging rest))

/-- The head frame is dropped at the drain (R157); `withheld` when its segment was withheld, which makes a RUNNING tap
DROPPING (R155, R158). -/
def dropHead (withheld : Bool) (s : State) : State := match s.tpe.staging with
  | [] => jobDone s
  | x :: _ =>
    let r := s.tap x.tap
    frameDone (s.putTap x.tap { r with
      pendingDrops := holdAdd hold32 r.pendingDrops (1 + x.snapshot), droppedTotal := holdAdd hold32 r.droppedTotal 1
      episode := true
      state := if withheld ∧ r.state = .running then .dropping else r.state })

/-- TPE takes the head of the staging queue (R155). The head stays in the queue until its handling ends, as R154 says, where
a row of R160 has it leave once the drain takes it (DESIGN CHOICE, entry 44). -/
def drainTake (s : State) : State := match s.tpe.staging with
  | [] => s
  | x :: _ =>
    if s.tpe.jobs.isEmpty then addJob (if (s.tap x.tap).granted then .writeFrame else .readReturned) s else s

/-- The returned count has come: the segment is granted, or the frame is dropped (R155). -/
def returnedRead (returned : Word) (s : State) : State := match s.tpe.staging with
  | [] => jobDone s
  | x :: _ =>
    let r := { s.tap x.tap with returned := returned }
    if (r.filled - returned).toNat < r.segments then
      followJob [.writeFrame] (s.putTap x.tap { r with
        granted := true, state := if r.state = .dropping then .running else r.state })
    else dropHead true (s.putTap x.tap r)

/-- The jobs that follow a written frame: the dropped total after a gap, filled at the end of a segment (R156, R157). -/
def framesJobs (n : TapNo) (gap full : Bool) : List TpeJob :=
  (if gap then [.gapTotal n] else []) ++ (if full then [.segmentFilled n] else [])

/-- A tap frame has been written (R156, R157). The drop episode closes at a frame with GAP set, as R157 says; one written
without it, older than a drop at the staging queue, leaves it open, where R150's table has it open until the next written frame
(DEDUCED, entry 43). TAP_GAP is handed here, when the write of the dropped total is asked for (DESIGN CHOICE, entry 46). -/
def frameWritten (s : State) : State := match s.tpe.staging with
  | [] => jobDone s
  | x :: _ =>
    let r := s.tap x.tap
    let dropped := droppedCount r x
    let gap : Bool := 0 < dropped
    let full : Bool := r.frames ≤ r.index + 1
    let s1 := s.putTap x.tap { r with
      index := r.index + 1, pendingDrops := 0, lastWritten := x.number, episode := r.episode && !gap
      filled := if full then r.filled + 1 else r.filled }
    let s2 := if gap then (s1.note (.tapGap x.tap (some x.number) dropped r.droppedTotal)).handEntry (.handset x.tap)
      else s1
    if gap || full then followJob (framesJobs x.tap gap full) s2 else frameDone s2

/-- Filled has been written at the end of a segment: TAP_SEGMENT, and the position moves on (R156). The handset's entry is
handed over at this event, the completion of the write of filled, as the segment completion that R156 names (DESIGN CHOICE,
entry 37). -/
def segmentDone (n : TapNo) (s : State) : State :=
  let r := s.tap n
  let s1 := s.note (.tapSegment n r.segment r.filled r.frames r.lastWritten)
  frameDone ((s1.putTap n { r with
    segment := if r.segment + 1 < r.segments then r.segment + 1 else 0, index := 0, granted := false }).handEntry
      (.handset n))

/-- The dropped total has been written after a gap: filled follows at a segment's end, else the frame is done (R157). -/
def gapWritten (s : State) : State := match s.tpe.jobs with
  | _ :: .segmentFilled _ :: _ => jobDone s
  | _ => frameDone s

/-- Filled has been written for a partly written segment of a closing tap (R152). -/
def closeSegment (n : TapNo) (s : State) : State :=
  let r := s.tap n
  closeGap n (jobDone ((s.note (.tapSegment n r.segment r.filled r.index r.lastWritten)).handEntry (.handset n)))

/-! ### TAP_START and TAP_STOP (R151, R152) -/

/-- TAP_START as it is taken: its outcome comes with its accesses, unless it is refused at once (R151). -/
def tapStartOrder (tap : Byte) (s : State) : State × Option OrderResult := match tapArg tap with
  | none => (s, some { code := .badNumber, data := [] })
  | some n =>
    if (s.tap n).state ≠ .stopped ∨ (s.tap n).closing ∨ staged s n then (s, some { code := .busy, data := [] })
    else (addJob (.startRead n) s, none)

/-- A TAP_START ends: its last job is over and its outcome goes to ORU. -/
def startDone (o : OrderResult) (s : State) : State := completeTaken o (jobDone s)

/-- What TAP_START's descriptor spells: area base, F, S, mode, returned; or the code that refuses it (R151). -/
def descriptorCheck (d : List Byte) : Option ResultCode :=
  let base := addrField d 0x00
  if base = 0 ∨ base.toNat % 16 ≠ 0 then some .badAddress
  else if fieldAt d 0x08 2 < 16 ∨ 4096 < fieldAt d 0x08 2 ∨ fieldAt d 0x0A 1 < 2 ∨ 16 < fieldAt d 0x0A 1 ∨
    (tapModeArg (fieldAt d 0x0B 1)).isNone then some .badValue
  else none

/-- The tap record that a checked descriptor sets up (R151). -/
def TapRec.setUp (r : TapRec) (d : List Byte) : TapRec :=
  { r with
    base := addrField d 0x00, frames := fieldAt d 0x08 2, segments := fieldAt d 0x0A 1
    mode := (tapModeArg (fieldAt d 0x0B 1)).getD .connectedOnly, segment := 0, index := 0, granted := false
    filled := wordField d 0x14, returned := wordField d 0x14, number := 0, stagingDrops := 0, pendingDrops := 0
    episode := false, droppedTotal := 0, lastBridge := none, lastWritten := 0 }

/-- The descriptor has come (R151); the tap record takes its fields here, before the two writes (entry 42), in STOPPING too
(DESIGN CHOICE, entry 45). -/
def descriptorRead (d : List Byte) (s : State) : State := match s.tpe.jobs with
  | .startRead n :: _ => match descriptorCheck d with
    | some code => startDone { code := code, data := [] } s
    | none => followJob [.startFilled n] (s.putTap n ((s.tap n).setUp d))
  | _ => s

/-- One of the two descriptor writes of TAP_START has completed; after the second the tap is RUNNING (R151), in STOPPING too:
a TAP_START in progress at STOP completes (R166), where R161 has taps STOPPED at STOP (DESIGN CHOICE, entry 45). -/
def startWritten (s : State) : State := match s.tpe.jobs with
  | .startFilled n :: _ => followJob [.startTotal n] s
  | .startTotal n :: _ =>
    startDone { code := .ok, data := data4 (s.tap n).filled.toNat } (s.putTap n { s.tap n with state := .running })
  | _ => s

/-- TAP_STOP (R152). -/
def tapStopOrder (tap : Byte) (s : State) : State × Option OrderResult := match tapArg tap with
  | none => (s, some { code := .badNumber, data := [] })
  | some n =>
    if (s.tap n).state = .stopped then (s, some { code := .ok, data := data1 0 })
    else (closeIfEmpty n (s.putTap n { s.tap n with state := .stopped, closing := true }),
      some { code := .ok, data := data1 1 })

/-! ### Completions and errors -/

/-- The completion of TPE's first job, for the writes of filled. -/
def filledWritten (s : State) : State := match s.tpe.jobs with
  | .segmentFilled n :: _ => segmentDone n s
  | .closeFilled n :: _ => closeSegment n s
  | _ => s

/-- The completion of a write of the dropped total. -/
def totalWritten (s : State) : State := match s.tpe.jobs with
  | .gapTotal _ :: _ => gapWritten s
  | .closeTotal n :: _ => closeDone n (jobDone s)
  | _ => s

/-- A bus error on TPE's access (R151, R158). A TAP_START that ends at one of its writes leaves the tap STOPPED with the other
fields that it has set (DESIGN CHOICE, entry 42). -/
def tpeError (s : State) : State := match s.tpe.jobs with
  | [] => s
  | .startRead _ :: _ => startDone { code := .badAddress, data := [] } s
  | .startFilled _ :: _ => startDone { code := .badAddress, data := [] } s
  | .startTotal _ :: _ => startDone { code := .badAddress, data := [] } s
  | .readReturned :: _ => dropHead true s
  | .writeFrame :: _ => dropHead false s
  | .gapTotal _ :: _ => gapWritten s
  | .closeTotal n :: _ => closeDone n (jobDone s)
  | .segmentFilled _ :: _ => requestJob s
  | .closeFilled _ :: _ => requestJob s

end Sys2Proof.Machine
end

