-- ==== Sys2Proof/Machine/RunControl.lean ====
section
/-! DEFINITION. Sections 11.1 and 11.2: the run states, the start, the stop, and reset; MPT's issue and bus errors
(section 11.6). -/

namespace Sys2Proof.Machine

def State.setRc (s : State) (r : RunControl) : State := { s with rc := r }
def State.setFloor (s : State) (f : Floor) : State := { s with floor := f }

/-! ### The start (R164, R165) -/

/-- RUN in STOPPED: STARTING, and the control block is read (R164, R165). -/
def startRun (s : State) : State :=
  (s.setRc { s.rc with runState := .starting, startPhase := .reading, abandoning := false }).request .oru
    (readAccess s.rc.cbAddr 80)

/-- The start ends in STOPPED with a cause: START_FAIL, or STOPPED when it was abandoned (R164, R165). -/
def endStart (cause : Cause) (s : State) : State :=
  ((s.setRc { s.rc with runState := .stopped, startPhase := .none, abandoning := false }).withdraw .oru).setCause cause

/-- Whether an address field of the control block passes (R165). -/
def blockAddrOk (a : Addr) : Bool := a ≠ 0 && aligned64 a

/-- The checks of the control block (R165). -/
def controlBlockOk (cbAddr : Addr) (b : List Byte) : Bool :=
  cbAddr ≠ 0 && fieldAt b 0x00 4 = 1 && (4 ≤ fieldAt b 0x20 1 && fieldAt b 0x20 1 ≤ 12) &&
    blockAddrOk (addrField b 0x08) && blockAddrOk (addrField b 0x18) && blockAddrOk (addrField b 0x38) &&
    blockAddrOk (addrField b 0x40)

/-- The values held for the run (R165). -/
def heldOf (b : List Byte) : HeldValues :=
  { anchor := addrField b 0x08, pollMs := min 255 (fieldAt b 0x04 4), journalBase := addrField b 0x18,
    exponent := fieldAt b 0x20 1, trigger := clampTo 1 (2 ^ fieldAt b 0x20 1) (fieldAt b 0x22 2),
    lingerMs := clampTo 0 1000 (fieldAt b 0x24 2), statusBase := addrField b 0x38, tapBase := addrField b 0x40,
    consumed := wordField b 0x2C }

/-- The write of a phase of STARTING (R165). -/
def startAccess (s : State) : Option Access := match s.rc.startPhase with
  | .none => none
  | .reading => none
  | .cursor => some (writeAccess (atOffset s.rc.cbAddr 0x10) (bytesOf 8 s.rc.held.anchor.toNat))
  | .produced => some (writeAccess (atOffset s.rc.cbAddr 0x28) (bytesOf 4 s.rc.held.consumed.toNat))
  | .lost => some (writeAccess (atOffset s.rc.cbAddr 0x30) (bytesOf 4 0))

/-- STARTING goes to a phase and makes its write. -/
def startPhaseTo (phase : StartPhase) (s : State) : State :=
  let s1 := s.setRc { s.rc with startPhase := phase }
  match startAccess s1 with
  | some a => s1.request .oru a
  | none => s1

/-- The control block has come (R165). -/
def controlBlockRead (b : List Byte) (s : State) : State :=
  if s.rc.abandoning then endStart .stopped s
  else if controlBlockOk s.rc.cbAddr b then startPhaseTo .cursor (s.setRc { s.rc with held := heldOf b })
  else endStart .startFail s

/-- Filters at rest: not RUNNING, or a DOWN link (R75). -/
def LinkRec.rested (r : LinkRec) : LinkRec :=
  { r with hookA := .rest, hookB := .rest, ptt := .rest, judged := none, filtering := false }

/-- Line and position paths take their targets (R137). -/
def gainsAtTarget (f : Floor) (m : Mxe) : Mxe :=
  { m with
    lineGains := f.lsv.map (fun r => { rx := r.cfg.rxGain, tx := r.cfg.txGain })
    positionGains := f.cnc.settings.map (fun s =>
      { micA := s.micGainA, micB := s.micGainB, desk := s.deskGain, volA := s.volumeA, volB := s.volumeB,
        left := s.sideLeft, right := s.sideRight }) }

/-- Clip and activity records at entry to RUNNING (R145, R146). -/
def freshRecords (m : Mxe) : Mxe :=
  { m with
    earClips := Table.fill 64 .initial, channelClips := Table.fill 32 (Table.fill 8 .initial)
    sideClips := Table.fill 32 { left := .initial, right := .initial }, transmitClips := Table.fill 256 .initial
    activity := Table.fill 32 (Table.fill 8 .initial) }

/-- The floor's blocks at entry to RUNNING (R36, R75, R135, R137, R145, R146). -/
def Floor.enterRunning (f : Floor) : Floor :=
  { f with
    lhp := { f.lhp with txSeq := Table.fill 256 0 }
    ltm := Table.fill 256 .fresh
    plp := { f.plp with links := f.plp.links.map LinkRec.rested }
    mxe := gainsAtTarget f (freshRecords { f.mxe with frame := 0 }) }

/-- Entry to RUNNING (R165). -/
def enterRunning (s : State) : State :=
  let s1 : State :=
    { s with
      rc := { s.rc with runState := .running, startPhase := .none, abandoning := false, cleared := false }
      oru := { cursor := s.rc.held.anchor, next := none, step := .linkRead, active := true, nudged := false,
               poll := none, order := none, lastOutcome := s.oru.lastOutcome }
      jnu := { produced := s.rc.held.consumed, consumed := s.rc.held.consumed, lost := 0, queue := [], phase := .idle,
               linger := none }
      stw := { s.stw with depths := Table.fill 256 0, saturations := Table.fill 256 0, queue := allEntries, phase := .idle }
      floor := s.floor.enterRunning
      due := [] }
  oruRequest s1

/-- One of the three start writes has completed (R165). -/
def startWrite (s : State) : State :=
  if s.rc.abandoning then endStart .stopped s
  else match s.rc.startPhase with
    | .cursor => startPhaseTo .produced s
    | .produced => startPhaseTo .lost s
    | .lost => enterRunning s
    | .none => s
    | .reading => s

/-! ### The stop (R166) -/

/-- A tap at STOP: STOPPED, without a note or a descriptor write (R161). -/
def TapRec.halt (r : TapRec) : TapRec := { r with state := .stopped, closing := false }

/-- Every tap at STOP; the entries of those that change are handed over (R161). -/
def haltTaps (s : State) : State := (List.finRange 64).foldl (fun s n => s.putTap n (s.tap n).halt) s

/-- TPE at STOP: every tap is STOPPED, staged frames are discarded, its accesses given up but for those of a TAP_START in
progress (R154, R161). -/
def stopTaps (s : State) : State :=
  let s0 := haltTaps s
  let s1 : State := { s0 with tpe := { s0.tpe with staging := [], jobs := s.tpe.jobs.filter startJob } }
  if (s.tpe.jobs.head?.map startJob).getD true then s1 else requestJob (s1.abandonPort .tpe .discarded)

/-- ORU at STOP: it takes no new record; an order whose write-back waits for a retry is dropped (R166, R171), and so is one
that its owner could not take (entry 35). -/
def stopOru (s : State) : State := match s.oru.order with
  | none => (s.setOru { s.oru with active := false }).withdraw .oru
  | some d => if s.oru.active && (d.taken || d.outcome.isSome) then s else oruEnd s

/-- The floor's blocks at STOP: no mark is left without its frames, and the filters rest (R35, R75, R76). -/
def Floor.leaveRunning (f : Floor) : Floor :=
  let g := f.sendOwed
  { g with plp := { g.plp with links := g.plp.links.map LinkRec.rested } }

/-- STOP in RUNNING: STOPPING, and no new work starts (R166). -/
def startStopping (s : State) : State :=
  let s1 := s.setRc { s.rc with runState := .stopping, cleared := false }
  stopTaps (stopOru (s1.setFloor s1.floor.leaveRunning))

/-- STOP in STARTING: the start is abandoned when its access in flight completes; with none in flight, at once (R164). -/
def abandonStart (s : State) : State :=
  if s.liveFlight .oru then s.setRc { s.rc with abandoning := true } else endStart .stopped s

/-- CNC after the clearing of STOPPING (R18, R72, R91, R92, R104, R105, R118). -/
def Cnc.stop (c : Cnc) : Cnc :=
  { c with
    bridges := Table.fill 352 .empty, pool := Table.fill 1024 none, ringLists := Table.fill 32 []
    handsets := Table.fill 64 .initial
    groups := c.groups.map (fun r => { r with state := .idle, timer := none, alerted := 0 })
    hoots := c.hoots.map (fun r => { r with legs := [], queue := [] })
    talks := c.talks.map (fun r => { r with key := false, status := .idle })
    channels := Table.fill 32 (Table.ofFn ChannelRec.initial) }

/-- MXE after the clearing: ringers IDLE as at an emptied list (R72; entry 9), channel gains 0, clip states CLEAN with
their counters kept (R137, R145, R146). -/
def Mxe.stop (m : Mxe) : Mxe :=
  let clean : ClipRec → ClipRec := fun r => { clipping := false, cleanRun := 0, count := r.count }
  { m with
    channelGains := Table.fill 32 (Table.fill 8 0)
    ringers := m.ringers.map Ringer.emptied
    earClips := m.earClips.map clean, channelClips := m.channelClips.map (fun t => t.map clean)
    sideClips := m.sideClips.map (fun x => { left := clean x.left, right := clean x.right })
    transmitClips := m.transmitClips.map clean
    activity := Table.fill 32 (Table.fill 8 .initial) }

/-- A line after the clearing (R55). -/
def LineRec.stop (r : LineRec) : LineRec := .cleared r.cfg (if r.cfg.enable then .idle else .disabled)

/-- The floor's blocks after the clearing. -/
def Floor.stop (f : Floor) : Floor :=
  { f with
    ltm := f.ltm.map TermRec.stop, lsv := f.lsv.map LineRec.stop
    plp := { f.plp with links := f.plp.links.map LinkRec.rested }, cnc := f.cnc.stop, mxe := f.mxe.stop }

/-- Whether the clearing may be made: the order in progress has completed and TPE makes no access (R166). -/
def mayClear (s : State) : Bool :=
  s.rc.runState = .stopping && !s.rc.cleared && s.oru.order.isNone && s.tpe.jobs.isEmpty

/-- The clearing of STOPPING (R166, R174): no notes; every status entry is handed over in image order. -/
def clearDynamic (s : State) : State :=
  { s with
    rc := { s.rc with cleared := true }
    floor := s.floor.stop
    tpe := .initial
    stw := allEntries.foldl (Stw.hand s.floor.stop) s.stw
    due := [] }

/-- Whether a port is empty. -/
def Port.idle (p : Port) : Bool := p.waiting.isNone && p.inFlight.isNone

/-- Whether STOPPING can end: notes and entries written, no access at MPT (R166). -/
def mayStop (s : State) : Bool :=
  s.rc.runState = .stopping && s.rc.cleared && s.jnu.queue.isEmpty && s.jnu.phase = .idle && s.stw.queue.isEmpty &&
    s.stw.phase = .idle && s.mpt.tpe.idle && s.mpt.jnu.idle && s.mpt.stw.idle && s.mpt.oru.idle

/-- The end of STOPPING (R166, R170, R173). -/
def endStopping (s : State) : State :=
  State.setCause .stopped
    { s with
      rc := { s.rc with runState := .stopped, cleared := false }
      oru := { s.oru with active := false, nudged := false, poll := none }
      jnu := { s.jnu with linger := none } }

/-! ### Reset (R167) -/

/-- The floor's blocks after a reset (R167); a mark still owed its frames has them with every link DOWN (R76; entry 36). -/
def Floor.afterReset (owed : Bool) : Floor :=
  { Floor.initial with plp := { Plp.initial with owed := owed } }.sendOwed

/-- Reset of every block; accesses in flight stay on the link and change nothing when they complete (R167). -/
def resetPart (cbAddr : Addr) (s : State) : State :=
  { State.reset with
    rc := { RunControl.initial with cbAddr := cbAddr }
    floor := .afterReset s.floor.plp.owed
    mpt := { tpe := s.mpt.tpe.abandon .void, jnu := s.mpt.jnu.abandon .void, stw := s.mpt.stw.abandon .void,
             oru := s.mpt.oru.abandon .void }
    pending := s.pending }

/-! ### MPT (R175) -/

/-- Whether MPT could issue a port's access. -/
def Port.ready (p : Port) : Bool := p.waiting.isSome && p.inFlight.isNone

/-- The requester whose access is issued next: the first in the fixed order (R175). -/
def nextRequester (m : Mpt) : Option Requester :=
  [Requester.tpe, .jnu, .stw, .oru].find? (fun r => (m.port r).ready)

/-- A port whose waiting access is issued. -/
def Port.issue (p : Port) : Port :=
  { waiting := none, inFlight := p.waiting.map (fun a => { access := a, fate := .live }) }

/-- MPT issues the waiting access of the highest requester (R175). -/
def issueNext (s : State) : State := match nextRequester s.mpt with
  | none => s
  | some r => { s with mpt := s.mpt.setPort r (s.mpt.port r).issue }

/-- A bus error on an ORU access: at STARTING the start fails, or ends abandoned (R164, R165, R171). -/
def oruBusError (s : State) : State :=
  if s.rc.runState = .starting then endStart (if s.rc.abandoning then .stopped else .startFail) s else oruError s

/-- What a requester does at a bus error (R175). -/
def requesterError (r : Requester) (s : State) : State := match r with
  | .tpe => tpeError s
  | .jnu => jnuError s
  | .stw => stwError s
  | .oru => oruBusError s

/-- An access of a requester ends in a bus error: MEM_FAULT, the access is abandoned, the requester acts by its rule. A
reset has made the completion of an earlier access change nothing (R167); STOP has left it the cause alone (R154, R175). -/
def busError (r : Requester) (s : State) : State := match (s.mpt.port r).inFlight with
  | none => s
  | some f => match f.fate with
    | .void => s.freePort r
    | .discarded => (s.freePort r).setCause .memFault
    | .live => requesterError r ((s.freePort r).setCause .memFault)

def AccessOp.isRead : AccessOp → Bool
  | .read _ => true
  | .write _ => false

/-- Whether a requester has a read in flight. -/
def readInFlight (r : Requester) (s : State) : Bool := match (s.mpt.port r).inFlight with
  | some f => f.access.op.isRead
  | none => false

end Sys2Proof.Machine
end

