-- ==== Sys2Proof/Machine/Events.lean ====
section
/-! DEFINITION. The clock mark, arrivals from the cards and the positions, the frame event over the whole part, and the
events that earlier commands raised, each taken whole (sections 2.6, 3.3 and 5.1 of the manual). -/

namespace Sys2Proof.Machine

/-! ### Raised events -/

/-- A card's presence changes at the 8th mark of the opposite level; in RUNNING its 16 lines are handed over (R19). -/
def cardPresence (running : Bool) (card : CardNo) (w : Work) : Work :=
  let r := w.floor.lhp.cards.get card
  if Config.presenceMarks ≤ r.marks then
    let w1 : Work := { w with floor := { w.floor with lhp := { w.floor.lhp with
      cards := w.floor.lhp.cards.set card { present := !r.present, marks := 0 } } } }
    if running then w1.handAll (((List.finRange 256).filter (fun l => lineCard l = card)).map .line) else w1
  else w

/-- One raised event taken at its owner. Each owner acts only if the event still stands. -/
def eventWork (running : Bool) (e : Raised) (w : Work) : Work := match e with
  | .cardPresence card => cardPresence running card w
  | .linkDown p => linkDownEvent running p w
  | .linkUp p => linkUpEvent running p w
  | .hook h => hookChange h w
  | .press p => pressEvent p w
  | .unpress p => unpressEvent p w
  | .accepted l => acceptChange l w
  | .lineDead l => deadExpiry l w
  | .knockExpiry l => knockExpiry l w
  | .ringoutPhase l => ringoutPhase l w
  | .recall h b => recallExpiry h b w
  | .groupAlert g => groupAlertExpiry g w
  | .ringerPhase p => ringerPhase p w
  | .clipEnd o => clipEnd o w
  | .activityEnd p c => activityEnd p c w
  | .grantPass => framePasses w

/-- Take one raised event; its owner raises none in turn. -/
def takeEvent (e : Raised) (s : State) : State := { s.onFloor (eventWork s.running e) with due := s.due }

/-- Take every raised event, oldest first. -/
def settle (s : State) : State := s.due.foldl (fun s e => takeEvent e s) { s with due := [] }

/-- Take one raised event out of its turn: its own row of the table. Without it nothing changes. -/
def takeDue (e : Raised) (s : State) : State :=
  if e ∈ s.due then takeEvent e { s with due := s.due.erase e } else s

/-! ### The clock mark (R19, R73, R74, R76) -/

/-- One mark at a card's presence input; low is present (R19). -/
def CardRec.mark (low : Bool) (r : CardRec) : CardRec :=
  if low = r.present then { r with marks := 0 } else { r with marks := min Config.presenceMarks (r.marks + 1) }

/-- One mark at a link: its frame is judged good or missing, and its counts follow (R73, R74). -/
def LinkRec.mark (r : LinkRec) : LinkRec :=
  let judged : LinkRec := { r with judged := r.arrived, arrived := none, filtering := r.up }
  match r.up, r.arrived with
  | true, some _ => { judged with missed := 0 }
  | true, none => { judged with missed := min Config.missedForDown (r.missed + 1) }
  | false, some _ => { judged with good := min Config.goodForUp (r.good + 1) }
  | false, none => { judged with good := 0 }

/-- The link events of a mark. -/
def linkMarkEvents (p : PositionNo) (r : LinkRec) : List Raised :=
  if r.up && decide (Config.missedForDown ≤ r.missed) then [.linkDown p]
  else if !r.up && decide (Config.goodForUp ≤ r.good) then [.linkUp p]
  else []

/-- The 2 ms mark over the floor's blocks: card inputs (a set bit is a high level), links, and outside RUNNING frames of
silence on the position links and none to the cards (R19, R35, R73, R76). A mark in RUNNING owes the link frames and the highway
frame: its frame event sends them, or else the STOP or reset that comes before it (Floor.sendOwed; DESIGN CHOICE, entry
36). -/
def markWork (running : Bool) (cards : Half) (w : Work) : Work :=
  let records : Table 16 CardRec :=
    Table.ofFn (fun k => (w.floor.lhp.cards.get k).mark (!cards.getLsbD k.val))
  let links : Table 32 LinkRec := w.floor.plp.links.map LinkRec.mark
  let floor := { w.floor with
    lhp := { w.floor.lhp with cards := records, sent := if running then w.floor.lhp.sent else [] }
    plp := { links := links, sent := if running then w.floor.plp.sent else silentFrames links, owed := running } }
  ({ w with floor := floor } : Work).raiseAll
    (((List.finRange 16).filter (fun k => Config.presenceMarks ≤ (records.get k).marks)).map .cardPresence ++
      (List.finRange 32).flatMap (fun p => linkMarkEvents p (links.get p)))

/-! ### Arrivals (R20, R73) -/

/-- A valid frame from a position is kept for the next mark; the latest is used (R73). -/
def linkArrival (p : PositionNo) (frame : List Byte) (w : Work) : Work := match parseLinkFrame frame with
  | none => w
  | some x => w.setLink p { w.link p with arrived := some x }

/-- The dead counter restarts (R40). -/
def restartDead (l : LineNo) (w : Work) : Work := w.putLine l { w.line l with dead := 0 }

/-- A parcel for an enabled line of a present card (R20): counted in TEST, else checked and queued; in FAULT without notes
(R27). The code goes to the filter when the check accepts the parcel. -/
def acceptParcel (x : Parcel) (w : Work) : Work :=
  let w1 := restartDead x.line w
  if (w.line x.line).state = .test then
    let t := w1.term x.line
    w1.putTerm x.line { t with counters := { t.counters with discard := inc16 t.counters.discard } }
  else
    let a := (w1.term x.line).arrive x.line x.sequence x.err x.samples
    let w2 := w1.putTerm x.line a.term
    let w3 := if (w.line x.line).state = .fault then w2 else w2.noteAll a.notes
    if a.filtered then filterCode x.line x.code w3 else w3

/-- A line parcel arrives in RUNNING (R20). -/
def parcelArrival (parcel : List Byte) (w : Work) : Work := match parseParcel parcel with
  | none => w
  | some x =>
    if (w.floor.lhp.cards.get (lineCard x.line)).present ∧ (w.line x.line).state ≠ .disabled then acceptParcel x w else w

/-! ### The frame event over the whole part (R135) -/

/-- The frame event: the floor's blocks, then the tap frames (R135, R153). -/
def frameEvent (s : State) : State :=
  let x := frameWork (Work.of s.floor)
  produceTaps x.2 (s.commit x.1)

end Sys2Proof.Machine
end

