-- ==== Sys2Proof/Machine/CmdEvents.lean ====
section
/-! DEFINITION. The meanings of the clock mark, the arrivals, the frame event, and the rows of the events that earlier
commands raised (R19, R20, R40, R45, R47, R68, R73 to R79, R83, R100, R113 to R115, R135, R145, R146). -/

namespace Sys2Proof.Machine

/-- FRAME_MARK (R19, R73, R74). -/
def execFrameMark (cards : Half) (s0 : State) : Answer :=
  let s := settle s0
  .next (s.onFloor (markWork s.running cards))

/-- CARD_PRESENCE_CHANGE (R19). -/
def execCardPresenceChange (card : CardNo) (s : State) : Answer := .next (takeDue (.cardPresence card) s)

/-- LINK_DOWN (R74, R79). -/
def execLinkDown (p : PositionNo) (s : State) : Answer := .next (takeDue (.linkDown p) s)

/-- LINK_UP (R74, R79). -/
def execLinkUp (p : PositionNo) (s : State) : Answer := .next (takeDue (.linkUp p) s)

/-- POSITION_LINK_FRAME_ARRIVAL (R73). -/
def execPositionLinkFrameArrival (p : PositionNo) (frame : List Byte) (s0 : State) : Answer :=
  .next ((settle s0).onFloor (linkArrival p frame))

/-- FILTERED_HOOK_CHANGE (R78). -/
def execFilteredHookChange (h : HandsetNo) (s : State) : Answer := .next (takeDue (.hook h) s)

/-- FILTERED_PTT_PRESS (R113). -/
def execFilteredPttPress (p : PositionNo) (s : State) : Answer := .next (takeDue (.press p) s)

/-- FILTERED_PTT_RELEASE (R114). -/
def execFilteredPttRelease (p : PositionNo) (s : State) : Answer := .next (takeDue (.unpress p) s)

/-- LINE_PARCEL_ARRIVAL (R20): discarded outside RUNNING. -/
def execLineParcelArrival (parcel : List Byte) (s0 : State) : Answer :=
  let s := settle s0
  .next (if s.running then s.onFloor (parcelArrival parcel) else s)

/-- ACCEPTED_CHANGE (R40). -/
def execAcceptedChange (l : LineNo) (s : State) : Answer := .next (takeDue (.accepted l) s)

/-- LINE_DEAD_EXPIRY (R40, R48). -/
def execLineDeadExpiry (l : LineNo) (s : State) : Answer := .next (takeDue (.lineDead l) s)

/-- KNOCK_TIMER_EXPIRY (R45). -/
def execKnockTimerExpiry (l : LineNo) (s : State) : Answer := .next (takeDue (.knockExpiry l) s)

/-- RINGOUT_PHASE_EXPIRY (R47). -/
def execRingoutPhaseExpiry (l : LineNo) (s : State) : Answer := .next (takeDue (.ringoutPhase l) s)

/-- RECALL_EXPIRY (R83). -/
def execRecallExpiry (h : HandsetNo) (b : BridgeNo) (s : State) : Answer := .next (takeDue (.recall h b) s)

/-- GROUP_ALERT_TIMER_EXPIRY (R100). -/
def execGroupAlertTimerExpiry (g : GroupNo) (s : State) : Answer := .next (takeDue (.groupAlert g) s)

/-- RINGER_PHASE_EXPIRY (R68). -/
def execRingerPhaseExpiry (p : PositionNo) (s : State) : Answer := .next (takeDue (.ringerPhase p) s)

/-- CLIP_EPISODE_END (R145). -/
def execClipEpisodeEnd (o : Output) (s : State) : Answer := .next (takeDue (.clipEnd o) s)

/-- ACTIVITY_WINDOW_END (R146). -/
def execActivityWindowEnd (p : PositionNo) (c : ChannelNo) (s : State) : Answer := .next (takeDue (.activityEnd p c) s)

/-- FRAME_GRANT_PASS (R115). -/
def execFrameGrantPass (s : State) : Answer := .next (takeDue .grantPass s)

/-- FRAME_EVENT (R135): taken in RUNNING alone. The link changes that the mark of the same frame event raised are taken
before it, so their notes carry the counter that it has not yet raised (R74 leaves this open: DESIGN CHOICE, entry 33). -/
def execFrameEvent (s0 : State) : Answer :=
  let s := settle s0
  .next (if s.running then frameEvent s else s)

end Sys2Proof.Machine
end

