-- ==== Sys2Proof/Machine/CmdMemory.lean ====
section
/-! DEFINITION. The meanings of MPT's events, of JNU's and STW's steps, and of TPE's completions (R151, R155 to R158,
R167, R172 to R175). -/

namespace Sys2Proof.Machine

/-! ### MPT (R175) -/

/-- MPT_ISSUE (R175). -/
def execMptIssue (s0 : State) : Answer := .next (issueNext (settle s0))

/-- MEM_BUS_ERROR (R175): an error completion from the link. -/
def execMemBusError (r : Requester) (s0 : State) : Answer := .next (busError r (settle s0))

/-- READ_TIMEOUT (R175): a read without completion for 50 ms becomes a bus error. A read of before a reset reaches its limit
too, and frees its port with no cause set, which R167 does not settle (DESIGN CHOICE, entry 38). -/
def execReadTimeout (r : Requester) (s0 : State) : Answer :=
  let s := settle s0
  .next (if readInFlight r s then busError r s else s)

/-- LATE_READ_COMPLETION (R175): discarded. -/
def execLateReadCompletion (_r : Requester) (s : State) : Answer := .next s

/-- Whether a requester's access in flight is one of before a reset. -/
def voidInFlight (r : Requester) (s : State) : Bool := match (s.mpt.port r).inFlight with
  | some f => f.fate = .void
  | none => false

/-- ACCESS_COMPLETION_AFTER_RESET (R167): the requester may make its next access; nothing else changes. -/
def execAccessCompletionAfterReset (r : Requester) (s0 : State) : Answer :=
  let s := settle s0
  .next (if voidInFlight r s then s.freePort r else s)

/-! ### JNU (R172, R173) -/

/-- Whether JNU and STW work: RUNNING, and STOPPING until everything is written (R166). -/
def writersWork (s : State) : Bool := s.rc.runState = .running || s.rc.runState = .stopping

/-- JOURNAL_APPEND_START (R172). -/
def execJournalAppendStart (s0 : State) : Answer :=
  let s := settle s0
  .next (if writersWork s && s.jnu.phase = .idle && !s.jnu.queue.isEmpty then jnuPhase .readConsumed s else s)

/-- JOURNAL_CONSUMED_READ_DONE (R172). -/
def execJournalConsumedReadDone (consumed : Word) (s0 : State) : Answer :=
  .next (completion .jnu (fun s => s.jnu.phase = .readConsumed) (consumedRead consumed) (settle s0))

/-- Whether JNU awaits the write of a slot. -/
def awaitsSlot (s : State) : Bool := match s.jnu.phase with
  | .writeOverrun => true
  | .writeNote _ => true
  | _ => false

/-- JOURNAL_NOTE_WRITE_DONE (R172). -/
def execJournalNoteWriteDone (s0 : State) : Answer := .next (completion .jnu awaitsSlot noteWritten (settle s0))

/-- Whether JNU awaits the write of produced. -/
def awaitsProduced (s : State) : Bool := match s.jnu.phase with
  | .writeProduced _ => true
  | _ => false

/-- JOURNAL_PRODUCED_WRITE_DONE (R172, R173). -/
def execJournalProducedWriteDone (s0 : State) : Answer :=
  .next (completion .jnu awaitsProduced producedWritten (settle s0))

/-- JOURNAL_LOST_WRITE_DONE (R172). -/
def execJournalLostWriteDone (s0 : State) : Answer :=
  .next (completion .jnu (fun s => s.jnu.phase = .writeLost) jnuDone (settle s0))

/-- LINGER_EXPIRY (R173). -/
def execLingerExpiry (s0 : State) : Answer :=
  let s := settle s0
  .next (if s.jnu.linger.isSome then lingerEnd s else s)

/-! ### STW (R174) -/

/-- STATUS_REWRITE_START (R174). -/
def execStatusRewriteStart (s0 : State) : Answer :=
  let s := settle s0
  .next (if writersWork s && s.stw.phase = .idle then rewriteStart s else s)

def awaitsOdd (s : State) : Bool := match s.stw.phase with
  | .countOdd _ => true
  | _ => false

def awaitsBody (s : State) : Bool := match s.stw.phase with
  | .body _ => true
  | _ => false

def awaitsEven (s : State) : Bool := match s.stw.phase with
  | .countEven _ => true
  | _ => false

/-- STATUS_COUNT_ODD_WRITE_DONE (R174). -/
def execStatusCountOddWriteDone (s0 : State) : Answer := .next (completion .stw awaitsOdd countOddWritten (settle s0))

/-- STATUS_BODY_WRITE_DONE (R174). -/
def execStatusBodyWriteDone (s0 : State) : Answer := .next (completion .stw awaitsBody bodyWritten (settle s0))

/-- STATUS_COUNT_EVEN_WRITE_DONE (R174). -/
def execStatusCountEvenWriteDone (s0 : State) : Answer := .next (completion .stw awaitsEven countEvenWritten (settle s0))

/-! ### TPE (R151, R155 to R157) -/

/-- Whether TPE's first job is one of a kind. -/
def awaitsJob (p : TpeJob → Bool) (s : State) : Bool := (s.tpe.jobs.head?.map p).getD false

def TpeJob.isStartRead : TpeJob → Bool
  | .startRead _ => true
  | _ => false

def TpeJob.isStartWrite : TpeJob → Bool
  | .startFilled _ => true
  | .startTotal _ => true
  | _ => false

def TpeJob.isFilled : TpeJob → Bool
  | .segmentFilled _ => true
  | .closeFilled _ => true
  | _ => false

def TpeJob.isTotal : TpeJob → Bool
  | .gapTotal _ => true
  | .closeTotal _ => true
  | _ => false

/-- TAP_START_DESCRIPTOR_READ_DONE (R151). -/
def execTapStartDescriptorReadDone (descriptor : List Byte) (s0 : State) : Answer :=
  .next (completion .tpe (awaitsJob TpeJob.isStartRead) (descriptorRead descriptor) (settle s0))

/-- TAP_START_WRITE_DONE (R151): the completion of each of the two writes. -/
def execTapStartWriteDone (s0 : State) : Answer :=
  .next (completion .tpe (awaitsJob TpeJob.isStartWrite) startWritten (settle s0))

/-- STAGING_DRAIN_TAKE (R155). -/
def execStagingDrainTake (s0 : State) : Answer := .next (drainTake (settle s0))

/-- TAP_RETURNED_READ_DONE (R155). -/
def execTapReturnedReadDone (returned : Word) (s0 : State) : Answer :=
  .next (completion .tpe (awaitsJob (fun j => j = .readReturned)) (returnedRead returned) (settle s0))

/-- TAP_FRAME_WRITE_DONE (R156, R157). -/
def execTapFrameWriteDone (s0 : State) : Answer :=
  .next (completion .tpe (awaitsJob (fun j => j = .writeFrame)) frameWritten (settle s0))

/-- TAP_FILLED_WRITE_DONE (R152, R156). -/
def execTapFilledWriteDone (s0 : State) : Answer :=
  .next (completion .tpe (awaitsJob TpeJob.isFilled) filledWritten (settle s0))

/-- TAP_DROPPED_TOTAL_WRITE_DONE (R152, R157). -/
def execTapDroppedTotalWriteDone (s0 : State) : Answer :=
  .next (completion .tpe (awaitsJob TpeJob.isTotal) totalWritten (settle s0))

end Sys2Proof.Machine
end

