-- ==== Sys2Proof/Machine/Channels.lean ====
section
/-! DEFINITION. Chapters 4, 8 and 9: the orders SET_APPEARANCE, SET_CADENCE, ASSIGN_SPEAKER, SPEAKER_GAIN, ANNOUNCE,
END_ANNOUNCE and SET_MIX. -/

namespace Sys2Proof.Machine

/-! ### Appearances and cadences (R57, R58, R60) -/

/-- How many present appearances a position has (R56). -/
def presentCount (c : Cnc) (p : PositionNo) : Nat := (c.appearances.get p).cells.countP Option.isSome

/-- Whether an appearance rings. -/
def ringsAt (a : Option Appearance) : Bool := match a with
  | some a => a.ring
  | none => false

/-- The effect of a changed appearance on its position's ring list (R58). -/
def appearanceAlerts (p : PositionNo) (l : LineNo) (before after : Bool) (w : Work) : Work :=
  let r := w.line l
  if r.state ≠ .alerting then w
  else if !before && after then (addAlert p (lineBridge l) (lineReason r.cfg.kind) r.cfg.cadence w).1
  else if before && !after then removeAlerts (lineBridge l) [p] coversLine .removed w
  else w

/-- SET_APPEARANCE (R57). -/
def setAppearanceOrder (a : SetAppearanceArgs) (w : Work) : Work × OrderResult :=
  match positionArg a.position, lineArg a.line with
  | some p, some l =>
    let old := (w.cnc.appearances.get p).get l
    let new : Option Appearance :=
      if bitArg a.present then some { ring := bitArg a.ring, speaker := bitArg a.speaker } else none
    if new.isSome ∧ old.isNone ∧ Config.appearanceLimit ≤ presentCount w.cnc p then refuse .noRoom w
    else
      let w1 := w.setCnc { w.cnc with appearances := w.cnc.appearances.upd p (fun t => t.set l new) }
      let w2 := appearanceAlerts p l (ringsAt old) (ringsAt new) w1
      okWith (data1 (presentCount w2.cnc p)) w2
  | _, _ => refuse .badNumber w

/-- Restart one position's ringer when it sounds a replaced cadence (R60, R69). -/
def restartRinger (c : CadenceNo) (w : Work) (p : PositionNo) : Work :=
  let r := w.mxe.ringers.get p
  if r.state ≠ .idle ∧ r.cadence = c then w.putRinger p (r.start (w.cnc.cadences.get c) c) else w

/-- The cadence that SET_CADENCE's fields spell, clamped (R59, R60). -/
def cadenceOf (a : SetCadenceArgs) : Cadence :=
  { segments := (a.segments.cells.take a.count.toNat).map
      (fun x => (clampTo 0 2000 x.1.toNat, clampTo 0 2000 x.2.toNat))
    repeats := clampTo 0 255 a.repeats.toNat }

/-- SET_CADENCE (R60). Its two refusals are tried in the order in which R60 names them, the number first (DESIGN CHOICE, entry
40). -/
def setCadenceOrder (a : SetCadenceArgs) (w : Work) : Work × OrderResult := match cadenceArg a.cadence with
  | none => refuse .badNumber w
  | some c =>
    if a.count.toNat = 0 ∨ 4 < a.count.toNat then refuse .badValue w
    else
      let w1 := w.setCnc { w.cnc with cadences := w.cnc.cadences.set c (cadenceOf a) }
      okWith [] ((List.finRange 32).foldl (restartRinger c) w1)

/-! ### ASSIGN_SPEAKER (R120 to R122) -/

/-- The entry that ASSIGN_SPEAKER changes: the current entry, or the base of a preempted channel (R120). -/
def ChannelRec.base (r : ChannelRec) : ChannelEntry := (r.stack.getLast?).getD r.current

/-- The channel record with that entry replaced. -/
def ChannelRec.setBase (r : ChannelRec) (e : ChannelEntry) : ChannelRec :=
  if r.stack.isEmpty then { r with current := e } else { r with stack := r.stack.dropLast ++ [e] }

/-- Checks 2 to 4 of ASSIGN_SPEAKER (R120). -/
def sourceCheck (w : Work) (p : PositionNo) (b : BridgeNo) : Option ResultCode := match bridgeKind b with
  | .line l =>
    match (w.cnc.appearances.get p).get l with
    | none => some .noAppearance
    | some a =>
      if !a.speaker then some .noAppearance
      else if (w.line l).state = .disabled ∨ (w.line l).state = .leg then some .lineUnavailable
      else none
  | .group g => if inMask (w.group g).roster p then none else some .notRostered
  | .hoot k => if inMask (w.hoot k).roster p then none else some .notRostered

/-- Checks 5 and 6 of ASSIGN_SPEAKER (R120). -/
def speakerRoom (w : Work) (p : PositionNo) (b : BridgeNo) (base : ChannelEntry) : Option ResultCode :=
  let other : Bool := match speakerMember w.cnc b p with
    | some (sl, _) => base.member ≠ some sl
    | none => false
  if other then some .alreadyOn
  else if base.source ≠ some b ∧ base.member.isNone ∧ (freeSlot w.cnc).isNone then some .poolFull
  else none

/-- The result data of ASSIGN_SPEAKER: the former source and the base flag. -/
def assignData (r : ChannelRec) : List Byte :=
  data2 (bridgeField r.base.source) ++ data1 (if r.stack.isEmpty then 0 else 1)

/-- The entry keeps its source: its target gain and side are replaced (R121, R122). -/
def assignSame (p : PositionNo) (c : ChannelNo) (gain : Nat) (side : Side) (w : Work) : Work :=
  let r := w.channel p c
  w.putChannel p c (r.setBase { r.base with target := gain, side := side })

/-- The member of the entry changed is removed, if there is one (R121). -/
def assignRemove (p : PositionNo) (c : ChannelNo) (w : Work) : Work := w.dropMember (w.channel p c).base.member

/-- The entry takes no source; a current entry's gain is 0 (R121, R122). -/
def assignNone (p : PositionNo) (c : ChannelNo) (gain : Nat) (side : Side) (w : Work) : Work :=
  let r := w.channel p c
  let w1 := (assignRemove p c w).putChannel p c
    (r.setBase { r.base with source := none, member := none, target := gain, side := side })
  if r.stack.isEmpty then w1.zeroGain p c else w1

/-- The entry takes another bridge: a current entry's member is ACTIVE or CUT and its channel ramps from 0; a base's member
is SUSPENDED (R121, R122). -/
def assignBridge (p : PositionNo) (c : ChannelNo) (b : BridgeNo) (gain : Nat) (side : Side) (w : Work) : Work :=
  let r := w.channel p c
  let w1 := assignRemove p c w
  let mode : Mode := if r.stack.isEmpty then speakerMode w1.floor b p else .suspended
  match w1.create (.speaker p c) b mode with
  | none => w1
  | some (w2, sl) =>
    let w3 := reevalCut b (w2.putChannel p c
      (r.setBase { r.base with source := some b, member := some sl, target := gain, side := side }))
    if r.stack.isEmpty then w3.zeroGain p c else w3

/-- ASSIGN_SPEAKER of a checked position, channel, source and side (R120); the position's entry is handed over (R121). -/
def assign (p : PositionNo) (c : ChannelNo) (source : Option BridgeNo) (gain : Nat) (side : Side) (w : Work) :
    Work × OrderResult :=
  let r := w.channel p c
  match source with
  | none =>
    okWith (assignData r)
      ((if r.base.source = none then assignSame p c gain side w else assignNone p c gain side w).hand (.position p))
  | some b => match sourceCheck w p b with
    | some code => refuse code w
    | none => match speakerRoom w p b r.base with
      | some code => refuse code w
      | none =>
        okWith (assignData r)
          ((if r.base.source = some b then assignSame p c gain side w else assignBridge p c b gain side w).hand
            (.position p))

/-- ASSIGN_SPEAKER (R120). -/
def assignSpeakerOrder (a : AssignArgs) (w : Work) : Work × OrderResult :=
  match positionArg a.position, channelArg a.channel, sourceArg a.source with
  | some p, some c, .none => match sideArg a.side with
    | none => refuse .badValue w
    | some side => assign p c none (gainArg a.gain) side w
  | some p, some c, .bridge b => match sideArg a.side with
    | none => refuse .badValue w
    | some side => assign p c (some b) (gainArg a.gain) side w
  | _, _, _ => refuse .badNumber w

/-- SPEAKER_GAIN (R123). -/
def speakerGainOrder (position channel : Byte) (gain : Half) (w : Work) : Work × OrderResult :=
  match positionArg position, channelArg channel with
  | some p, some c =>
    let r := w.channel p c
    okWith (data2 r.current.target)
      (w.putChannel p c { r with current := { r.current with target := gainArg gain } })
  | _, _ => refuse .badNumber w

/-! ### ANNOUNCE and END_ANNOUNCE (R125, R130) -/

/-- The priority an ANNOUNCE uses; none is BAD_VALUE (R125). -/
def announcePriority (w : Work) (b : BridgeNo) (priority : Byte) : Option Nat :=
  if 7 < priority.toNat then none
  else if priority = 0#8 then
    match bridgeKind b with
    | .hoot k => some (w.hoot k).priority
    | .line _ => none
    | .group _ => none
  else some priority.toNat

/-- Whether a source cannot be announced (R125, step 3). -/
def sourceEnded (w : Work) (b : BridgeNo) : Bool := match bridgeKind b with
  | .line l => (w.line l).state = .disabled || (w.line l).state = .fault || (w.line l).state = .leg
  | .group g => (w.group g).state = .idle
  | .hoot _ => false

/-- ANNOUNCE (R125). -/
def announceOrder (source : Half) (priority : Byte) (mask : Word) (w : Work) : Work × OrderResult :=
  match bridgeArg source with
  | none => refuse .badNumber w
  | some b => match announcePriority w b priority with
    | none => refuse .badValue w
    | some used =>
      if sourceEnded w b then refuse .lineUnavailable w
      else
        let x := (maskPositions mask).foldl (announceAt b used) (w, 0#32)
        okWith (data4 x.2.toNat ++ data1 used) x.1

/-- END_ANNOUNCE (R130). -/
def endAnnounceOrder (source : Half) (w : Work) : Work × OrderResult := match bridgeArg source with
  | none => refuse .badNumber w
  | some b =>
    let x := endAnnouncements b false w
    okWith (data2 x.count ++ data4 x.mask.toNat) x.work

/-! ### SET_MIX (R147) -/

/-- SET_MIX's settings, clamped (R147). -/
def mixOf (a : SetMixArgs) : MixSettings :=
  let window := clampTo 1 250 a.window.toNat
  { rampStep := clampTo 1 1024 a.rampStep.toNat, threshold := clampTo 0 32767 a.threshold.toNat, window := window,
    count := min (clampTo 1 8000 a.count.toNat) (32 * window), ringAmplitude := clampTo 0 16384 a.ringAmplitude.toNat }

/-- A change of window or K starts every window afresh; the activity state stays (R147). -/
def freshWindows (m : Mxe) : Mxe :=
  { m with activity := m.activity.map (fun t => t.map (fun r => { r with window := 0, count := 0 })) }

/-- SET_MIX (R147). -/
def setMixOrder (a : SetMixArgs) (w : Work) : Work × OrderResult :=
  let new := mixOf a
  let old := w.mxe.mix
  let m : Mxe := { w.mxe with mix := new }
  okWith (data2 new.rampStep ++ data2 new.count)
    (w.setMxe (if old.window = new.window ∧ old.count = new.count then m else freshWindows m))

end Sys2Proof.Machine
end

