-- ==== Sys2Proof/Machine/CmdOrders.lean ====
section
/-! DEFINITION. The meanings of ORU's completions and wakes (R168 to R171) and of the orders (section 11.8). -/

namespace Sys2Proof.Machine

/-! ### The walk -/

/-- Whether ORU awaits the completion of a step's access: past STARTING and before STOPPED. -/
def awaitsStep (step : OruStep) (s : State) : Bool :=
  (s.rc.runState = .running || s.rc.runState = .stopping) && s.oru.step = step

/-- POLL_EXPIRY (R170). -/
def execPollExpiry (s0 : State) : Answer :=
  let s := settle s0
  .next (if s.running && !s.oru.active && s.oru.poll.isSome then oruWake s else s)

/-- ORDER_LINK_READ_DONE (R168). -/
def execOrderLinkReadDone (link : Addr) (s0 : State) : Answer :=
  .next (completion .oru (awaitsStep .linkRead) (linkRead link) (settle s0))

/-- ORDER_RECORD_READ_DONE (R168, R169). -/
def execOrderRecordReadDone (record : List Byte) (s0 : State) : Answer :=
  .next (completion .oru (awaitsStep .recordRead) (recordRead record) (settle s0))

/-- ORDER_RESULT_WRITE_DONE (R169): the completion of each of the two accesses. -/
def execOrderResultWriteDone (s0 : State) : Answer :=
  .next (completion .oru (awaitsStep .resultWrite) resultWritten (settle s0))

/-- ORDER_STATE_WRITE_DONE (R169). -/
def execOrderStateWriteDone (s0 : State) : Answer :=
  .next (completion .oru (awaitsStep .stateWrite) stateWritten (settle s0))

/-- ORDER_CURSOR_WRITE_DONE (R169). -/
def execOrderCursorWriteDone (s0 : State) : Answer :=
  .next (completion .oru (awaitsStep .cursorWrite) cursorWritten (settle s0))

/-! ### Orders at their owners -/

/-- An order carried out over the floor's blocks, as one event. -/
def floorOrder (f : Work → Work × OrderResult) (s : State) : State × Option OrderResult :=
  let x := f (Work.of s.floor)
  (s.commit x.1, some x.2)

/-- Whether an order may be taken now: in RUNNING the one that ORU has dispatched (R9, R169), or, with no order in progress,
any in RUNNING, and in STOPPED the orders that the spec speaks of there (R36, R137). A dispatched order never waits past
RUNNING, since STOP has it carried out first (R166; DESIGN CHOICE, entry 35). -/
def mayTake (c : Instr) (stoppedToo : Bool) (s : State) : Bool :=
  !s.starting && match s.oru.order with
    | some d => s.running && s.oru.step = .execute && d.order = some c && !d.taken && d.outcome.isNone
    | none => s.running || (stoppedToo && s.rc.runState = .stopped)

/-- An order at its owner: carried out as one request, its outcome handed to ORU when it is known (R169). -/
def takeOrder (c : Instr) (stoppedToo : Bool) (perform : State → State × Option OrderResult) (s0 : State) : Answer :=
  let s := settle s0
  .next (if mayTake c stoppedToo s then
    let x := perform s
    match x.2 with
    | some o => completeOrder o x.1
    | none => orderTaken x.1
  else s)

/-- NOP (R169): OK with the frame counter. -/
def nopOrder (w : Work) : Work × OrderResult := okWith (data4 w.frame.toNat) w

def execNop (s : State) : Answer := takeOrder .nop false (floorOrder nopOrder) s

/-- SET_LINE (R38, R39). -/
def execSetLine (a : SetLineArgs) (s : State) : Answer := takeOrder (.setLine a) true (floorOrder (setLineOrder a)) s

/-- RING_OUT (R50). -/
def execRingOut (line : Half) (cadence : Byte) (s : State) : Answer :=
  takeOrder (.ringOut line cadence) false (floorOrder (ringOutOrder line cadence)) s

/-- RING_STOP (R50). -/
def execRingStop (line : Half) (s : State) : Answer :=
  takeOrder (.ringStop line) false (floorOrder (ringStopOrder line)) s

/-- LOOP_TEST (R51). -/
def execLoopTest (line : Half) (s : State) : Answer :=
  takeOrder (.loopTest line) false (floorOrder (loopTestOrder line)) s

/-- END_TEST (R52). -/
def execEndTest (line : Half) (s : State) : Answer :=
  takeOrder (.endTest line) false (floorOrder (endTestOrder line)) s

/-- FLUSH (R33). -/
def execFlush (line : Half) (s : State) : Answer := takeOrder (.flush line) false (floorOrder (flushOrder line)) s

/-- SET_APPEARANCE (R57, R58). -/
def execSetAppearance (a : SetAppearanceArgs) (s : State) : Answer :=
  takeOrder (.setAppearance a) false (floorOrder (setAppearanceOrder a)) s

/-- SET_CADENCE (R60). -/
def execSetCadence (a : SetCadenceArgs) (s : State) : Answer :=
  takeOrder (.setCadence a) false (floorOrder (setCadenceOrder a)) s

/-- SET_POSITION (R81). -/
def execSetPosition (a : SetPositionArgs) (s : State) : Answer :=
  takeOrder (.setPosition a) true (floorOrder (setPositionOrder a)) s

/-- SELECT (R85, R86). -/
def execSelect (handset : Byte) (bridge : Half) (notify : Bool) (s : State) : Answer :=
  takeOrder (.select handset bridge notify) false (floorOrder (selectOrder handset bridge notify)) s

/-- CALL_GROUP (R97). -/
def execCallGroup (handset group : Byte) (notify : Bool) (s : State) : Answer :=
  takeOrder (.callGroup handset group notify) false (floorOrder (callGroupOrder handset group notify)) s

/-- HOLD (R87). -/
def execHold (handset : Byte) (s : State) : Answer := takeOrder (.hold handset) false (floorOrder (holdOrder handset)) s

/-- RETRIEVE (R88). -/
def execRetrieve (handset : Byte) (s : State) : Answer :=
  takeOrder (.retrieve handset) false (floorOrder (retrieveOrder handset)) s

/-- RELEASE (R89). -/
def execRelease (handset : Byte) (s : State) : Answer :=
  takeOrder (.release handset) false (floorOrder (releaseOrder handset)) s

/-- DROP_HELD (R89). -/
def execDropHeld (handset : Byte) (bridge : Half) (s : State) : Answer :=
  takeOrder (.dropHeld handset bridge) false (floorOrder (dropHeldOrder handset bridge)) s

/-- SET_GROUP (R93, R94). -/
def execSetGroup (a : SetGroupArgs) (s : State) : Answer := takeOrder (.setGroup a) false (floorOrder (setGroupOrder a)) s

/-- SET_HOOT (R106, R107). -/
def execSetHoot (a : SetHootArgs) (s : State) : Answer := takeOrder (.setHoot a) false (floorOrder (setHootOrder a)) s

/-- PTT_TARGET (R112). -/
def execPttTarget (position hoot : Byte) (s : State) : Answer :=
  takeOrder (.pttTarget position hoot) false (floorOrder (pttTargetOrder position hoot)) s

/-- ASSIGN_SPEAKER (R120 to R122). -/
def execAssignSpeaker (a : AssignArgs) (s : State) : Answer :=
  takeOrder (.assignSpeaker a) false (floorOrder (assignSpeakerOrder a)) s

/-- SPEAKER_GAIN (R123). -/
def execSpeakerGain (position channel : Byte) (gain : Half) (s : State) : Answer :=
  takeOrder (.speakerGain position channel gain) false (floorOrder (speakerGainOrder position channel gain)) s

/-- ANNOUNCE (R125). -/
def execAnnounce (source : Half) (priority : Byte) (mask : Word) (s : State) : Answer :=
  takeOrder (.announce source priority mask) false (floorOrder (announceOrder source priority mask)) s

/-- END_ANNOUNCE (R130). -/
def execEndAnnounce (source : Half) (s : State) : Answer :=
  takeOrder (.endAnnounce source) false (floorOrder (endAnnounceOrder source)) s

/-- SET_MIX (R147). -/
def execSetMix (a : SetMixArgs) (s : State) : Answer := takeOrder (.setMix a) false (floorOrder (setMixOrder a)) s

/-- TAP_START (R151). -/
def execTapStart (tap : Byte) (s : State) : Answer := takeOrder (.tapStart tap) false (tapStartOrder tap) s

/-- TAP_STOP (R152). -/
def execTapStop (tap : Byte) (s : State) : Answer := takeOrder (.tapStop tap) false (tapStopOrder tap) s

/-! ### The dispatched order at STOP (R166) -/

/-- An order carried out at its owner; a command that is no order changes nothing. -/
def execOrder : Instr → State → Answer
  | .nop => execNop
  | .setLine a => execSetLine a
  | .ringOut line cadence => execRingOut line cadence
  | .ringStop line => execRingStop line
  | .loopTest line => execLoopTest line
  | .endTest line => execEndTest line
  | .flush line => execFlush line
  | .setAppearance a => execSetAppearance a
  | .setCadence a => execSetCadence a
  | .setPosition a => execSetPosition a
  | .select handset bridge notify => execSelect handset bridge notify
  | .callGroup handset group notify => execCallGroup handset group notify
  | .hold handset => execHold handset
  | .retrieve handset => execRetrieve handset
  | .release handset => execRelease handset
  | .dropHeld handset bridge => execDropHeld handset bridge
  | .setGroup a => execSetGroup a
  | .setHoot a => execSetHoot a
  | .pttTarget position hoot => execPttTarget position hoot
  | .assignSpeaker a => execAssignSpeaker a
  | .speakerGain position channel gain => execSpeakerGain position channel gain
  | .announce source priority mask => execAnnounce source priority mask
  | .endAnnounce source => execEndAnnounce source
  | .setMix a => execSetMix a
  | .tapStart tap => execTapStart tap
  | .tapStop tap => execTapStop tap
  | _ => .next

/-- The order that ORU has dispatched and no owner has taken is carried out, while the part is RUNNING (R9, R166; DESIGN
CHOICE, entry 35). -/
def carryDispatched (s : State) : State := match s.oru.order.bind Dispatched.order with
  | none => s
  | some c => match execOrder c s with
    | .next t => t
    | .fault _ => s
    | .refused _ => s

end Sys2Proof.Machine
end

