-- ==== Sys2Proof/Machine/CmdRegisters.lean ====
section
/-! DEFINITION. The meanings of the register and pin commands and of the start and the stop (chapter 11, R162 to R167). -/

namespace Sys2Proof.Machine

/-- PIN_RESET (R167): as RESET, and CB_ADDR is 0. -/
def execPinReset (s : State) : Answer := .next (resetPart 0 s)

/-- RESET (R167): CB_ADDR is kept. -/
def execReset (s : State) : Answer := .next (resetPart s.rc.cbAddr s)

/-- RUN (R164): taken in STOPPED alone. -/
def execRun (s0 : State) : Answer :=
  let s := settle s0
  .next (if s.rc.runState = .stopped then startRun s else s)

/-- STOP (R164, R166): stops a run, or abandons a start. In RUNNING the dispatched order that no owner has taken is carried
out first (R9 lets no member be created outside RUNNING, R166 lets a dispatched order complete: DESIGN CHOICE, entry 35). -/
def execStop (s0 : State) : Answer :=
  let s := settle s0
  .next (match s.rc.runState with
    | .running => startStopping (carryDispatched s)
    | .starting => abandonStart s
    | .stopped => s
    | .stopping => s)

/-- CB_ADDR with one half written and its low six bits forced to 0 (R162). -/
def writeHalf (a : Addr) (high : Bool) (value : Word) : Addr :=
  (if high then value ++ a.setWidth 32 else (a >>> 32).setWidth 32 ++ value) &&& ~~~(63#64)

/-- CB_ADDR_WRITE (R162): taken in STOPPED alone. -/
def execCbAddrWrite (high : Bool) (value : Word) (s : State) : Answer :=
  .next (if s.rc.runState = .stopped then s.setRc { s.rc with cbAddr := writeHalf s.rc.cbAddr high value } else s)

/-- NUDGE (R170): wakes a WAITING ORU, or sets the pending-nudge flag; ignored outside RUNNING (R162). -/
def execNudge (_value : Word) (s0 : State) : Answer :=
  let s := settle s0
  .next (if s.running then
    (if s.oru.active then s.setOru { s.oru with nudged := true } else oruWake s)
  else s)

/-- ATTN_WRITE (R163): ones clear. -/
def execAttnWrite (value : Word) (s : State) : Answer :=
  .next (s.setRc { s.rc with attn := clearCauses value s.rc.attn })

/-- ATTN_MASK_WRITE (R163). -/
def execAttnMaskWrite (value : Word) (s : State) : Answer :=
  .next (s.setRc { s.rc with attnMask := value.setWidth 5 })

/-- OTHER_REGISTER_WRITE (R162, R177): ignored. -/
def execOtherRegisterWrite (_offset _value : Word) (s : State) : Answer := .next s

/-- CONTROL_BLOCK_READ_DONE (R165). -/
def execControlBlockReadDone (block : List Byte) (s0 : State) : Answer :=
  .next (completion .oru (fun s => s.rc.runState = .starting && s.rc.startPhase = .reading) (controlBlockRead block)
    (settle s0))

/-- Whether STARTING awaits one of its three writes. -/
def awaitsStartWrite (s : State) : Bool :=
  s.rc.runState = .starting &&
    (s.rc.startPhase = .cursor || s.rc.startPhase = .produced || s.rc.startPhase = .lost)

/-- START_WRITES_DONE (R165): the completion of each of the three writes; the last enters RUNNING. -/
def execStartWritesDone (s0 : State) : Answer := .next (completion .oru awaitsStartWrite startWrite (settle s0))

/-- STOPPING_CLEAR (R166). -/
def execStoppingClear (s0 : State) : Answer :=
  let s := settle s0
  .next (if mayClear s then clearDynamic s else s)

/-- STOPPING_COMPLETE (R166). -/
def execStoppingComplete (s0 : State) : Answer :=
  let s := settle s0
  .next (if mayStop s then endStopping s else s)

end Sys2Proof.Machine
end

