-- ==== Sys2Proof/Machine/Dispatch.lean ====
section
/-! DEFINITION. The meaning of every command, one arm each. -/

namespace Sys2Proof.Machine

def exec (i : Instr) (s : State) : Host.Outcome State Fault Refusal :=
  match i with
  | .pinReset => Sys2Proof.Machine.execPinReset s
  | .run => Sys2Proof.Machine.execRun s
  | .stop => Sys2Proof.Machine.execStop s
  | .reset => Sys2Proof.Machine.execReset s
  | .cbAddrWrite a b => Sys2Proof.Machine.execCbAddrWrite a b s
  | .nudge a => Sys2Proof.Machine.execNudge a s
  | .attnWrite a => Sys2Proof.Machine.execAttnWrite a s
  | .attnMaskWrite a => Sys2Proof.Machine.execAttnMaskWrite a s
  | .otherRegisterWrite a b => Sys2Proof.Machine.execOtherRegisterWrite a b s
  | .controlBlockReadDone a => Sys2Proof.Machine.execControlBlockReadDone a s
  | .startWritesDone => Sys2Proof.Machine.execStartWritesDone s
  | .stoppingClear => Sys2Proof.Machine.execStoppingClear s
  | .stoppingComplete => Sys2Proof.Machine.execStoppingComplete s
  | .frameMark a => Sys2Proof.Machine.execFrameMark a s
  | .cardPresenceChange a => Sys2Proof.Machine.execCardPresenceChange a s
  | .linkDown a => Sys2Proof.Machine.execLinkDown a s
  | .linkUp a => Sys2Proof.Machine.execLinkUp a s
  | .positionLinkFrameArrival a b => Sys2Proof.Machine.execPositionLinkFrameArrival a b s
  | .filteredHookChange a => Sys2Proof.Machine.execFilteredHookChange a s
  | .filteredPttPress a => Sys2Proof.Machine.execFilteredPttPress a s
  | .filteredPttRelease a => Sys2Proof.Machine.execFilteredPttRelease a s
  | .lineParcelArrival a => Sys2Proof.Machine.execLineParcelArrival a s
  | .acceptedChange a => Sys2Proof.Machine.execAcceptedChange a s
  | .lineDeadExpiry a => Sys2Proof.Machine.execLineDeadExpiry a s
  | .knockTimerExpiry a => Sys2Proof.Machine.execKnockTimerExpiry a s
  | .ringoutPhaseExpiry a => Sys2Proof.Machine.execRingoutPhaseExpiry a s
  | .recallExpiry a b => Sys2Proof.Machine.execRecallExpiry a b s
  | .groupAlertTimerExpiry a => Sys2Proof.Machine.execGroupAlertTimerExpiry a s
  | .ringerPhaseExpiry a => Sys2Proof.Machine.execRingerPhaseExpiry a s
  | .clipEpisodeEnd a => Sys2Proof.Machine.execClipEpisodeEnd a s
  | .activityWindowEnd a b => Sys2Proof.Machine.execActivityWindowEnd a b s
  | .frameGrantPass => Sys2Proof.Machine.execFrameGrantPass s
  | .frameEvent => Sys2Proof.Machine.execFrameEvent s
  | .pollExpiry => Sys2Proof.Machine.execPollExpiry s
  | .orderLinkReadDone a => Sys2Proof.Machine.execOrderLinkReadDone a s
  | .orderRecordReadDone a => Sys2Proof.Machine.execOrderRecordReadDone a s
  | .orderResultWriteDone => Sys2Proof.Machine.execOrderResultWriteDone s
  | .orderStateWriteDone => Sys2Proof.Machine.execOrderStateWriteDone s
  | .orderCursorWriteDone => Sys2Proof.Machine.execOrderCursorWriteDone s
  | .nop => Sys2Proof.Machine.execNop s
  | .setLine a => Sys2Proof.Machine.execSetLine a s
  | .ringOut a b => Sys2Proof.Machine.execRingOut a b s
  | .ringStop a => Sys2Proof.Machine.execRingStop a s
  | .loopTest a => Sys2Proof.Machine.execLoopTest a s
  | .endTest a => Sys2Proof.Machine.execEndTest a s
  | .flush a => Sys2Proof.Machine.execFlush a s
  | .setAppearance a => Sys2Proof.Machine.execSetAppearance a s
  | .setCadence a => Sys2Proof.Machine.execSetCadence a s
  | .setPosition a => Sys2Proof.Machine.execSetPosition a s
  | .select a b c => Sys2Proof.Machine.execSelect a b c s
  | .callGroup a b c => Sys2Proof.Machine.execCallGroup a b c s
  | .hold a => Sys2Proof.Machine.execHold a s
  | .retrieve a => Sys2Proof.Machine.execRetrieve a s
  | .release a => Sys2Proof.Machine.execRelease a s
  | .dropHeld a b => Sys2Proof.Machine.execDropHeld a b s
  | .setGroup a => Sys2Proof.Machine.execSetGroup a s
  | .setHoot a => Sys2Proof.Machine.execSetHoot a s
  | .pttTarget a b => Sys2Proof.Machine.execPttTarget a b s
  | .assignSpeaker a => Sys2Proof.Machine.execAssignSpeaker a s
  | .speakerGain a b c => Sys2Proof.Machine.execSpeakerGain a b c s
  | .announce a b c => Sys2Proof.Machine.execAnnounce a b c s
  | .endAnnounce a => Sys2Proof.Machine.execEndAnnounce a s
  | .setMix a => Sys2Proof.Machine.execSetMix a s
  | .tapStart a => Sys2Proof.Machine.execTapStart a s
  | .tapStartDescriptorReadDone a => Sys2Proof.Machine.execTapStartDescriptorReadDone a s
  | .tapStartWriteDone => Sys2Proof.Machine.execTapStartWriteDone s
  | .tapStop a => Sys2Proof.Machine.execTapStop a s
  | .mptIssue => Sys2Proof.Machine.execMptIssue s
  | .memBusError a => Sys2Proof.Machine.execMemBusError a s
  | .readTimeout a => Sys2Proof.Machine.execReadTimeout a s
  | .lateReadCompletion a => Sys2Proof.Machine.execLateReadCompletion a s
  | .journalAppendStart => Sys2Proof.Machine.execJournalAppendStart s
  | .journalConsumedReadDone a => Sys2Proof.Machine.execJournalConsumedReadDone a s
  | .journalNoteWriteDone => Sys2Proof.Machine.execJournalNoteWriteDone s
  | .journalProducedWriteDone => Sys2Proof.Machine.execJournalProducedWriteDone s
  | .journalLostWriteDone => Sys2Proof.Machine.execJournalLostWriteDone s
  | .lingerExpiry => Sys2Proof.Machine.execLingerExpiry s
  | .statusRewriteStart => Sys2Proof.Machine.execStatusRewriteStart s
  | .statusCountOddWriteDone => Sys2Proof.Machine.execStatusCountOddWriteDone s
  | .statusBodyWriteDone => Sys2Proof.Machine.execStatusBodyWriteDone s
  | .statusCountEvenWriteDone => Sys2Proof.Machine.execStatusCountEvenWriteDone s
  | .stagingDrainTake => Sys2Proof.Machine.execStagingDrainTake s
  | .tapReturnedReadDone a => Sys2Proof.Machine.execTapReturnedReadDone a s
  | .tapFrameWriteDone => Sys2Proof.Machine.execTapFrameWriteDone s
  | .tapFilledWriteDone => Sys2Proof.Machine.execTapFilledWriteDone s
  | .tapDroppedTotalWriteDone => Sys2Proof.Machine.execTapDroppedTotalWriteDone s
  | .accessCompletionAfterReset a => Sys2Proof.Machine.execAccessCompletionAfterReset a s

end Sys2Proof.Machine
end

