-- ==== Sys2Proof/Machine/Step.lean ====
section
/-! DEFINITION. One step: the command at the front of the queue is taken; on an empty queue the oldest raised event is, and
with none the part idles. -/

namespace Sys2Proof.Machine

/-- The step on an empty queue: the oldest raised event is taken, or the part idles. -/
def idle (s : State) : State := match s.due with
  | [] => s
  | e :: _ => takeDue e s

def step (s : State) : Host.Outcome State Fault Refusal := match s.pending with
  | [] => .next (idle s)
  | c :: rest => exec c { s with pending := rest }

/-- The state with the command that a word spells in front of its queue (none does). -/
def State.withFetchWord (s : State) (nbits w : Nat) : State := match Sys2Proof.decodeTableWord nbits w with
  | some c => { s with pending := c :: s.pending }
  | none => s

end Sys2Proof.Machine
end

