-- ==== Sys2Proof/Safety.lean ====
section
/-! DEFINITION. What it means for the machine to run on, the invariants that its steps keep, and the words in which the
statements say what a command leaves as it was. -/

namespace Sys2Proof.Machine

/-- A state whose next step answers a next state. -/
def Runs (s : State) : Prop := ∃ t, step s = .next t

/-! ### Invariants -/

/-- The control block address is 64-byte aligned (R162). -/
def CbAligned (s : State) : Prop := s.rc.cbAddr &&& 63#64 = 0#64

/-- JNU's note queue holds at most 64 notes (R172). -/
def NoteQueueBounded (s : State) : Prop := s.jnu.queue.length ≤ Config.notePlaces

/-- STW's hand-over queue holds no entry twice (R174). -/
def HandOverDistinct (s : State) : Prop := s.stw.queue.Nodup

/-- TPE's staging queue holds at most 64 frames (R154). -/
def StagingBounded (s : State) : Prop := s.tpe.staging.length ≤ Config.stagingPlaces

/-- The queues to memory keep their sizes and CB_ADDR its alignment. -/
structure HostSideBounded (s : State) : Prop where
  cbAddr : CbAligned s
  notes : NoteQueueBounded s
  entries : HandOverDistinct s
  frames : StagingBounded s

/-- The member lists and the pool agree: a slot stands on one list, once, and it is that of its member's bridge (R1, R9,
R11). -/
structure PoolSound (c : Cnc) : Prop where
  once : ∀ b, (c.bridges.get b).members.Nodup
  own : ∀ b, ∀ sl ∈ (c.bridges.get b).members, ∃ m, c.pool.get sl = some m ∧ m.bridge = b
  listed : ∀ sl m, c.pool.get sl = some m → sl ∈ (c.bridges.get m.bridge).members

/-- Every receive queue holds at most 16 entries (R21) and every ring list at most 16 alerts (R61); the member lists and the
pool agree. -/
structure FloorBounded (s : State) : Prop where
  queues : ∀ l, (s.floor.ltm.get l).queue.length ≤ Config.queuePlaces
  ringLists : ∀ p, (s.floor.cnc.ringLists.get p).length ≤ Config.ringPlaces
  members : PoolSound s.floor.cnc

/-! ### Turns -/

/-- An order may be taken now: no raised event waits, and ORU has dispatched it or no order is in progress (entries 3 and
5 of the assumption log). -/
structure Turn (c : Instr) (stoppedToo : Bool) (s : State) : Prop where
  quiet : s.due = []
  taken : mayTake c stoppedToo s = true

/-- The commands that take every raised event before they act themselves. -/
def settlesFirst : Instr → Bool
  | .pinReset | .reset | .cbAddrWrite _ _ | .attnWrite _ | .attnMaskWrite _ | .otherRegisterWrite _ _
  | .lateReadCompletion _ | .cardPresenceChange _ | .linkDown _ | .linkUp _ | .filteredHookChange _
  | .filteredPttPress _ | .filteredPttRelease _ | .acceptedChange _ | .lineDeadExpiry _ | .knockTimerExpiry _
  | .ringoutPhaseExpiry _ | .recallExpiry _ _ | .groupAlertTimerExpiry _ | .ringerPhaseExpiry _ | .clipEpisodeEnd _
  | .activityWindowEnd _ _ | .frameGrantPass => false
  | _ => true

/-- The raised event that a row of the table takes. -/
def raisedOf : Instr → Option Raised
  | .cardPresenceChange k => some (.cardPresence k)
  | .linkDown p => some (.linkDown p)
  | .linkUp p => some (.linkUp p)
  | .filteredHookChange h => some (.hook h)
  | .filteredPttPress p => some (.press p)
  | .filteredPttRelease p => some (.unpress p)
  | .acceptedChange l => some (.accepted l)
  | .lineDeadExpiry l => some (.lineDead l)
  | .knockTimerExpiry l => some (.knockExpiry l)
  | .ringoutPhaseExpiry l => some (.ringoutPhase l)
  | .recallExpiry h b => some (.recall h b)
  | .groupAlertTimerExpiry g => some (.groupAlert g)
  | .ringerPhaseExpiry p => some (.ringerPhase p)
  | .clipEpisodeEnd o => some (.clipEnd o)
  | .activityWindowEnd p c => some (.activityEnd p c)
  | .frameGrantPass => some .grantPass
  | _ => none

/-- The orders whose outcome is known in the event that takes them: all but TAP_START (chapter 11.8). -/
def immediateOrder : Instr → Bool
  | .nop | .setLine _ | .ringOut _ _ | .ringStop _ | .loopTest _ | .endTest _ | .flush _ | .setAppearance _
  | .setCadence _ | .setPosition _ | .select _ _ _ | .callGroup _ _ _ | .hold _ | .retrieve _ | .release _
  | .dropHeld _ _ | .setGroup _ | .setHoot _ | .pttTarget _ _ | .assignSpeaker _ | .speakerGain _ _ _
  | .announce _ _ _ | .endAnnounce _ | .setMix _ | .tapStop _ => true
  | _ => false

/-- The requester whose access a success completion ends. -/
def completesFor : Instr → Option Requester
  | .controlBlockReadDone _ | .startWritesDone | .orderLinkReadDone _ | .orderRecordReadDone _ | .orderResultWriteDone
  | .orderStateWriteDone | .orderCursorWriteDone => some .oru
  | .journalConsumedReadDone _ | .journalNoteWriteDone | .journalProducedWriteDone | .journalLostWriteDone => some .jnu
  | .statusCountOddWriteDone | .statusBodyWriteDone | .statusCountEvenWriteDone => some .stw
  | .tapStartDescriptorReadDone _ | .tapStartWriteDone | .tapReturnedReadDone _ | .tapFrameWriteDone
  | .tapFilledWriteDone | .tapDroppedTotalWriteDone => some .tpe
  | _ => none

/-! ### What a command leaves -/

/-- A port with one access waiting and none in flight. -/
def Port.asking (a : Access) : Port := { waiting := some a, inFlight := none }

/-- The blocks beside the floor, the journal and the status queue. -/
structure BesideFloor (s t : State) : Prop where
  rc : t.rc = s.rc
  mpt : t.mpt = s.mpt
  oru : t.oru = s.oru
  tpe : t.tpe = s.tpe
  pending : t.pending = s.pending

/-- The notes of an event join JNU's queue in order, with the frame counter after it. -/
def Journalled (s : State) (notes : List NoteBody) (t : State) : Prop :=
  t.jnu = notes.foldl (Jnu.hand t.floor.mxe.frame) s.jnu

/-- An event that changed no record beside the floor's, the journal and the status queue. -/
structure RaisedTaken (e : Raised) (s t : State) : Prop where
  beside : BesideFloor s t
  due : t.due = s.due.erase e

/-- An order has its outcome (R169): the outcome stands at ORU, with the write of its code at the record's byte 0Bh when
ORU has dispatched it; nothing else beside the floor changes. -/
structure Completed (s : State) (o : OrderResult) (t : State) : Prop where
  oru : t.oru = match s.oru.order with
    | none => { s.oru with lastOutcome := some o }
    | some d => { s.oru with
        step := .resultWrite, lastOutcome := some o
        order := some { d with outcome := some o, codeWritten := false } }
  mpt : t.mpt = match s.oru.order, s.oru.next with
    | some _, some a => { s.mpt with oru := { s.mpt.oru with
        waiting := some { addr := a + 0x0B#64, op := .write [BitVec.ofNat 8 (ResultCode.code o.code)] } } }
    | _, _ => s.mpt
  rc : t.rc = s.rc
  tpe : t.tpe = s.tpe
  due : t.due = s.due
  pending : t.pending = s.pending

/-- An order ends with a code other than OK and nothing else changes (section 4.6). -/
def Refuses (c : Instr) (s : State) (code : ResultCode) : Prop :=
  ∃ t, exec c s = .next t ∧ Completed s { code := code, data := [] } t ∧ t.floor = s.floor ∧ t.jnu = s.jnu ∧
    t.stw = s.stw

/-- What an event at the calls leaves as it is: cards and queues, links, the frame counter, every gain but a channel's, clip
and activity records, the tables of configuration; of a line all but its state and knock timer. -/
structure CallsOnly (f g : Floor) : Prop where
  lhp : g.lhp = f.lhp
  ltm : g.ltm = f.ltm
  plp : g.plp = f.plp
  frame : g.mxe.frame = f.mxe.frame
  lineGains : g.mxe.lineGains = f.mxe.lineGains
  positionGains : g.mxe.positionGains = f.mxe.positionGains
  earClips : g.mxe.earClips = f.mxe.earClips
  channelClips : g.mxe.channelClips = f.mxe.channelClips
  sideClips : g.mxe.sideClips = f.mxe.sideClips
  transmitClips : g.mxe.transmitClips = f.mxe.transmitClips
  activity : g.mxe.activity = f.mxe.activity
  mix : g.mxe.mix = f.mxe.mix
  appearances : g.cnc.appearances = f.cnc.appearances
  cadences : g.cnc.cadences = f.cnc.cadences
  settings : g.cnc.settings = f.cnc.settings
  lines : ∀ l, g.lsv.get l = { f.lsv.get l with state := (g.lsv.get l).state, knock := (g.lsv.get l).knock }
  groups : ∀ k, (g.cnc.groups.get k).roster = (f.cnc.groups.get k).roster ∧
    (g.cnc.groups.get k).timeout = (f.cnc.groups.get k).timeout ∧
    (g.cnc.groups.get k).cadence = (f.cnc.groups.get k).cadence
  hoots : g.cnc.hoots = f.cnc.hoots
  talks : g.cnc.talks = f.cnc.talks

/-- Every handset record but one stands. -/
def OtherHandsets (h : HandsetNo) (f g : Floor) : Prop := ∀ k, k ≠ h → g.cnc.handsets.get k = f.cnc.handsets.get k

/-- The list of alerts of a position after one for a bridge is added (R62): a bridge is listed once, 16 at most. -/
def withAlert (list : List Alert) (a : Alert) : List Alert :=
  if list.any (fun x => x.bridge = a.bridge) then list
  else if list.length < Config.ringPlaces then list ++ [a] else list

/-! ### Notes of removals and drops -/

/-- The positions, of those given, that have an alert for a bridge of a reason covered (R65). -/
def alertedMask (c : Cnc) (b : BridgeNo) (covers : AlertReason → Bool) (ps : List PositionNo) : Word :=
  (ps.filter (fun p => (c.ringLists.get p).any (fun a => a.bridge = b && covers a.reason))).foldl
    (fun m p => m ||| maskOf p) 0#32

/-- The one ALERT_END note of a removal of alerts, and none where there is no alert to remove (R65). -/
def alertEndNotes (c : Cnc) (b : BridgeNo) (covers : AlertReason → Bool) (ps : List PositionNo) (reason : AlertEnd) :
    List NoteBody :=
  let mask := alertedMask c b covers ps
  if mask = 0#32 then [] else [.alertEnd b reason mask]

/-- The ALERT_DROPPED notes of an alert added at each of the positions: a full list without the bridge takes none (R62). -/
def alertDroppedNotes (c : Cnc) (b : BridgeNo) (reason : AlertReason) (ps : List PositionNo) : List NoteBody :=
  (ps.filter (fun p => 16 ≤ (c.ringLists.get p).length && (c.ringLists.get p).all (fun a => a.bridge ≠ b))).map
    (fun p => .alertDropped p b reason)

/-- An entry placed by ANNOUNCE with a source. -/
def ChannelEntry.announces (b : BridgeNo) (e : ChannelEntry) : Bool := e.origin = .announced && e.source = some b

/-- The ANNOUNCE_END notes of a source that ends on its own, by position and channel (R129, R131). -/
def announceEndNotes (c : Cnc) (b : BridgeNo) : List NoteBody :=
  allChannels.filterMap (fun x =>
    let r := (c.channels.get x.1).get x.2
    if r.current.announces b then some (.announceEnd x.1 x.2 b false)
    else if r.stack.any (ChannelEntry.announces b) then some (.announceEnd x.1 x.2 b true)
    else none)

/-- A channel after the end of a source's announcements: popped, or the entry gone from the middle (R128, R129). -/
def ChannelRec.withoutSource (b : BridgeNo) (r : ChannelRec) : ChannelRec :=
  if r.current.announces b then
    match r.stack with
    | top :: rest => { current := top, stack := rest }
    | [] => r
  else { r with stack := r.stack.filter (fun e => !e.announces b) }

/-- The HOLD_DROPPED note of a stack entry. -/
def HoldEntry.dropped (h : HandsetNo) (cause : DropCause) (e : HoldEntry) : NoteBody :=
  .holdDropped h e.bridge cause e.holdFrame e.recalled

/-- A handset's member on a bridge, and whether it is HELD. -/
def callOn (c : Cnc) (b : BridgeNo) (h : HandsetNo) : Option (SlotNo × Mode) :=
  ((handsetMembers c b).find? (fun x => x.2.1 = h)).map (fun x => (x.1, x.2.2))

/-- The HOLD_DROPPED notes of the handsets HELD on a bridge, in handset-number order (R43, R48). -/
def holdDroppedNotes (c : Cnc) (b : BridgeNo) (cause : DropCause) : List NoteBody :=
  (List.finRange 64).flatMap (fun h =>
    if (callOn c b h).map Prod.snd = some .held then
      (((c.handsets.get h).stack.find? (fun e => e.bridge = b)).map (HoldEntry.dropped h cause)).toList
    else [])

/-- The calls on a bridge agree with the handsets' records: a member on the bridge's list is the bridge's own, a handset has
one, and it is the handset's active member unless it is HELD on its stack (R1, R5, R77). -/
structure CallsAgree (c : Cnc) (b : BridgeNo) : Prop where
  own : ∀ x ∈ membersOf c b, x.2.bridge = b
  once : ((handsetMembers c b).map (fun x => x.2.1)).Nodup
  active : ∀ x ∈ handsetMembers c b, x.2.2 ≠ .held → (c.handsets.get x.2.1).active = some x.1
  held : ∀ x ∈ handsetMembers c b, x.2.2 = .held → ∃ e ∈ (c.handsets.get x.2.1).stack, e.bridge = b

/-- The members of channel entries are SPEAKER members. -/
def ChannelsHoldSpeakers (c : Cnc) : Prop :=
  ∀ p d, ∀ e ∈ ((c.channels.get p).get d).current :: ((c.channels.get p).get d).stack, ∀ sl m,
    e.member = some sl → c.pool.get sl = some m → m.speaker?.isSome = true

/-- The member of a channel's entry is the channel's own (R5). -/
def ChannelsOwnMembers (c : Cnc) : Prop :=
  ∀ p d, ∀ e ∈ ((c.channels.get p).get d).current :: ((c.channels.get p).get d).stack, ∀ sl m,
    e.member = some sl → c.pool.get sl = some m → m.kind = .speaker p d

/-- The members listed at a bridge are its own, and the cut of its SPEAKER members is as R13 to R15 leave it. -/
def CutSettled (f : Floor) (b : BridgeNo) : Prop :=
  ∀ x ∈ membersOf f.cnc b, x.2.bridge = b ∧ ∀ p c, x.2.kind = .speaker p c →
    (x.2.mode = .active → cutAgainst f b p = false) ∧ (x.2.mode = .cut → cutAgainst f b p = true)

/-! ### What a change of handset members makes of the line and of the speakers on it (R13 to R15, R42) -/

/-- A handset member of a bridge: its slot, its handset, its mode. -/
abbrev Call := SlotNo × HandsetNo × Mode

/-- The handset members of a bridge after the mode of one has changed (R10). -/
def withMode (sl : SlotNo) (mode : Mode) (calls : List Call) : List Call :=
  calls.map (fun x => if x.1 = sl then (x.1, x.2.1, mode) else x)

/-- The handset members of a bridge after one has gone (R11). -/
def withoutSlot (sl : SlotNo) (calls : List Call) : List Call := calls.filter (fun x => x.1 ≠ sl)

/-- A line record after a re-evaluation that finds so many ACTIVE and HELD handset members (R42). -/
def lineAfter (r : LineRec) (active held : Nat) : LineRec :=
  let modes : LineState := if 0 < active then .connected else if 0 < held then .held else .idle
  { r with
    state := match r.state with
      | .idle => if active + held = 0 then .idle
        else if r.cfg.kind = .signalled ∧ effective .signalled r.accepted ≠ .seize then .outgoing else .connected
      | .alerting => if active + held = 0 then .alerting else .connected
      | .outgoing => if active + held = 0 then .idle else .outgoing
      | .clearing => if active + held = 0 then .idle else .clearing
      | .connected => modes
      | .held => modes
      | other => other
    knock := if r.state = .alerting ∧ 0 < active + held then none else r.knock }

/-- The line follows these handset members of its bridge (R42). -/
def LineFollows (l : LineNo) (calls : List Call) (f g : Floor) : Prop :=
  handsetMembers g.cnc (lineBridge l) = calls ∧
  g.lsv.get l = lineAfter (f.lsv.get l) (calls.countP (fun x => x.2.2 = .active)) (calls.countP (fun x => x.2.2 = .held))

/-- The cut condition holds for a line with its holding position: the line is PRIVATE, and its handset member is of that
position (R13). -/
def HeldBy (f : Floor) (l : LineNo) (q : PositionNo) : Prop :=
  (f.lsv.get l).cfg.privacy = .exclusive ∧ handsetMembers f.cnc (lineBridge l) ≠ [] ∧
    ∀ x ∈ handsetMembers f.cnc (lineBridge l), handsetPosition x.2.1 = q

/-- The cut condition does not hold for a line (R13). -/
def NotHeld (f : Floor) (l : LineNo) : Prop :=
  (f.lsv.get l).cfg.privacy = .shared ∨ handsetMembers f.cnc (lineBridge l) = []

/-- The current gain of a speaker channel. -/
abbrev Floor.gain (f : Floor) (p : PositionNo) (c : ChannelNo) : Nat := (f.mxe.channelGains.get p).get c

/-- A SPEAKER member of a line's bridge. -/
def SpeakerOn (f : Floor) (l : LineNo) (sl : SlotNo) (m : Member) (p : PositionNo) (c : ChannelNo) : Prop :=
  (sl, m) ∈ membersOf f.cnc (lineBridge l) ∧ m.kind = .speaker p c

/-- One re-evaluation of a line's bridge has cut its SPEAKER members, or undone the cut (R14, R15): under the cut condition the
ACTIVE ones of other positions are CUT, without it the CUT ones are ACTIVE, each with its channel's gain 0; every other stands. -/
structure CutFollows (l : LineNo) (f g : Floor) : Prop where
  held : ∀ q, HeldBy g l q → ∀ sl m p c, SpeakerOn f l sl m p c →
    g.cnc.pool.get sl = some { m with mode := if p ≠ q ∧ m.mode = .active then .cut else m.mode } ∧
    (p ≠ q → m.mode = .active → g.gain p c = 0)
  undone : NotHeld g l → ∀ sl m p c, SpeakerOn f l sl m p c →
    g.cnc.pool.get sl = some { m with mode := if m.mode = .cut then .active else m.mode } ∧
    (m.mode = .cut → g.gain p c = 0)

/-- Beside the lines named, SPEAKER members stand; and a channel keeps its gain where none of its members on those lines has
changed (R14, R15). -/
structure SpeakersBeside (on : LineNo → Prop) (f g : Floor) : Prop where
  members : ∀ sl m p c, f.cnc.pool.get sl = some m → m.kind = .speaker p c → (∀ l, on l → ¬ SpeakerOn f l sl m p c) →
    g.cnc.pool.get sl = some m
  gains : ∀ p c, (∀ l sl m, on l → SpeakerOn f l sl m p c → g.cnc.pool.get sl = some m) → g.gain p c = f.gain p c

/-- One change of a handset's member on a line's bridge, with its re-evaluation (R12, steps 1 and 2). -/
structure CallChanged (l : LineNo) (calls : List Call) (f g : Floor) : Prop where
  line : LineFollows l calls f g
  lines : ∀ k, k ≠ l → g.lsv.get k = f.lsv.get k
  cut : CutFollows l f g
  beside : SpeakersBeside (fun k => k = l) f g

/-- The SPEAKER members of a line are cut as its handset members have it (R13): under the cut condition none of another position
is ACTIVE, without it none is CUT. -/
structure CutHolds (g : Floor) (l : LineNo) : Prop where
  held : ∀ q, HeldBy g l q → ∀ sl m p c, SpeakerOn g l sl m p c → p ≠ q → m.mode ≠ .active
  undone : NotHeld g l → ∀ sl m p c, SpeakerOn g l sl m p c → m.mode ≠ .cut

/-- An event at the calls makes no SPEAKER member. Each that is left keeps its mode, or is ACTIVE or CUT with its channel's gain
0; a channel keeps its gain or has 0 (R14, R15, R128). A member whose channel has no saved entry is left. -/
structure SpeakersFollow (f g : Floor) : Prop where
  modes : ∀ sl n p c, g.cnc.pool.get sl = some n → n.kind = .speaker p c → ∃ m, f.cnc.pool.get sl = some m ∧
    n = { m with mode := n.mode } ∧ (n.mode = m.mode ∨ ((n.mode = .active ∨ n.mode = .cut) ∧ g.gain p c = 0))
  gains : ∀ p c, g.gain p c = f.gain p c ∨ g.gain p c = 0
  left : ∀ sl m p c, f.cnc.pool.get sl = some m → m.kind = .speaker p c →
    ((f.cnc.channels.get p).get c).stack = [] →
    ((g.cnc.channels.get p).get c).stack = [] ∧ ∃ n, g.cnc.pool.get sl = some n ∧ n.kind = m.kind

/-- A handset's records agree with its members: its active slot holds a member of it. -/
def OwnActive (c : Cnc) (h : HandsetNo) : Prop :=
  ∀ sl, (c.handsets.get h).active = some sl → ∃ m, c.pool.get sl = some m ∧ m.kind = .handset h

/-- The pool, the channels and a handset's call agree. -/
structure CallsSound (c : Cnc) (h : HandsetNo) : Prop where
  pool : PoolSound c
  channels : ChannelsOwnMembers c
  active : OwnActive c h

/-! ### What SELECT and CALL_GROUP do to the handset (R86, R97) -/

/-- A handset's stack after it takes a call on a bridge, and what became of the call it had: held with auto-hold, released
without (R82, R86). -/
def stackAfter (f : Floor) (h : HandsetNo) (b : BridgeNo) : List HoldEntry × Displaced :=
  let left := (f.cnc.handsets.get h).stack.filter (fun e => e.bridge ≠ b)
  match activeBridge f.cnc h with
  | none => (left, .none)
  | some x =>
    if (f.cnc.settings.get (handsetPosition h)).autoHold then
      ({ bridge := x, holdFrame := f.mxe.frame, recalled := false } :: left, .held x)
    else (left, .released x)

/-- A bridge stands on a handset's stack. -/
def HeldOn (f : Floor) (h : HandsetNo) (b : BridgeNo) : Prop := ∃ e ∈ (f.cnc.handsets.get h).stack, e.bridge = b

/-- A handset has its held member in the slot `sl` of the bridge's list, and has no call or one that agrees with the records. -/
def HeldAt (f : Floor) (h : HandsetNo) (b : BridgeNo) (sl : SlotNo) : Prop :=
  HeldOn f h b ∧ handsetSlot f.cnc b h = some sl ∧ slotBridge f.cnc sl = some b ∧
    ((f.cnc.handsets.get h).active = none ∨ (CallsSound f.cnc h ∧ activeBridge f.cnc h ≠ some b))

/-- The handset members of each bridge after a handset has taken the slot `sl` of a bridge (R86): the member is a new one or
the handset's held one made ACTIVE; the member of the call it had is HELD with auto-hold, gone without. -/
def callsAfter (f : Floor) (h : HandsetNo) (b : BridgeNo) (sl : SlotNo) (x : BridgeNo) : List Call :=
  let r := f.cnc.handsets.get h
  let calls := handsetMembers f.cnc x
  if x = b then
    if r.stack.any (fun e => e.bridge = b) then withMode sl .active calls else calls ++ [(sl, h, .active)]
  else if activeBridge f.cnc h = some x then
    if (f.cnc.settings.get (handsetPosition h)).autoHold then
      calls.map (fun y => if some y.1 = r.active then (y.1, y.2.1, .held) else y)
    else calls.filter (fun y => some y.1 ≠ r.active)
  else calls

/-- The lines that a handset's move to a bridge re-evaluates: that of the bridge, and that of the call it had. -/
def Touched (f : Floor) (h : HandsetNo) (b : BridgeNo) (l : LineNo) : Prop :=
  lineBridge l = b ∨ activeBridge f.cnc h = some (lineBridge l)

/-- A handset has moved to a bridge (R86): its record, the handset members of every bridge, what R42 makes of the lines
re-evaluated, and the cut of the SPEAKER members on them (R13 to R15). Where the call it had was a group's, released, the
announcements of the group may have ended with it (R101). -/
structure CallMoved (h : HandsetNo) (b : BridgeNo) (f g : Floor) : Prop where
  calls : ∃ sl m, g.cnc.handsets.get h = { state := .connected, active := some sl, stack := (stackAfter f h b).1 } ∧
    g.cnc.pool.get sl = some m ∧ m.kind = .handset h ∧ m.bridge = b ∧ m.mode = .active ∧
    ∀ x, handsetMembers g.cnc x = callsAfter f h b sl x
  touched : ∀ l, Touched f h b l → LineFollows l (handsetMembers g.cnc (lineBridge l)) f g ∧ CutHolds g l
  others : ∀ l, ¬ Touched f h b l → g.lsv.get l = f.lsv.get l
  speakers : SpeakersFollow f g
  exactly : (∀ k, (stackAfter f h b).2 ≠ .released (groupBridge k)) →
    (∀ l, Touched f h b l → CutFollows l f g) ∧ SpeakersBeside (Touched f h b) f g

/-- The handset is CONNECTED on a bridge it was not on (R86): on a new ACTIVE member, or on its held one made ACTIVE; the call
it had is on its stack or released, and SELECT_DONE is the last note of an order with NOTIFY. -/
structure Connects (h : HandsetNo) (b : BridgeNo) (notify : Bool) (s t : State) : Prop where
  stack : (t.floor.cnc.handsets.get h).stack = (stackAfter s.floor h b).1
  fresh : ¬ HeldOn s.floor h b → ∃ sl,
    t.floor.cnc.handsets.get h = { state := .connected, active := some sl, stack := (stackAfter s.floor h b).1 } ∧
    t.floor.cnc.pool.get sl =
      some { kind := .handset h, bridge := b, mode := .active, joinFrame := s.floor.mxe.frame }
  retrieved : ∀ sl, HeldAt s.floor h b sl →
    t.floor.cnc.handsets.get h = { state := .connected, active := some sl, stack := (stackAfter s.floor h b).1 } ∧
    t.floor.cnc.pool.get sl = (s.floor.cnc.pool.get sl).map (fun m => { m with mode := .active })
  recalled : (∃ e ∈ (s.floor.cnc.handsets.get h).stack, e.bridge = b ∧ e.recalled = true) →
    (∀ k, k ≠ h → handsetPosition k = handsetPosition h → ∀ e ∈ (s.floor.cnc.handsets.get k).stack, e.bridge = b →
      e.recalled = false) →
    ∀ a ∈ t.floor.cnc.ringLists.get (handsetPosition h), a.bridge = b → a.reason ≠ .recall
  note : notify = true → ∃ notes, Journalled s (notes ++ [.selectDone h b (stateAfter t.floor b)
    ((s.floor.cnc.handsets.get h).stack.any (fun e => e.bridge = b)) (stackAfter s.floor h b).2]) t
  others : OtherHandsets h s.floor t.floor
  calls : CallsOnly s.floor t.floor
  moved : CallsSound s.floor.cnc h → activeBridge s.floor.cnc h ≠ some b →
    (HeldOn s.floor h b → handsetSlot s.floor.cnc b h ≠ none) → CallMoved h b s.floor t.floor

/-- A group that a handset has joined (R95, R96): its state follows its members, and the call that a new member answers is
over. -/
structure GroupJoined (h : HandsetNo) (g : GroupNo) (s t : State) : Prop where
  answered : ¬ HeldOn s.floor h (groupBridge g) →
    t.floor.cnc.groups.get g = { s.floor.cnc.groups.get g with
      state := if (handsetMembers t.floor.cnc (groupBridge g)).length = 1 then .calling else .active
      timer := none, alerted := 0 } ∧
    (∀ p, ∀ a ∈ t.floor.cnc.ringLists.get p, a.bridge = groupBridge g → a.reason ≠ .intercom) ∧
    ∃ notes, Journalled s notes t ∧
      ∀ n ∈ alertEndNotes s.floor.cnc (groupBridge g) coversIntercom allPositions .answered, n ∈ notes
  retrieved : ∀ sl, HeldAt s.floor h (groupBridge g) sl →
    t.floor.cnc.groups.get g = { s.floor.cnc.groups.get g with
      state := if (handsetMembers t.floor.cnc (groupBridge g)).length = 1 then .calling else .active }

/-! ### The checks of orders, in the order in which the spec makes them -/

/-- The checks of SELECT for a line bridge after its numbers (R85, steps 2 to 7); the handset already on the line passes. -/
def selectCode (f : Floor) (h : HandsetNo) (l : LineNo) : Option ResultCode :=
  let r := f.cnc.handsets.get h
  let p := handsetPosition h
  let line := f.lsv.get l
  let b := lineBridge l
  let held : Bool := r.stack.any (fun e => e.bridge = b)
  if (f.plp.links.get p).up = false ∨ r.state = .onHook then some .onHook
  else if activeBridge f.cnc h = some b then none
  else if (f.cnc.appearances.get p).get l = none then some .noAppearance
  else if line.state ∈ [LineState.disabled, .fault, .test, .leg] then some .lineUnavailable
  else if line.cfg.privacy = .exclusive ∧ (handsetMembers f.cnc b).any (fun x => x.2.1 ≠ h) = true then some .linePrivate
  else if line.cfg.privacy = .shared ∧
      4 ≤ (handsetMembers f.cnc b).countP (fun x => !(x.2.1 = h && x.2.2 = .held)) then some .lineBusy
  else if r.active.isSome ∧ (f.cnc.settings.get p).autoHold ∧ 4 ≤ r.stack.length - (if held then 1 else 0) then
    some .holdFull
  else if held = false ∧ freeSlot f.cnc = none then some .poolFull
  else none

/-- The checks of SELECT and CALL_GROUP for a group bridge after their numbers (R85, R96, R97); the handset already on the
group passes. -/
def selectGroupCode (f : Floor) (h : HandsetNo) (g : GroupNo) : Option ResultCode :=
  let r := f.cnc.handsets.get h
  let p := handsetPosition h
  let b := groupBridge g
  let held : Bool := r.stack.any (fun e => e.bridge = b)
  if (f.plp.links.get p).up = false ∨ r.state = .onHook then some .onHook
  else if activeBridge f.cnc h = some b then none
  else if inMask (f.cnc.groups.get g).roster p = false then some .notRostered
  else if 8 ≤ (handsetMembers f.cnc b).countP (fun x => !(x.2.1 = h && x.2.2 = .held)) then some .lineBusy
  else if r.active.isSome ∧ (f.cnc.settings.get p).autoHold ∧ 4 ≤ r.stack.length - (if held then 1 else 0) then
    some .holdFull
  else if held = false ∧ freeSlot f.cnc = none then some .poolFull
  else none

/-- The checks of ASSIGN_SPEAKER for a source bridge after its numbers and side (R120, steps 2 to 6). -/
def assignCode (f : Floor) (p : PositionNo) (c : ChannelNo) (b : BridgeNo) : Option ResultCode :=
  let r := (f.cnc.channels.get p).get c
  let base := (r.stack.getLast?).getD r.current
  let source : Option ResultCode := match bridgeKind b with
    | .line l =>
      if ((f.cnc.appearances.get p).get l).map Appearance.speaker ≠ some true then some .noAppearance
      else if (f.lsv.get l).state = .disabled ∨ (f.lsv.get l).state = .leg then some .lineUnavailable
      else none
    | .group g => if inMask (f.cnc.groups.get g).roster p then none else some .notRostered
    | .hoot k => if inMask (f.cnc.hoots.get k).roster p then none else some .notRostered
  let mine := speakerMember f.cnc b p
  if source.isSome then source
  else if mine.isSome ∧ mine.map Prod.fst ≠ base.member then some .alreadyOn
  else if base.source ≠ some b ∧ base.member = none ∧ freeSlot f.cnc = none then some .poolFull
  else none

/-- The conditions under which a control block is accepted (R165). -/
def AcceptedBlock (cbAddr : Addr) (b : List Byte) : Prop :=
  cbAddr ≠ 0#64 ∧ fieldAt b 0 4 = 1 ∧ 4 ≤ fieldAt b 0x20 1 ∧ fieldAt b 0x20 1 ≤ 12 ∧
    ∀ at_ ∈ [0x08, 0x18, 0x38, 0x40], fieldAt b at_ 8 ≠ 0 ∧ fieldAt b at_ 8 % 64 = 0

end Sys2Proof.Machine
end

