-- ==== Sys2Proof/Certificates/Slice0/Obligations.lean ====
section
/-! DEFINITION. The statements about the model, for the provers. A statement about a command that takes raised events first
is made at states where none waits (`due` empty); RaisedEventsAreTakenInTurn carries it to every state. A statement about an
order is made where the order may be taken (`Turn`), and says what it answers with `Completed` (entries 3 and 5 of the
assumption log). -/

open Sys2Proof Sys2Proof.Machine

/-! ### The queue of commands -/

/-- A step with a command in front runs that command on the rest of the queue. Log entries 1 and 2. -/
def Obligations.StepTakesTheFrontCommand : Prop :=
  ∀ (c : Instr) (rest : List Instr) (s : State), s.pending = c :: rest → step s = exec c { s with pending := rest }

/-- Entries 2 to 4 of the assumption log. On an empty queue the oldest raised event is taken, or the part idles; a
command that settles first acts as after every raised event, oldest first; the row of a raised event takes that event,
or changes nothing. -/
def Obligations.RaisedEventsAreTakenInTurn : Prop :=
  (∀ s : State, s.pending = [] →
     (s.due = [] → step s = .next s) ∧
     (∀ e es, s.due = e :: es → step s = .next (takeEvent e { s with due := es }))) ∧
  (∀ s : State,
     (settle s).due = [] ∧ (s.due = [] → settle s = s) ∧
     (∀ e es, s.due = e :: es → settle s = settle (takeEvent e { s with due := es })) ∧
     (∀ c, settlesFirst c = true → exec c s = exec c (settle s))) ∧
  (∀ (c : Instr) (e : Raised) (s : State), raisedOf c = some e →
     (e ∈ s.due → exec c s = .next (takeEvent e { s with due := s.due.erase e })) ∧
     (e ∉ s.due → exec c s = .next s))

/-- Every command answers a next state, in every state, and leaves the queue of commands as it is. Log entry 4. -/
def Obligations.EveryCommandAnswersAndKeepsTheQueue : Prop :=
  ∀ (c : Instr) (s : State), ∃ t, exec c s = .next t ∧ t.pending = s.pending

/-! ### Invariants -/

/-- Every step keeps CB_ADDR aligned, the note and staging queues within 64, and the hand-over queue without repeats. -/
def Obligations.HostSideStaysBounded : Prop :=
  ∀ s t : State, HostSideBounded s → step s = .next t → HostSideBounded t

/-- Every step keeps every receive queue and every ring list within 16 entries, and the member lists in agreement with the pool:
each member in use stands once, on the list of its own bridge alone. -/
def Obligations.FloorStaysBounded : Prop :=
  ∀ s t : State, FloorBounded s → step s = .next t → FloorBounded t

/-- The two invariants hold at reset. -/
def Obligations.ResetIsBounded : Prop := HostSideBounded State.reset ∧ FloorBounded State.reset

/-! ### Reset, registers and run control -/

/-- The values that the spec gives for pin reset. -/
def Obligations.ResetGivesTheStatedValues : Prop :=
  let r := State.reset
  (r.rc.runState = .stopped ∧ r.rc.cbAddr = 0#64 ∧ r.rc.attn = 0#5 ∧ r.rc.attnMask = 0#5) ∧
  (∀ k, r.floor.lhp.cards.get k = { present := false, marks := 0 }) ∧
  (∀ l, r.floor.lhp.txSeq.get l = 0#8) ∧
  (∀ l, r.floor.ltm.get l =
    { queue := [], playing := false, first := true, lastSeq := none, episode := false, lastBlock := silence
      lastOrigin := .silent, errored := 0
      counters := { underflow := 0, overflow := 0, resync := 0, duplicate := 0, slip := 0, concealed := 0, discard := 0 } }) ∧
  (∀ l, r.floor.lsv.get l =
    { cfg := { enable := false, kind := .signalled, privacy := .shared, rxGain := 4096, txGain := 4096, prime := 4,
               persistence := 3, deadTime := 100, knockTime := 10, cadence := 0 }
      state := .disabled, cause := .none, accepted := .quiet, candidate := none, run := 0, dead := 0, knock := none
      alertingSince := none, ringOut := none }) ∧
  (∀ p, let x := r.floor.plp.links.get p
    x.up = false ∧ x.good = 0 ∧ x.missed = 0 ∧ ∀ y ∈ [x.hookA, x.hookB, x.ptt], y = { accepted := false, run := 0 }) ∧
  (∀ sl, r.floor.cnc.pool.get sl = none) ∧ (∀ b, r.floor.cnc.bridges.get b = { members := [], talkers := 0 }) ∧
  (∀ p l, (r.floor.cnc.appearances.get p).get l = none) ∧ (∀ p, r.floor.cnc.ringLists.get p = []) ∧
  (∀ c, r.floor.cnc.cadences.get c = { segments := [(0, 0)], repeats := 0 }) ∧
  (∀ p, r.floor.cnc.settings.get p =
    { autoHold := true, recallTime := 0, volumeA := 4096, volumeB := 4096, micGainA := 4096, micGainB := 4096
      deskGain := 4096, sideLeft := 4096, sideRight := 4096, ringerSide := .both, ringAmplitude := none
      halfPeriod := 20, announceChannel := 0, nesting := .higherOnly }) ∧
  (∀ h, r.floor.cnc.handsets.get h = { state := .onHook, active := none, stack := [] }) ∧
  (∀ g, r.floor.cnc.groups.get g =
    { roster := 0, timeout := 0, cadence := 0, state := .idle, timer := none, alerted := 0 }) ∧
  (∀ k, r.floor.cnc.hoots.get k = { roster := 0, talk := 0, limit := 1, priority := 1, legs := [], queue := [] }) ∧
  (∀ p, r.floor.cnc.talks.get p = { target := none, key := false, status := .idle }) ∧
  (∀ p c, (r.floor.cnc.channels.get p).get c =
    { current := { source := none, origin := .assigned, priority := 0, target := 4096,
                   side := if c.val < 4 then .left else .right, member := none }
      stack := [] }) ∧
  r.floor.mxe.frame = 0#32 ∧ (∀ l, r.floor.mxe.lineGains.get l = { rx := 4096, tx := 4096 }) ∧
  (∀ p, r.floor.mxe.positionGains.get p =
    { micA := 4096, micB := 4096, desk := 4096, volA := 4096, volB := 4096, left := 4096, right := 4096 }) ∧
  (∀ p c, (r.floor.mxe.channelGains.get p).get c = 0) ∧ (∀ p, (r.floor.mxe.ringers.get p).state = .idle) ∧
  (∀ o, r.floor.mxe.clip o = { clipping := false, cleanRun := 0, count := 0 }) ∧
  (∀ p c, (r.floor.mxe.activity.get p).get c = { active := false, window := 0, count := 0 }) ∧
  r.floor.mxe.mix = { rampStep := 128, threshold := 1000, window := 50, count := 200, ringAmplitude := 8192 } ∧
  (∀ n, let x := r.tpe.taps.get n
    x.state = .stopped ∧ x.closing = false ∧ x.filled = 0#32 ∧ x.returned = 0#32 ∧ x.number = 0#32 ∧
    x.stagingDrops = 0 ∧ x.pendingDrops = 0 ∧ x.episode = false ∧ x.droppedTotal = 0 ∧ x.lastBridge = none) ∧
  r.tpe.staging = [] ∧ r.jnu.queue = [] ∧ r.jnu.linger = none ∧ r.oru.nudged = false ∧ r.oru.poll = none ∧
  r.stw.queue = [] ∧ ∀ e, r.stw.count e = 0#32

/-- RST# and RESET: every block takes its reset values and an access in flight is void; RESET keeps CB_ADDR. A frame that
arrived before the reset is dropped (the model's choice, entry 41), and the frames that a mark is still owed are silence on
links that are DOWN (the model's choice, entry 36). Log entries 9, 27, 36 and 41. -/
def Obligations.ResetsReturnToTheResetState : Prop :=
  ∀ s : State,
    let floor (t : State) : Floor :=
      { State.reset.floor with plp := { State.reset.floor.plp with sent := t.floor.plp.sent } }
    let sent (t : State) : Prop := ∀ p, t.floor.plp.sent.get p =
      if s.floor.plp.owed then linkFrameBytes false silence silence silence silence else []
    (∃ t, exec .pinReset s = .next t ∧
      t = { State.reset with floor := floor t, mpt := t.mpt, pending := s.pending } ∧ sent t ∧
      ∀ r, (t.mpt.port r).waiting = none ∧
        (t.mpt.port r).inFlight = (s.mpt.port r).inFlight.map (fun f => { f with fate := .void })) ∧
    (∃ t, exec .reset s = .next t ∧
      t = { State.reset with
              rc := { State.reset.rc with cbAddr := s.rc.cbAddr }, floor := floor t, mpt := t.mpt
              pending := s.pending } ∧ sent t ∧
      ∀ r, (t.mpt.port r).waiting = none ∧
        (t.mpt.port r).inFlight = (s.mpt.port r).inFlight.map (fun f => { f with fate := .void }))

/-- CB_ADDR takes a half in STOPPED alone, with its low six bits 0. ATTN clears the causes written as 1; ATTN# is low
while a set cause is unmasked; a write to another offset is ignored. A read answers the register of its offset, NUDGE and
an offset without register 0. Log entry 24. -/
def Obligations.HostRegistersTakeTheirWrites : Prop :=
  (∀ (high : Bool) (v : Word) (s : State),
     (s.rc.runState = .stopped → ∃ a : Addr,
       exec (.cbAddrWrite high v) s = .next { s with rc := { s.rc with cbAddr := a } } ∧
       (∀ i < 64, a.getLsbD i =
         (decide (6 ≤ i) && (if high = decide (32 ≤ i) then v.getLsbD (i % 32) else s.rc.cbAddr.getLsbD i)))) ∧
     (s.rc.runState ≠ .stopped → exec (.cbAddrWrite high v) s = .next s)) ∧
  (∀ (v o : Word) (s : State),
     (∃ t, exec (.attnWrite v) s = .next t ∧ t = { s with rc := { s.rc with attn := t.rc.attn } } ∧
       ∀ c, causeSet c t.rc.attn = (causeSet c s.rc.attn && !v.getLsbD (Cause.bit c))) ∧
     (∃ t, exec (.attnMaskWrite v) s = .next t ∧ t = { s with rc := { s.rc with attnMask := t.rc.attnMask } } ∧
       ∀ c, causeSet c t.rc.attnMask = v.getLsbD (Cause.bit c)) ∧
     exec (.otherRegisterWrite o v) s = .next s ∧
     (s.attnLow = true ↔ ∃ c, causeSet c s.rc.attn = true ∧ causeSet c s.rc.attnMask = true)) ∧
  (∀ s : State,
     let reads (offset : Nat) : Nat := (s.readRegister offset).toNat
     reads 0x00 = 0x48160001 ∧ reads 0x08 = s.rc.cbAddr.toNat % 2 ^ 32 ∧ reads 0x0C = s.rc.cbAddr.toNat / 2 ^ 32 ∧
     reads 0x10 = (match s.rc.runState with
       | .stopped => 0
       | .starting => 1
       | .running => 2
       | .stopping => 3) ∧
     reads 0x14 = 0 ∧ reads 0x18 = s.rc.attn.toNat ∧ reads 0x1C = s.rc.attnMask.toNat ∧
     ∀ o, o ∉ [0x00, 0x08, 0x0C, 0x10, 0x14, 0x18, 0x1C] → reads o = 0)

/-- A wake of a WAITING ORU makes the access of its step, at each of the six steps; a nudge of an ACTIVE one is kept. A
POLL_EXPIRY without a running poll timer changes nothing (the model's choice, entry 4). Log entries 3, 4 and 7. -/
def Obligations.NudgeAndPollWakeAWaitingOru : Prop :=
  ∀ (v : Word) (s : State), s.due = [] →
    (∀ c, c = .nudge v ∨ (c = .pollExpiry ∧ s.oru.poll.isSome = true) → s.rc.runState = .running →
      s.oru.active = false →
      let asks (m : Mpt) (addr : Addr) (op : AccessOp) : Prop :=
        m = { s.mpt with oru := { s.mpt.oru with waiting := some { addr := addr, op := op } } }
      ∃ t, exec c s = .next t ∧ t = { s with oru := { s.oru with active := true, poll := none }, mpt := t.mpt } ∧
        (s.oru.step = .linkRead → asks t.mpt s.oru.cursor (.read 8)) ∧
        (∀ a, s.oru.step = .recordRead → s.oru.next = some a → asks t.mpt a (.read 64)) ∧
        (s.oru.step = .execute → t.mpt = s.mpt) ∧
        (∀ a d o, s.oru.next = some a → s.oru.order = some d → d.outcome = some o →
          (s.oru.step = .resultWrite → d.codeWritten = false →
            asks t.mpt (a + 0x0B#64) (.write [BitVec.ofNat 8 (ResultCode.code o.code)])) ∧
          (s.oru.step = .resultWrite → d.codeWritten = true →
            asks t.mpt (a + 0x38#64) (.write (padTo 8 o.data))) ∧
          (s.oru.step = .stateWrite →
            asks t.mpt (a + 0x08#64) (.write [if o.code = .ok then 2#8 else 3#8]))) ∧
        (s.oru.step = .cursorWrite →
          asks t.mpt (s.rc.cbAddr + 0x10#64) (.write (bytesOf 8 s.oru.cursor.toNat)))) ∧
    (s.oru.poll = none → exec .pollExpiry s = .next s) ∧
    (s.rc.runState = .running → s.oru.active = true →
      exec (.nudge v) s = .next { s with oru := { s.oru with nudged := true } }) ∧
    (s.rc.runState ≠ .running → exec (.nudge v) s = .next s ∧ exec .pollExpiry s = .next s)

/-- RUN in STOPPED reads the 80 bytes of the control block; elsewhere it is ignored. A block that passes is held and
the cursor field written; another sets START_FAIL; a start that STOP has abandoned ends with STOPPED. Log entries 3,
10 and 26. -/
def Obligations.RunReadsAndChecksTheControlBlock : Prop :=
  (∀ s : State, s.due = [] →
     (s.rc.runState = .stopped → exec .run s = .next { s with
       rc := { s.rc with runState := .starting, startPhase := .reading, abandoning := false }
       mpt := { s.mpt with oru := { s.mpt.oru with waiting := some { addr := s.rc.cbAddr, op := .read 80 } } } }) ∧
     (s.rc.runState ≠ .stopped → exec .run s = .next s)) ∧
  (∀ (b : List Byte) (s : State) (f : Flight), s.due = [] → b.length = 80 → s.rc.runState = .starting →
     s.rc.startPhase = .reading → s.mpt.oru.inFlight = some f → f.fate = .live →
     (s.rc.abandoning = false → AcceptedBlock s.rc.cbAddr b → ∃ t, exec (.controlBlockReadDone b) s = .next t ∧
       t = { s with rc := { s.rc with startPhase := .cursor, held := t.rc.held }, mpt := t.mpt } ∧
       t.mpt = { s.mpt with oru := .asking { addr := s.rc.cbAddr + 0x10#64, op := .write (bytesOf 8 t.rc.held.anchor.toNat) } } ∧
       t.rc.held.anchor.toNat = fieldAt b 0x08 8 ∧ t.rc.held.pollMs = min 255 (fieldAt b 0x04 4) ∧
       t.rc.held.journalBase.toNat = fieldAt b 0x18 8 ∧ t.rc.held.exponent = fieldAt b 0x20 1 ∧
       t.rc.held.trigger = clampTo 1 (2 ^ fieldAt b 0x20 1) (fieldAt b 0x22 2) ∧
       t.rc.held.lingerMs = min 1000 (fieldAt b 0x24 2) ∧ t.rc.held.consumed.toNat = fieldAt b 0x2C 4 ∧
       t.rc.held.statusBase.toNat = fieldAt b 0x38 8 ∧ t.rc.held.tapBase.toNat = fieldAt b 0x40 8) ∧
     (s.rc.abandoning = false → ¬ AcceptedBlock s.rc.cbAddr b → exec (.controlBlockReadDone b) s = .next { s with
       rc := { s.rc with runState := .stopped, startPhase := .none, attn := raiseCause .startFail s.rc.attn }
       mpt := { s.mpt with oru := { waiting := none, inFlight := none } } }) ∧
     (s.rc.abandoning = true → exec (.controlBlockReadDone b) s = .next { s with
       rc := { s.rc with
         runState := .stopped, startPhase := .none, abandoning := false, attn := raiseCause .stopped s.rc.attn }
       mpt := { s.mpt with oru := { waiting := none, inFlight := none } } }))

/-- The three start writes follow one another; after the last the part is RUNNING with its run state fresh. A start
that STOP has abandoned ends at the write in flight, in STOPPED. Log entry 3. -/
def Obligations.StartWritesLeadToRunning : Prop :=
  ∀ (s : State) (f : Flight), s.due = [] → s.rc.runState = .starting →
    s.mpt.oru.inFlight = some f → f.fate = .live →
    (s.rc.abandoning = true → s.rc.startPhase = .cursor ∨ s.rc.startPhase = .produced ∨ s.rc.startPhase = .lost →
      exec .startWritesDone s = .next { s with
        rc := { s.rc with
          runState := .stopped, startPhase := .none, abandoning := false, attn := raiseCause .stopped s.rc.attn }
        mpt := { s.mpt with oru := { waiting := none, inFlight := none } } }) ∧
    (s.rc.abandoning = false → s.rc.startPhase = .cursor → exec .startWritesDone s = .next { s with
      rc := { s.rc with startPhase := .produced }
      mpt := { s.mpt with oru := .asking { addr := s.rc.cbAddr + 0x28#64, op := .write (bytesOf 4 s.rc.held.consumed.toNat) } } }) ∧
    (s.rc.abandoning = false → s.rc.startPhase = .produced → exec .startWritesDone s = .next { s with
      rc := { s.rc with startPhase := .lost }
      mpt := { s.mpt with oru := .asking { addr := s.rc.cbAddr + 0x30#64, op := .write (bytesOf 4 0) } } }) ∧
    (s.rc.abandoning = false → s.rc.startPhase = .lost → ∃ t, exec .startWritesDone s = .next t ∧
      t.rc = { s.rc with runState := .running, startPhase := .none, cleared := false } ∧
      t.oru = { cursor := s.rc.held.anchor, next := none, step := .linkRead, active := true, nudged := false
                poll := none, order := none, lastOutcome := s.oru.lastOutcome } ∧
      t.mpt = { s.mpt with oru := .asking { addr := s.rc.held.anchor, op := .read 8 } } ∧
      t.jnu = { produced := s.rc.held.consumed, consumed := s.rc.held.consumed, lost := 0, queue := [], phase := .idle
                linger := none } ∧
      (t.stw.queue = allEntries ∧ t.stw.phase = .idle ∧ (∀ e, t.stw.count e = s.stw.count e) ∧
       ∀ l, t.stw.depths.get l = 0 ∧ t.stw.saturations.get l = 0) ∧
      t.tpe = s.tpe ∧ t.due = [] ∧ t.pending = s.pending ∧
      t.floor.lsv = s.floor.lsv ∧ t.floor.cnc = s.floor.cnc ∧
      (t.floor.lhp = { s.floor.lhp with txSeq := t.floor.lhp.txSeq } ∧ ∀ l, t.floor.lhp.txSeq.get l = 0#8) ∧
      (∀ l, t.floor.ltm.get l =
        { queue := [], playing := false, first := true, lastSeq := none, episode := false, lastBlock := silence
          lastOrigin := .silent, errored := 0, counters := .zero }) ∧
      (t.floor.plp = { s.floor.plp with links := t.floor.plp.links } ∧
       ∀ p, let rested : LinkRec := { s.floor.plp.links.get p with
              hookA := { accepted := false, run := 0 }, hookB := { accepted := false, run := 0 }
              ptt := { accepted := false, run := 0 }, judged := none, filtering := false }
            t.floor.plp.links.get p = rested) ∧
      let m := t.floor.mxe
      m.frame = 0#32 ∧
      (∀ l, m.lineGains.get l = { rx := (s.floor.lsv.get l).cfg.rxGain, tx := (s.floor.lsv.get l).cfg.txGain }) ∧
      (∀ p, let x := s.floor.cnc.settings.get p
        m.positionGains.get p =
          { micA := x.micGainA, micB := x.micGainB, desk := x.deskGain, volA := x.volumeA, volB := x.volumeB
            left := x.sideLeft, right := x.sideRight }) ∧
      (∀ o, m.clip o = { clipping := false, cleanRun := 0, count := 0 }) ∧
      (∀ p c, (m.activity.get p).get c = { active := false, window := 0, count := 0 }) ∧
      m.channelGains = s.floor.mxe.channelGains ∧ m.ringers = s.floor.mxe.ringers ∧ m.mix = s.floor.mxe.mix)

/-- STOP begins STOPPING with every tap STOPPED, or abandons a start; it acts on the state that the order dispatched
and not yet carried out leaves (the model's choice, entry 35); the clearing empties the dynamic state and keeps the
configuration; with everything written the part is STOPPED; a clearing or completion whose condition does not hold changes
nothing (the model's choice, entry 4), and the frames that a mark is owed at STOP are silence and no parcel (the model's
choice, entry 36). Log entries 3, 4, 9, 25, 26, 32, 35 and 36. -/
def Obligations.StopClearsTheDynamicState : Prop :=
  ∀ s : State, s.due = [] →
    let rested (r : LinkRec) : LinkRec := { r with
      hookA := { accepted := false, run := 0 }, hookB := { accepted := false, run := 0 }
      ptt := { accepted := false, run := 0 }, judged := none, filtering := false }
    let dispatched (u : State) (c : Instr) : Prop := u.oru.step = .execute ∧ u.starting = false ∧
      (immediateOrder c = true ∨ ∃ n, c = .tapStart n) ∧
      ∃ d, u.oru.order = some d ∧ d.order = some c ∧ d.taken = false ∧ d.outcome = none
    (s.rc.runState = .running → ∀ c, dispatched s c → ∃ u, exec c s = .next u ∧ exec .stop s = exec .stop u ∧
      u.due = [] ∧ u.rc = s.rc ∧ ∀ e, ¬ dispatched u e) ∧
    (s.rc.runState = .running → (∀ c, ¬ dispatched s c) → ∃ t, exec .stop s = .next t ∧ t.rc = { s.rc with runState := .stopping, cleared := false } ∧
      t.tpe.staging = [] ∧ t.tpe.jobs = s.tpe.jobs.filter startJob ∧
      (∀ n, let halted : TapRec := { s.tpe.taps.get n with state := .stopped, closing := false }
        t.tpe.taps.get n = halted) ∧
      t.floor = { s.floor with lhp := { s.floor.lhp with sent := t.floor.lhp.sent }, plp := t.floor.plp } ∧
      t.floor.plp.owed = false ∧
      (s.floor.plp.owed = true → t.floor.lhp.sent = [] ∧ ∀ p, t.floor.plp.sent.get p =
        linkFrameBytes (s.floor.plp.links.get p).up silence silence silence silence) ∧
      (s.floor.plp.owed = false → t.floor.lhp.sent = s.floor.lhp.sent ∧ t.floor.plp.sent = s.floor.plp.sent) ∧
      (∀ p, t.floor.plp.links.get p = rested (s.floor.plp.links.get p)) ∧ t.jnu = s.jnu ∧
      t.stw = { s.stw with queue := t.stw.queue } ∧
      (∀ e, e ∈ t.stw.queue ↔ e ∈ s.stw.queue ∨
        ∃ n, e = .handset n ∧ ((s.tpe.taps.get n).state ≠ .stopped ∨ (s.tpe.taps.get n).closing = true)) ∧
      (s.oru.order = none → t.oru = { s.oru with active := false } ∧ t.mpt.oru = { s.mpt.oru with waiting := none }) ∧
      (∀ d, s.oru.order = some d → s.oru.active = true → d.taken = true ∨ d.outcome ≠ none → t.oru = s.oru) ∧
      (∀ d, s.oru.order = some d → s.oru.active = false ∨ (d.taken = false ∧ d.outcome = none) →
        t.oru = { s.oru with active := false, order := none }) ∧
      (∀ j rest, s.tpe.jobs = j :: rest → startJob j = false → t.tpe.jobs = [] → t.mpt.tpe.waiting = none ∧
        ∀ f, s.mpt.tpe.inFlight = some f → f.fate = .live → t.mpt.tpe.inFlight = some { f with fate := .discarded })) ∧
    (s.rc.runState = .starting → s.liveFlight .oru = true →
      exec .stop s = .next { s with rc := { s.rc with abandoning := true } }) ∧
    (s.rc.runState = .starting → s.liveFlight .oru = false → exec .stop s = .next { s with
      rc := { s.rc with
        runState := .stopped, startPhase := .none, abandoning := false, attn := raiseCause .stopped s.rc.attn }
      mpt := { s.mpt with oru := { s.mpt.oru with waiting := none } } }) ∧
    (s.rc.runState = .stopped ∨ s.rc.runState = .stopping → exec .stop s = .next s) ∧
    (let mayClear := s.rc.runState = .stopping ∧ s.rc.cleared = false ∧ s.oru.order = none ∧ s.tpe.jobs = []
     (¬ mayClear → exec .stoppingClear s = .next s) ∧
     (mayClear → ∃ t, exec .stoppingClear s = .next t ∧ t.rc = { s.rc with cleared := true } ∧ t.mpt = s.mpt ∧
        t.jnu = s.jnu ∧ t.oru = s.oru ∧ (∀ e ∈ allEntries, e ∈ t.stw.queue) ∧ (∀ e, t.stw.count e = s.stw.count e) ∧
        (∀ l, t.stw.depths.get l = 0 ∧ t.stw.saturations.get l = (s.floor.mxe.transmitClips.get l).count) ∧
        (∀ l, t.floor.lsv.get l =
          { cfg := (s.floor.lsv.get l).cfg, state := if (s.floor.lsv.get l).cfg.enable then .idle else .disabled
            cause := .none, accepted := .quiet, candidate := none, run := 0, dead := 0, knock := none
            alertingSince := none, ringOut := none }) ∧
        (∀ l, t.floor.ltm.get l =
          { queue := [], playing := false, first := true, lastSeq := none, episode := false, lastBlock := silence
            lastOrigin := .silent, errored := 0, counters := (s.floor.ltm.get l).counters }) ∧
        t.floor.lhp = s.floor.lhp ∧ t.floor.plp = { s.floor.plp with links := t.floor.plp.links } ∧
        (∀ p, t.floor.plp.links.get p = rested (s.floor.plp.links.get p)) ∧
        (∀ sl, t.floor.cnc.pool.get sl = none) ∧ (∀ b, t.floor.cnc.bridges.get b = { members := [], talkers := 0 }) ∧
        (∀ p, t.floor.cnc.ringLists.get p = []) ∧
        (∀ h, t.floor.cnc.handsets.get h = { state := .onHook, active := none, stack := [] }) ∧
        (∀ g, let cleared : GroupRec := { s.floor.cnc.groups.get g with state := .idle, timer := none, alerted := 0 }
          t.floor.cnc.groups.get g = cleared) ∧
        (∀ k, let cleared : HootRec := { s.floor.cnc.hoots.get k with legs := [], queue := [] }
          t.floor.cnc.hoots.get k = cleared) ∧
        (∀ p, let cleared : TalkRec := { s.floor.cnc.talks.get p with key := false, status := .idle }
          t.floor.cnc.talks.get p = cleared) ∧
        (∀ p c, (t.floor.cnc.channels.get p).get c =
          { current := { source := none, origin := .assigned, priority := 0, target := 4096,
                         side := if c.val < 4 then .left else .right, member := none }
            stack := [] }) ∧
        t.floor.cnc.appearances = s.floor.cnc.appearances ∧ t.floor.cnc.cadences = s.floor.cnc.cadences ∧
        t.floor.cnc.settings = s.floor.cnc.settings ∧ t.floor.mxe.mix = s.floor.mxe.mix ∧
        t.floor.mxe.frame = s.floor.mxe.frame ∧ t.floor.mxe.lineGains = s.floor.mxe.lineGains ∧
        t.floor.mxe.positionGains = s.floor.mxe.positionGains ∧ (∀ p c, (t.floor.mxe.channelGains.get p).get c = 0) ∧
        (∀ p, (t.floor.mxe.ringers.get p).state = .idle) ∧
        (∀ o, t.floor.mxe.clip o = { clipping := false, cleanRun := 0, count := (s.floor.mxe.clip o).count }) ∧
        (∀ p c, (t.floor.mxe.activity.get p).get c = { active := false, window := 0, count := 0 }) ∧
        t.tpe.staging = [] ∧
        (∀ n, let x := t.tpe.taps.get n
          x.state = .stopped ∧ x.closing = false ∧ x.filled = 0#32 ∧ x.returned = 0#32 ∧ x.number = 0#32 ∧
          x.stagingDrops = 0 ∧ x.pendingDrops = 0 ∧ x.episode = false ∧ x.droppedTotal = 0 ∧ x.lastBridge = none))) ∧
    (let written := s.rc.runState = .stopping ∧ s.rc.cleared = true ∧ s.jnu.queue = [] ∧ s.jnu.phase = .idle ∧
       s.stw.queue = [] ∧ s.stw.phase = .idle ∧ ∀ r, s.mpt.port r = { waiting := none, inFlight := none }
     (¬ written → exec .stoppingComplete s = .next s) ∧
     (written → exec .stoppingComplete s = .next { s with
       rc := { s.rc with runState := .stopped, cleared := false, attn := raiseCause .stopped s.rc.attn }
       oru := { s.oru with active := false, nudged := false, poll := none }, jnu := { s.jnu with linger := none } }))

/-! ### The clock mark, cards and links -/

/-- One mark: card counts, the judgment of each link, the events they reach, outside RUNNING what is sent, and in
RUNNING that its frames are owed. Log entries 3, 8, 32 and 36. -/
def Obligations.FrameMarkCountsCardsAndLinks : Prop :=
  ∀ (cards : Half) (s : State), s.due = [] → ∃ t, exec (.frameMark cards) s = .next t ∧ BesideFloor s t ∧
    t.jnu = s.jnu ∧ t.stw = s.stw ∧ t.floor.ltm = s.floor.ltm ∧ t.floor.lsv = s.floor.lsv ∧ t.floor.cnc = s.floor.cnc ∧
    t.floor.mxe = s.floor.mxe ∧ t.floor.lhp.txSeq = s.floor.lhp.txSeq ∧
    (∀ k, let r := s.floor.lhp.cards.get k
      t.floor.lhp.cards.get k =
        { present := r.present, marks := if (!cards.getLsbD k.val) = r.present then 0 else min 8 (r.marks + 1) }) ∧
    (∀ p, let r := s.floor.plp.links.get p
      let u := t.floor.plp.links.get p
      u.up = r.up ∧ u.judged = r.arrived ∧ u.arrived = none ∧ u.hookA = r.hookA ∧ u.hookB = r.hookB ∧ u.ptt = r.ptt ∧
      (r.up = true → u.good = r.good ∧ u.missed = if r.arrived.isSome then 0 else min 3 (r.missed + 1)) ∧
      (r.up = false → u.missed = r.missed ∧ u.good = if r.arrived.isSome then min 16 (r.good + 1) else 0)) ∧
    (∀ k, .cardPresence k ∈ t.due ↔ 8 ≤ (t.floor.lhp.cards.get k).marks) ∧
    (∀ p, .linkDown p ∈ t.due ↔ (t.floor.plp.links.get p).up = true ∧ 3 ≤ (t.floor.plp.links.get p).missed) ∧
    (∀ p, .linkUp p ∈ t.due ↔ (t.floor.plp.links.get p).up = false ∧ 16 ≤ (t.floor.plp.links.get p).good) ∧
    t.floor.plp.owed = decide (s.rc.runState = .running) ∧
    (s.rc.runState = .running → t.floor.lhp.sent = s.floor.lhp.sent ∧ t.floor.plp.sent = s.floor.plp.sent) ∧
    (s.rc.runState ≠ .running → t.floor.lhp.sent = [] ∧ ∀ p,
      let up : Bool := .linkUp p ∈ t.due ∨ ((t.floor.plp.links.get p).up = true ∧ .linkDown p ∉ t.due)
      t.floor.plp.sent.get p = linkFrameBytes up silence silence silence silence)

/-- At its 8th mark of the other level a card changes presence, and in RUNNING its 16 lines are handed over. Log entry
4. -/
def Obligations.CardPresenceChangesAtTheEighthMark : Prop :=
  ∀ (k : CardNo) (s : State), .cardPresence k ∈ s.due → 8 ≤ (s.floor.lhp.cards.get k).marks →
    ∃ t, exec (.cardPresenceChange k) s = .next t ∧ RaisedTaken (.cardPresence k) s t ∧ t.jnu = s.jnu ∧
      (let after : CardRec := { present := !(s.floor.lhp.cards.get k).present, marks := 0 }
       t.floor = { s.floor with lhp := { s.floor.lhp with cards := s.floor.lhp.cards.set k after } }) ∧
      (s.rc.runState = .running → ∀ l, lineCard l = k → .line l ∈ t.stw.queue) ∧
      (s.rc.runState ≠ .running → t.stw = s.stw)

/-- LINK_DOWN: the link record, and in RUNNING the note, both handsets ON_HOOK with empty stacks, HOLD_DROPPED for
each entry, no member of theirs left on a bridge whose calls agree with the handsets' records, the lines that lost members
re-evaluated with their cut, and the key released. LINK_UP: the link record, and in RUNNING the note and the position's
entry; no handset changes. Log entries 4 and 12. -/
def Obligations.LinkChangesActOnThePosition : Prop :=
  (∀ (p : PositionNo) (s : State), .linkDown p ∈ s.due → (s.floor.plp.links.get p).up = true →
     3 ≤ (s.floor.plp.links.get p).missed → ∃ t, exec (.linkDown p) s = .next t ∧ RaisedTaken (.linkDown p) s t ∧
       (let after : LinkRec := { s.floor.plp.links.get p with
         up := false, good := 0, missed := 0, hookA := { accepted := false, run := 0 }
         hookB := { accepted := false, run := 0 }, ptt := { accepted := false, run := 0 }, filtering := false }
        t.floor.plp = { s.floor.plp with links := s.floor.plp.links.set p after }) ∧
       (s.rc.runState ≠ .running → t.jnu = s.jnu ∧ t.stw = s.stw ∧ t.floor = { s.floor with plp := t.floor.plp }) ∧
       (s.rc.runState = .running → .position p ∈ t.stw.queue ∧
         (∃ notes, Journalled s (.linkDown p :: notes) t ∧
           ((∀ h, h = handsetA p ∨ h = handsetB p →
               ((s.floor.cnc.handsets.get h).stack.map (fun e => e.bridge)).Nodup) →
             let drops (h : HandsetNo) : List NoteBody :=
               (s.floor.cnc.handsets.get h).stack.map (HoldEntry.dropped h .linkDown)
             (drops (handsetA p) ++ drops (handsetB p)).Sublist notes) ∧
           ∀ k, (s.floor.cnc.talks.get p).target = some k → (s.floor.cnc.talks.get p).status ≠ .idle →
             .pttEnd p k .linkDown (s.floor.cnc.talks.get p).status ∈ notes) ∧
         (∀ h b, h = handsetA p ∨ h = handsetB p → CallsAgree s.floor.cnc b → handsetSlot t.floor.cnc b h = none) ∧
         (∀ h, h = handsetA p ∨ h = handsetB p →
           t.floor.cnc.handsets.get h = { state := .onHook, active := none, stack := [] }) ∧
         (∀ h, h ≠ handsetA p → h ≠ handsetB p → t.floor.cnc.handsets.get h = s.floor.cnc.handsets.get h) ∧
         (t.floor.cnc.talks.get p).key = false ∧ (t.floor.cnc.talks.get p).target = (s.floor.cnc.talks.get p).target ∧
         (∀ k, (s.floor.cnc.talks.get p).target = some k →
           (p ∈ (s.floor.cnc.hoots.get k).queue → (s.floor.cnc.talks.get p).status = .queued) →
           (t.floor.cnc.talks.get p).status = .idle) ∧
         (PoolSound s.floor.cnc → ChannelsOwnMembers s.floor.cnc →
           (∀ h, h = handsetA p ∨ h = handsetB p → OwnActive s.floor.cnc h) → (∀ b, CallsAgree s.floor.cnc b) →
           SpeakersFollow s.floor t.floor ∧ ∀ l : LineNo,
             let had := handsetMembers s.floor.cnc (lineBridge l)
             let calls := had.filter (fun x => x.2.1 ≠ handsetA p && x.2.1 ≠ handsetB p)
             handsetMembers t.floor.cnc (lineBridge l) = calls ∧
             (calls = had → t.floor.lsv.get l = s.floor.lsv.get l) ∧
             (calls ≠ had → CutHolds t.floor l ∧
               ((s.floor.lsv.get l).state ∉ [LineState.idle, .alerting] ∨ had.length = calls.length + 1 →
                 LineFollows l calls s.floor t.floor))) ∧
         t.floor.lhp = s.floor.lhp ∧ t.floor.ltm = s.floor.ltm ∧ t.floor.cnc.appearances = s.floor.cnc.appearances ∧
         t.floor.cnc.settings = s.floor.cnc.settings ∧ t.floor.mxe.frame = s.floor.mxe.frame)) ∧
  (∀ (p : PositionNo) (s : State), .linkUp p ∈ s.due → (s.floor.plp.links.get p).up = false →
     16 ≤ (s.floor.plp.links.get p).good → ∃ t, exec (.linkUp p) s = .next t ∧ RaisedTaken (.linkUp p) s t ∧
       (let after : LinkRec := { s.floor.plp.links.get p with up := true, good := 0, missed := 0, filtering := false }
        t.floor = { s.floor with plp := { s.floor.plp with links := s.floor.plp.links.set p after } }) ∧
       (s.rc.runState = .running → Journalled s [.linkUp p] t ∧ .position p ∈ t.stw.queue) ∧
       (s.rc.runState ≠ .running → t.jnu = s.jnu ∧ t.stw = s.stw))

/-- A link frame of 200 bytes whose check agrees is kept for the next mark; any other is discarded. Log entries 3 and
23. -/
def Obligations.ValidLinkFramesAreKept : Prop :=
  ∀ (p : PositionNo) (frame : List Byte) (s : State), s.due = [] →
    (frame.length = 200 → fieldAt frame 0xC4 4 = (checkOf (frame.take 0xC4)).toNat →
      let content : LinkFrame :=
        { hookA := (fieldAt frame 0 1).testBit 0, hookB := (fieldAt frame 0 1).testBit 1
          ptt := (fieldAt frame 0 1).testBit 2, micA := blockAt frame 0x04, micB := blockAt frame 0x44
          desk := blockAt frame 0x84 }
      let after : LinkRec := { s.floor.plp.links.get p with arrived := some content }
      exec (.positionLinkFrameArrival p frame) s = .next { s with
        floor := { s.floor with plp := { s.floor.plp with links := s.floor.plp.links.set p after } } }) ∧
    (frame.length ≠ 200 ∨ fieldAt frame 0xC4 4 ≠ (checkOf (frame.take 0xC4)).toNat →
      exec (.positionLinkFrameArrival p frame) s = .next s)

/-- A filtered hook change: off takes an ON_HOOK handset to IDLE; on releases the active call and keeps the stack, and a line
that loses the member is re-evaluated, its state and its cut. Log entries 4 and 12. -/
def Obligations.HookChangesKeepTheHoldStack : Prop :=
  ∀ (h : HandsetNo) (s : State), .hook h ∈ s.due →
    let w := Work.of s.floor
    let r := s.floor.cnc.handsets.get h
    (hookAccepted w h = true → r.state = .onHook → ∃ t, exec (.filteredHookChange h) s = .next t ∧
      RaisedTaken (.hook h) s t ∧ Journalled s [.hook h true none] t ∧
      t.floor = { s.floor with cnc := { s.floor.cnc with handsets := s.floor.cnc.handsets.set h { r with state := .idle } } } ∧
      .handset h ∈ t.stw.queue) ∧
    (hookAccepted w h = false → r.state ≠ .onHook → ∃ t, exec (.filteredHookChange h) s = .next t ∧
      RaisedTaken (.hook h) s t ∧ (∃ notes, Journalled s (.hook h false (activeBridge s.floor.cnc h) :: notes) t) ∧
      t.floor.cnc.handsets.get h = { state := .onHook, active := none, stack := r.stack } ∧
      (∀ sl, r.active = some sl → t.floor.cnc.pool.get sl = none) ∧ OtherHandsets h s.floor t.floor ∧
      CallsOnly s.floor t.floor ∧
      (∀ l sl, activeBridge s.floor.cnc h = some (lineBridge l) → r.active = some sl →
        handsetSlot s.floor.cnc (lineBridge l) h = some sl →
        CallChanged l (withoutSlot sl (handsetMembers s.floor.cnc (lineBridge l))) s.floor t.floor) ∧
      ((∀ l, activeBridge s.floor.cnc h ≠ some (lineBridge l)) → t.floor.lsv = s.floor.lsv))

/-! ### The key and the grant passes -/

/-- A filtered press (R113's table): ignored without a target, granted, or queued; behind others it is queued and the
grant pass serves the head. Log entry 4. -/
def Obligations.APressIsIgnoredGrantedOrQueued : Prop :=
  ∀ (p : PositionNo) (s : State), .press p ∈ s.due → (s.floor.plp.links.get p).ptt.accepted = true →
    (s.floor.cnc.talks.get p).key = false →
    let x := s.floor.cnc.talks.get p
    ∃ t, exec (.filteredPttPress p) s = .next t ∧ RaisedTaken (.press p) s t ∧
      (t.floor.cnc.talks.get p).key = true ∧ (t.floor.cnc.talks.get p).target = x.target ∧
      (x.target = none → Journalled s [.pttIgnored p] t ∧
        t.floor = { s.floor with cnc := { s.floor.cnc with talks := s.floor.cnc.talks.set p { x with key := true } } }) ∧
      (∀ k sl, x.target = some k → (s.floor.cnc.hoots.get k).queue = [] → freeSlot s.floor.cnc = some sl →
        talkerCount s.floor.cnc k < (s.floor.cnc.hoots.get k).limit →
        (t.floor.cnc.talks.get p).status = .talking ∧ Journalled s [.pttGranted p k (talkerCount t.floor.cnc k)] t ∧
        t.floor.cnc.pool.get sl =
          some { kind := .mic p, bridge := hootBridge k, mode := .active, joinFrame := s.floor.mxe.frame } ∧
        (t.floor.cnc.bridges.get (hootBridge k)).members = (s.floor.cnc.bridges.get (hootBridge k)).members ++ [sl] ∧
        t.floor.cnc.hoots = s.floor.cnc.hoots) ∧
      (∀ k, x.target = some k → freeSlot s.floor.cnc = none ∨
          (s.floor.cnc.hoots.get k).limit ≤ talkerCount s.floor.cnc k →
        (t.floor.cnc.talks.get p).status = .queued ∧
        (let after : HootRec := { s.floor.cnc.hoots.get k with queue := (s.floor.cnc.hoots.get k).queue ++ [p] }
         t.floor.cnc.hoots = s.floor.cnc.hoots.set k after) ∧
        Journalled s [.pttQueued p k ((s.floor.cnc.hoots.get k).queue.length + 1)] t ∧
        t.floor.cnc.pool = s.floor.cnc.pool ∧ .hoot k ∈ t.stw.queue) ∧
      (∀ k head rest sl, x.target = some k → (s.floor.cnc.hoots.get k).queue = head :: rest →
        freeSlot s.floor.cnc = some sl → talkerCount s.floor.cnc k < (s.floor.cnc.hoots.get k).limit →
        (∃ n notes, Journalled s (.pttQueued p k (rest.length + 2) :: .pttGranted head k n :: notes) t ∧
          (sl ∉ (s.floor.cnc.bridges.get (hootBridge k)).members → n = talkerCount s.floor.cnc k + 1)) ∧
        (t.floor.cnc.talks.get head).status = .talking ∧
        t.floor.cnc.pool.get sl =
          some { kind := .mic head, bridge := hootBridge k, mode := .active, joinFrame := s.floor.mxe.frame } ∧
        (∃ m, let after : HootRec := { s.floor.cnc.hoots.get k with queue := (rest ++ [p]).drop m }
          t.floor.cnc.hoots = s.floor.cnc.hoots.set k after) ∧
        ((t.floor.cnc.hoots.get k).queue = [] ∨ canGrant (Work.of t.floor) k = false) ∧ .hoot k ∈ t.stw.queue) ∧
      (x.target.isSome = true → (t.floor.cnc.talks.get p).status ≠ .idle) ∧
      t.floor.lhp = s.floor.lhp ∧ t.floor.ltm = s.floor.ltm ∧ t.floor.lsv = s.floor.lsv ∧ t.floor.plp = s.floor.plp ∧
      t.floor.mxe = s.floor.mxe ∧ t.floor.cnc.handsets = s.floor.cnc.handsets ∧
      t.floor.cnc.ringLists = s.floor.cnc.ringLists

/-- A filtered release ends the talk, with its MIC member, or the wait, and keeps the target; from IDLE it only clears
the key. Log entry 4. -/
def Obligations.AReleaseEndsTheTalkOrTheWait : Prop :=
  ∀ (p : PositionNo) (s : State), .unpress p ∈ s.due → (s.floor.plp.links.get p).ptt.accepted = false →
    (s.floor.cnc.talks.get p).key = true →
    let x := s.floor.cnc.talks.get p
    ∃ t, exec (.filteredPttRelease p) s = .next t ∧ RaisedTaken (.unpress p) s t ∧
      (t.floor.cnc.talks.get p).key = false ∧ (t.floor.cnc.talks.get p).target = x.target ∧
      (x.status = .idle → t.jnu = s.jnu ∧
        t.floor = { s.floor with cnc := { s.floor.cnc with talks := s.floor.cnc.talks.set p { x with key := false } } }) ∧
      (∀ k, x.target = some k → x.status = .queued → Journalled s [.pttEnd p k .released .queued] t ∧
        (let after : HootRec := { s.floor.cnc.hoots.get k with
          queue := (s.floor.cnc.hoots.get k).queue.filter (fun q => q ≠ p) }
         t.floor = { s.floor with cnc := { s.floor.cnc with
          talks := s.floor.cnc.talks.set p { x with key := false, status := .idle }
          hoots := s.floor.cnc.hoots.set k after } })) ∧
      (∀ k, x.target = some k → x.status = .talking → p ∉ (s.floor.cnc.hoots.get k).queue →
        (∃ notes, Journalled s (.pttEnd p k .released .talking :: notes) t) ∧
        (t.floor.cnc.talks.get p).status = .idle ∧
        ((micMembers s.floor.cnc (hootBridge k)).countP (fun y => y.2 = p) ≤ 1 →
          ∀ y ∈ micMembers t.floor.cnc (hootBridge k), y.2 ≠ p) ∧
        (∀ y, (micMembers s.floor.cnc (hootBridge k)).find? (fun y => y.2 = p) = some y →
          (s.floor.cnc.hoots.get k).queue = [] → t.floor.cnc.pool.get y.1 = none) ∧
        ((t.floor.cnc.hoots.get k).queue = [] ∨ canGrant (Work.of t.floor) k = false)) ∧
      t.floor.lhp = s.floor.lhp ∧ t.floor.ltm = s.floor.ltm ∧ t.floor.plp = s.floor.plp ∧
      t.floor.cnc.handsets = s.floor.cnc.handsets ∧ t.floor.cnc.ringLists = s.floor.cnc.ringLists

/-- The passes after a frame event grant from the head of each queue until it is empty or no grant is possible. Log
entry 4. -/
def Obligations.GrantPassesServeTheQueuesInOrder : Prop :=
  ∀ s : State, .grantPass ∈ s.due → ∃ t, exec .frameGrantPass s = .next t ∧ RaisedTaken .grantPass s t ∧
    (∀ k, (t.floor.cnc.hoots.get k).queue = [] ∨ canGrant (Work.of t.floor) k = false) ∧
    (∀ k, ∃ n, t.floor.cnc.hoots.get k = { s.floor.cnc.hoots.get k with
        queue := (s.floor.cnc.hoots.get k).queue.drop n } ∧
      ∀ p ∈ (s.floor.cnc.hoots.get k).queue.take n, (t.floor.cnc.talks.get p).status = .talking) ∧
    t.floor.lhp = s.floor.lhp ∧ t.floor.ltm = s.floor.ltm ∧ t.floor.lsv = s.floor.lsv ∧ t.floor.plp = s.floor.plp ∧
    t.floor.mxe = s.floor.mxe ∧ t.floor.cnc.handsets = s.floor.cnc.handsets ∧
    t.floor.cnc.ringLists = s.floor.cnc.ringLists ∧ t.floor.cnc.channels = s.floor.cnc.channels

/-! ### Parcels and the signalling filter -/

/-- R22 at the arrival of a parcel for an enabled line that is not in TEST, with the offers of R23: a drop opens the
overflow episode, with RX_OVERFLOW where it was closed, and a parcel that is queued closes it. Log entry 3. -/
def Obligations.ArrivalsFollowTheSequenceCheck : Prop :=
  ∀ (parcel : List Byte) (x : Parcel) (s : State), s.due = [] → s.rc.runState = .running →
    parseParcel parcel = some x → (s.floor.lhp.cards.get (lineCard x.line)).present = true →
    (s.floor.lsv.get x.line).state ≠ .disabled → (s.floor.lsv.get x.line).state ≠ .test →
    (s.floor.ltm.get x.line).queue.length ≤ 16 →
    let q := s.floor.ltm.get x.line
    let a := x.sequence
    ∃ t, exec (.lineParcelArrival parcel) s = .next t ∧ BesideFloor s t ∧
      (∀ l, l ≠ x.line → t.floor.ltm.get l = s.floor.ltm.get l) ∧
      (∀ n : Nat, (n = 0 ∧ q.lastSeq = none) ∨
          (n ≤ 2 ∧ ∃ last, q.lastSeq = some last ∧ a = last + BitVec.ofNat 8 (n + 1)) →
        let full : Bool := 16 < q.queue.length + n + 1
        let overflow := if full then min 65535 (q.counters.overflow + (q.queue.length + n + 1 - 16))
          else q.counters.overflow
        t.floor.ltm.get x.line = { q with
          lastSeq := some a, episode := full, counters := { q.counters with overflow := overflow }
          queue := (q.queue ++ List.replicate n QEntry.placeholder ++ [QEntry.parcel x.samples x.err]).take 16 } ∧
        Journalled s (if full ∧ q.episode = false ∧ (s.floor.lsv.get x.line).state ≠ .fault then
          [.rxOverflow x.line (min 65535 (q.counters.overflow + 1))] else []) t) ∧
      (q.lastSeq = some a → t.jnu = s.jnu ∧ t.floor.ltm.get x.line = { q with
        counters := { q.counters with duplicate := min 65535 (q.counters.duplicate + 1) } }) ∧
      (∀ last, q.lastSeq = some last → a ≠ last → a ≠ last + 1#8 → a ≠ last + 2#8 → a ≠ last + 3#8 →
        t.floor.ltm.get x.line = { q with
          queue := [.parcel x.samples x.err], playing := false, lastSeq := some a, episode := false
          counters := { q.counters with resync := min 65535 (q.counters.resync + 1) } } ∧
        ((s.floor.lsv.get x.line).state ≠ .fault → Journalled s [.rxResync x.line (last + 1#8) a] t) ∧
        ((s.floor.lsv.get x.line).state = .fault → t.jnu = s.jnu))

/-- The fields of 68 bytes of the highway. The code of a parcel that the sequence check accepts goes to the filter; a
duplicate's does not; TEST discards and counts; a parcel for an ABSENT card or a DISABLED line, or outside RUNNING,
changes nothing. Bytes of another length are no parcel (DEDUCED, entry 23). Log entries 3 and 23. -/
def Obligations.AcceptedCodesReachTheFilter : Prop :=
  (∀ parcel : List Byte,
    (parcel.length ≠ 68 → parseParcel parcel = none) ∧
    (parcel.length = 68 → ∃ x, parseParcel parcel = some x ∧ x.line.val = fieldAt parcel 0 1 ∧
      x.sequence.toNat = fieldAt parcel 1 1 ∧
      x.code = (match fieldAt parcel 2 1 % 4 with
        | 0 => .quiet
        | 1 => .seize
        | 2 => .ring
        | _ => .fault) ∧
      x.err = (fieldAt parcel 2 1).testBit 7 ∧ ∀ i, (x.samples.get i).toNat = fieldAt parcel (4 + 2 * i.val) 2)) ∧
  ∀ (parcel : List Byte) (x : Parcel) (s : State), s.due = [] → parseParcel parcel = some x →
    let r := s.floor.lsv.get x.line
    let q := s.floor.ltm.get x.line
    let run := if r.candidate = some x.code then min 15 (r.run + 1) else 1
    (s.rc.runState = .running → (s.floor.lhp.cards.get (lineCard x.line)).present = true → r.state ≠ .disabled →
      ∃ t, exec (.lineParcelArrival parcel) s = .next t ∧ BesideFloor s t ∧ t.floor.cnc = s.floor.cnc ∧
        t.floor.mxe = s.floor.mxe ∧ t.floor.plp = s.floor.plp ∧ t.floor.lhp = s.floor.lhp ∧
        (∀ l, l ≠ x.line → t.floor.lsv.get l = s.floor.lsv.get l) ∧
        (r.state = .test → t.floor.lsv.get x.line = { r with dead := 0 } ∧ t.floor.ltm.get x.line = { q with
          counters := { q.counters with discard := min 65535 (q.counters.discard + 1) } }) ∧
        (r.state ≠ .test → q.lastSeq = some x.sequence → t.floor.lsv.get x.line = { r with dead := 0 }) ∧
        (r.state ≠ .test → q.lastSeq ≠ some x.sequence → x.code = r.accepted → t.due = [] ∧
          t.floor.lsv.get x.line = { r with dead := 0, candidate := none, run := 0 }) ∧
        (r.state ≠ .test → q.lastSeq ≠ some x.sequence → x.code ≠ r.accepted →
          t.floor.lsv.get x.line = { r with dead := 0, candidate := some x.code, run := run } ∧
          t.due = if r.cfg.persistence ≤ run then [.accepted x.line] else [])) ∧
    (s.rc.runState ≠ .running ∨ (s.floor.lhp.cards.get (lineCard x.line)).present = false ∨ r.state = .disabled →
      exec (.lineParcelArrival parcel) s = .next s)

/-! ### Line events -/

/-- Accepted changes by kind and state: a seizure or a knock alerts the ringing appearances, with ALERT_DROPPED at a
full list; an abandoned call is missed, with its ALERT_END; a far-end clear drops the HELD members, with the cut of the line,
and leaves CLEARING or IDLE; a seizure connects; a knock on a held line recalls its calls; FAULT is left with the queue
re-primed; a code with no effect, and every code in LEG, is only kept. Log entries 4, 12 and 20. -/
def Obligations.AcceptedCodesMoveTheLine : Prop :=
  ∀ (l : LineNo) (code : Code) (s : State), .accepted l ∈ s.due →
    let r := s.floor.lsv.get l
    let b := lineBridge l
    let eff := effective .signalled
    let alert : Alert := { bridge := b, reason := lineReason r.cfg.kind, cadence := r.cfg.cadence
                           arrival := s.floor.mxe.frame }
    let rings (t : State) : Prop := ∀ p, t.floor.cnc.ringLists.get p =
      if p ∈ ringPositions s.floor.cnc l then withAlert (s.floor.cnc.ringLists.get p) alert
      else s.floor.cnc.ringLists.get p
    let noAlert (t : State) : Prop :=
      ∀ p, ∀ a ∈ t.floor.cnc.ringLists.get p, a.bridge = b → coversLine a.reason = false
    let dropped := alertDroppedNotes s.floor.cnc b (lineReason r.cfg.kind) (ringPositions s.floor.cnc l)
    let n := handsetCounts s.floor.cnc b
    let modes : LineState := if 0 < n.1 then .connected else if 0 < n.2 then .held else .idle
    let kept : LineRec := { r with accepted := code, candidate := none, run := 0 }
    let takes (t : State) : Prop := exec (.acceptedChange l) s = .next t ∧ RaisedTaken (.accepted l) s t
    let becomes (x : LineRec) : Prop :=
      ∃ t, takes t ∧ t.jnu = s.jnu ∧ t.floor = { s.floor with lsv := s.floor.lsv.set l x }
    r.candidate = some code → r.cfg.persistence ≤ r.run →
    (r.state = .leg → becomes kept) ∧
    (code ≠ .fault →
    (∀ knock : Option Nat, r.state = .idle →
      (r.cfg.kind = .signalled ∧ knock = none ∧ eff r.accepted ≠ .seize ∧ eff code = .seize) ∨
        (r.cfg.kind = .knock ∧ knock = some (r.cfg.knockTime * 500) ∧ r.accepted = .ring) →
      ∃ t, takes t ∧ t.floor.ltm = s.floor.ltm ∧
        t.floor.lsv = s.floor.lsv.set l { kept with
          state := .alerting, knock := knock, alertingSince := some s.floor.mxe.frame } ∧
        .line l ∈ t.stw.queue ∧ t.floor.cnc = { s.floor.cnc with ringLists := t.floor.cnc.ringLists } ∧ rings t ∧
        Journalled s dropped t) ∧
    (r.state = .alerting → r.cfg.kind = .signalled → eff r.accepted ≠ .quiet → eff code = .quiet →
      ∃ t, takes t ∧ t.floor.lsv = s.floor.lsv.set l { kept with state := .idle, knock := none } ∧
        (let ended := alertEndNotes s.floor.cnc b coversLine allPositions .abandoned
         Journalled s (.missed l .abandoned r.alertingSince :: ended) t) ∧ noAlert t) ∧
    (r.state = .connected ∨ r.state = .held → r.cfg.kind = .signalled → eff r.accepted ≠ .quiet → eff code = .quiet →
      ∃ t notes, takes t ∧ Journalled s notes t ∧ (t.floor.lsv.get l).accepted = code ∧
        (t.floor.lsv.get l).state = (if 0 < (handsetCounts t.floor.cnc b).1 then .clearing else .idle) ∧
        (CallsAgree s.floor.cnc b → (holdDroppedNotes s.floor.cnc b .cleared).Sublist notes ∧
          (t.floor.lsv.get l).state = (if 0 < n.1 then .clearing else .idle) ∧
          ∀ h, let x := s.floor.cnc.handsets.get h
            (∀ sl, callOn s.floor.cnc b h = some (sl, .held) → t.floor.cnc.pool.get sl = none ∧
              t.floor.cnc.handsets.get h = { x with stack := x.stack.filter (fun e => e.bridge ≠ b) }) ∧
            ((∀ sl, callOn s.floor.cnc b h ≠ some (sl, .held)) → t.floor.cnc.handsets.get h = x ∧
              callOn t.floor.cnc b h = callOn s.floor.cnc b h)) ∧
        (CallsAgree s.floor.cnc b → PoolSound s.floor.cnc → ChannelsOwnMembers s.floor.cnc →
          SpeakersFollow s.floor t.floor ∧ (0 < n.2 ∨ CutHolds s.floor l → CutHolds t.floor l) ∧
          ∀ k, k ≠ l → t.floor.lsv.get k = s.floor.lsv.get k)) ∧
    (r.state = .outgoing ∨ r.state = .clearing → r.cfg.kind = .signalled → eff r.accepted ≠ .seize → eff code = .seize →
      becomes { kept with state := modes }) ∧
    (r.state = .alerting → r.cfg.kind = .knock → r.accepted = .ring →
      becomes { kept with knock := some (r.cfg.knockTime * 500) }) ∧
    (r.state = .connected → r.cfg.kind = .knock → r.accepted = .ring →
      ∃ t, takes t ∧ Journalled s [.knock l .connected] t ∧
        t.floor = { s.floor with lsv := s.floor.lsv.set l kept }) ∧
    (r.state = .held → r.cfg.kind = .knock → r.accepted = .ring →
      let heldAt (h : HandsetNo) : Option HoldEntry :=
        (s.floor.cnc.handsets.get h).stack.find? (fun e => e.bridge = b && !e.recalled)
      let again : Alert := { alert with reason := .recall }
      ∃ t notes, takes t ∧ Journalled s (.knock l .held :: notes) t ∧
        (∀ h e, heldAt h = some e → .holdRecall h b .knock e.holdFrame ∈ notes ∧
          ∀ n ∈ alertDroppedNotes s.floor.cnc b .recall [handsetPosition h], n ∈ notes) ∧
        (∀ h, let x := s.floor.cnc.handsets.get h
          t.floor.cnc.handsets.get h = { x with
            stack := x.stack.map (fun e => if e.bridge = b then { e with recalled := true } else e) }) ∧
        (∀ p, t.floor.cnc.ringLists.get p =
          if heldAt (handsetA p) ≠ none ∨ heldAt (handsetB p) ≠ none then
            withAlert (s.floor.cnc.ringLists.get p) again
          else s.floor.cnc.ringLists.get p) ∧
        t.floor = { s.floor with
          lsv := s.floor.lsv.set l kept
          cnc := { s.floor.cnc with handsets := t.floor.cnc.handsets, ringLists := t.floor.cnc.ringLists }
          mxe := { s.floor.mxe with ringers := t.floor.mxe.ringers } }) ∧
    (r.state = .fault →
      let q := s.floor.ltm.get l
      let left : LineRec := { kept with state := .idle, cause := .none, dead := 0 }
      ∃ t, takes t ∧ .line l ∈ t.stw.queue ∧
        (let primed : TermRec := { q with
          queue := [], playing := false, first := true, lastSeq := none, episode := false, lastBlock := silence
          lastOrigin := .silent }
         t.floor.ltm = s.floor.ltm.set l primed) ∧
        (r.cfg.kind = .signalled → eff code = .seize →
          t.floor.lsv = s.floor.lsv.set l { left with
            state := .alerting, knock := none, alertingSince := some s.floor.mxe.frame } ∧ rings t ∧
          Journalled s dropped t) ∧
        (r.cfg.kind ≠ .signalled ∨ eff code = .quiet → t.jnu = s.jnu ∧
          t.floor = { s.floor with ltm := t.floor.ltm, lsv := s.floor.lsv.set l left })) ∧
    (let acts : Prop := r.state ∉ [LineState.disabled, .test, .fault, .leg]
     acts → r.cfg.kind = .opened ∨ (r.cfg.kind = .knock ∧ r.accepted ≠ .ring) ∨
       (r.cfg.kind = .signalled ∧ (eff r.accepted = eff code ∨
         (eff code = .seize ∧ r.state ∈ [LineState.alerting, .connected, .held]) ∨
         (eff code = .quiet ∧ r.state ∈ [LineState.idle, .outgoing, .clearing]))) → becomes kept))

/-- FAULT by the far end's code or by the dead time: the record of R48, LINE_FAULT first, then RING_OUT_DONE of a
running ring-out, the ALERT_END of an alerting line, ANNOUNCE_END of each announcement of the line, and HOLD_DROPPED
of each held call; no alert, announcement or handset member of the line is left, and its cut is undone. Log entries 4
and 29. -/
def Obligations.LinesEnterFault : Prop :=
  ∀ (l : LineNo) (s : State) (c : Instr) (e : Raised) (cause : FaultCause),
    let r := s.floor.lsv.get l
    let b := lineBridge l
    let ringOut : List NoteBody :=
      (r.ringOut.map (fun x => NoteBody.ringOutDone l .aborted (x.repeats - x.cyclesLeft))).toList
    e ∈ s.due → r.state ∈ [LineState.idle, .alerting, .outgoing, .connected, .held, .clearing] →
    (c = .acceptedChange l ∧ e = .accepted l ∧ cause = .farEnd ∧ r.candidate = some .fault ∧
        r.cfg.persistence ≤ r.run) ∨
      (c = .lineDeadExpiry l ∧ e = .lineDead l ∧ cause = .dead ∧ r.cfg.deadTime ≤ r.dead) →
    ∃ t, exec c s = .next t ∧ RaisedTaken e s t ∧
      t.floor.lsv.get l = { r with
        state := .fault, cause := cause, accepted := .fault, candidate := none, run := 0, dead := 0, knock := none
        alertingSince := none, ringOut := none } ∧
      (let alerts := if r.state = .alerting then alertEndNotes s.floor.cnc b coversLine allPositions .fault else []
       let sources := announceEndNotes s.floor.cnc b
       ∃ notes, Journalled s (.lineFault l cause r.state :: (ringOut ++ alerts ++ sources ++ notes)) t ∧
         (CallsAgree s.floor.cnc b → ChannelsHoldSpeakers s.floor.cnc →
           (holdDroppedNotes s.floor.cnc b .fault).Sublist notes)) ∧ .line l ∈ t.stw.queue ∧
      (CallsAgree s.floor.cnc b → ChannelsHoldSpeakers s.floor.cnc → handsetMembers t.floor.cnc b = [] ∧
        (∀ p d, (t.floor.cnc.channels.get p).get d = ((s.floor.cnc.channels.get p).get d).withoutSource b) ∧
        ∀ h, let x := s.floor.cnc.handsets.get h
          t.floor.cnc.handsets.get h = match callOn s.floor.cnc b h with
            | none => x
            | some (_, .held) => { x with stack := x.stack.filter (fun e => e.bridge ≠ b) }
            | some _ => { x with state := .idle, active := none }) ∧
      (CallsAgree s.floor.cnc b → PoolSound s.floor.cnc → ChannelsOwnMembers s.floor.cnc →
        SpeakersFollow s.floor t.floor ∧ (handsetMembers s.floor.cnc b ≠ [] ∨ CutHolds s.floor l → CutHolds t.floor l) ∧
        ∀ k, k ≠ l → t.floor.lsv.get k = s.floor.lsv.get k) ∧
      (r.state = .alerting →
        ∀ p, ∀ a ∈ t.floor.cnc.ringLists.get p, a.bridge = b → coversLine a.reason = false) ∧
      t.floor.lhp = s.floor.lhp ∧ t.floor.ltm = s.floor.ltm ∧ t.floor.plp = s.floor.plp ∧
      t.floor.cnc.appearances = s.floor.cnc.appearances ∧ t.floor.cnc.settings = s.floor.cnc.settings ∧
      t.floor.cnc.hoots = s.floor.cnc.hoots ∧ t.floor.cnc.talks = s.floor.cnc.talks

/-- The knock timer at 0 misses the call; a recall expiry marks the held entry, journals it and alerts the position; a
group's alert timer at 0 journals NO_ANSWER and ends the call's alerts. The knock expiry keeps alerting since (DEDUCED, entry
20). Log entries 4, 12 and 20. -/
def Obligations.TimersAtTheirEnds : Prop :=
  (∀ (l : LineNo) (s : State), .knockExpiry l ∈ s.due →
     let r := s.floor.lsv.get l
     r.state = .alerting → r.knock = some 0 →
     ∃ t, exec (.knockTimerExpiry l) s = .next t ∧ RaisedTaken (.knockExpiry l) s t ∧
       t.floor.lsv = s.floor.lsv.set l { r with state := .idle, knock := none } ∧
       (let ended := alertEndNotes s.floor.cnc (lineBridge l) coversLine allPositions .timeout
        Journalled s (.missed l .timeout r.alertingSince :: ended) t) ∧
       (∀ p, ∀ a ∈ t.floor.cnc.ringLists.get p, a.bridge = lineBridge l → coversLine a.reason = false) ∧
       t.floor.cnc = { s.floor.cnc with ringLists := t.floor.cnc.ringLists } ∧ t.floor.ltm = s.floor.ltm ∧
       t.floor.lhp = s.floor.lhp ∧ t.floor.plp = s.floor.plp) ∧
  (∀ s : State,
     (∀ (h : HandsetNo) (b : BridgeNo) (e : HoldEntry), .recall h b ∈ s.due →
       let r := s.floor.cnc.handsets.get h
       let p := handsetPosition h
       let time := (s.floor.cnc.settings.get p).recallTime
       r.stack.find? (fun x => x.bridge = b && !x.recalled) = some e → time ≠ 0 →
       time * 500 ≤ (s.floor.mxe.frame - e.holdFrame).toNat →
       ∃ t, exec (.recallExpiry h b) s = .next t ∧ RaisedTaken (.recall h b) s t ∧
         t.floor.cnc.handsets.get h = { r with
           stack := r.stack.map (fun x => if x.bridge = b then { x with recalled := true } else x) } ∧
         Journalled s (.holdRecall h b .timer e.holdFrame :: alertDroppedNotes s.floor.cnc b .recall [p]) t ∧
         t.floor.cnc.ringLists.get p = withAlert (s.floor.cnc.ringLists.get p)
           { bridge := b, reason := .recall, cadence := bridgeCadence s.floor b, arrival := s.floor.mxe.frame } ∧
         (∀ q, q ≠ p → t.floor.cnc.ringLists.get q = s.floor.cnc.ringLists.get q) ∧
         OtherHandsets h s.floor t.floor ∧ CallsOnly s.floor t.floor ∧ t.floor.lsv = s.floor.lsv ∧
         t.floor.cnc.pool = s.floor.cnc.pool) ∧
     (∀ g, .groupAlert g ∈ s.due →
       let r := s.floor.cnc.groups.get g
       r.timer = some 0 →
       ∃ t, exec (.groupAlertTimerExpiry g) s = .next t ∧ RaisedTaken (.groupAlert g) s t ∧
         (let ended := alertEndNotes s.floor.cnc (groupBridge g) coversIntercom (maskPositions r.alerted) .timeout
          Journalled s (.noAnswer g r.alerted :: ended) t) ∧
         t.floor.cnc.groups = s.floor.cnc.groups.set g { r with timer := none, alerted := 0 } ∧
         (∀ p, inMask r.alerted p = true → ∀ a ∈ t.floor.cnc.ringLists.get p, a.bridge = groupBridge g →
           a.reason ≠ .intercom) ∧
         (∀ p, inMask r.alerted p = false → t.floor.cnc.ringLists.get p = s.floor.cnc.ringLists.get p) ∧
         CallsOnly s.floor t.floor ∧ t.floor.lsv = s.floor.lsv ∧ t.floor.cnc.handsets = s.floor.cnc.handsets ∧
         t.floor.cnc.pool = s.floor.cnc.pool))

/-- What a ring-out or a ringer passes over (phases of 0 frames) and where it comes to stand: ON to OFF, OFF to the
next ON, a continuous cadence back to its first segment, and the end after the last cycle; and the rows of a phase
that has run out. Log entries 4 and 18. -/
def Obligations.PhasesFollowTheCadence : Prop :=
  (∀ x : RingOut,
     (x.on = true → x.advance = { x with on := false, framesLeft := (segmentAt x.segments x.segment).2 }) ∧
     (x.on = false → x.segment + 1 < x.segments.length → x.advance = { x with
       segment := x.segment + 1, on := true, framesLeft := (segmentAt x.segments (x.segment + 1)).1 }) ∧
     (x.on = false → x.segments.length ≤ x.segment + 1 → x.advance = { x with
       segment := 0, on := true, framesLeft := (segmentAt x.segments 0).1, cyclesLeft := x.cyclesLeft - 1 }) ∧
     ((∀ y ∈ x.segments, y = (0, 0)) → x.settle = { x with cyclesLeft := 0 }) ∧
     (∀ k ≤ 9, (∃ y ∈ x.segments, y ≠ (0, 0)) →
       (∀ j < k, (RingOut.advance^[j] x).framesLeft = 0 ∧ 0 < (RingOut.advance^[j] x).cyclesLeft) →
       0 < (RingOut.advance^[k] x).framesLeft ∨ (RingOut.advance^[k] x).cyclesLeft = 0 →
       x.settle = RingOut.advance^[k] x)) ∧
  (∀ (l : LineNo) (x : RingOut) (s : State), .ringoutPhase l ∈ s.due → (s.floor.lsv.get l).ringOut = some x →
     let r := s.floor.lsv.get l
     let stands (y : Option RingOut) (notes : List NoteBody) : Prop := ∃ t,
       exec (.ringoutPhaseExpiry l) s = .next t ∧ RaisedTaken (.ringoutPhase l) s t ∧ Journalled s notes t ∧
       t.floor = { s.floor with lsv := s.floor.lsv.set l { r with ringOut := y } } ∧ (y = none → .line l ∈ t.stw.queue)
     (0 < x.framesLeft → stands (some x) []) ∧
     (x.framesLeft = 0 → 0 < x.settle.cyclesLeft → stands (some x.settle) []) ∧
     (x.framesLeft = 0 → x.settle.cyclesLeft = 0 → stands none [.ringOutDone l .complete x.repeats])) ∧
  (∀ (d : Cadence) (r : Ringer),
     (r.on = true → r.advance d = { r with on := false, framesLeft := (segmentAt d.segments r.segment).2 }) ∧
     (r.on = false → r.segment + 1 < d.segments.length → r.advance d = { r with
       segment := r.segment + 1, on := true, framesLeft := (segmentAt d.segments (r.segment + 1)).1, tone := 0 }) ∧
     (r.on = false → d.segments.length ≤ r.segment + 1 → d.repeats = 0 → r.advance d = { r with
       segment := 0, on := true, framesLeft := (segmentAt d.segments 0).1, tone := 0 }) ∧
     (r.on = false → d.segments.length ≤ r.segment + 1 → r.cyclesDone + 1 < d.repeats → r.advance d = { r with
       segment := 0, on := true, framesLeft := (segmentAt d.segments 0).1, tone := 0, cyclesDone := r.cyclesDone + 1 }) ∧
     (r.on = false → d.segments.length ≤ r.segment + 1 → d.repeats ≠ 0 → d.repeats ≤ r.cyclesDone + 1 →
       r.advance d = { r with state := .done, cyclesDone := d.repeats }) ∧
     (r.state = .ringing → (∀ y ∈ d.segments, y = (0, 0)) → r.settle d =
       if d.repeats = 0 then r
       else if d.segments.length ≤ r.segment + 1 ∧ d.repeats ≤ r.cyclesDone + 1 then
         { r with state := .done, on := false, framesLeft := 0, cyclesDone := d.repeats }
       else
         { r with
           state := .done, segment := d.segments.length - 1, on := false, framesLeft := 0, cyclesDone := d.repeats
           tone := 0 }) ∧
     (∀ k ≤ 9, r.state = .ringing → (∃ y ∈ d.segments, y ≠ (0, 0)) →
       (∀ j < k, ((Ringer.advance d)^[j] r).state = .ringing ∧ ((Ringer.advance d)^[j] r).framesLeft = 0) →
       ((Ringer.advance d)^[k] r).state ≠ .ringing ∨ 0 < ((Ringer.advance d)^[k] r).framesLeft →
       r.settle d = (Ringer.advance d)^[k] r)) ∧
  (∀ (p : PositionNo) (s : State), .ringerPhase p ∈ s.due →
     let r := s.floor.mxe.ringers.get p
     let d := s.floor.cnc.cadences.get r.cadence
     let phase := if r.on then (segmentAt d.segments r.segment).1 else (segmentAt d.segments r.segment).2
     let stands (y : Ringer) : Prop := ∃ t, exec (.ringerPhaseExpiry p) s = .next t ∧ RaisedTaken (.ringerPhase p) s t ∧
       t.jnu = s.jnu ∧ t.floor = { s.floor with mxe := { s.floor.mxe with ringers := s.floor.mxe.ringers.set p y } } ∧
       (y.state ≠ r.state → .position p ∈ t.stw.queue)
     (r.state = .ringing → r.framesLeft = 0 → 0 < phase → stands (r.settle d)) ∧
     (r.state ≠ .ringing ∨ 0 < r.framesLeft ∨ phase = 0 → stands r))

/-- The 500th clean frame ends a clip episode without a note; the end of an activity window judges the channel and
starts the next. Log entry 4. -/
def Obligations.ClipAndActivityEndings : Prop :=
  ∀ s : State,
    (∀ o, .clipEnd o ∈ s.due → (s.floor.mxe.clip o).clipping = true → 500 ≤ (s.floor.mxe.clip o).cleanRun →
      ∃ t, exec (.clipEpisodeEnd o) s = .next t ∧ RaisedTaken (.clipEnd o) s t ∧ t.jnu = s.jnu ∧
        (t.floor.mxe.clip o).clipping = false ∧ (t.floor.mxe.clip o).count = (s.floor.mxe.clip o).count ∧
        (∀ q, q ≠ o → t.floor.mxe.clip q = s.floor.mxe.clip q) ∧
        (∀ e ∈ outputEntries o, e ∈ t.stw.queue) ∧ t.floor = { s.floor with mxe := t.floor.mxe } ∧
        t.floor.mxe.ringers = s.floor.mxe.ringers ∧ t.floor.mxe.channelGains = s.floor.mxe.channelGains) ∧
    (∀ p c, .activityEnd p c ∈ s.due →
      let r := (s.floor.mxe.activity.get p).get c
      let active : Bool := s.floor.mxe.mix.count ≤ r.count
      s.floor.mxe.mix.window ≤ r.window →
      ∃ t, exec (.activityWindowEnd p c) s = .next t ∧ RaisedTaken (.activityEnd p c) s t ∧
        (let after : ActivityRec := { active := active, window := 0, count := 0 }
         t.floor = { s.floor with mxe := { s.floor.mxe with
           activity := s.floor.mxe.activity.set p ((s.floor.mxe.activity.get p).set c after) } }) ∧
        (active = r.active → t.jnu = s.jnu ∧ t.stw = s.stw) ∧
        (active ≠ r.active → Journalled s [.activity p c active] t ∧ .position p ∈ t.stw.queue))

/-! ### The frame event and the audio path -/

/-- A frame event: outside RUNNING nothing; in RUNNING, line by line and position by position, the counter, the ramps,
the filters, the takes, the countdowns, the clip and activity counts, the frames sent and the tap frames, with the
notes these raise and the events that fall due; the calls stand. Log entries 3, 8, 18, 31 and 32. -/
def Obligations.FrameEventsAdvanceThePart : Prop :=
  ∀ s : State, s.due = [] →
    (s.rc.runState ≠ .running → exec .frameEvent s = .next s) ∧
    (s.rc.runState = .running →
      let f := s.floor
      let m := f.mxe
      let delivered := deliveries (takes f)
      let step := m.mix.rampStep
      let filter (x : Filter) (reported : Bool) : Filter :=
        if reported = x.accepted then { x with run := 0 }
        else if 4 ≤ x.run + 1 then { accepted := reported, run := 0 } else { x with run := x.run + 1 }
      let runs (l : LineNo) : Option RingOut := (f.lsv.get l).ringOut.bind (fun x =>
        if x.framesLeft ≠ 0 then some x else if x.settle.cyclesLeft = 0 then none else some x.settle)
      let sends (l : LineNo) : Bool := (f.lhp.cards.get (lineCard l)).present &&
        (f.lsv.get l).state ≠ .disabled && (f.lsv.get l).state ≠ .test
      let code (l : LineNo) : Code :=
        let r := f.lsv.get l
        if r.cfg.kind = .knock ∧ (runs l).any (fun x => x.on && 0 < x.framesLeft) = true then .ring
        else if r.cfg.kind ≠ .opened ∧ r.state ∈ [LineState.outgoing, .connected, .held] then .seize else .quiet
      ∃ t, exec .frameEvent s = .next t ∧ t.rc = s.rc ∧ t.oru = s.oru ∧ t.mpt = s.mpt ∧ t.pending = s.pending ∧
        let g := t.floor
        let out := outputs { f with mxe := g.mxe } delivered (Table.ofFn (positionRinger f))
        (g.mxe.frame = m.frame + 1#32 ∧ g.mxe.mix = m.mix ∧
         (∀ l, let cfg := (f.lsv.get l).cfg
           g.mxe.lineGains.get l = { rx := ramp step (m.lineGains.get l).rx cfg.rxGain
                                     tx := ramp step (m.lineGains.get l).tx cfg.txGain }) ∧
         (∀ p, let x := m.positionGains.get p
           let y := f.cnc.settings.get p
           g.mxe.positionGains.get p =
             { micA := ramp step x.micA y.micGainA, micB := ramp step x.micB y.micGainB, desk := ramp step x.desk y.deskGain
               volA := ramp step x.volA y.volumeA, volB := ramp step x.volB y.volumeB
               left := ramp step x.left y.sideLeft, right := ramp step x.right y.sideRight }) ∧
         (∀ p c, (g.mxe.channelGains.get p).get c =
           rampChannel f.cnc step ((m.channelGains.get p).get c) ((f.cnc.channels.get p).get c))) ∧
        (∀ p, let x := f.plp.links.get p
          let y := g.plp.links.get p
          (∀ frame, x.judged = some frame → x.up = true → x.filtering = true → y = { x with
            hookA := filter x.hookA frame.hookA, hookB := filter x.hookB frame.hookB, ptt := filter x.ptt frame.ptt
            judged := none }) ∧
          (x.judged = none ∨ x.up = false ∨ x.filtering = false → y = { x with judged := none }) ∧
          (.hook (handsetA p) ∈ t.due ↔ y.hookA.accepted ≠ x.hookA.accepted) ∧
          (.hook (handsetB p) ∈ t.due ↔ y.hookB.accepted ≠ x.hookB.accepted) ∧
          (.press p ∈ t.due ↔ y.ptt.accepted = true ∧ x.ptt.accepted = false) ∧
          (.unpress p ∈ t.due ↔ y.ptt.accepted = false ∧ x.ptt.accepted = true)) ∧
        (∀ l, let state := (f.lsv.get l).state
          let q := ((f.ltm.get l).take (f.lsv.get l).cfg.prime).1
          (state ≠ .test → state ≠ .disabled → g.ltm.get l = q) ∧
          (state = .disabled → g.ltm.get l = f.ltm.get l) ∧
          (state = .test → q.queue.length < 16 → g.ltm.get l = { q with
            queue := q.queue ++ [.parcel (out.transmits.get l).block false], episode := false }) ∧
          (state = .test → 16 ≤ q.queue.length → g.ltm.get l = { q with
            counters := { q.counters with overflow := min 65535 (q.counters.overflow + 1) } })) ∧
        (∀ l, let r := f.lsv.get l
          let after : LineRec := { r with
            dead := if r.state ∈ [LineState.disabled, .fault, .test, .leg] then r.dead else min 1000 (r.dead + 1)
            knock := if r.state = .alerting then r.knock.map (fun n => n - 1) else r.knock
            ringOut := (runs l).map (fun x => { x with framesLeft := x.framesLeft - 1 }) }
          g.lsv.get l = after ∧
          (.lineDead l ∈ t.due ↔ r.state ∉ [LineState.disabled, .fault, .test, .leg] ∧ r.cfg.deadTime ≤ after.dead) ∧
          (.knockExpiry l ∈ t.due ↔ r.state = .alerting ∧ after.knock = some 0) ∧
          (.ringoutPhase l ∈ t.due ↔ after.ringOut.map RingOut.framesLeft = some 0)) ∧
        (g.cnc = { f.cnc with groups := g.cnc.groups } ∧
         ∀ k, let r := f.cnc.groups.get k
           g.cnc.groups.get k = { r with timer := r.timer.map (fun n => n - 1) } ∧
           (.groupAlert k ∈ t.due ↔ (g.cnc.groups.get k).timer = some 0)) ∧
        (∀ h b, .recall h b ∈ t.due ↔
          let time := (f.cnc.settings.get (handsetPosition h)).recallTime
          time ≠ 0 ∧ ∃ e ∈ (f.cnc.handsets.get h).stack, e.bridge = b ∧ e.recalled = false ∧
            time * 500 ≤ (g.mxe.frame - e.holdFrame).toNat) ∧
        (∀ p, let r := m.ringers.get p
          let d := f.cnc.cadences.get r.cadence
          let q := (f.cnc.settings.get p).halfPeriod
          g.mxe.ringers.get p = (positionRinger f p).ringer ∧
          (r.state ≠ .ringing → g.mxe.ringers.get p = r) ∧
          (r.state = .ringing → 0 < r.framesLeft → ¬ (∀ y ∈ d.segments, y = (0, 0)) → r.tone < 2 * q →
            let after : Ringer := { r with
              framesLeft := r.framesLeft - 1, tone := if r.on then (r.tone + 32) % (2 * q) else r.tone }
            g.mxe.ringers.get p = after ∧ (.ringerPhase p ∈ t.due ↔ after.framesLeft = 0)) ∧
          (r.state = .ringing → r.framesLeft = 0 →
            (positionRinger f p).ringer.framesLeft = (r.settle d).framesLeft - 1 ∧
            (positionRinger f p).ringer.state = (r.settle d).state ∧
            (.ringerPhase p ∈ t.due ↔ (r.settle d).state = .ringing ∧ (r.settle d).framesLeft = 1))) ∧
        (∀ o, let r := m.clip o
          let n := (out.of o).saturated
          g.mxe.clip o = { clipping := r.clipping || decide (0 < n)
                           cleanRun := if 0 < n then 0 else if r.clipping then min 500 (r.cleanRun + 1) else r.cleanRun
                           count := min 4294967295 (r.count + n) } ∧
          (.clipEnd o ∈ t.due ↔ (g.mxe.clip o).clipping = true ∧ 500 ≤ (g.mxe.clip o).cleanRun) ∧
          (r.clipping = false → 0 < n → ∀ e ∈ outputEntries o, e ∈ t.stw.queue)) ∧
        (∀ p c, let r := (m.activity.get p).get c
          let n := ((out.channels.get p).get c).block.cells.countP (fun x => m.mix.threshold ≤ x.toInt.natAbs)
          let after : ActivityRec := { r with window := r.window + 1, count := r.count + n }
          (g.mxe.activity.get p).get c = after ∧ (.activityEnd p c ∈ t.due ↔ m.mix.window ≤ after.window)) ∧
        (g.lhp.cards = f.lhp.cards ∧
         (∀ l, g.lhp.txSeq.get l = if sends l then f.lhp.txSeq.get l + 1#8 else f.lhp.txSeq.get l) ∧
         g.lhp.sent = ((List.finRange 256).filter sends).map (fun l =>
           [BitVec.ofNat 8 l.val, f.lhp.txSeq.get l, BitVec.ofNat 8 (Code.code (code l)), 0#8] ++
             blockBytes (out.transmits.get l).block) ∧
         g.plp.owed = false ∧ ∀ p, g.plp.sent.get p =
           if (f.plp.links.get p).up then linkFrameBytes true (out.ears.get (handsetA p)).block
             (out.ears.get (handsetB p)).block (out.left.get p).block (out.right.get p).block
           else linkFrameBytes false silence silence silence silence) ∧
        (let audio : Audio := { delivered := delivered, ears := out.ears, mics := Table.ofFn (micBlock f) }
         let underflow : LineNo → Option NoteBody := fun l =>
           let r := f.lsv.get l
           if r.state ∉ [LineState.disabled, .fault, .test] ∧ ((f.ltm.get l).take r.cfg.prime).2 = true then
             some (.rxUnderflow l (g.ltm.get l).counters.underflow) else none
         let clip : Output → Option NoteBody := fun o =>
           if (m.clip o).clipping = false ∧ 0 < (out.of o).saturated then some (.clip o (g.mxe.clip o).count) else none
         let ended : LineNo → Option NoteBody := fun l =>
           if runs l = none then (f.lsv.get l).ringOut.map (fun x => .ringOutDone l .complete x.repeats) else none
         let mark : TapNo → Option NoteBody := fun n =>
           let r := s.tpe.taps.get n
           let b := activeBridge f.cnc n
           if produces f n r = true ∧ b ≠ r.lastBridge then some (.tapMark n r.number b r.lastBridge) else none
         t.tpe = (produceTaps audio { s with floor := g }).tpe ∧
         Journalled s ((List.finRange 256).filterMap underflow ++ allOutputs.filterMap clip ++
           (List.finRange 256).filterMap ended ++ (List.finRange 64).filterMap mark) t) ∧
        t.due.getLast? = some .grantPass)

/-- R28: what a take delivers from an entry, after the last output, and what it counts, in PLAYING or at the end of
the priming, with or without a slip; and what a take without an entry leaves, with the underflow counter of R27. -/
def Obligations.ConcealmentCoversOneErroredFrame : Prop :=
  (∀ (prime : Nat) (q base : TermRec) (e : QEntry) (rest : List QEntry),
    let mark := min (prime + 6) 15
    let from_ : TermRec := if q.playing then q else { q with playing := true, first := false }
    let slipped : TermRec := { from_ with
      queue := q.queue.tail, counters := { q.counters with slip := min 65535 (q.counters.slip + 1) } }
    (q.playing = true ∨ prime ≤ q.queue.length) → base = (if mark ≤ q.queue.length then slipped else from_) →
    base.queue = e :: rest →
    let t := (q.take prime).1
    let errored : Prop := e = QEntry.placeholder ∨ ∃ samples, e = QEntry.parcel samples true
    (∀ samples, e = .parcel samples false →
      t = { base with queue := rest, lastBlock := samples, lastOrigin := .good, errored := 0 }) ∧
    (errored → q.lastOrigin = .good →
      t = { base with
        queue := rest, lastBlock := t.lastBlock, lastOrigin := .concealed, errored := min 255 (q.errored + 1)
        counters := { base.counters with concealed := min 65535 (q.counters.concealed + 1) } } ∧
      ∀ i, ((t.lastBlock.get i).toInt = ((q.lastBlock.get i).toInt + 1) / 2)) ∧
    (errored → q.lastOrigin ≠ .good →
      t = { base with
        queue := rest, lastBlock := silence, lastOrigin := .silent, errored := min 255 (q.errored + 1)
        counters := { base.counters with concealed := min 65535 (q.counters.concealed + 1) } })) ∧
  (∀ (prime : Nat) (q : TermRec),
    (q.playing = false ∧ q.queue.length < prime) ∨ (q.playing = true ∧ q.queue = []) →
    let t := (q.take prime).1
    let starved : Bool := q.playing
    t = { q with
      playing := false, lastBlock := silence, lastOrigin := .silent
      counters := if starved then { q.counters with underflow := min 65535 (q.counters.underflow + 1) }
        else q.counters } ∧
    (q.take prime).2 = starved) ∧
  (∀ (state : LineState) (prime : Nat) (q : TermRec), state ≠ .disabled → state ≠ .fault →
    let t := (q.take prime).1
    (takeLine state prime q).term = t ∧
    (takeLine state prime q).delivered = { block := t.lastBlock, origin := t.lastOrigin, playing := t.playing }) ∧
  (halve 3#16).toInt = 2 ∧ (halve (BitVec.ofInt 16 (-3))).toInt = -1 ∧ (halve 32767#16).toInt = 16384 ∧
  (halve (BitVec.ofInt 16 (-32768))).toInt = -16384

/-- Gains move by at most the step and never past their target; a channel without a member or under the cut stays at
0. Every output of a frame as chapter 9 computes it: an ear and a channel hear their bridge less their own position's
voices, a line its bridge, or as a leg its hoot, less its own far end, scaled, rounded to nearest and saturated; a
side sums its channels and its ringer; the ringer's square wave follows its tone count. Log entry 18. -/
def Obligations.GainsAndListenerSums : Prop :=
  ((∀ step r g : Nat, (max r g - min r g ≤ step → ramp step r g = g) ∧
     (step < g - r → ramp step r g = r + step) ∧ (step < r - g → ramp step r g = r - step)) ∧
   (∀ (c : Cnc) (step r : Nat) (x : ChannelRec),
     (x.current.member = none → rampChannel c step r x = 0) ∧
     (∀ sl m, x.current.member = some sl → c.pool.get sl = some m → m.mode = .cut → rampChannel c step r x = 0) ∧
     (∀ sl m, x.current.member = some sl → c.pool.get sl = some m → m.mode ≠ .cut →
       rampChannel c step r x = ramp step r x.current.target))) ∧
  (∀ (vs : List Voice) (own : Owner) (gain : Nat) (i : Fin 32),
     listenerSum vs own i = total (vs.filter (fun v => v.owner ≠ own)) i ∧
     (let y : Int := (total (vs.filter (fun v => v.owner ≠ own)) i * gain + 8388608) / 16777216
      (((heard vs own gain).block.get i).toInt = if y < -32768 then -32768 else if 32767 < y then 32767 else y)) ∧
     (heard vs own gain).saturated =
       (List.finRange 32).countP (fun j => saturates (scaleListener (listenerSum vs own j) gain))) ∧
  (∀ (f : Floor) (d : Table 256 Delivered) (ringers : Table 32 RingerFrame),
     let out := outputs f d ringers
     let gains (p : PositionNo) : PositionGains := f.mxe.positionGains.get p
     let frame (p : PositionNo) : Option LinkFrame :=
       if (f.plp.links.get p).up then (f.plp.links.get p).judged else none
     let sample (x : Option Block) (i : Fin 32) : Int := (x.map (fun b => (b.get i).toInt)).getD 0
     let member (skip : Option PositionNo) (i : Fin 32) (m : Member) : Int :=
       if m.mode ≠ .active then 0
       else match m.kind with
         | .handset h =>
           let p := handsetPosition h
           if skip = some p then 0
           else if h.val % 2 = 0 then sample ((frame p).map LinkFrame.micA) i * (gains p).micA
           else sample ((frame p).map LinkFrame.micB) i * (gains p).micB
         | .mic p => if skip = some p then 0 else sample ((frame p).map LinkFrame.desk) i * (gains p).desk
         | .speaker _ _ => 0
     let farEnd (l : LineNo) (i : Fin 32) : Int := ((d.get l).block.get i).toInt * (f.mxe.lineGains.get l).rx
     let lines (b : BridgeNo) : List LineNo := match bridgeKind b with
       | .line l => if (f.lsv.get l).state ∈ [LineState.disabled, .fault, .leg] then [] else [l]
       | .group _ => []
       | .hoot k => (f.cnc.hoots.get k).legs
     let sum (b : BridgeNo) (p : Option PositionNo) (l : Option LineNo) (i : Fin 32) : Int :=
       (((lines b).filter (fun j => some j ≠ l)).map (fun j => farEnd j i)).sum +
         ((membersOf f.cnc b).map (fun x => member p i x.2)).sum
     let limited (x : OutBlock) (y : Fin 32 → Int) : Prop :=
       (∀ i, (x.block.get i).toInt = if y i < -32768 then -32768 else if 32767 < y i then 32767 else y i) ∧
       x.saturated = (List.finRange 32).countP (fun i => decide (y i < -32768) || decide (32767 < y i))
     let hears (x : OutBlock) (b : BridgeNo) (p : Option PositionNo) (l : Option LineNo) (gain : Nat) : Prop :=
       limited x (fun i => (sum b p l i * gain + 8388608) / 16777216)
     let silent (x : OutBlock) : Prop := (∀ i, x.block.get i = 0#16) ∧ x.saturated = 0
     (∀ h, let p := handsetPosition h
       let active := (f.cnc.handsets.get h).active
       let gain := if h.val % 2 = 0 then (gains p).volA else (gains p).volB
       (active = none → silent (out.ears.get h)) ∧
       (∀ sl m, active = some sl → f.cnc.pool.get sl = some m → hears (out.ears.get h) m.bridge (some p) none gain)) ∧
     (∀ p c, let x := (out.channels.get p).get c
       let current := ((f.cnc.channels.get p).get c).current
       (current.member = none → silent x) ∧
       (∀ sl m, current.member = some sl → f.cnc.pool.get sl = some m →
         (m.mode ≠ .active → silent x) ∧
         (m.mode = .active → hears x m.bridge (some p) none ((f.mxe.channelGains.get p).get c)))) ∧
     (∀ l, let gain := (f.mxe.lineGains.get l).tx
       ((f.lsv.get l).state ≠ .leg → hears (out.transmits.get l) (lineBridge l) none (some l) gain) ∧
       (∀ k, (f.lsv.get l).state = .leg → l ∈ (f.cnc.hoots.get k).legs →
         (∀ j, l ∈ (f.cnc.hoots.get j).legs → j = k) →
         hears (out.transmits.get l) (hootBridge k) none (some l) gain)) ∧
     (∀ p, let x := f.cnc.settings.get p
       let side (which : Side) (i : Fin 32) : Int :=
         ((List.finRange 8).map (fun c =>
           if ((f.cnc.channels.get p).get c).current.side = which then
             (((out.channels.get p).get c).block.get i).toInt else 0)).sum
       let ring (i : Fin 32) : Int := ((ringers.get p).samples[i.val]?).getD 0
       limited (out.left.get p) (fun i =>
         ((side .left i + (if x.ringerSide ≠ .right then ring i else 0)) * (gains p).left + 2048) / 4096) ∧
       limited (out.right.get p) (fun i =>
         ((side .right i + (if x.ringerSide ≠ .left then ring i else 0)) * (gains p).right + 2048) / 4096))) ∧
  (∀ (amplitude : Int) (q n count : Nat),
     let x := toneSamples amplitude q n count
     (count < 2 * q → x.2 = (count + n) % (2 * q) ∧
       x.1 = (List.range n).map (fun i => if (count + i) % (2 * q) < q then amplitude else -amplitude)) ∧
     (2 * q ≤ count → 0 < n → 0 < q → x.1 = -amplitude :: (toneSamples amplitude q (n - 1) 0).1 ∧
       x.2 = (toneSamples amplitude q (n - 1) 0).2)) ∧
  (∀ (f : Floor) (p : PositionNo),
     let r0 := f.mxe.ringers.get p
     let r := r0.settle (f.cnc.cadences.get r0.cadence)
     let settings := f.cnc.settings.get p
     let amplitude := settings.ringAmplitude.getD f.mxe.mix.ringAmplitude
     let tone := toneSamples amplitude settings.halfPeriod 32 r.tone
     let x := positionRinger f p
     (r.state ≠ .ringing ∨ r.framesLeft = 0 → x.ringer = r ∧ x.samples = []) ∧
     (r.state = .ringing → 0 < r.framesLeft → r.on = true →
       x.ringer = { r with framesLeft := r.framesLeft - 1, tone := tone.2 } ∧ x.samples = tone.1) ∧
     (r.state = .ringing → 0 < r.framesLeft → r.on = false →
       x.ringer = { r with framesLeft := r.framesLeft - 1 } ∧ x.samples = []))

/-! ### ORU -/

/-- The link field: 0 waits, or reads again after a kept nudge; a misaligned one sets CHAIN_FAULT and waits; another
is the next record's address. In STOPPING the walk ends. Log entries 3 and 34. -/
def Obligations.TheWalkFollowsTheLink : Prop :=
  ∀ (link : Addr) (s : State) (f : Flight), s.due = [] → s.oru.step = .linkRead → s.mpt.oru.inFlight = some f →
    f.fate = .live →
    let free : Mpt := { s.mpt with oru := { s.mpt.oru with inFlight := none } }
    let waiting : Oru := { s.oru with
      active := false, poll := if s.rc.held.pollMs = 0 then none else some s.rc.held.pollMs }
    (s.rc.runState = .running → s.oru.nudged = false → link = 0#64 →
      exec (.orderLinkReadDone link) s = .next { s with mpt := free, oru := waiting }) ∧
    (s.rc.runState = .running → s.oru.nudged = true → link = 0#64 →
      exec (.orderLinkReadDone link) s = .next { s with
        mpt := { s.mpt with oru := .asking { addr := s.oru.cursor, op := .read 8 } }
        oru := { s.oru with nudged := false } }) ∧
    (s.rc.runState = .running → s.oru.nudged = false → link ≠ 0#64 → link.toNat % 64 ≠ 0 →
      exec (.orderLinkReadDone link) s = .next { s with
        mpt := free, oru := waiting, rc := { s.rc with attn := raiseCause .chainFault s.rc.attn } }) ∧
    (s.rc.runState = .running → link ≠ 0#64 → link.toNat % 64 = 0 →
      exec (.orderLinkReadDone link) s = .next { s with
        mpt := { s.mpt with oru := .asking { addr := link, op := .read 64 } }
        oru := { s.oru with step := .recordRead, next := some link } }) ∧
    (s.rc.runState = .stopping →
      exec (.orderLinkReadDone link) s = .next { s with
        mpt := free, oru := { s.oru with active := false, order := none } })

/-- A record's kind and argument fields spell its order. A POSTED record of a known kind is dispatched; one of an
unknown kind has the outcome BAD_KIND; another waits. In STOPPING no record is dispatched: ORU's part of the stop is over, and
it is held WAITING (DEDUCED, entry 25). Log entries 3, 5 and 25. -/
def Obligations.APostedRecordIsDispatched : Prop :=
  (∀ (kind : Byte) (notify : Bool) (a : List Byte),
    let b (i : Nat) : Byte := BitVec.ofNat 8 (fieldAt a i 1)
    let h (i : Nat) : Half := BitVec.ofNat 16 (fieldAt a i 2)
    let w (i : Nat) : Word := BitVec.ofNat 32 (fieldAt a i 4)
    let spells (k : Byte) (c : Instr) : Prop := decodeOrder k notify a = some c
    spells 0x00#8 .nop ∧
    spells 0x01#8 (.setLine { line := h 0, enable := b 2, kind := b 3, privacy := b 4, cadence := b 5, rxGain := h 6
                              txGain := h 8, prime := b 10, persistence := b 11, deadTime := h 12, knockTime := b 14 }) ∧
    spells 0x02#8 (.ringOut (h 0) (b 2)) ∧ spells 0x03#8 (.ringStop (h 0)) ∧ spells 0x04#8 (.loopTest (h 0)) ∧
    spells 0x05#8 (.endTest (h 0)) ∧ spells 0x08#8 (.flush (h 0)) ∧
    spells 0x10#8 (.setAppearance { position := b 0, line := h 1, present := b 3, ring := b 4, speaker := b 5 }) ∧
    (∃ segments, spells 0x11#8 (.setCadence { cadence := b 0, count := b 1, segments := segments, repeats := h 18 }) ∧
      ∀ i, segments.get i = (h (2 + 4 * i.val), h (4 + 4 * i.val))) ∧
    spells 0x12#8 (.setPosition { position := b 0, autoHold := b 1, ringerSide := b 2, announceChannel := b 3
                                  nesting := b 4, halfPeriod := b 5, recallTime := h 6, volumeA := h 8, volumeB := h 10
                                  micGainA := h 12, micGainB := h 14, deskGain := h 16, sideLeft := h 18
                                  sideRight := h 20, ringAmplitude := h 22 }) ∧
    spells 0x13#8 (.select (b 0) (h 1) notify) ∧ spells 0x14#8 (.callGroup (b 0) (b 1) notify) ∧
    spells 0x15#8 (.hold (b 0)) ∧ spells 0x16#8 (.retrieve (b 0)) ∧ spells 0x17#8 (.release (b 0)) ∧
    spells 0x18#8 (.dropHeld (b 0) (h 1)) ∧
    spells 0x19#8 (.setGroup { group := b 0, cadence := b 1, timeout := h 2, roster := w 4 }) ∧
    spells 0x1A#8 (.setHoot { hoot := b 0, limit := b 1, priority := b 2, legCount := b 3, leg0 := h 4, leg1 := h 6
                              roster := w 8, talk := w 12 }) ∧
    spells 0x1B#8 (.pttTarget (b 0) (b 1)) ∧
    spells 0x1C#8 (.assignSpeaker { position := b 0, channel := b 1, source := h 2, gain := h 4, side := b 6 }) ∧
    spells 0x1D#8 (.speakerGain (b 0) (b 1) (h 2)) ∧ spells 0x1E#8 (.announce (h 0) (b 2) (w 3)) ∧
    spells 0x1F#8 (.endAnnounce (h 0)) ∧
    spells 0x20#8 (.setMix { rampStep := h 0, threshold := h 2, window := b 4, count := h 5, ringAmplitude := h 7 }) ∧
    spells 0x28#8 (.tapStart (b 0)) ∧ spells 0x29#8 (.tapStop (b 0)) ∧
    (kind.toNat ∈ [6, 7] ∨ (0x09 ≤ kind.toNat ∧ kind.toNat ≤ 0x0F) ∨ (0x21 ≤ kind.toNat ∧ kind.toNat ≤ 0x27) ∨
      0x2A ≤ kind.toNat → decodeOrder kind notify a = none)) ∧
  ∀ (record : List Byte) (s : State) (f : Flight) (a : Addr), s.due = [] →
    s.oru.step = .recordRead → s.oru.next = some a → s.mpt.oru.inFlight = some f → f.fate = .live →
    record.length = 64 →
    let kind := BitVec.ofNat 8 (fieldAt record 0x09 1)
    let order := decodeOrder kind ((fieldAt record 0x0A 1).testBit 0) ((record.drop 0x10).take 40)
    let free : Mpt := { s.mpt with oru := { s.mpt.oru with inFlight := none } }
    let d : Dispatched := { kind := kind, notify := (fieldAt record 0x0A 1).testBit 0
                            tag := BitVec.ofNat 32 (fieldAt record 0x0C 4), order := order, taken := false
                            outcome := none, codeWritten := false }
    (s.rc.runState = .stopping → exec (.orderRecordReadDone record) s = .next { s with
      mpt := free, oru := { s.oru with active := false, order := none } }) ∧
    (s.rc.runState = .running → fieldAt record 0x08 1 ≠ 1 → s.oru.nudged = false →
      exec (.orderRecordReadDone record) s = .next { s with mpt := free, oru := { s.oru with
        active := false, poll := if s.rc.held.pollMs = 0 then none else some s.rc.held.pollMs } }) ∧
    (s.rc.runState = .running → fieldAt record 0x08 1 ≠ 1 → s.oru.nudged = true →
      exec (.orderRecordReadDone record) s = .next { s with
        mpt := { s.mpt with oru := .asking { addr := a, op := .read 64 } }
        oru := { s.oru with nudged := false } }) ∧
    (∀ c, s.rc.runState = .running → fieldAt record 0x08 1 = 1 → order = some c →
      exec (.orderRecordReadDone record) s =
        .next { s with mpt := free, oru := { s.oru with step := .execute, order := some d } }) ∧
    (s.rc.runState = .running → fieldAt record 0x08 1 = 1 → order = none →
      let o : OrderResult := { code := .badKind, data := [] }
      exec (.orderRecordReadDone record) s = .next { s with
        mpt := { s.mpt with oru := .asking { addr := a + 0x0B#64, op := .write [1#8] } }
        oru := { s.oru with step := .resultWrite, order := some { d with outcome := some o }, lastOutcome := some o } })

/-- The write-back, in RUNNING and in STOPPING: code, result data, state with ORDER_DONE when asked for, cursor; and on to the
next link, or in STOPPING the end of ORU's part. Log entries 3, 5 and 25. -/
def Obligations.OrdersAreWrittenBackInOrder : Prop :=
  ∀ (s : State) (f : Flight) (a : Addr) (d : Dispatched) (o : OrderResult), s.due = [] →
    s.rc.runState = .running ∨ s.rc.runState = .stopping → s.mpt.oru.inFlight = some f → f.fate = .live →
    s.oru.order = some d → d.outcome = some o →
    (s.oru.step = .resultWrite → s.oru.next = some a → d.codeWritten = false →
      exec .orderResultWriteDone s = .next { s with
        mpt := { s.mpt with oru := .asking { addr := a + 0x38#64, op := .write (padTo 8 o.data) } }
        oru := { s.oru with order := some { d with codeWritten := true } } }) ∧
    (s.oru.step = .resultWrite → s.oru.next = some a → d.codeWritten = true →
      exec .orderResultWriteDone s = .next { s with
        mpt := { s.mpt with oru := .asking { addr := a + 0x08#64, op := .write [if o.code = .ok then 2#8 else 3#8] } }
        oru := { s.oru with step := .stateWrite } }) ∧
    (s.oru.step = .stateWrite → s.oru.next = some a → ∃ t, exec .orderStateWriteDone s = .next t ∧
      t = { s with
        mpt := { s.mpt with oru := .asking { addr := s.rc.cbAddr + 0x10#64, op := .write (bytesOf 8 a.toNat) } }
        oru := { s.oru with step := .cursorWrite, cursor := a, next := none }, jnu := t.jnu } ∧
      Journalled s (if d.notify then [.orderDone d.tag d.kind o.code] else []) t) ∧
    (s.oru.step = .cursorWrite → s.rc.runState = .running →
      exec .orderCursorWriteDone s = .next { s with
        mpt := { s.mpt with oru := .asking { addr := s.oru.cursor, op := .read 8 } }
        oru := { s.oru with step := .linkRead, order := none } }) ∧
    (s.oru.step = .cursorWrite → s.rc.runState = .stopping →
      exec .orderCursorWriteDone s = .next { s with
        mpt := { s.mpt with oru := { s.mpt.oru with inFlight := none } }
        oru := { s.oru with step := .linkRead, order := none, active := false } })

/-- An order that ends with a code other than OK has changed nothing on the floor, at the taps, in the journal and in
the status queue. Log entry 5. -/
def Obligations.RefusedOrdersChangeNothing : Prop :=
  ∀ (c : Instr) (s t : State) (o : OrderResult), immediateOrder c = true → s.due = [] → exec c s = .next t →
    t.oru.lastOutcome = some o → o.code ≠ .ok →
    t.floor = s.floor ∧ t.jnu = s.jnu ∧ t.stw = s.stw ∧ t.tpe = s.tpe ∧ t.rc = s.rc

/-! ### Orders of chapters 2, 3, 4 and 9 -/

/-- NOP answers with the frame counter. SET_MIX clamps its five fields, replaces them, and starts the activity windows
afresh when W or K changes. Log entry 5. -/
def Obligations.NopAndSetMix : Prop :=
  (∀ s : State, Turn .nop false s → ∃ t, exec .nop s = .next t ∧
     Completed s { code := .ok, data := bytesOf 4 s.floor.mxe.frame.toNat } t ∧ t.floor = s.floor ∧ t.jnu = s.jnu ∧
     t.stw = s.stw) ∧
  (∀ (a : SetMixArgs) (s : State), Turn (.setMix a) false s →
     let window := clampTo 1 250 a.window.toNat
     let mix : MixSettings :=
       { rampStep := clampTo 1 1024 a.rampStep.toNat, threshold := min 32767 a.threshold.toNat, window := window
         count := min (clampTo 1 8000 a.count.toNat) (window * 32), ringAmplitude := min 16384 a.ringAmplitude.toNat }
     ∃ t, exec (.setMix a) s = .next t ∧
       Completed s { code := .ok, data := bytesOf 2 mix.rampStep ++ bytesOf 2 mix.count } t ∧
       t.floor = { s.floor with mxe := { s.floor.mxe with mix := mix, activity := t.floor.mxe.activity } } ∧
       (∀ p c, (t.floor.mxe.activity.get p).get c =
         if s.floor.mxe.mix.window = mix.window ∧ s.floor.mxe.mix.count = mix.count then
           (s.floor.mxe.activity.get p).get c
         else { (s.floor.mxe.activity.get p).get c with window := 0, count := 0 }) ∧
       t.jnu = s.jnu ∧ t.stw = s.stw)

/-- SET_LINE: its checks, a plain rewrite, and the line enabled or disabled afresh. The order of a disable's notes, RING_OUT_DONE
before ANNOUNCE_END, is DEDUCED (entry 13). Log entries 5, 13 and 28. -/
def Obligations.SetLineReplacesTheConfiguration : Prop :=
  ∀ (a : SetLineArgs) (s : State), Turn (.setLine a) true s →
    (256 ≤ a.line.toNat → Refuses (.setLine a) s .badNumber) ∧
    (a.line.toNat < 256 → 3 ≤ a.kind.toNat ∨ 2 ≤ a.privacy.toNat → Refuses (.setLine a) s .badValue) ∧
    (a.line.toNat < 256 → a.kind.toNat < 3 → a.privacy.toNat < 2 → 8 ≤ a.cadence.toNat →
      Refuses (.setLine a) s .badNumber) ∧
    (∀ (l : LineNo) (kind : LineKind) (privacy : Privacy) (cadence : CadenceNo), a.line.toNat = l.val →
      lineKindArg a.kind = some kind → privacyArg a.privacy = some privacy → a.cadence.toNat = cadence.val →
      let r := s.floor.lsv.get l
      let cfg : LineConfig :=
        { enable := a.enable.getLsbD 0, kind := kind, privacy := privacy, rxGain := min 8191 a.rxGain.toNat
          txGain := min 8191 a.txGain.toNat, prime := clampTo 2 12 a.prime.toNat
          persistence := clampTo 1 15 a.persistence.toNat, deadTime := clampTo 10 1000 a.deadTime.toNat
          knockTime := clampTo 1 60 a.knockTime.toNat, cadence := cadence }
      let free := r.state ∈ [LineState.disabled, .idle, .fault]
      let done (t : State) (state : LineState) : Prop := exec (.setLine a) s = .next t ∧
        Completed s { code := .ok, data := bytesOf 1 (LineState.code state) } t
      (cfg.enable ≠ r.cfg.enable ∨ kind ≠ r.cfg.kind ∨ privacy ≠ r.cfg.privacy → ¬ free →
        Refuses (.setLine a) s .notIdle) ∧
      ((cfg.enable = r.cfg.enable ∧ kind = r.cfg.kind ∧ privacy = r.cfg.privacy) ∨ free →
        cfg.enable = decide (r.state ≠ .disabled) → (kind = .knock ∨ r.cfg.kind ≠ .knock) →
        ∃ t, done t r.state ∧ t.floor = { s.floor with lsv := s.floor.lsv.set l { r with cfg := cfg } } ∧ t.jnu = s.jnu) ∧
      (free → cfg.enable = decide (r.state ≠ .disabled) → r.cfg.kind = .knock → kind ≠ .knock →
        ∃ t, done t r.state ∧ t.floor = { s.floor with
            lsv := s.floor.lsv.set l { r with cfg := cfg, ringOut := none, knock := none } } ∧
          Journalled s ((r.ringOut.map (fun x => NoteBody.ringOutDone l .aborted (x.repeats - x.cyclesLeft))).toList) t) ∧
      (cfg.enable = true → r.state = .disabled → ∃ t, done t .idle ∧ t.jnu = s.jnu ∧
        t.floor.lsv = s.floor.lsv.set l
          { cfg := cfg, state := .idle, cause := .none, accepted := .quiet, candidate := none, run := 0, dead := 0
            knock := none, alertingSince := none, ringOut := none } ∧
        t.floor.ltm = s.floor.ltm.set l (.cleared .zero) ∧ t.floor.lhp.txSeq = s.floor.lhp.txSeq.set l 0#8 ∧
        t.floor.mxe = { s.floor.mxe with
          lineGains := s.floor.mxe.lineGains.set l { rx := cfg.rxGain, tx := cfg.txGain } } ∧
        t.floor.cnc = s.floor.cnc ∧ t.floor.plp = s.floor.plp ∧ t.floor.lhp.cards = s.floor.lhp.cards) ∧
      (cfg.enable = false → r.state = .idle ∨ r.state = .fault → ∃ t, done t .disabled ∧
        t.floor.lsv.get l =
          { cfg := cfg, state := .disabled, cause := .none, accepted := .quiet, candidate := none, run := 0, dead := 0
            knock := none, alertingSince := none, ringOut := none } ∧
        t.floor.ltm = s.floor.ltm.set l (.cleared .zero) ∧ t.floor.lhp.txSeq = s.floor.lhp.txSeq.set l 0#8 ∧
        Journalled s
          ((r.ringOut.map (fun x => NoteBody.ringOutDone l .aborted (x.repeats - x.cyclesLeft))).toList ++
            announceEndNotes s.floor.cnc (lineBridge l)) t ∧
        (∀ x ∈ membersOf t.floor.cnc (lineBridge l), x.2.speaker? = none) ∧
        t.floor.cnc.handsets = s.floor.cnc.handsets ∧ t.floor.cnc.hoots = s.floor.cnc.hoots ∧
        t.floor.cnc.talks = s.floor.cnc.talks ∧ t.floor.cnc.ringLists = s.floor.cnc.ringLists ∧
        t.floor.plp = s.floor.plp))

/-- RING_OUT makes its six checks in order and starts at segment 0, ON; RING_STOP ends a running one. Log entry 5. -/
def Obligations.RingOutStartsAndStops : Prop :=
  ∀ (line : Half) (cadence : Byte) (s : State),
    (Turn (.ringOut line cadence) false s →
      (256 ≤ line.toNat ∨ 8 ≤ cadence.toNat → Refuses (.ringOut line cadence) s .badNumber) ∧
      (∀ (l : LineNo) (c : CadenceNo), line.toNat = l.val → cadence.toNat = c.val →
        let r := s.floor.lsv.get l
        let d := s.floor.cnc.cadences.get c
        let code : Option ResultCode :=
          if r.cfg.kind ≠ .knock then some .wrongKind
          else if r.state ∈ [LineState.disabled, .fault, .test] then some .lineUnavailable
          else if r.state = .alerting then some .notIdle
          else if d.repeats = 0 then some .badValue
          else if r.ringOut ≠ none then some .busy
          else none
        (∀ x, code = some x → Refuses (.ringOut line cadence) s x) ∧
        (code = none → ∃ t, exec (.ringOut line cadence) s = .next t ∧ Completed s { code := .ok, data := [] } t ∧
          (let started : RingOut :=
            { segments := d.segments, repeats := d.repeats, segment := 0, on := true
              framesLeft := (segmentAt d.segments 0).1, cyclesLeft := d.repeats }
           t.floor = { s.floor with lsv := s.floor.lsv.set l { r with ringOut := some started } }) ∧
          t.jnu = s.jnu ∧ .line l ∈ t.stw.queue))) ∧
    (Turn (.ringStop line) false s →
      (256 ≤ line.toNat → Refuses (.ringStop line) s .badNumber) ∧
      (∀ l : LineNo, line.toNat = l.val →
        let r := s.floor.lsv.get l
        (r.cfg.kind ≠ .knock → Refuses (.ringStop line) s .wrongKind) ∧
        (∀ x, r.cfg.kind = .knock → r.ringOut = some x → ∃ t, exec (.ringStop line) s = .next t ∧
          Completed s { code := .ok, data := [1#8] } t ∧
          t.floor = { s.floor with lsv := s.floor.lsv.set l { r with ringOut := none } } ∧
          Journalled s [.ringOutDone l .stopped (x.repeats - x.cyclesLeft)] t ∧ .line l ∈ t.stw.queue) ∧
        (r.cfg.kind = .knock → r.ringOut = none → ∃ t, exec (.ringStop line) s = .next t ∧
          Completed s { code := .ok, data := [0#8] } t ∧ t.floor = s.floor ∧ t.jnu = s.jnu ∧ t.stw = s.stw)))

/-- LOOP_TEST, END_TEST and FLUSH: their checks, the line record and the receive queue. The order of LOOP_TEST's refusals is
the model's choice (entry 40), and that END_TEST sets the run length to 0 with the candidate is DEDUCED (entry 29). Log entries
5, 29 and 40. -/
def Obligations.LoopTestsAndFlush : Prop :=
  (∀ (line : Half) (s : State),
     (Turn (.loopTest line) false s →
       (256 ≤ line.toNat → Refuses (.loopTest line) s .badNumber) ∧
       (∀ l : LineNo, line.toNat = l.val →
         let r := s.floor.lsv.get l
         (r.state = .disabled → Refuses (.loopTest line) s .lineUnavailable) ∧
         (r.state ≠ .disabled → r.state ≠ .idle → Refuses (.loopTest line) s .notIdle) ∧
         (r.state = .idle → r.ringOut ≠ none → Refuses (.loopTest line) s .busy) ∧
         (r.state = .idle → r.ringOut = none → ∃ t, exec (.loopTest line) s = .next t ∧
           Completed s { code := .ok, data := [] } t ∧ t.jnu = s.jnu ∧
           t.floor = { s.floor with
             lsv := s.floor.lsv.set l { r with state := .test, dead := 0 }
             ltm := s.floor.ltm.set l { s.floor.ltm.get l with queue := [], playing := false } }))) ∧
     (Turn (.endTest line) false s →
       (256 ≤ line.toNat → Refuses (.endTest line) s .badNumber) ∧
       (∀ l : LineNo, line.toNat = l.val →
         let r := s.floor.lsv.get l
         (r.state ≠ .test → Refuses (.endTest line) s .notIdle) ∧
         (r.state = .test → ∃ t, exec (.endTest line) s = .next t ∧
           Completed s { code := .ok, data := [] } t ∧ t.jnu = s.jnu ∧
           t.floor = { s.floor with
             lsv := s.floor.lsv.set l { r with state := .idle, accepted := .quiet, candidate := none, run := 0, dead := 0 }
             ltm := s.floor.ltm.set l { s.floor.ltm.get l with
               queue := [], playing := false, first := true, lastSeq := none, episode := false
               lastBlock := silence, lastOrigin := .silent } })))) ∧
  (∀ (line : Half) (s : State), Turn (.flush line) false s →
     (256 ≤ line.toNat → Refuses (.flush line) s .badNumber) ∧
     (∀ l : LineNo, line.toNat = l.val →
       ((s.floor.lsv.get l).state = .disabled → Refuses (.flush line) s .lineUnavailable) ∧
       ((s.floor.lsv.get l).state ≠ .disabled → ∃ t, exec (.flush line) s = .next t ∧
         Completed s { code := .ok, data := bytesOf 1 (s.floor.ltm.get l).queue.length } t ∧ t.jnu = s.jnu ∧
         t.floor = { s.floor with ltm := s.floor.ltm.set l { s.floor.ltm.get l with
           queue := [], playing := false, lastSeq := none, episode := false } } ∧
         ((s.floor.ltm.get l).playing = true → .line l ∈ t.stw.queue))))

/-- SET_APPEARANCE: its checks, the table, and the position's ring list while the line is ALERTING. Log entry 5. -/
def Obligations.SetAppearanceFollowsAnAlertingLine : Prop :=
  ∀ (a : SetAppearanceArgs) (s : State), Turn (.setAppearance a) false s →
    (32 ≤ a.position.toNat ∨ 256 ≤ a.line.toNat → Refuses (.setAppearance a) s .badNumber) ∧
    (∀ (p : PositionNo) (l : LineNo), a.position.toNat = p.val → a.line.toNat = l.val →
      let old := (s.floor.cnc.appearances.get p).get l
      let new : Option Appearance := if a.present.getLsbD 0 then
        some { ring := a.ring.getLsbD 0, speaker := a.speaker.getLsbD 0 } else none
      let count := presentCount s.floor.cnc p
      let ringsOld : Bool := old.map Appearance.ring = some true
      let ringsNew : Bool := new.map Appearance.ring = some true
      let line := s.floor.lsv.get l
      (new ≠ none → old = none → 96 ≤ count → Refuses (.setAppearance a) s .noRoom) ∧
      (new = none ∨ old ≠ none ∨ count < 96 → ∃ t, exec (.setAppearance a) s = .next t ∧
        Completed s { code := .ok, data := bytesOf 1 (presentCount t.floor.cnc p) } t ∧
        t.floor.cnc.appearances = s.floor.cnc.appearances.set p ((s.floor.cnc.appearances.get p).set l new) ∧
        presentCount t.floor.cnc p + (if old = none then 0 else 1) = count + (if new = none then 0 else 1) ∧
        (line.state ≠ .alerting ∨ ringsOld = ringsNew → t.floor.cnc.ringLists = s.floor.cnc.ringLists ∧
          t.jnu = s.jnu) ∧
        (line.state = .alerting → ringsOld = false → ringsNew = true →
          t.floor.cnc.ringLists.get p = withAlert (s.floor.cnc.ringLists.get p)
            { bridge := lineBridge l, reason := lineReason line.cfg.kind, cadence := line.cfg.cadence
              arrival := s.floor.mxe.frame } ∧
          Journalled s (alertDroppedNotes s.floor.cnc (lineBridge l) (lineReason line.cfg.kind) [p]) t) ∧
        (line.state = .alerting → ringsOld = true → ringsNew = false →
          t.floor.cnc.ringLists.get p = (s.floor.cnc.ringLists.get p).filter
            (fun x => !(x.bridge = lineBridge l && (x.reason = .line || x.reason = .knock))) ∧
          Journalled s (alertEndNotes s.floor.cnc (lineBridge l) coversLine [p] .removed) t) ∧
        (∀ q, q ≠ p → t.floor.cnc.ringLists.get q = s.floor.cnc.ringLists.get q) ∧ t.floor.lsv = s.floor.lsv ∧
        t.floor.ltm = s.floor.ltm ∧ t.floor.cnc.handsets = s.floor.cnc.handsets ∧
        t.floor.cnc.pool = s.floor.cnc.pool ∧ t.floor.cnc.channels = s.floor.cnc.channels))

/-- SET_CADENCE replaces the cadence, clamped, and restarts the ringers that sound it. A cadence above 7 is refused with
BAD_NUMBER whatever the count (the model's choice, entry 40). Log entries 5 and 40. -/
def Obligations.SetCadenceReplacesTheCadence : Prop :=
  ∀ (a : SetCadenceArgs) (s : State), Turn (.setCadence a) false s →
    (8 ≤ a.cadence.toNat → Refuses (.setCadence a) s .badNumber) ∧
    (∀ c : CadenceNo, a.cadence.toNat = c.val →
      let segments := (a.segments.cells.take a.count.toNat).map (fun x => (min 2000 x.1.toNat, min 2000 x.2.toNat))
      (a.count.toNat = 0 ∨ 4 < a.count.toNat → Refuses (.setCadence a) s .badValue) ∧
      (0 < a.count.toNat → a.count.toNat ≤ 4 → ∃ t, exec (.setCadence a) s = .next t ∧
        Completed s { code := .ok, data := [] } t ∧ t.jnu = s.jnu ∧
        (let after : Cadence := { segments := segments, repeats := min 255 a.repeats.toNat }
         t.floor = { s.floor with
          cnc := { s.floor.cnc with cadences := s.floor.cnc.cadences.set c after }
          mxe := { s.floor.mxe with ringers := t.floor.mxe.ringers } }) ∧
        (∀ p, let r := s.floor.mxe.ringers.get p
          t.floor.mxe.ringers.get p =
            if r.state ≠ .idle ∧ r.cadence = c then
              { state := .ringing, cadence := c, segment := 0, on := true, framesLeft := (segmentAt segments 0).1
                cyclesDone := 0, tone := 0 }
            else r)))

/-! ### Positions and calls -/

/-- SET_POSITION: its checks in order, and the record replaced with its fields clamped. Log entries 5 and 28. -/
def Obligations.SetPositionReplacesTheSettings : Prop :=
  ∀ (a : SetPositionArgs) (s : State), Turn (.setPosition a) true s →
    (32 ≤ a.position.toNat → Refuses (.setPosition a) s .badNumber) ∧
    (∀ p : PositionNo, a.position.toNat = p.val →
      let preempted := ∃ c, ((s.floor.cnc.channels.get p).get c).stack ≠ []
      (2 ≤ a.autoHold.toNat ∨ 3 ≤ a.ringerSide.toNat → Refuses (.setPosition a) s .badValue) ∧
      (a.autoHold.toNat < 2 → a.ringerSide.toNat < 3 → 8 ≤ a.announceChannel.toNat →
        Refuses (.setPosition a) s .badNumber) ∧
      (a.autoHold.toNat < 2 → a.ringerSide.toNat < 3 → a.announceChannel.toNat < 8 → 2 ≤ a.nesting.toNat →
        Refuses (.setPosition a) s .badValue) ∧
      (∀ (hold : Bool) (side : RingerSide) (c : ChannelNo) (nesting : Nesting), onOffArg a.autoHold = some hold →
        ringerSideArg a.ringerSide = some side → a.announceChannel.toNat = c.val → nestingArg a.nesting = some nesting →
        (nesting ≠ (s.floor.cnc.settings.get p).nesting → preempted → Refuses (.setPosition a) s .busy) ∧
        (nesting = (s.floor.cnc.settings.get p).nesting ∨ ¬ preempted → ∃ t, exec (.setPosition a) s = .next t ∧
          Completed s { code := .ok, data := [] } t ∧ t.jnu = s.jnu ∧ t.stw = s.stw ∧
          (let after : Settings :=
            { autoHold := hold, recallTime := min 600 a.recallTime.toNat, volumeA := min 8191 a.volumeA.toNat
              volumeB := min 8191 a.volumeB.toNat, micGainA := min 8191 a.micGainA.toNat
              micGainB := min 8191 a.micGainB.toNat, deskGain := min 8191 a.deskGain.toNat
              sideLeft := min 8191 a.sideLeft.toNat, sideRight := min 8191 a.sideRight.toNat, ringerSide := side
              ringAmplitude := if a.ringAmplitude = 0xFFFF#16 then none else some (min 16384 a.ringAmplitude.toNat)
              halfPeriod := clampTo 2 64 a.halfPeriod.toNat, announceChannel := c, nesting := nesting }
           t.floor = { s.floor with cnc := { s.floor.cnc with settings := s.floor.cnc.settings.set p after } }))))

/-- SELECT's refusals of a line and of a group bridge, in the order of its checks, and the handset that is already on
the bridge. Log entry 5. -/
def Obligations.SelectChecksInOrder : Prop :=
  ∀ (handset : Byte) (bridge : Half) (notify : Bool) (s : State), Turn (.select handset bridge notify) false s →
    let already (h : HandsetNo) (b : BridgeNo) (after : StateAfter) : Prop :=
      ∃ t, exec (.select handset bridge notify) s = .next t ∧
        Completed s { code := .ok, data := bytesOf 1 (s.floor.cnc.handsets.get h).stack.length ++ [0xFF#8, 0xFF#8] } t ∧
        t.floor = s.floor ∧ t.stw = s.stw ∧
        Journalled s (if notify then [.selectDone h b after false .none] else []) t
    (64 ≤ handset.toNat ∨ 352 ≤ bridge.toNat → Refuses (.select handset bridge notify) s .badNumber) ∧
    (handset.toNat < 64 → 320 ≤ bridge.toNat → bridge.toNat < 352 →
      Refuses (.select handset bridge notify) s .wrongKind) ∧
    (∀ (h : HandsetNo) (l : LineNo), handset.toNat = h.val → bridge.toNat = l.val →
      (∀ code, selectCode s.floor h l = some code → Refuses (.select handset bridge notify) s code) ∧
      (selectCode s.floor h l = none → activeBridge s.floor.cnc h = some (lineBridge l) →
        already h (lineBridge l) (.line (s.floor.lsv.get l).state))) ∧
    (∀ (h : HandsetNo) (g : GroupNo), handset.toNat = h.val → bridge.toNat = 256 + g.val →
      (∀ code, selectGroupCode s.floor h g = some code → Refuses (.select handset bridge notify) s code) ∧
      (selectGroupCode s.floor h g = none → activeBridge s.floor.cnc h = some (groupBridge g) →
        already h (groupBridge g) (.group (s.floor.cnc.groups.get g).state)))

/-- A SELECT of a line or a group, held or not: the handset is CONNECTED on it, the displaced call is held or
released, both lines follow their handset members with the cut of the SPEAKER members on them, and a new member answers the
alerts of the line or the group. Log entries 5 and 12. -/
def Obligations.SelectConnectsTheHandset : Prop :=
  ∀ (handset : Byte) (bridge : Half) (notify : Bool) (h : HandsetNo) (s : State),
    Turn (.select handset bridge notify) false s → handset.toNat = h.val →
    let before := activeBridge s.floor.cnc h
    let connects (b : BridgeNo) (t : State) : Prop := exec (.select handset bridge notify) s = .next t ∧
      (let data := bytesOf 1 (stackAfter s.floor h b).1.length ++ bytesOf 2 (bridgeField before)
       Completed s { code := .ok, data := data } t) ∧ Connects h b notify s t
    (∀ l : LineNo, bridge.toNat = l.val → selectCode s.floor h l = none → before ≠ some (lineBridge l) →
      let b := lineBridge l
      let line := s.floor.lsv.get l
      ∃ t, connects b t ∧
        (¬ HeldOn s.floor h b ∨ (∃ sl, HeldAt s.floor h b sl) → (t.floor.lsv.get l).state = (match line.state with
          | .idle => if line.cfg.kind = .signalled ∧ effective .signalled line.accepted ≠ .seize then .outgoing
            else .connected
          | .outgoing => .outgoing
          | .clearing => .clearing
          | _ => .connected)) ∧
        (¬ HeldOn s.floor h b →
          (∀ p, ∀ a ∈ t.floor.cnc.ringLists.get p, a.bridge = b → coversLine a.reason = false) ∧
          ∃ notes, Journalled s notes t ∧
            ∀ n ∈ alertEndNotes s.floor.cnc b coversLine allPositions .answered, n ∈ notes)) ∧
    (∀ g : GroupNo, bridge.toNat = 256 + g.val → selectGroupCode s.floor h g = none → before ≠ some (groupBridge g) →
      ∃ t, connects (groupBridge g) t ∧ GroupJoined h g s t)

/-- CALL_GROUP: its checks; the call of an IDLE group alerts the roster, with its exact effects for a handset with no
call; a CALLING or ACTIVE group is joined as by SELECT. Log entries 5 and 12. -/
def Obligations.CallGroupAlertsTheRoster : Prop :=
  ∀ (handset group : Byte) (notify : Bool) (s : State), Turn (.callGroup handset group notify) false s →
    (64 ≤ handset.toNat ∨ 64 ≤ group.toNat → Refuses (.callGroup handset group notify) s .badNumber) ∧
    (∀ (h : HandsetNo) (g : GroupNo), handset.toNat = h.val → group.toNat = g.val →
      let f := s.floor
      let p := handsetPosition h
      let r := f.cnc.handsets.get h
      let x := f.cnc.groups.get g
      let b := groupBridge g
      let before := activeBridge f.cnc h
      let completes (t : State) (stack : List HoldEntry) (mask : Word) : Prop :=
        exec (.callGroup handset group notify) s = .next t ∧
        (let data := bytesOf 1 stack.length ++ bytesOf 2 (bridgeField before) ++ bytesOf 4 mask.toNat
         Completed s { code := .ok, data := data } t)
      let timer (mask : Word) : Option Nat := if mask ≠ 0#32 ∧ x.timeout ≠ 0 then some (x.timeout * 500) else none
      (∀ code, selectGroupCode f h g = some code → Refuses (.callGroup handset group notify) s code) ∧
      (selectGroupCode f h g = none → before = some b → ∃ t, exec (.callGroup handset group notify) s = .next t ∧
        Completed s { code := .ok, data := bytesOf 1 r.stack.length ++ [0xFF#8, 0xFF#8] ++ bytesOf 4 0 } t ∧
        t.floor = f ∧ t.stw = s.stw ∧
        Journalled s (if notify then [.selectDone h b (.group x.state) false .none] else []) t) ∧
      (selectGroupCode f h g = none → before ≠ some b → x.state ≠ .idle →
        ∃ t, completes t (stackAfter f h b).1 0#32 ∧ Connects h b notify s t ∧ GroupJoined h g s t) ∧
      (selectGroupCode f h g = none → before ≠ some b → x.state = .idle → ¬ HeldOn f h b →
        ∃ t mask, completes t (stackAfter f h b).1 mask ∧ Connects h b notify s t ∧
          (∀ q, inMask mask q = true → inMask x.roster q = true ∧ q ≠ p ∧
            ∃ a ∈ t.floor.cnc.ringLists.get q, a.bridge = b ∧ a.reason = .intercom) ∧
          (let n := (handsetMembers t.floor.cnc b).length
           let state : GroupState := if n = 1 then .calling else .active
           t.floor.cnc.groups.get g = { x with state := state, alerted := mask, timer := timer mask } ∧
           ∃ notes, Journalled s notes t ∧ .groupState g .idle state n ∈ notes)) ∧
      (∀ sl, selectGroupCode f h g = none → r.active = none → x.state = .idle → (f.cnc.bridges.get b).members = [] →
        ¬ HeldOn f h b → freeSlot f.cnc = some sl → (∀ q, ∀ a ∈ f.cnc.ringLists.get q, a.bridge ≠ b) →
        ∃ t mask, completes t r.stack mask ∧
          (∀ q, inMask mask q = (inMask x.roster q && decide (q ≠ p) && decide ((f.cnc.ringLists.get q).length < 16))) ∧
          t.floor.cnc.handsets.get h = { r with state := .connected, active := some sl } ∧
          t.floor.cnc.pool.get sl =
            some { kind := .handset h, bridge := b, mode := .active, joinFrame := f.mxe.frame } ∧
          t.floor.cnc.groups.get g = { x with state := .calling, alerted := mask, timer := timer mask } ∧
          (∀ q, t.floor.cnc.ringLists.get q = if inMask mask q then f.cnc.ringLists.get q ++
            [{ bridge := b, reason := .intercom, cadence := x.cadence, arrival := f.mxe.frame }]
            else f.cnc.ringLists.get q) ∧
          (let rung := (maskPositions x.roster).filter (fun q => q ≠ p)
           let done : List NoteBody := if notify then [.selectDone h b (.group .calling) false .none] else []
           Journalled s (.groupState g .idle .calling 1 :: (alertDroppedNotes f.cnc b .intercom rung ++ done)) t) ∧
          OtherHandsets h f t.floor ∧ CallsOnly f t.floor))

/-- HOLD and RETRIEVE: their checks; the call held is pushed, and the top entry's member is ACTIVE again; the lines follow
their handset members, with the cut of the SPEAKER members on them. The order of their refusals is the model's choice (entry
40). Log entries 5 and 40. -/
def Obligations.HoldPushesAndRetrievePops : Prop :=
  ∀ (handset : Byte) (s : State),
    (Turn (.hold handset) false s →
      (64 ≤ handset.toNat → Refuses (.hold handset) s .badNumber) ∧
      (∀ h : HandsetNo, handset.toNat = h.val →
        let r := s.floor.cnc.handsets.get h
        (activeBridge s.floor.cnc h = none → Refuses (.hold handset) s .notConnected) ∧
        (activeBridge s.floor.cnc h ≠ none → 4 ≤ r.stack.length → Refuses (.hold handset) s .holdFull) ∧
        (∀ b, activeBridge s.floor.cnc h = some b → r.stack.length < 4 → ∃ t, exec (.hold handset) s = .next t ∧
          Completed s { code := .ok, data := bytesOf 1 (r.stack.length + 1) } t ∧
          t.floor.cnc.handsets.get h = { state := .idle, active := none
                                         stack := { bridge := b, holdFrame := s.floor.mxe.frame, recalled := false } ::
                                           r.stack } ∧
          (∀ sl m, r.active = some sl → handsetSlot s.floor.cnc b h = some sl → s.floor.cnc.pool.get sl = some m →
            t.floor.cnc.pool.get sl = some { m with mode := .held } ∧
            ∀ l, b = lineBridge l → CallChanged l (withMode sl .held (handsetMembers s.floor.cnc b)) s.floor t.floor) ∧
          (∀ g, b = groupBridge g → t.floor.lsv = s.floor.lsv) ∧
          OtherHandsets h s.floor t.floor ∧ CallsOnly s.floor t.floor))) ∧
    (Turn (.retrieve handset) false s →
      (64 ≤ handset.toNat → Refuses (.retrieve handset) s .badNumber) ∧
      (∀ h : HandsetNo, handset.toNat = h.val →
        let r := s.floor.cnc.handsets.get h
        let p := handsetPosition h
        let up := (s.floor.plp.links.get p).up = true ∧ r.state ≠ .onHook
        (¬ up → Refuses (.retrieve handset) s .onHook) ∧
        (up → r.stack = [] → Refuses (.retrieve handset) s .nothingHeld) ∧
        (∀ top rest, up → r.stack = top :: rest → ∃ t, exec (.retrieve handset) s = .next t ∧
          (let stack := (stackAfter s.floor h top.bridge).1
           (t.floor.cnc.handsets.get h).stack = stack ∧
           Completed s { code := .ok, data := bytesOf 2 top.bridge.val ++ bytesOf 1 stack.length } t ∧
           (∀ sl, HeldAt s.floor h top.bridge sl →
            t.floor.cnc.handsets.get h = { state := .connected, active := some sl, stack := stack } ∧
            t.floor.cnc.pool.get sl = (s.floor.cnc.pool.get sl).map (fun m => { m with mode := .active }))) ∧
          (CallsSound s.floor.cnc h → activeBridge s.floor.cnc h ≠ some top.bridge →
            handsetSlot s.floor.cnc top.bridge h ≠ none → CallMoved h top.bridge s.floor t.floor) ∧
          OtherHandsets h s.floor t.floor ∧ CallsOnly s.floor t.floor)))

/-- RELEASE and DROP_HELD: their checks; the member goes, the handset or its stack with it; the line follows its handset
members, with the cut of its SPEAKER members; a group that loses its last member ends its alerts and its announcements. Log
entry 5. -/
def Obligations.ReleaseAndDropHeldRemoveTheMember : Prop :=
  ∀ (handset : Byte) (bridge : Half) (s : State),
    (Turn (.release handset) false s →
      (64 ≤ handset.toNat → Refuses (.release handset) s .badNumber) ∧
      (∀ h : HandsetNo, handset.toNat = h.val →
        let r := s.floor.cnc.handsets.get h
        (activeBridge s.floor.cnc h = none → Refuses (.release handset) s .notConnected) ∧
        (∀ b sl, activeBridge s.floor.cnc h = some b → r.active = some sl → ∃ t, exec (.release handset) s = .next t ∧
          Completed s { code := .ok, data := bytesOf 2 b.val } t ∧
          t.floor.cnc.handsets.get h = { state := .idle, active := none, stack := r.stack } ∧
          t.floor.cnc.pool.get sl = none ∧ OtherHandsets h s.floor t.floor ∧ CallsOnly s.floor t.floor ∧
          (∀ l, b = lineBridge l → handsetSlot s.floor.cnc b h = some sl →
            CallChanged l (withoutSlot sl (handsetMembers s.floor.cnc b)) s.floor t.floor) ∧
          ∀ g, let x := s.floor.cnc.groups.get g
            let ended := alertEndNotes s.floor.cnc b coversIntercom allPositions .abandoned
            (b = groupBridge g → t.floor.lsv = s.floor.lsv) ∧
            (b = groupBridge g → (handsetMembers s.floor.cnc b).map (fun x => x.1) = [sl] → x.state ≠ .idle →
            t.floor.cnc.groups.get g = { x with state := .idle, timer := none, alerted := 0 } ∧
            Journalled s (.groupState g x.state .idle 0 :: (ended ++ announceEndNotes s.floor.cnc b)) t ∧
            ∀ p d, (t.floor.cnc.channels.get p).get d = ((s.floor.cnc.channels.get p).get d).withoutSource b)))) ∧
    (Turn (.dropHeld handset bridge) false s →
      (64 ≤ handset.toNat ∨ 352 ≤ bridge.toNat → Refuses (.dropHeld handset bridge) s .badNumber) ∧
      (∀ (h : HandsetNo) (b : BridgeNo), handset.toNat = h.val → bridge.toNat = b.val →
        let r := s.floor.cnc.handsets.get h
        let stack := r.stack.filter (fun e => e.bridge ≠ b)
        ((∀ e ∈ r.stack, e.bridge ≠ b) → Refuses (.dropHeld handset bridge) s .nothingHeld) ∧
        ((∃ e ∈ r.stack, e.bridge = b) → ∃ t, exec (.dropHeld handset bridge) s = .next t ∧
          Completed s { code := .ok, data := bytesOf 1 stack.length } t ∧
          t.floor.cnc.handsets.get h = { r with stack := stack } ∧
          (∀ sl, handsetSlot s.floor.cnc b h = some sl → t.floor.cnc.pool.get sl = none ∧
            ∀ l, b = lineBridge l → slotBridge s.floor.cnc sl = some b →
              CallChanged l (withoutSlot sl (handsetMembers s.floor.cnc b)) s.floor t.floor) ∧
          (∀ g, b = groupBridge g → PoolSound s.floor.cnc → t.floor.lsv = s.floor.lsv) ∧
          OtherHandsets h s.floor t.floor ∧ CallsOnly s.floor t.floor)))

/-! ### Groups and hoots -/

/-- SET_GROUP: its checks, the configuration, and what a position removed from the roster loses: its alert, and its
assigned SPEAKER member. Log entry 5. -/
def Obligations.SetGroupReplacesTheRoster : Prop :=
  ∀ (a : SetGroupArgs) (s : State), Turn (.setGroup a) false s →
    (64 ≤ a.group.toNat ∨ 8 ≤ a.cadence.toNat → Refuses (.setGroup a) s .badNumber) ∧
    (∀ (g : GroupNo) (c : CadenceNo), a.group.toNat = g.val → a.cadence.toNat = c.val →
      let r := s.floor.cnc.groups.get g
      let n := (maskPositions a.roster).length
      let removed (p : PositionNo) : Bool := inMask r.roster p && !inMask a.roster p
      (8 < n → Refuses (.setGroup a) s .badValue) ∧
      (n ≤ 8 → ∃ t, exec (.setGroup a) s = .next t ∧
        Completed s { code := .ok, data := bytesOf 1 (GroupState.code r.state) ++ bytesOf 1 n } t ∧
        (let after := t.floor.cnc.groups.get g
         after = { r with
          roster := a.roster, timeout := min 120 a.timeout.toNat, cadence := c, alerted := after.alerted
          timer := after.timer } ∧
         (∀ p, inMask after.alerted p = (inMask r.alerted p && !removed p)) ∧
         after.timer = if r.alerted ≠ 0#32 ∧ after.alerted = 0#32 then none else r.timer) ∧
        (∀ p, removed p = true → inMask r.alerted p = true → ∀ x ∈ t.floor.cnc.ringLists.get p,
          x.bridge = groupBridge g → x.reason ≠ .intercom) ∧
        (∀ p, (removed p && inMask r.alerted p) = false →
          t.floor.cnc.ringLists.get p = s.floor.cnc.ringLists.get p) ∧
        Journalled s (((List.finRange 32).filter (fun p => removed p && inMask r.alerted p)).flatMap
          (fun p => alertEndNotes s.floor.cnc (groupBridge g) coversIntercom [p] .removed)) t ∧
        (∀ p d sl m, removed p = true → speakerMember s.floor.cnc (groupBridge g) p = some (sl, m) →
          m.kind = .speaker p d →
          let x := (s.floor.cnc.channels.get p).get d
          let without (e : ChannelEntry) : ChannelEntry :=
            if e.member = some sl then { e with source := none, member := none } else e
          ((∃ e ∈ x.current :: x.stack, e.origin = .assigned ∧ e.member = some sl) →
            t.floor.cnc.pool.get sl = none ∧ .position p ∈ t.stw.queue ∧
            (t.floor.cnc.channels.get p).get d = { current := without x.current, stack := x.stack.map without } ∧
            (x.current.member = some sl → (t.floor.mxe.channelGains.get p).get d = 0)) ∧
          ((∀ e ∈ x.current :: x.stack, e.origin = .assigned → e.member ≠ some sl) →
            t.floor.cnc.channels.get p = s.floor.cnc.channels.get p)) ∧
        (∀ p, removed p = false → t.floor.cnc.channels.get p = s.floor.cnc.channels.get p) ∧
        (∀ k, k ≠ g → t.floor.cnc.groups.get k = s.floor.cnc.groups.get k) ∧
        t.floor.cnc.handsets = s.floor.cnc.handsets ∧ t.floor.lsv = s.floor.lsv ∧ t.floor.ltm = s.floor.ltm ∧
        t.floor.lhp = s.floor.lhp ∧ t.floor.plp = s.floor.plp ∧ t.floor.cnc.hoots = s.floor.cnc.hoots ∧
        t.floor.cnc.talks = s.floor.cnc.talks ∧ t.floor.cnc.settings = s.floor.cnc.settings))

/-- SET_HOOT: its checks in order, the configuration, the legs (a removed one IDLE, or FAULT where its accepted code
is FAULT), lost talks and assigned SPEAKER members, bumped talkers and the grant pass at its end. Log entries 5, 12
and 22. -/
def Obligations.SetHootReplacesTheHoot : Prop :=
  ∀ (a : SetHootArgs) (s : State), Turn (.setHoot a) false s →
    let fields := [a.leg0, a.leg1].take a.legCount.toNat
    (32 ≤ a.hoot.toNat ∨ (∃ x ∈ fields, 256 ≤ x.toNat) → Refuses (.setHoot a) s .badNumber) ∧
    (∀ (k : HootNo) (named : List LineNo), a.hoot.toNat = k.val → fields.map BitVec.toNat = named.map Fin.val →
      let r := s.floor.cnc.hoots.get k
      let fresh := named.filter (fun l => l ∉ r.legs)
      let bad (l : LineNo) : Option ResultCode :=
        if (s.floor.lsv.get l).cfg.kind ≠ .opened then some .wrongKind
        else if (s.floor.lsv.get l).state ≠ .idle ∨ (s.floor.cnc.bridges.get (lineBridge l)).members ≠ [] then
          some .notIdle
        else none
      let talk (p : PositionNo) : TalkRec := s.floor.cnc.talks.get p
      let lost (p : PositionNo) : Bool := (talk p).target = some k && inMask r.roster p && inMask r.talk p &&
        !(inMask a.roster p && inMask a.talk p)
      let talkers := (micMembers s.floor.cnc (hootBridge k)).map (fun x => x.2)
      let limit := clampTo 1 4 a.limit.toNat
      let bumped := (talkers.filter (fun p => !lost p)).drop limit
      (2 < a.legCount.toNat ∨ ¬ named.Nodup → Refuses (.setHoot a) s .badValue) ∧
      (∀ code, a.legCount.toNat ≤ 2 → named.Nodup → fresh.findSome? bad = some code → Refuses (.setHoot a) s code) ∧
      (a.legCount.toNat ≤ 2 → named.Nodup → (∀ l ∈ fresh, bad l = none) → ∃ t n notes, exec (.setHoot a) s = .next t ∧
        (let data := bytesOf 1 (talkerCount t.floor.cnc k) ++ bytesOf 1 (t.floor.cnc.hoots.get k).queue.length ++
          bytesOf 1 n
         Completed s { code := .ok, data := data } t) ∧
        (talkerCount s.floor.cnc k ≤ limit → n = 0) ∧ Journalled s notes t ∧
        (let after := t.floor.cnc.hoots.get k
         after.roster = a.roster ∧ after.talk = a.talk &&& a.roster ∧ after.limit = limit ∧
         after.priority = clampTo 1 7 a.priority.toNat ∧ (∀ l, l ∈ after.legs ↔ l ∈ named) ∧
         (after.queue = [] ∨ canGrant (Work.of t.floor) k = false)) ∧
        (∀ l ∈ fresh, t.floor.lsv.get l = { s.floor.lsv.get l with state := .leg, dead := 0 }) ∧
        (∀ l ∈ r.legs, l ∉ named → (t.floor.lsv.get l).state ≠ .leg ∧
          let x := s.floor.lsv.get l
          ((s.floor.cnc.bridges.get (lineBridge l)).members = [] →
            (x.accepted ≠ .fault → t.floor.lsv.get l = { x with state := .idle, dead := 0 }) ∧
            (x.accepted = .fault → .lineFault l .farEnd .idle ∈ notes ∧
              t.floor.lsv.get l = { x with
                state := .fault, cause := .farEnd, candidate := none, run := 0, dead := 0, knock := none
                alertingSince := none, ringOut := none }))) ∧
        (∀ p d sl m, inMask r.roster p = true → inMask a.roster p = false →
          (∀ l ∈ r.legs, l ∉ named → (s.floor.lsv.get l).accepted ≠ .fault) →
          speakerMember s.floor.cnc (hootBridge k) p = some (sl, m) → m.kind = .speaker p d →
          let x := (s.floor.cnc.channels.get p).get d
          let without (e : ChannelEntry) : ChannelEntry :=
            if e.member = some sl then { e with source := none, member := none } else e
          ((∃ e ∈ x.current :: x.stack, e.origin = .assigned ∧ e.member = some sl) →
            (∀ y, t.floor.cnc.pool.get sl = some y → y.speaker? = none) ∧ .position p ∈ t.stw.queue ∧
            (t.floor.cnc.channels.get p).get d = { current := without x.current, stack := x.stack.map without } ∧
            (x.current.member = some sl → (t.floor.mxe.channelGains.get p).get d = 0)) ∧
          ((∀ e ∈ x.current :: x.stack, e.origin = .assigned → e.member ≠ some sl) →
            t.floor.cnc.channels.get p = s.floor.cnc.channels.get p)) ∧
        (∀ p, lost p = true → (t.floor.cnc.talks.get p).target = none) ∧
        (∀ p, lost p = true → (p ∈ r.queue → (talk p).status = .queued) →
          (p ∈ talkers → (talk p).status = .talking) → talkers.Nodup →
          (let finished : TalkRec := { talk p with target := none, status := .idle }
           t.floor.cnc.talks.get p = finished) ∧
          ((talk p).status ≠ .idle → .pttEnd p k .roster (talk p).status ∈ notes)) ∧
        ((∀ p ∈ r.queue, (talk p).status = .queued) → (∀ p ∈ talkers, (talk p).status = .talking) → talkers.Nodup →
          n = bumped.length ∧ (∀ i p, bumped[i]? = some p → .pttBumped p k (i + 1) ∈ notes) ∧
          ∃ m, (t.floor.cnc.hoots.get k).queue = (bumped ++ r.queue.filter (fun p => !lost p)).drop m) ∧
        (∀ j, j ≠ k → t.floor.cnc.hoots.get j = s.floor.cnc.hoots.get j) ∧ .hoot k ∈ t.stw.queue ∧
        t.floor.lhp = s.floor.lhp ∧ t.floor.ltm = s.floor.ltm ∧ t.floor.plp = s.floor.plp ∧
        t.floor.cnc.settings = s.floor.cnc.settings ∧ t.floor.cnc.appearances = s.floor.cnc.appearances))

/-- R112: PTT_TARGET, its checks in order, and the target written alone. Log entry 5. -/
def Obligations.PttTargetIsWrittenAlone : Prop :=
  ∀ (position hoot : Byte) (s : State), Turn (.pttTarget position hoot) false s →
    (32 ≤ position.toNat ∨ (32 ≤ hoot.toNat ∧ hoot.toNat ≠ 255) → Refuses (.pttTarget position hoot) s .badNumber) ∧
    (∀ (p : PositionNo) (target : Option HootNo), position.toNat = p.val →
      hoot.toNat = (match target with
        | some k => k.val
        | none => 255) →
      let x := s.floor.cnc.talks.get p
      let allowed := ∀ k, target = some k →
        inMask (s.floor.cnc.hoots.get k).roster p = true ∧ inMask (s.floor.cnc.hoots.get k).talk p = true
      (x.status ≠ .idle → Refuses (.pttTarget position hoot) s .micBusy) ∧
      (x.status = .idle → ¬ allowed → Refuses (.pttTarget position hoot) s .notRostered) ∧
      (x.status = .idle → allowed → ∃ t, exec (.pttTarget position hoot) s = .next t ∧
        Completed s { code := .ok, data := [match x.target with
          | some k => BitVec.ofNat 8 k.val
          | none => 0xFF#8] } t ∧
        t.floor = { s.floor with cnc := { s.floor.cnc with talks := s.floor.cnc.talks.set p { x with target := target } } } ∧
        t.jnu = s.jnu ∧ (x.target ≠ target → .position p ∈ t.stw.queue) ∧ (x.target = target → t.stw = s.stw)))

/-! ### Speaker channels -/

/-- ASSIGN_SPEAKER: its checks in order, and the entry it changes: the current one of a channel with no saved entry,
else the base; another source takes the slot of the old one when the pool is full. SPEAKER_GAIN: the current entry's
target alone. A new current member is CUT where the cut condition holds against its position (R13): on a PRIVATE line whose
handset member is of another position, nowhere else. Log entry 5. -/
def Obligations.SpeakersTakeTheirSourceAndGain : Prop :=
  (∀ (a : AssignArgs) (s : State), Turn (.assignSpeaker a) false s →
    let gain := min 8191 a.gain.toNat
    (32 ≤ a.position.toNat ∨ 8 ≤ a.channel.toNat ∨ (352 ≤ a.source.toNat ∧ a.source ≠ 0xFFFF#16) →
      Refuses (.assignSpeaker a) s .badNumber) ∧
    (∀ (p : PositionNo) (c : ChannelNo), a.position.toNat = p.val → a.channel.toNat = c.val →
      let r := (s.floor.cnc.channels.get p).get c
      let base := (r.stack.getLast?).getD r.current
      let data := bytesOf 2 (bridgeField base.source) ++ bytesOf 1 (if r.stack = [] then 0 else 1)
      let changed (e : ChannelEntry) : ChannelRec :=
        if r.stack = [] then { r with current := e } else { r with stack := r.stack.dropLast ++ [e] }
      let done (t : State) (e : ChannelEntry) : Prop := exec (.assignSpeaker a) s = .next t ∧
        Completed s { code := .ok, data := data } t ∧ t.jnu = s.jnu ∧ (t.floor.cnc.channels.get p).get c = changed e ∧
        (∀ q d, (q, d) ≠ (p, c) → (t.floor.cnc.channels.get q).get d = (s.floor.cnc.channels.get q).get d) ∧
        t.floor.cnc.handsets = s.floor.cnc.handsets ∧ t.floor.lsv = s.floor.lsv ∧
        t.floor.cnc.hoots = s.floor.cnc.hoots ∧ t.floor.cnc.groups = s.floor.cnc.groups ∧
        t.floor.cnc.ringLists = s.floor.cnc.ringLists
      (a.source.toNat < 352 ∨ a.source = 0xFFFF#16 → 2 ≤ a.side.toNat → Refuses (.assignSpeaker a) s .badValue) ∧
      (∀ side, sideArg a.side = some side → a.source = 0xFFFF#16 → ∃ t,
        done t { base with source := none, member := if base.source = none then base.member else none
                           target := gain, side := side } ∧
        (∀ sl, base.source ≠ none → base.member = some sl → t.floor.cnc.pool.get sl = none) ∧
        (base.source ≠ none → r.stack = [] → (t.floor.mxe.channelGains.get p).get c = 0)) ∧
      (∀ side (b : BridgeNo), sideArg a.side = some side → a.source.toNat = b.val →
        (∀ code, assignCode s.floor p c b = some code → Refuses (.assignSpeaker a) s code) ∧
        (assignCode s.floor p c b = none → base.source = some b → ∃ t,
          done t { base with target := gain, side := side } ∧ t.floor.cnc.pool = s.floor.cnc.pool ∧
          t.floor.mxe = s.floor.mxe) ∧
        (assignCode s.floor p c b = none → base.source ≠ some b → ∃ t sl m,
          (∀ old, base.member = some old → (freeSlot s.floor.cnc = none → sl = old) ∧
            (old ≠ sl → t.floor.cnc.pool.get old = none)) ∧
          done t { base with source := some b, member := some sl, target := gain, side := side } ∧
          t.floor.cnc.pool.get sl = some m ∧ m.kind = .speaker p c ∧ m.bridge = b ∧
          m.joinFrame = s.floor.mxe.frame ∧
          m.mode = (if r.stack = [] then (if cutAgainst t.floor b p then .cut else .active) else .suspended) ∧
          (r.stack = [] → (t.floor.mxe.channelGains.get p).get c = 0))))) ∧
  (∀ (f : Floor) (p : PositionNo),
    (∀ l q, HeldBy f l q → (cutAgainst f (lineBridge l) p = true ↔ p ≠ q)) ∧
    (∀ l, NotHeld f l → cutAgainst f (lineBridge l) p = false) ∧
    (∀ b : BridgeNo, 256 ≤ b.val → cutAgainst f b p = false)) ∧
  (∀ (position channel : Byte) (gain : Half) (s : State), Turn (.speakerGain position channel gain) false s →
    (32 ≤ position.toNat ∨ 8 ≤ channel.toNat → Refuses (.speakerGain position channel gain) s .badNumber) ∧
    (∀ (p : PositionNo) (c : ChannelNo), position.toNat = p.val → channel.toNat = c.val →
      let r := (s.floor.cnc.channels.get p).get c
      let after : ChannelRec := { r with current := { r.current with target := min 8191 gain.toNat } }
      ∃ t, exec (.speakerGain position channel gain) s = .next t ∧
        Completed s { code := .ok, data := bytesOf 2 r.current.target } t ∧ t.jnu = s.jnu ∧ t.stw = s.stw ∧
        t.floor = { s.floor with cnc := { s.floor.cnc with
          channels := s.floor.cnc.channels.set p ((s.floor.cnc.channels.get p).set c after) } }))

/-- ANNOUNCE: its checks; what it finds at one position, row by row of R126, and the push of R127: the preempted
member SUSPENDED, the new one ACTIVE or CUT; and a mask of several positions, which is served from the lowest: as by two
orders sent directly, with no order in progress. Log entry 5. -/
def Obligations.AnnounceReachesThePositionsItMay : Prop :=
  ∀ (source : Half) (priority : Byte) (mask : Word) (s : State), Turn (.announce source priority mask) false s →
    (352 ≤ source.toNat → Refuses (.announce source priority mask) s .badNumber) ∧
    (∀ b : BridgeNo, source.toNat = b.val →
      let used : Option Nat := if 7 < priority.toNat then none
        else if priority.toNat = 0 then (match bridgeKind b with
          | .hoot k => some (s.floor.cnc.hoots.get k).priority
          | _ => none)
        else some priority.toNat
      let ended : Bool := match bridgeKind b with
        | .line l => (s.floor.lsv.get l).state ∈ [LineState.disabled, .fault, .leg]
        | .group g => (s.floor.cnc.groups.get g).state = .idle
        | .hoot _ => false
      (used = none → Refuses (.announce source priority mask) s .badValue) ∧
      (used ≠ none → ended = true → Refuses (.announce source priority mask) s .lineUnavailable) ∧
      (∀ n, used = some n → ended = false → ∃ t reached, exec (.announce source priority mask) s = .next t ∧
        Completed s { code := .ok, data := bytesOf 4 reached.toNat ++ bytesOf 1 n } t ∧ t.jnu = s.jnu ∧
        (∀ p, inMask reached p = true → inMask mask p = true) ∧
        (∀ p c, (inMask reached p = false ∨ c ≠ (s.floor.cnc.settings.get p).announceChannel) →
          (t.floor.cnc.channels.get p).get c = (s.floor.cnc.channels.get p).get c) ∧
        (mask = 0#32 → reached = 0#32 ∧ t.floor = s.floor ∧ t.stw = s.stw) ∧
        (∀ p, mask = maskOf p →
          let settings := s.floor.cnc.settings.get p
          let c := settings.announceChannel
          let r := (s.floor.cnc.channels.get p).get c
          let admitted := r.current.priority < n ∨ settings.nesting = .equalOrHigher ∧ r.current.priority = n
          let unchanged (mask : Word) : Prop := reached = mask ∧ t.floor = s.floor ∧ t.stw = s.stw
          (∀ sl m, speakerMember s.floor.cnc b p = some (sl, m) →
            unchanged (if m.mode = .active then maskOf p else 0#32)) ∧
          (speakerMember s.floor.cnc b p = none → ¬ admitted ∨ 3 ≤ r.stack.length ∨ freeSlot s.floor.cnc = none →
            unchanged 0#32) ∧
          (∀ sl, speakerMember s.floor.cnc b p = none → freeSlot s.floor.cnc = some sl → r.stack.length < 3 → admitted →
            reached = maskOf p ∧
            (let e : ChannelEntry := { source := some b, origin := .announced, priority := n, target := r.current.target
                                       side := r.current.side, member := some sl }
             (t.floor.cnc.channels.get p).get c = { current := e, stack := r.current :: r.stack }) ∧
            t.floor.cnc.pool.get sl = some { kind := .speaker p c, bridge := b, joinFrame := s.floor.mxe.frame
                                             mode := if cutAgainst s.floor b p then .cut else .active } ∧
            (∀ old m, r.current.member = some old → s.floor.cnc.pool.get old = some m →
              t.floor.cnc.pool.get old = some { m with mode := .suspended }) ∧
            (t.floor.mxe.channelGains.get p).get c = 0 ∧ .position p ∈ t.stw.queue)) ∧
        (∀ p rest, mask = maskOf p ||| rest → (∀ q, inMask rest q = true → p < q) →
          let direct : State := { s with oru := { s.oru with order := none } }
          ∃ u v first later, exec (.announce source priority (maskOf p)) direct = .next u ∧
            Completed direct { code := .ok, data := bytesOf 4 first.toNat ++ bytesOf 1 n } u ∧
            (let left : State := { direct with floor := u.floor, stw := u.stw }
             exec (.announce source priority rest) left = .next v ∧
             Completed left { code := .ok, data := bytesOf 4 later.toNat ++ bytesOf 1 n } v) ∧
            reached = first ||| later ∧ t.floor = v.floor ∧ t.stw = v.stw) ∧
        t.floor.cnc.handsets = s.floor.cnc.handsets ∧ t.floor.lsv = s.floor.lsv ∧
        t.floor.cnc.hoots = s.floor.cnc.hoots ∧ t.floor.cnc.groups = s.floor.cnc.groups ∧
        t.floor.cnc.ringLists = s.floor.cnc.ringLists))

/-- END_ANNOUNCE ends the source's announcements on every channel, without notes, and counts them: each ended entry's
member leaves its slot, the entry below becomes current under the cut as it stands, an entry in the middle goes and
the gain stays. Log entry 5. -/
def Obligations.EndAnnounceEndsOnEveryChannel : Prop :=
  ∀ (source : Half) (s : State), Turn (.endAnnounce source) false s →
    (352 ≤ source.toNat → Refuses (.endAnnounce source) s .badNumber) ∧
    (∀ b : BridgeNo, source.toNat = b.val →
      let mine (e : ChannelEntry) : Bool := e.origin = .announced && e.source = some b
      let at_ (x : PositionNo × ChannelNo) : ChannelRec := (s.floor.cnc.channels.get x.1).get x.2
      let hit (x : PositionNo × ChannelNo) : Bool := mine (at_ x).current || (at_ x).stack.any mine
      ∃ t reached, exec (.endAnnounce source) s = .next t ∧
        Completed s { code := .ok, data := bytesOf 2 (allChannels.countP hit) ++ bytesOf 4 reached.toNat } t ∧
        t.jnu = s.jnu ∧ (∀ p, inMask reached p = true ↔ ∃ c, hit (p, c) = true) ∧
        (∀ p c, let r := at_ (p, c)
          (t.floor.cnc.channels.get p).get c =
            if mine r.current then (match r.stack with
              | top :: rest => { current := top, stack := rest }
              | [] => r)
            else { r with stack := r.stack.filter (fun e => !mine e) }) ∧
        (∀ p c top rest, mine (at_ (p, c)).current = true → (at_ (p, c)).stack = top :: rest →
          (t.floor.mxe.channelGains.get p).get c = 0) ∧
        (∀ p c sl, (at_ (p, c)).stack ≠ [] → mine (at_ (p, c)).current = true →
          (at_ (p, c)).current.member = some sl → t.floor.cnc.pool.get sl = none) ∧
        (∀ p c e sl, mine (at_ (p, c)).current = false → (at_ (p, c)).stack.find? mine = some e → e.member = some sl →
          t.floor.cnc.pool.get sl = none) ∧
        (∀ p c, hit (p, c) = true → (at_ (p, c)).stack ≠ [] → .position p ∈ t.stw.queue) ∧
        (∀ p c, (∀ x, hit x = true → x = (p, c)) → (∀ d, CutSettled s.floor d) → ∀ gone sl m,
          s.floor.cnc.pool.get gone = some m → m.kind = .speaker p c → m.bridge = b →
          (∀ top rest below, (at_ (p, c)).stack = top :: rest → mine (at_ (p, c)).current = true →
            (at_ (p, c)).current.member = some gone → top.member = some sl → sl ≠ gone →
            s.floor.cnc.pool.get sl = some below → below.kind = .speaker p c →
            t.floor.cnc.pool.get sl = some { below with
              mode := if cutAgainst s.floor below.bridge p then .cut else .active }) ∧
          (∀ e, mine (at_ (p, c)).current = false → (at_ (p, c)).stack.find? mine = some e → e.member = some gone →
            t.floor.mxe = s.floor.mxe)) ∧
        ((∀ x, hit x = false) → t.floor = s.floor) ∧
        t.floor.cnc.handsets = s.floor.cnc.handsets ∧ t.floor.lsv = s.floor.lsv ∧
        t.floor.cnc.hoots = s.floor.cnc.hoots ∧ t.floor.cnc.groups = s.floor.cnc.groups ∧
        t.floor.cnc.ringLists = s.floor.cnc.ringLists)

/-! ### Recording taps -/

/-- TAP_START: its refusals, the read of the descriptor, the record set up from it, and RUNNING after the second
write, in STOPPING too (the model's choice, entry 45). Log entries 3, 5, 16, 21 and 45. -/
def Obligations.TapStartSetsTheTapUp : Prop :=
  let outcome (o : OrderResult) (s t : State) : Prop := t.oru.lastOutcome = some o ∧
    ∀ d, s.oru.order = some d → t.oru.order = some (if d.taken then { d with outcome := some o, codeWritten := false } else d)
  (∀ (tap : Byte) (s : State), Turn (.tapStart tap) false s →
    (64 ≤ tap.toNat → Refuses (.tapStart tap) s .badNumber) ∧
    (∀ n : TapNo, tap.toNat = n.val →
      let r := s.tpe.taps.get n
      let free := r.state = .stopped ∧ r.closing = false ∧ ∀ x ∈ s.tpe.staging, x.tap ≠ n
      (¬ free → Refuses (.tapStart tap) s .busy) ∧
      (free →
        let asked : Oru := { s.oru with order := s.oru.order.map (fun d => { d with taken := true }) }
        (s.tpe.jobs = [] → exec (.tapStart tap) s = .next { s with
          oru := asked, tpe := { s.tpe with jobs := [.startRead n] }
          mpt := { s.mpt with tpe := { s.mpt.tpe with
            waiting := some { addr := descriptorAddr s n, op := .read 28 } } } }) ∧
        (s.tpe.jobs ≠ [] → exec (.tapStart tap) s = .next { s with
          oru := asked, tpe := { s.tpe with jobs := s.tpe.jobs ++ [.startRead n] } })))) ∧
  (∀ (d : List Byte) (n : TapNo) (s : State) (f : Flight), s.due = [] → s.tpe.jobs = [.startRead n] → d.length = 28 →
    s.mpt.tpe.inFlight = some f → f.fate = .live →
    let base := fieldAt d 0 8
    let frames := fieldAt d 8 2
    let segments := fieldAt d 10 1
    let ended (code : ResultCode) : Prop := ∃ t, exec (.tapStartDescriptorReadDone d) s = .next t ∧
      outcome { code := code, data := [] } s t ∧ t.tpe = { s.tpe with jobs := [] } ∧ t.floor = s.floor ∧
      t.jnu = s.jnu ∧ t.stw = s.stw
    (base = 0 ∨ base % 16 ≠ 0 → ended .badAddress) ∧
    (base ≠ 0 → base % 16 = 0 →
      frames < 16 ∨ 4096 < frames ∨ segments < 2 ∨ 16 < segments ∨ 1 < fieldAt d 11 1 → ended .badValue) ∧
    (∀ mode, base ≠ 0 → base % 16 = 0 → 16 ≤ frames → frames ≤ 4096 → 2 ≤ segments → segments ≤ 16 →
      tapModeArg (fieldAt d 11 1) = some mode → ∃ t, exec (.tapStartDescriptorReadDone d) s = .next t ∧
        (let u := t.tpe.taps.get n
         u.base.toNat = base ∧ u.frames = frames ∧ u.segments = segments ∧ u.mode = mode ∧ u.segment = 0 ∧ u.index = 0 ∧
         u.granted = false ∧ u.filled.toNat = fieldAt d 0x14 4 ∧ u.number = 0#32 ∧ u.stagingDrops = 0 ∧
         u.pendingDrops = 0 ∧ u.episode = false ∧ u.droppedTotal = 0 ∧ u.lastBridge = none ∧
         u.state = (s.tpe.taps.get n).state) ∧
        (let ask : Access := { addr := descriptorAddr s n + 0x10#64, op := .write (bytesOf 4 (fieldAt d 0x14 4)) }
         t.tpe.jobs = [.startFilled n] ∧ t.mpt = { s.mpt with tpe := .asking ask }) ∧
        (∀ k, k ≠ n → t.tpe.taps.get k = s.tpe.taps.get k) ∧ t.tpe.staging = s.tpe.staging ∧ t.floor = s.floor)) ∧
  (∀ (n : TapNo) (s : State) (f : Flight), s.due = [] → s.mpt.tpe.inFlight = some f → f.fate = .live →
    (s.tpe.jobs = [.startFilled n] → exec .tapStartWriteDone s = .next { s with
      tpe := { s.tpe with jobs := [.startTotal n] }
      mpt := { s.mpt with tpe := .asking { addr := descriptorAddr s n + 0x18#64,
                                           op := .write (bytesOf 4 (s.tpe.taps.get n).droppedTotal) } } }) ∧
    (s.tpe.jobs = [.startTotal n] → ∃ t, exec .tapStartWriteDone s = .next t ∧
      outcome { code := .ok, data := bytesOf 4 (s.tpe.taps.get n).filled.toNat } s t ∧
      t.tpe = { s.tpe with jobs := [], taps := s.tpe.taps.set n { s.tpe.taps.get n with state := .running } } ∧
      t.floor = s.floor ∧ t.jnu = s.jnu ∧ ((s.tpe.taps.get n).state ≠ .running → .handset n ∈ t.stw.queue)))

/-- TAP_STOP: a STOPPED tap answers 0; a running one stops and answers 1; with nothing written in its segment and no
open episode it has closed at once. A write of the close goes to the port at once where no other job waits; TAP_GAP and the end
of the episode do not wait for it (the model's choice, entry 46). Log entries 5, 16 and 46. -/
def Obligations.TapStopStopsAndCloses : Prop :=
  ∀ (tap : Byte) (s : State), Turn (.tapStop tap) false s →
    (64 ≤ tap.toNat → Refuses (.tapStop tap) s .badNumber) ∧
    (∀ n : TapNo, tap.toNat = n.val →
      let r := s.tpe.taps.get n
      let empty := ∀ x ∈ s.tpe.staging, x.tap ≠ n
      let descriptor := s.rc.held.tapBase + BitVec.ofNat 64 (64 * n.val)
      let out (v : Byte) (t : State) : Prop := exec (.tapStop tap) s = .next t ∧
        (let beside : State := { t with tpe := s.tpe, mpt := { t.mpt with tpe := s.mpt.tpe } }
         Completed s { code := .ok, data := [v] } beside) ∧ t.floor = s.floor ∧
        t.tpe.staging = s.tpe.staging ∧ ∀ k, k ≠ n → t.tpe.taps.get k = s.tpe.taps.get k
      let stops (t : State) (jobs : List TpeJob) (after : TapRec) : Prop :=
        t.tpe.jobs = s.tpe.jobs ++ jobs ∧ t.tpe.taps.get n = after ∧ .handset n ∈ t.stw.queue
      let writes (t : State) (at_ value : Nat) : Prop :=
        let a : Access := { addr := descriptor + BitVec.ofNat 64 at_, op := .write (bytesOf 4 value) }
        t.mpt.tpe = if s.tpe.jobs = [] then { s.mpt.tpe with waiting := some a } else s.mpt.tpe
      (r.state = .stopped → ∃ t, out 0#8 t ∧ t.tpe = s.tpe ∧ t.mpt.tpe = s.mpt.tpe ∧ t.jnu = s.jnu ∧ t.stw = s.stw) ∧
      (r.state ≠ .stopped → ¬ empty → ∃ t, out 1#8 t ∧ stops t [] { r with state := .stopped, closing := true } ∧
        t.mpt.tpe = s.mpt.tpe ∧ t.jnu = s.jnu) ∧
      (r.state ≠ .stopped → empty → r.granted = true → 0 < r.index → ∃ t, out 1#8 t ∧
        stops t [.closeFilled n] { r with state := .stopped, closing := true, filled := r.filled + 1#32 } ∧
        writes t 0x10 (r.filled + 1#32).toNat ∧ t.jnu = s.jnu) ∧
      (r.state ≠ .stopped → empty → (r.granted = false ∨ r.index = 0) → r.episode = true → ∃ t, out 1#8 t ∧
        stops t [.closeTotal n] { r with state := .stopped, closing := true, episode := false } ∧
        writes t 0x18 r.droppedTotal ∧
        Journalled s [.tapGap n none (min 4294967295 (r.pendingDrops + r.stagingDrops)) r.droppedTotal] t) ∧
      (r.state ≠ .stopped → empty → (r.granted = false ∨ r.index = 0) → r.episode = false → ∃ t, out 1#8 t ∧
        stops t [] { r with state := .stopped, closing := false } ∧ t.mpt.tpe = s.mpt.tpe ∧ t.jnu = s.jnu))

/-- At a frame event a tap that records stages its frame, or counts it dropped when 64 are staged; a frame that the drain has
taken is staged until its handling ends (the model's choice, entry 44). -/
def Obligations.TapsStageTheirFrames : Prop :=
  ∀ (a : Audio) (n : TapNo) (s : State),
    let r := s.tpe.taps.get n
    let h := s.floor.cnc.handsets.get n
    let records := r.state ≠ .stopped ∧ (r.mode = .continuous ∨ h.state = .connected)
    let t := produceTap a s n
    let b := activeBridge s.floor.cnc n
    (¬ records → t = s) ∧
    (records → (∀ k, k ≠ n → t.tpe.taps.get k = s.tpe.taps.get k) ∧ t.floor = s.floor ∧ t.tpe.jobs = s.tpe.jobs ∧
      Journalled s (if b = r.lastBridge then [] else [.tapMark n r.number b r.lastBridge]) t) ∧
    (records → s.tpe.staging.length < 64 →
      t.tpe.taps.get n = { r with number := r.number + 1#32, lastBridge := b, stagingDrops := 0 } ∧
      ∃ x, t.tpe.staging = s.tpe.staging ++ [x] ∧ x.tap = n ∧ x.number = r.number ∧ x.bridge = b ∧
        x.frame = s.floor.mxe.frame ∧ x.snapshot = r.stagingDrops ∧ x.onHook = decide (h.state = .onHook) ∧
        x.heldOrIdle = decide (h.state = .idle) ∧
        (match b.map bridgeKind with
          | some (.line l) =>
            let d := a.delivered.get l
            x.concealed = (d.playing && decide (d.origin ≠ .good)) ∧ x.underflow = !d.playing
          | _ => x.concealed = false ∧ x.underflow = false) ∧ x.ear = (a.ears.get n).block ∧ x.mic = a.mics.get n) ∧
    (records → 64 ≤ s.tpe.staging.length → t.tpe.staging = s.tpe.staging ∧
      t.tpe.taps.get n = { r with
        number := r.number + 1#32, lastBridge := b, stagingDrops := min 4294967295 (r.stagingDrops + 1)
        droppedTotal := min 4294967295 (r.droppedTotal + 1), episode := true })

/-- The drain: what each of TPE's jobs reads or writes, and where its completion leads - the head's segment is granted
or withheld, its frame written, the dropped total and filled follow, and a closing tap closes when its last frame has
left. A take without a frame, or with a job, changes nothing (the model's choice, entry 4); the drop episode closes at a frame
with GAP alone (DEDUCED, entry 43); the head stays staged until its handling ends (entry 44), and TAP_GAP and the end of an
episode do not wait for the write of the dropped total (entry 46): the model's choices. A job that waits behind others asks for
its access when it comes to the front. Log entries 3, 4, 16, 17, 32, 43, 44 and
46. -/
def Obligations.TheDrainWritesFramesInOrder : Prop :=
  (∀ (n : TapNo) (s : State),
    let r := s.tpe.taps.get n
    let descriptor := s.rc.held.tapBase + BitVec.ofNat 64 (64 * n.val)
    let filled : Option Access := some { addr := descriptor + 0x10#64, op := .write (bytesOf 4 r.filled.toNat) }
    let total : Option Access := some { addr := descriptor + 0x18#64, op := .write (bytesOf 4 r.droppedTotal) }
    tpeAccess s (.segmentFilled n) = filled ∧ tpeAccess s (.closeFilled n) = filled ∧
    tpeAccess s (.gapTotal n) = total ∧ tpeAccess s (.closeTotal n) = total ∧
    (∀ x rest, s.tpe.staging = x :: rest → x.tap = n →
      let dropped := min 4294967295 (r.pendingDrops + x.snapshot)
      let place := r.base + BitVec.ofNat 64 ((r.segment * r.frames + r.index) * 144)
      tpeAccess s .readReturned = some { addr := descriptor + 0x14#64, op := .read 4 } ∧
      let bytes := tapFrameBytes x (0 < dropped) dropped
      let field (o w : Nat) : Nat := fieldAt bytes o w
      tpeAccess s .writeFrame = some { addr := place, op := .write bytes } ∧ bytes.length = 144 ∧
      field 0x00 4 = x.number.toNat ∧ field 0x04 2 = (x.bridge.map Fin.val).getD 0xFFFF ∧
      field 0x06 1 = bit (decide (0 < dropped)) + 2 * bit x.concealed + 4 * bit x.underflow + 8 * bit x.heldOrIdle +
        16 * bit x.onHook ∧
      field 0x07 1 = n.val ∧ field 0x08 4 = x.frame.toNat ∧ field 0x0C 4 = dropped ∧
      ∀ i : Fin 32, field (0x10 + 2 * i.val) 2 = (x.ear.get i).toNat ∧
        field (0x50 + 2 * i.val) 2 = (x.mic.get i).toNat)) ∧
  (∀ s : State, s.due = [] →
    (s.tpe.staging = [] ∨ s.tpe.jobs ≠ [] → exec .stagingDrainTake s = .next s) ∧
    (∀ x rest, s.tpe.staging = x :: rest → s.tpe.jobs = [] →
      let job : TpeJob := if (s.tpe.taps.get x.tap).granted then .writeFrame else .readReturned
      exec .stagingDrainTake s = .next { s with
        tpe := { s.tpe with jobs := [job] }
        mpt := { s.mpt with tpe := { s.mpt.tpe with waiting := tpeAccess s job } } })) ∧
  ∀ (n : TapNo) (s : State) (f : Flight) (job : TpeJob) (more : List TpeJob), s.due = [] →
    s.mpt.tpe.inFlight = some f → f.fate = .live → s.tpe.jobs = job :: more →
    let r := s.tpe.taps.get n
    let asks (t asked : State) (jobs : List TpeJob) : Prop := t.tpe.jobs = jobs ∧
      t.mpt = { s.mpt with tpe :=
        { waiting := (jobs.head?.bind (tpeAccess asked)).or s.mpt.tpe.waiting, inFlight := none } } ∧
      t.floor = s.floor ∧ t.rc = s.rc ∧ t.oru = s.oru ∧ ∀ k, k ≠ n → t.tpe.taps.get k = s.tpe.taps.get k
    let goes (t : State) (jobs : List TpeJob) : Prop := asks t t jobs
    let closes (c : Instr) (staged : List StagedFrame) (pre : List NoteBody) (u : TapRec) : Prop :=
      let last : NoteBody := .tapGap n none (min 4294967295 (u.pendingDrops + u.stagingDrops)) u.droppedTotal
      ∃ t, exec c s = .next t ∧ t.tpe.staging = staged ∧ .handset n ∈ t.stw.queue ∧
        (u.episode = true → goes t (more ++ [.closeTotal n]) ∧ Journalled s (pre ++ [last]) t ∧
          t.tpe.taps.get n = { u with episode := false }) ∧
        (u.episode = false → goes t more ∧ Journalled s pre t ∧ t.tpe.taps.get n = { u with closing := false })
    (∀ x rest, s.tpe.staging = x :: rest → x.tap = n →
      let ends (c : Instr) (pre : List NoteBody) (u : TapRec) : Prop :=
        (u.closing = false ∨ (∃ y ∈ rest, y.tap = n) → ∃ t, exec c s = .next t ∧ goes t more ∧ t.tpe.staging = rest ∧
          Journalled s pre t ∧ t.tpe.taps.get n = u ∧ (u.state ≠ r.state → .handset n ∈ t.stw.queue)) ∧
        (u.closing = true → (∀ y ∈ rest, y.tap ≠ n) → u.granted = true → 0 < u.index → ∃ t, exec c s = .next t ∧
          (let unrisen : State := { t with tpe := { t.tpe with taps := t.tpe.taps.set n u } }
           asks t (if more = [] then t else unrisen) (more ++ [.closeFilled n])) ∧
          t.tpe.staging = rest ∧ Journalled s pre t ∧ t.tpe.taps.get n = { u with filled := u.filled + 1#32 } ∧
          (u.state ≠ r.state → .handset n ∈ t.stw.queue)) ∧
        (u.closing = true → (∀ y ∈ rest, y.tap ≠ n) → u.granted = false ∨ u.index = 0 → closes c rest pre u)
      let dropped := min 4294967295 (r.pendingDrops + x.snapshot)
      let written : TapRec := { r with
        index := r.index + 1, pendingDrops := 0, lastWritten := x.number, episode := r.episode && decide (dropped = 0) }
      (∀ v : Word, job = .readReturned → (r.filled - v).toNat < r.segments → ∃ t,
        exec (.tapReturnedReadDone v) s = .next t ∧ goes t (.writeFrame :: more) ∧ t.jnu = s.jnu ∧
        t.tpe.staging = s.tpe.staging ∧ t.tpe.taps.get n = { r with
          returned := v, granted := true, state := if r.state = .dropping then .running else r.state } ∧
        (r.state = .dropping → .handset n ∈ t.stw.queue)) ∧
      (∀ v : Word, job = .readReturned → r.segments ≤ (r.filled - v).toNat →
        ends (.tapReturnedReadDone v) [] { r with
          returned := v, pendingDrops := min 4294967295 (r.pendingDrops + (1 + x.snapshot))
          droppedTotal := min 4294967295 (r.droppedTotal + 1), episode := true
          state := if r.state = .running then .dropping else r.state }) ∧
      (job = .writeFrame → dropped = 0 → r.index + 1 < r.frames → ends .tapFrameWriteDone [] written) ∧
      (job = .writeFrame → dropped = 0 → r.frames ≤ r.index + 1 → ∃ t, exec .tapFrameWriteDone s = .next t ∧
        goes t (.segmentFilled n :: more) ∧ t.jnu = s.jnu ∧ t.tpe.staging = s.tpe.staging ∧
        t.tpe.taps.get n = { written with filled := r.filled + 1#32 }) ∧
      (job = .writeFrame → 0 < dropped →
        let full := r.frames ≤ r.index + 1
        ∃ t, exec .tapFrameWriteDone s = .next t ∧
          goes t (.gapTotal n :: ((if full then [.segmentFilled n] else []) ++ more)) ∧
          Journalled s [.tapGap n (some x.number) dropped r.droppedTotal] t ∧ .handset n ∈ t.stw.queue ∧
          t.tpe.staging = s.tpe.staging ∧
          t.tpe.taps.get n = { written with filled := if full then r.filled + 1#32 else r.filled }) ∧
      (∀ k later, job = .gapTotal n → more = .segmentFilled k :: later → ∃ t,
        exec .tapDroppedTotalWriteDone s = .next t ∧ goes t more ∧ t.jnu = s.jnu ∧
        t.tpe.staging = s.tpe.staging ∧ t.tpe.taps = s.tpe.taps) ∧
      (job = .gapTotal n → (∀ k, more.head? ≠ some (.segmentFilled k)) → ends .tapDroppedTotalWriteDone [] r) ∧
      (job = .segmentFilled n →
        ends .tapFilledWriteDone [.tapSegment n r.segment r.filled r.frames r.lastWritten] { r with
          segment := if r.segment + 1 < r.segments then r.segment + 1 else 0, index := 0, granted := false })) ∧
    (job = .closeFilled n → closes .tapFilledWriteDone s.tpe.staging
      [.tapSegment n r.segment r.filled r.index r.lastWritten] r) ∧
    (job = .closeTotal n → ∃ t, exec .tapDroppedTotalWriteDone s = .next t ∧ goes t more ∧ t.jnu = s.jnu ∧
      t.tpe.staging = s.tpe.staging ∧ t.tpe.taps.get n = { r with closing := false } ∧
      (r.closing = true → .handset n ∈ t.stw.queue))

/-! ### The memory port, the journal and the status image -/

/-- MPT issues in the fixed order; an error or a timeout sets MEM_FAULT, abandons the access and lets the requester
act by its rule; of an access that STOP or a reset gave up no completion changes a record; a late one changes nothing. An
issue without a ready port changes nothing (entry 4), the timeout of a read is the sender's command (entry 7), and it frees
the port of a read given up by a reset (entry 38), and a TAP_START that ends at one of its writes keeps the tap record it has
set up (entry 42): the model's choices. Log entries 3, 4, 5, 7, 15, 16, 21, 25, 26, 38 and 42. -/
def Obligations.TheMemoryPortServesInFixedOrder : Prop :=
  ∀ (r : Requester) (s : State), s.due = [] →
    let ready (q : Requester) : Prop := (s.mpt.port q).waiting ≠ none ∧ (s.mpt.port q).inFlight = none
    let above : Requester → List Requester := fun
      | .tpe => []
      | .jnu => [.tpe]
      | .stw => [.tpe, .jnu]
      | .oru => [.tpe, .jnu, .stw]
    let free : Mpt := s.mpt.setPort r { s.mpt.port r with inFlight := none }
    let fault : RunControl := { s.rc with attn := raiseCause .memFault s.rc.attn }
    (∀ a, (s.mpt.port r).waiting = some a → (s.mpt.port r).inFlight = none → (∀ q ∈ above r, ¬ ready q) →
      exec .mptIssue s = .next { s with
        mpt := s.mpt.setPort r { waiting := none, inFlight := some { access := a, fate := .live } } }) ∧
    ((∀ q, ¬ ready q) → exec .mptIssue s = .next s) ∧
    exec (.lateReadCompletion r) s = .next s ∧
    (∀ f, (s.mpt.port r).inFlight = some f →
      (∀ n, f.access.op = .read n → exec (.readTimeout r) s = exec (.memBusError r) s) ∧
      (∀ bytes, f.access.op = .write bytes → exec (.readTimeout r) s = .next s) ∧
      (f.fate = .void → exec (.accessCompletionAfterReset r) s = .next { s with mpt := free } ∧
        exec (.memBusError r) s = .next { s with mpt := free }) ∧
      (f.fate = .discarded → exec (.memBusError r) s = .next { s with mpt := free, rc := fault }) ∧
      (∀ c, f.fate ≠ .live → completesFor c = some r → exec c s = .next { s with mpt := free }) ∧
      (f.fate = .live → ∃ t, exec (.memBusError r) s = .next t ∧ causeSet .memFault t.rc.attn = true ∧
        (t.mpt.port r).inFlight = none ∧ t.floor = s.floor ∧ t.rc.cbAddr = s.rc.cbAddr) ∧
      (f.fate = .live → r = .oru →
        (s.rc.runState = .starting → ∃ t, exec (.memBusError r) s = .next t ∧ t.rc.runState = .stopped ∧
          causeSet (if s.rc.abandoning then .stopped else .startFail) t.rc.attn = true) ∧
        (s.rc.runState = .running → s.oru.nudged = false → exec (.memBusError r) s = .next { s with
          mpt := free, rc := fault, oru := { s.oru with
            active := false, poll := if s.rc.held.pollMs = 0 then none else some s.rc.held.pollMs } }) ∧
        (∀ a, s.rc.runState = .running → s.oru.nudged = true → oruAccess s = some a →
          exec (.memBusError r) s = .next { s with
            mpt := { s.mpt with oru := .asking a }, rc := fault, oru := { s.oru with nudged := false } }) ∧
        (s.rc.runState = .stopping → exec (.memBusError r) s = .next { s with
          mpt := free, rc := fault, oru := { s.oru with active := false, order := none } })) ∧
      (f.fate = .live → r = .jnu →
        (s.jnu.phase = .writeLost → exec (.memBusError r) s = .next { s with
          mpt := free, rc := fault, jnu := { s.jnu with queue := s.jnu.queue.tail, phase := .idle } }) ∧
        (s.jnu.phase ≠ .writeLost →
          let lost := min 4294967295 (s.jnu.lost + 1)
          exec (.memBusError r) s = .next { s with
            mpt := { s.mpt with jnu := .asking { addr := s.rc.cbAddr + 0x30#64, op := .write (bytesOf 4 lost) } }
            rc := fault, jnu := { s.jnu with lost := lost, phase := .writeLost } })) ∧
      (f.fate = .live → r = .stw → exec (.memBusError r) s = .next { s with
        mpt := free, rc := fault, stw := { s.stw with phase := .idle } }) ∧
      (∀ job more, f.fate = .live → r = .tpe → s.tpe.jobs = job :: more →
        let ask (jobs : List TpeJob) (u : Tpe) : Mpt := { s.mpt with tpe :=
          { waiting := (jobs.head?.bind (tpeAccess { s with tpe := u })).or s.mpt.tpe.waiting, inFlight := none } }
        (∀ n, job ∈ [TpeJob.startRead n, .startFilled n, .startTotal n] → ∃ t, exec (.memBusError r) s = .next t ∧
          t.oru.lastOutcome = some { code := .badAddress, data := [] } ∧ t.tpe = { s.tpe with jobs := more } ∧
          t.mpt.tpe = (ask more t.tpe).tpe ∧ t.rc = fault) ∧
        (∀ n, job = .segmentFilled n ∨ job = .closeFilled n →
          exec (.memBusError r) s = .next { s with mpt := ask (job :: more) s.tpe, rc := fault }) ∧
        (∀ x rest, s.tpe.staging = x :: rest → job = .readReturned ∨ job = .writeFrame →
          let old := s.tpe.taps.get x.tap
          let dropped : TapRec := { old with
            pendingDrops := min 4294967295 (old.pendingDrops + (1 + x.snapshot))
            droppedTotal := min 4294967295 (old.droppedTotal + 1), episode := true
            state := if job = .readReturned ∧ old.state = .running then .dropping else old.state }
          let counts := old.granted = true ∧ 0 < old.index
          let last := old.closing = true ∧ ∀ y ∈ rest, y.tap ≠ x.tap
          let leaves (notes : List NoteBody) (jobs : List TpeJob) (after asked : TapRec) : Prop :=
            ∃ t, exec (.memBusError r) s = .next t ∧ t.rc = fault ∧ Journalled s notes t ∧
              t.mpt = ask jobs { t.tpe with taps := s.tpe.taps.set x.tap asked } ∧
              t.tpe = { taps := s.tpe.taps.set x.tap after, staging := rest, jobs := jobs } ∧
              (dropped.state ≠ old.state → .handset x.tap ∈ t.stw.queue)
          (¬ last → leaves [] more dropped dropped) ∧
          (last → counts →
            let after : TapRec := { dropped with filled := old.filled + 1#32 }
            leaves [] (more ++ [.closeFilled x.tap]) after (if more = [] then after else dropped)) ∧
          (last → ¬ counts →
            let after : TapRec := { dropped with episode := false }
            leaves [.tapGap x.tap none (min 4294967295 (dropped.pendingDrops + old.stagingDrops)) dropped.droppedTotal]
              (more ++ [.closeTotal x.tap]) after after)) ∧
        (∀ n, job = .gapTotal n ∨ job = .closeTotal n →
          exec (.memBusError r) s = exec .tapDroppedTotalWriteDone { s with rc := fault }) ∧
        (∀ n x rest, job = .gapTotal n → (∀ k, more.head? ≠ some (.segmentFilled k)) → s.tpe.staging = x :: rest →
          (s.tpe.taps.get x.tap).closing = false →
          let after : Tpe := { s.tpe with staging := rest, jobs := more }
          exec (.memBusError r) s = .next { s with mpt := ask more after, rc := fault, tpe := after }) ∧
        (∀ n k later, job = .gapTotal n → more = .segmentFilled k :: later →
          let after : Tpe := { s.tpe with jobs := more }
          exec (.memBusError r) s = .next { s with mpt := ask more after, rc := fault, tpe := after }) ∧
        (∀ n, job = .closeTotal n → ∃ t, exec (.memBusError r) s = .next t ∧ t.rc = fault ∧ t.mpt = ask more t.tpe ∧
          (let after : TapRec := { s.tpe.taps.get n with closing := false }
           t.tpe = { s.tpe with jobs := more, taps := s.tpe.taps.set n after }))))

/-- A note's bytes, field by field. A note joins JNU's queue or is counted lost. The append of the head note: the
consumed count is read, OVERRUN and the note or the note alone are written, or the note is lost; then produced,
JOURNAL and the linger timer, and the lost count after an OVERRUN; and the linger expiry. Log entries 3, 7, 14, 15 and
32. -/
def Obligations.NotesAreAppendedOrCountedLost : Prop :=
  (∀ (frame : Word) (l : LineNo) (p : PositionNo) (h : HandsetNo) (b : BridgeNo) (g : GroupNo) (k : HootNo) (c : ChannelNo)
      (n : TapNo) (o : Output) (i j : Nat) (w v : Word) (x y : Byte) (flag : Bool),
    let lays (kind : Nat) (body : NoteBody) (fields : List (Nat × Nat × Nat)) : Prop :=
      let bytes := Note.bytes { frame := frame, body := body }
      bytes.length = 32 ∧ fieldAt bytes 0 4 = kind ∧ fieldAt bytes 4 4 = frame.toNat ∧
      (∀ a ∈ fields, fieldAt bytes a.1 a.2.1 = a.2.2 % 256 ^ a.2.1) ∧
      ∀ m ≥ 8, (∀ a ∈ fields, m < a.1 ∨ a.1 + a.2.1 ≤ m) → fieldAt bytes m 1 = 0
    lays 0x01 (.overrun i) [(8, 4, i)] ∧
    (∀ code, lays 0x02 (.orderDone w x code) [(8, 4, w.toNat), (12, 1, x.toNat), (13, 1, ResultCode.code code)]) ∧
    lays 0x10 (.rxUnderflow l i) [(8, 2, l.val), (10, 2, i)] ∧
    lays 0x11 (.rxOverflow l i) [(8, 2, l.val), (10, 2, i)] ∧
    lays 0x12 (.rxResync l x y) [(8, 2, l.val), (10, 1, x.toNat), (11, 1, y.toNat)] ∧
    (∀ r, lays 0x18 (.missed l r (some w)) [(8, 2, l.val), (10, 1, MissedReason.code r), (11, 4, w.toNat)]) ∧
    (∀ r, lays 0x18 (.missed l r none) [(8, 2, l.val), (10, 1, MissedReason.code r), (11, 4, 0)]) ∧
    (∀ st, lays 0x19 (.knock l st) [(8, 2, l.val), (10, 1, LineState.code st)]) ∧
    (∀ r st, lays 0x1A (.lineFault l r st) [(8, 2, l.val), (10, 1, FaultCause.code r), (11, 1, LineState.code st)]) ∧
    (∀ r, lays 0x1B (.ringOutDone l r i) [(8, 2, l.val), (10, 1, RingOutEnd.code r), (11, 1, i)]) ∧
    (∀ r, lays 0x20 (.alertDropped p b r) [(8, 1, p.val), (9, 2, b.val), (11, 1, AlertReason.code r)]) ∧
    (∀ r, lays 0x21 (.alertEnd b r w) [(8, 2, b.val), (10, 1, AlertEnd.code r), (11, 4, w.toNat)]) ∧
    lays 0x28 (.linkDown p) [(8, 1, p.val)] ∧ lays 0x29 (.linkUp p) [(8, 1, p.val)] ∧
    lays 0x2A (.hook h flag (some b)) [(8, 1, h.val), (9, 1, bit flag), (10, 2, b.val)] ∧
    lays 0x2A (.hook h flag none) [(8, 1, h.val), (9, 1, bit flag), (10, 2, 0xFFFF)] ∧
    (∀ r, lays 0x2B (.holdRecall h b r w) [(8, 1, h.val), (9, 2, b.val), (11, 1, RecallCause.code r), (12, 4, w.toNat)]) ∧
    (∀ r, lays 0x2C (.holdDropped h b r w flag)
      [(8, 1, h.val), (9, 2, b.val), (11, 1, DropCause.code r), (12, 4, w.toNat), (16, 1, bit flag)]) ∧
    (∀ st d, lays 0x2D (.selectDone h b st flag d) [(8, 1, h.val), (9, 2, b.val), (11, 1, StateAfter.code st),
      (12, 1, bit flag), (13, 2, bridgeField d.bridge), (15, 1, Displaced.code d)]) ∧
    (∀ st u, lays 0x30 (.groupState g st u i) [(8, 1, g.val), (9, 1, GroupState.code st), (10, 1, GroupState.code u), (11, 1, i)]) ∧
    lays 0x31 (.noAnswer g w) [(8, 1, g.val), (9, 4, w.toNat)] ∧
    lays 0x38 (.pttGranted p k i) [(8, 1, p.val), (9, 1, k.val), (10, 1, i)] ∧
    lays 0x39 (.pttQueued p k i) [(8, 1, p.val), (9, 1, k.val), (10, 1, i)] ∧
    (∀ r st, lays 0x3A (.pttEnd p k r st) [(8, 1, p.val), (9, 1, k.val), (10, 1, PttCause.code r), (11, 1, TalkStatus.code st)]) ∧
    lays 0x3B (.pttBumped p k i) [(8, 1, p.val), (9, 1, k.val), (10, 1, i)] ∧
    lays 0x3C (.pttIgnored p) [(8, 1, p.val)] ∧
    lays 0x40 (.announceEnd p c b flag) [(8, 1, p.val), (9, 1, c.val), (10, 2, b.val), (12, 1, 0), (13, 1, bit flag)] ∧
    (let number := match o with
       | .ear h => (0, h.val, 0)
       | .channel p c => (1, p.val, c.val)
       | .side p side => (2, p.val, Side.code side)
       | .transmit l => (3, l.val, 0)
     lays 0x48 (.clip o i) [(8, 1, number.1), (9, 2, number.2.1), (11, 1, number.2.2), (12, 4, i)]) ∧
    lays 0x49 (.activity p c flag) [(8, 1, p.val), (9, 1, c.val), (10, 1, bit flag)] ∧
    lays 0x50 (.tapSegment n i w j v) [(8, 1, n.val), (9, 1, i), (10, 4, w.toNat), (14, 2, j), (16, 4, v.toNat)] ∧
    lays 0x51 (.tapGap n (some w) i j) [(8, 1, n.val), (9, 4, w.toNat), (13, 4, i), (17, 4, j)] ∧
    lays 0x51 (.tapGap n none i j) [(8, 1, n.val), (9, 4, 0xFFFFFFFF), (13, 4, i), (17, 4, j)] ∧
    (∀ new last, lays 0x52 (.tapMark n w new last)
      [(8, 1, n.val), (9, 4, w.toNat), (13, 2, bridgeField new), (15, 2, bridgeField last)])) ∧
  (∀ (frame : Word) (j : Jnu) (b : NoteBody),
    (j.queue.length < 64 → j.hand frame b = { j with queue := j.queue ++ [{ frame := frame, body := b }] }) ∧
    (64 ≤ j.queue.length → j.hand frame b = { j with lost := min 4294967295 (j.lost + 1) })) ∧
  (∀ (s : State) (ms : Nat), s.due = [] → s.jnu.linger = some ms → ∃ t, exec .lingerExpiry s = .next t ∧
    t = { s with jnu := { s.jnu with linger := none }, rc := { s.rc with attn := t.rc.attn } } ∧
    t.rc.attn = if 0 < (s.jnu.produced - s.jnu.consumed).toNat then raiseCause .journal s.rc.attn else s.rc.attn) ∧
  ∀ (s : State) (n : Note) (rest : List Note) (f : Flight), s.due = [] →
    s.rc.runState = .running ∨ s.rc.runState = .stopping → s.jnu.queue = n :: rest →
    let live := s.mpt.jnu.inFlight = some f ∧ f.fate = .live
    let size := 2 ^ s.rc.held.exponent
    let slot (v : Word) : Addr := s.rc.held.journalBase + BitVec.ofNat 64 (32 * (v.toNat % size))
    let j := s.jnu
    let asks (t : State) (addr : Addr) (bytes : List Byte) : Prop :=
      t.mpt = { s.mpt with jnu := .asking { addr := addr, op := .write bytes } } ∧ t.floor = s.floor ∧ t.oru = s.oru ∧
      t.stw = s.stw ∧ t.tpe = s.tpe ∧ t.rc.cbAddr = s.rc.cbAddr
    (j.phase = .idle → exec .journalAppendStart s = .next { s with
      jnu := { j with phase := .readConsumed }
      mpt := { s.mpt with jnu := { s.mpt.jnu with
        waiting := some { addr := s.rc.cbAddr + 0x2C#64, op := .read 4 } } } }) ∧
    (∀ v : Word, live → j.phase = .readConsumed → j.lost = 0 → (j.produced - v).toNat < size →
      ∃ t, exec (.journalConsumedReadDone v) s = .next t ∧ asks t (slot j.produced) n.bytes ∧
        t.jnu = { j with consumed := v, phase := .writeNote false }) ∧
    (∀ v : Word, live → j.phase = .readConsumed → 0 < j.lost → (j.produced - v).toNat < size - 1 →
      ∃ t, exec (.journalConsumedReadDone v) s = .next t ∧
        asks t (slot j.produced) (Note.bytes { frame := s.floor.mxe.frame, body := .overrun j.lost }) ∧
        t.jnu = { j with consumed := v, phase := .writeOverrun }) ∧
    (∀ v : Word, live → j.phase = .readConsumed →
      (j.lost = 0 ∧ size ≤ (j.produced - v).toNat) ∨ (0 < j.lost ∧ size - 1 ≤ (j.produced - v).toNat) →
      ∃ t, exec (.journalConsumedReadDone v) s = .next t ∧
        asks t (s.rc.cbAddr + 0x30#64) (bytesOf 4 (min 4294967295 (j.lost + 1))) ∧
        t.jnu = { j with consumed := v, phase := .writeLost, lost := min 4294967295 (j.lost + 1) }) ∧
    (live → j.phase = .writeOverrun → ∃ t, exec .journalNoteWriteDone s = .next t ∧
      asks t (slot (j.produced + 1#32)) n.bytes ∧ t.jnu = { j with phase := .writeNote true }) ∧
    (∀ after, live → j.phase = .writeNote after → ∃ t, exec .journalNoteWriteDone s = .next t ∧
      asks t (s.rc.cbAddr + 0x28#64) (bytesOf 4 (j.produced + (if after then 2#32 else 1#32)).toNat) ∧
      t.jnu = { j with phase := .writeProduced after }) ∧
    (∀ after, live → j.phase = .writeProduced after → ∃ t, exec .journalProducedWriteDone s = .next t ∧
      t.jnu.produced = j.produced + (if after then 2#32 else 1#32) ∧ t.jnu.consumed = j.consumed ∧
      t.jnu.lost = (if after then 0 else j.lost) ∧ t.jnu.queue = (if after then n :: rest else rest) ∧
      t.jnu.phase = (if after then .writeLost else .idle) ∧
      t.jnu.linger = (if s.rc.held.lingerMs = 0 then j.linger else some s.rc.held.lingerMs) ∧
      (after = true → asks t (s.rc.cbAddr + 0x30#64) (bytesOf 4 0)) ∧
      (after = false → t.mpt = { s.mpt with jnu := { s.mpt.jnu with inFlight := none } }) ∧
      (causeSet .journal t.rc.attn = true ↔ causeSet .journal s.rc.attn = true ∨
        s.rc.held.trigger ≤ (j.produced + (if after then 2#32 else 1#32) - j.consumed).toNat) ∧
      t.floor = s.floor ∧ t.oru = s.oru ∧ t.stw = s.stw ∧ t.tpe = s.tpe) ∧
    (live → j.phase = .writeLost → exec .journalLostWriteDone s = .next { s with
      jnu := { j with queue := rest, phase := .idle }
      mpt := { s.mpt with jnu := { s.mpt.jnu with inFlight := none } } })

/-- The rewrite of the head entry: the odd count, the body as the fields then stand, field by field as section 12.7
lays it out, the even count. The count held changes as its write completes (DEDUCED, entry 11); a line's outgoing code is
that of its state (DEDUCED, entry 19); its depth and saturation counter are those that the event leaves (the model's choice,
entry 39); bits to which section 12.7 gives no value are 0 (the model's choice, entry 32). Log entries 3, 11, 19, 30, 32 and
39. -/
def Obligations.StatusEntriesAreRewrittenUnderAnOddCount : Prop :=
  (∀ (s : State) (e : Entry),
    let f := s.floor
    let m := f.mxe
    let c := f.cnc
    let body := entryBody s e
    let field (o w : Nat) : Nat := fieldAt body (o - 4) w
    let bits (o k w : Nat) : Nat := field o 1 / 2 ^ k % 2 ^ w
    body.length = (match e with
      | .line _ => 28
      | .handset _ => 60
      | .position _ => 124
      | .hoot _ => 60) ∧
    (∀ l, e = .line l →
      let r := f.lsv.get l
      let t := f.ltm.get l
      let x := t.counters
      field 0x04 1 = LineState.code r.state ∧ bits 0x05 0 2 = FaultCause.code r.cause ∧
      bits 0x05 2 2 = Code.code r.accepted ∧ bits 0x05 4 3 = outgoingField (baseOutgoing r.cfg.kind r.state) ∧
      bits 0x05 7 1 = bit r.ringOut.isSome ∧
      bits 0x06 0 2 = (if t.playing then 2 else if t.first then 0 else 1) ∧
      bits 0x06 2 1 = bit (f.lhp.cards.get (lineCard l)).present ∧
      bits 0x06 3 1 = bit (m.transmitClips.get l).clipping ∧ bits 0x06 4 4 = 0 ∧
      field 0x07 1 = s.stw.depths.get l % 256 ∧ field 0x08 1 = t.errored % 256 ∧
      field 0x09 1 = ((holdingPosition f l).map Fin.val).getD 255 ∧
      (∀ i < 4, field (0x0A + i) 1 = (match (handsetMembers c (lineBridge l))[i]? with
        | some y => y.2.1.val + 64 * bit (y.2.2 = .held) + 128
        | none => 0)) ∧
      (∀ i n, [x.underflow, x.overflow, x.resync, x.duplicate, x.slip, x.concealed, x.discard][i]? = some n →
        field (0x0E + 2 * i) 2 = n % 65536) ∧
      field 0x1C 4 = s.stw.saturations.get l % 4294967296) ∧
    (∀ h, e = .handset h →
      let r := c.handsets.get h
      let x := s.tpe.taps.get h
      let p := handsetPosition h
      let channel (i : Fin 4) : Nat :=
        ((m.channelClips.get p).get ⟨i.val + (if isSideB h then 4 else 0), by split <;> omega⟩).count
      bits 0x04 0 2 = HandsetState.code r.state ∧ bits 0x04 2 2 = TapState.code x.state ∧
      bits 0x04 4 1 = bit x.closing ∧ bits 0x04 5 3 = r.stack.length % 8 ∧ field 0x05 1 = 0 ∧
      field 0x06 2 = ((activeBridge c h).map Fin.val).getD 0xFFFF ∧
      (∀ i < 4, field (0x08 + 6 * i) 2 = (match r.stack[i]? with
          | some y => y.bridge.val + 32768 * bit y.recalled
          | none => 0) ∧
        field (0x0A + 6 * i) 4 = (r.stack[i]?.map (fun y => y.holdFrame.toNat)).getD 0) ∧
      field 0x20 4 = x.filled.toNat ∧ field 0x24 4 = x.droppedTotal % 4294967296 ∧
      field 0x28 4 = (m.earClips.get h).count % 4294967296 ∧
      (∀ i : Fin 4, field (0x2C + 4 * i.val) 4 = channel i % 4294967296) ∧
      field 0x3C 4 = (if isSideB h then (m.sideClips.get p).right else (m.sideClips.get p).left).count % 4294967296) ∧
    (∀ p, e = .position p →
      let t := c.talks.get p
      let list := c.ringLists.get p
      bits 0x04 0 1 = bit (f.plp.links.get p).up ∧ bits 0x04 1 2 = RingerState.code (m.ringers.get p).state ∧
      bits 0x04 3 1 = bit t.key ∧ bits 0x04 4 2 = TalkStatus.code t.status ∧ field 0x05 1 = list.length % 256 ∧
      field 0x06 1 = (t.target.map Fin.val).getD 255 ∧
      (∀ k, t.target = some k → t.status = .queued → field 0x07 1 = ((c.hoots.get k).queue.idxOf p + 1) % 256) ∧
      (t.target = none ∨ t.status ≠ .queued → field 0x07 1 = 0) ∧
      (∀ d : ChannelNo, bits 0x08 d.val 1 = bit ((m.activity.get p).get d).active ∧
        bits 0x09 d.val 1 = bit ((m.channelClips.get p).get d).clipping) ∧
      bits 0x0A 0 1 = bit (m.earClips.get (handsetA p)).clipping ∧
      bits 0x0A 1 1 = bit (m.earClips.get (handsetB p)).clipping ∧
      bits 0x0A 2 1 = bit (m.sideClips.get p).left.clipping ∧ bits 0x0A 3 1 = bit (m.sideClips.get p).right.clipping ∧
      field 0x0B 5 = 0 ∧
      (∀ i < 16, field (0x10 + 4 * i) 4 = (match list[i]? with
        | some a => a.bridge.val + 512 * AlertReason.code a.reason + 2048 * a.cadence.val +
            65536 * (a.arrival.toNat % 65536)
        | none => 0)) ∧
      (∀ d : ChannelNo,
        let r := (c.channels.get p).get d
        let v := field (0x50 + 6 * d.val) 6
        let saved (i : Nat) : Option ChannelEntry := r.stack.reverse[i]?
        let source (x : Option ChannelEntry) : Nat := match x with
          | some x => (x.source.map Fin.val).getD 0x1FF
          | none => 0x1FE
        let priority (x : Option ChannelEntry) : Nat := (x.map ChannelEntry.priority).getD 0 % 8
        v % 512 = source (some r.current) ∧ v / 2 ^ 9 % 8 = r.current.priority % 8 ∧
        v / 2 ^ 12 % 2 = Side.code r.current.side ∧ v / 2 ^ 13 % 2 = bit (memberCut c r.current) ∧
        v / 2 ^ 14 % 512 = source (saved 0) ∧ v / 2 ^ 23 % 512 = source (saved 1) ∧
        v / 2 ^ 32 % 8 = priority (saved 1) ∧ v / 2 ^ 35 % 512 = source (saved 2) ∧
        v / 2 ^ 44 % 8 = priority (saved 2) ∧ v / 2 ^ 47 = 0)) ∧
    (∀ k, e = .hoot k →
      let r := c.hoots.get k
      let talkers := (micMembers c (hootBridge k)).map (fun x => x.2)
      field 0x04 1 = talkers.length % 256 ∧ field 0x05 1 = r.queue.length % 256 ∧ field 0x06 1 = r.limit % 256 ∧
      field 0x07 1 = 0 ∧ (∀ i < 4, field (0x08 + i) 1 = (talkers[i]?.map Fin.val).getD 255) ∧
      (∀ i < 2, field (0x0C + 2 * i) 2 = (r.legs[i]?.map Fin.val).getD 0xFFFF) ∧
      (∀ i < 32, field (0x10 + i) 1 = (r.queue[i]?.map Fin.val).getD 255) ∧ ∀ i < 16, field (0x30 + i) 1 = 0)) ∧
  (∀ (s : State) (w : Work) (l : LineNo),
    (s.commit w).stw.depths.get l =
      (if .line l ∈ w.handed then (w.floor.ltm.get l).queue.length else s.stw.depths.get l) ∧
    (s.commit w).stw.saturations.get l =
      (if .line l ∈ w.handed then (w.floor.mxe.transmitClips.get l).count else s.stw.saturations.get l)) ∧
  ∀ (s : State) (e : Entry) (f : Flight), s.due = [] → s.rc.runState = .running ∨ s.rc.runState = .stopping →
    let live := s.mpt.stw.inFlight = some f ∧ f.fate = .live
    let offset : Nat := match e with
      | .line l => 32 * l.val
      | .handset h => 8192 + 64 * h.val
      | .position p => 12288 + 128 * p.val
      | .hoot k => 16384 + 64 * k.val
    let addr : Addr := s.rc.held.statusBase + BitVec.ofNat 64 offset
    let n := s.stw.count e
    let odd : Word := if n.toNat % 2 = 0 then n + 1#32 else n + 2#32
    let others (t : State) : Prop := t.floor = s.floor ∧ t.rc = s.rc ∧ t.jnu = s.jnu ∧ t.oru = s.oru ∧ t.tpe = s.tpe ∧
      t.stw.depths = s.stw.depths ∧ t.stw.saturations = s.stw.saturations ∧ ∀ d, d ≠ e → t.stw.count d = s.stw.count d
    (∀ rest, s.stw.phase = .idle → s.stw.queue = e :: rest → ∃ t, exec .statusRewriteStart s = .next t ∧ others t ∧
      t.stw = { s.stw with queue := rest, phase := .countOdd e } ∧
      t.mpt = { s.mpt with stw := { s.mpt.stw with
        waiting := some { addr := addr, op := .write (bytesOf 4 odd.toNat) } } }) ∧
    (live → s.stw.phase = .countOdd e → ∃ t, exec .statusCountOddWriteDone s = .next t ∧ others t ∧
      t.stw.count e = odd ∧ t.stw.queue = s.stw.queue ∧ t.stw.phase = .body e ∧
      t.mpt = { s.mpt with stw := .asking { addr := addr + 4#64, op := .write (entryBody s e) } }) ∧
    (live → s.stw.phase = .body e → ∃ t, exec .statusBodyWriteDone s = .next t ∧ others t ∧
      t.stw = { s.stw with phase := .countEven e } ∧
      t.mpt = { s.mpt with stw := .asking { addr := addr, op := .write (bytesOf 4 (n + 1#32).toNat) } }) ∧
    (live → s.stw.phase = .countEven e → ∃ t, exec .statusCountEvenWriteDone s = .next t ∧ others t ∧
      t.stw.count e = n + 1#32 ∧ t.stw.queue = s.stw.queue ∧ t.stw.phase = .idle ∧
      t.mpt = { s.mpt with stw := { s.mpt.stw with inFlight := none } })
end

