-- ==== Sys2Proof/Laws/State.lean ====
section
/-! SUPPORT. One lemma per field per update of the state and of an event in progress, each true by unfolding one record
update, so that no later proof unfolds one. -/

namespace Sys2Proof.Machine

@[simp] theorem Work.note_floor (w : Work) (b : NoteBody) : (w.note b).floor = w.floor := rfl
@[simp] theorem Work.note_notes (w : Work) (b : NoteBody) : (w.note b).notes = w.notes ++ [b] := rfl
@[simp] theorem Work.note_handed (w : Work) (b : NoteBody) : (w.note b).handed = w.handed := rfl
@[simp] theorem Work.note_raised (w : Work) (b : NoteBody) : (w.note b).raised = w.raised := rfl
@[simp] theorem Work.hand_floor (w : Work) (e : Entry) : (w.hand e).floor = w.floor := rfl
@[simp] theorem Work.hand_notes (w : Work) (e : Entry) : (w.hand e).notes = w.notes := rfl
@[simp] theorem Work.hand_handed (w : Work) (e : Entry) : (w.hand e).handed = w.handed ++ [e] := rfl
@[simp] theorem Work.hand_raised (w : Work) (e : Entry) : (w.hand e).raised = w.raised := rfl
@[simp] theorem Work.raise_floor (w : Work) (r : Raised) : (w.raise r).floor = w.floor := rfl
@[simp] theorem Work.raise_notes (w : Work) (r : Raised) : (w.raise r).notes = w.notes := rfl
@[simp] theorem Work.raise_handed (w : Work) (r : Raised) : (w.raise r).handed = w.handed := rfl
@[simp] theorem Work.raise_raised (w : Work) (r : Raised) : (w.raise r).raised = w.raised ++ [r] := rfl
@[simp] theorem Work.noteAll_floor (w : Work) (b : List NoteBody) : (w.noteAll b).floor = w.floor := rfl
@[simp] theorem Work.noteAll_notes (w : Work) (b : List NoteBody) : (w.noteAll b).notes = w.notes ++ b := rfl
@[simp] theorem Work.noteAll_handed (w : Work) (b : List NoteBody) : (w.noteAll b).handed = w.handed := rfl
@[simp] theorem Work.noteAll_raised (w : Work) (b : List NoteBody) : (w.noteAll b).raised = w.raised := rfl
@[simp] theorem Work.handAll_floor (w : Work) (e : List Entry) : (w.handAll e).floor = w.floor := rfl
@[simp] theorem Work.handAll_notes (w : Work) (e : List Entry) : (w.handAll e).notes = w.notes := rfl
@[simp] theorem Work.handAll_handed (w : Work) (e : List Entry) : (w.handAll e).handed = w.handed ++ e := rfl
@[simp] theorem Work.handAll_raised (w : Work) (e : List Entry) : (w.handAll e).raised = w.raised := rfl
@[simp] theorem Work.raiseAll_floor (w : Work) (r : List Raised) : (w.raiseAll r).floor = w.floor := rfl
@[simp] theorem Work.raiseAll_notes (w : Work) (r : List Raised) : (w.raiseAll r).notes = w.notes := rfl
@[simp] theorem Work.raiseAll_handed (w : Work) (r : List Raised) : (w.raiseAll r).handed = w.handed := rfl
@[simp] theorem Work.raiseAll_raised (w : Work) (r : List Raised) : (w.raiseAll r).raised = w.raised ++ r := rfl
@[simp] theorem Work.setCnc_floor (w : Work) (c : Cnc) : (w.setCnc c).floor = { w.floor with cnc := c } := rfl
@[simp] theorem Work.setCnc_notes (w : Work) (c : Cnc) : (w.setCnc c).notes = w.notes := rfl
@[simp] theorem Work.setCnc_handed (w : Work) (c : Cnc) : (w.setCnc c).handed = w.handed := rfl
@[simp] theorem Work.setCnc_raised (w : Work) (c : Cnc) : (w.setCnc c).raised = w.raised := rfl
@[simp] theorem Work.setMxe_floor (w : Work) (m : Mxe) : (w.setMxe m).floor = { w.floor with mxe := m } := rfl
@[simp] theorem Work.setMxe_notes (w : Work) (m : Mxe) : (w.setMxe m).notes = w.notes := rfl
@[simp] theorem Work.setMxe_handed (w : Work) (m : Mxe) : (w.setMxe m).handed = w.handed := rfl
@[simp] theorem Work.setMxe_raised (w : Work) (m : Mxe) : (w.setMxe m).raised = w.raised := rfl

@[simp] theorem Work.handIf_notes (w : Work) (c : Bool) (e : Entry) : (w.handIf c e).notes = w.notes := by
  unfold Work.handIf; split <;> rfl
@[simp] theorem Work.handIf_raised (w : Work) (c : Bool) (e : Entry) : (w.handIf c e).raised = w.raised := by
  unfold Work.handIf; split <;> rfl
@[simp] theorem Work.handIf_floor (w : Work) (c : Bool) (e : Entry) : (w.handIf c e).floor = w.floor := by
  unfold Work.handIf; split <;> rfl
@[simp] theorem Work.putLine_floor (w : Work) (l : LineNo) (r : LineRec) :
    (w.putLine l r).floor = { w.floor with lsv := w.floor.lsv.set l r } := by simp [Work.putLine]
@[simp] theorem Work.putLine_notes (w : Work) (l : LineNo) (r : LineRec) : (w.putLine l r).notes = w.notes := by simp [Work.putLine]
@[simp] theorem Work.putLine_raised (w : Work) (l : LineNo) (r : LineRec) : (w.putLine l r).raised = w.raised := by simp [Work.putLine]
@[simp] theorem Work.putTerm_floor (w : Work) (l : LineNo) (r : TermRec) :
    (w.putTerm l r).floor = { w.floor with ltm := w.floor.ltm.set l r } := by simp [Work.putTerm]
@[simp] theorem Work.putTerm_notes (w : Work) (l : LineNo) (r : TermRec) : (w.putTerm l r).notes = w.notes := by simp [Work.putTerm]
@[simp] theorem Work.putTerm_raised (w : Work) (l : LineNo) (r : TermRec) : (w.putTerm l r).raised = w.raised := by simp [Work.putTerm]
@[simp] theorem Work.putLink_floor (w : Work) (p : PositionNo) (r : LinkRec) :
    (w.putLink p r).floor = { w.floor with plp := { w.floor.plp with links := w.floor.plp.links.set p r } } := by simp [Work.putLink]
@[simp] theorem Work.putLink_notes (w : Work) (p : PositionNo) (r : LinkRec) : (w.putLink p r).notes = w.notes := by simp [Work.putLink]
@[simp] theorem Work.putLink_raised (w : Work) (p : PositionNo) (r : LinkRec) : (w.putLink p r).raised = w.raised := by simp [Work.putLink]
@[simp] theorem Work.putHandset_floor (w : Work) (h : HandsetNo) (r : HandsetRec) :
    (w.putHandset h r).floor = { w.floor with cnc := { w.cnc with handsets := w.cnc.handsets.set h r } } := by simp [Work.putHandset]
@[simp] theorem Work.putHandset_notes (w : Work) (h : HandsetNo) (r : HandsetRec) : (w.putHandset h r).notes = w.notes := by simp [Work.putHandset]
@[simp] theorem Work.putHandset_raised (w : Work) (h : HandsetNo) (r : HandsetRec) : (w.putHandset h r).raised = w.raised := by simp [Work.putHandset]
@[simp] theorem Work.putGroup_floor (w : Work) (g : GroupNo) (r : GroupRec) :
    (w.putGroup g r).floor = { w.floor with cnc := { w.cnc with groups := w.cnc.groups.set g r } } := by simp [Work.putGroup]
@[simp] theorem Work.putGroup_notes (w : Work) (g : GroupNo) (r : GroupRec) : (w.putGroup g r).notes = w.notes := by simp [Work.putGroup]
@[simp] theorem Work.putGroup_raised (w : Work) (g : GroupNo) (r : GroupRec) : (w.putGroup g r).raised = w.raised := by simp [Work.putGroup]
@[simp] theorem Work.putHoot_floor (w : Work) (k : HootNo) (r : HootRec) :
    (w.putHoot k r).floor = { w.floor with cnc := { w.cnc with hoots := w.cnc.hoots.set k r } } := by simp [Work.putHoot]
@[simp] theorem Work.putHoot_notes (w : Work) (k : HootNo) (r : HootRec) : (w.putHoot k r).notes = w.notes := by simp [Work.putHoot]
@[simp] theorem Work.putHoot_raised (w : Work) (k : HootNo) (r : HootRec) : (w.putHoot k r).raised = w.raised := by simp [Work.putHoot]
@[simp] theorem Work.putTalk_floor (w : Work) (p : PositionNo) (r : TalkRec) :
    (w.putTalk p r).floor = { w.floor with cnc := { w.cnc with talks := w.cnc.talks.set p r } } := by simp [Work.putTalk]
@[simp] theorem Work.putTalk_notes (w : Work) (p : PositionNo) (r : TalkRec) : (w.putTalk p r).notes = w.notes := by simp [Work.putTalk]
@[simp] theorem Work.putTalk_raised (w : Work) (p : PositionNo) (r : TalkRec) : (w.putTalk p r).raised = w.raised := by simp [Work.putTalk]
@[simp] theorem Work.putChannel_floor (w : Work) (p : PositionNo) (c : ChannelNo) (r : ChannelRec) :
    (w.putChannel p c r).floor = { w.floor with cnc := { w.cnc with channels := w.cnc.channels.upd p (fun t => t.set c r) } } := by simp [Work.putChannel]
@[simp] theorem Work.putChannel_notes (w : Work) (p : PositionNo) (c : ChannelNo) (r : ChannelRec) : (w.putChannel p c r).notes = w.notes := by simp [Work.putChannel]
@[simp] theorem Work.putChannel_raised (w : Work) (p : PositionNo) (c : ChannelNo) (r : ChannelRec) : (w.putChannel p c r).raised = w.raised := by simp [Work.putChannel]
@[simp] theorem Work.putRinger_floor (w : Work) (p : PositionNo) (r : Ringer) :
    (w.putRinger p r).floor = { w.floor with mxe := { w.mxe with ringers := w.mxe.ringers.set p r } } := by simp [Work.putRinger]
@[simp] theorem Work.putRinger_notes (w : Work) (p : PositionNo) (r : Ringer) : (w.putRinger p r).notes = w.notes := by simp [Work.putRinger]
@[simp] theorem Work.putRinger_raised (w : Work) (p : PositionNo) (r : Ringer) : (w.putRinger p r).raised = w.raised := by simp [Work.putRinger]
@[simp] theorem Work.zeroGain_floor (w : Work) (p : PositionNo) (c : ChannelNo) :
    (w.zeroGain p c).floor = { w.floor with mxe := { w.mxe with channelGains := w.mxe.channelGains.upd p (fun t => t.set c 0) } } := by simp [Work.zeroGain]
@[simp] theorem Work.zeroGain_notes (w : Work) (p : PositionNo) (c : ChannelNo) : (w.zeroGain p c).notes = w.notes := by simp [Work.zeroGain]
@[simp] theorem Work.zeroGain_raised (w : Work) (p : PositionNo) (c : ChannelNo) : (w.zeroGain p c).raised = w.raised := by simp [Work.zeroGain]
@[simp] theorem Work.setLink_floor (w : Work) (p : PositionNo) (r : LinkRec) :
    (w.setLink p r).floor = { w.floor with plp := { w.floor.plp with links := w.floor.plp.links.set p r } } := by simp [Work.setLink]
@[simp] theorem Work.setLink_notes (w : Work) (p : PositionNo) (r : LinkRec) : (w.setLink p r).notes = w.notes := by simp [Work.setLink]
@[simp] theorem Work.setLink_raised (w : Work) (p : PositionNo) (r : LinkRec) : (w.setLink p r).raised = w.raised := by simp [Work.setLink]

/-! What the frames owed since a mark are, and where (R35, R76). -/

@[simp] theorem Floor.sendOwed_lhp (f : Floor) :
    f.sendOwed.lhp = { f.lhp with sent := if f.plp.owed then [] else f.lhp.sent } := by
  unfold Floor.sendOwed; split <;> rfl
@[simp] theorem Floor.sendOwed_plp (f : Floor) : f.sendOwed.plp =
    { f.plp with
      sent := if f.plp.owed then f.plp.links.map (fun r => silentFrame r.up) else f.plp.sent, owed := false } := by
  rcases f with ⟨_, _, _, ⟨_, _, _ | _⟩, _, _⟩ <;> rfl
@[simp] theorem Floor.sendOwed_ltm (f : Floor) : f.sendOwed.ltm = f.ltm := by unfold Floor.sendOwed; split <;> rfl
@[simp] theorem Floor.sendOwed_lsv (f : Floor) : f.sendOwed.lsv = f.lsv := by unfold Floor.sendOwed; split <;> rfl
@[simp] theorem Floor.sendOwed_cnc (f : Floor) : f.sendOwed.cnc = f.cnc := by unfold Floor.sendOwed; split <;> rfl
@[simp] theorem Floor.sendOwed_mxe (f : Floor) : f.sendOwed.mxe = f.mxe := by unfold Floor.sendOwed; split <;> rfl

/-- After STOP no mark is owed its frames, and every filter rests. -/
@[simp] theorem Floor.leaveRunning_plp (f : Floor) : f.leaveRunning.plp =
    { links := f.plp.links.map LinkRec.rested
      sent := if f.plp.owed then f.plp.links.map (fun r => silentFrame r.up) else f.plp.sent, owed := false } := by
  simp [Floor.leaveRunning]

/-- After a reset the floor is that of reset but for the frames of a mark that was owed them. -/
theorem Floor.afterReset_eq (owed : Bool) : Floor.afterReset owed =
    { Floor.initial with plp := { Plp.initial with
        sent := if owed then Table.fill 32 (silentFrame false) else Table.fill 32 [] } } := by
  cases owed
  · rfl
  · simp only [Floor.afterReset, Floor.sendOwed, if_true]; congr

@[simp] theorem State.setRc_rc (s : State) (r : RunControl) : (s.setRc r).rc = r := rfl
@[simp] theorem State.setRc_mpt (s : State) (r : RunControl) : (s.setRc r).mpt = s.mpt := rfl
@[simp] theorem State.setRc_oru (s : State) (r : RunControl) : (s.setRc r).oru = s.oru := rfl
@[simp] theorem State.setRc_jnu (s : State) (r : RunControl) : (s.setRc r).jnu = s.jnu := rfl
@[simp] theorem State.setRc_stw (s : State) (r : RunControl) : (s.setRc r).stw = s.stw := rfl
@[simp] theorem State.setRc_floor (s : State) (r : RunControl) : (s.setRc r).floor = s.floor := rfl
@[simp] theorem State.setRc_tpe (s : State) (r : RunControl) : (s.setRc r).tpe = s.tpe := rfl
@[simp] theorem State.setRc_due (s : State) (r : RunControl) : (s.setRc r).due = s.due := rfl
@[simp] theorem State.setRc_pending (s : State) (r : RunControl) : (s.setRc r).pending = s.pending := rfl
@[simp] theorem State.setOru_rc (s : State) (o : Oru) : (s.setOru o).rc = s.rc := rfl
@[simp] theorem State.setOru_mpt (s : State) (o : Oru) : (s.setOru o).mpt = s.mpt := rfl
@[simp] theorem State.setOru_oru (s : State) (o : Oru) : (s.setOru o).oru = o := rfl
@[simp] theorem State.setOru_jnu (s : State) (o : Oru) : (s.setOru o).jnu = s.jnu := rfl
@[simp] theorem State.setOru_stw (s : State) (o : Oru) : (s.setOru o).stw = s.stw := rfl
@[simp] theorem State.setOru_floor (s : State) (o : Oru) : (s.setOru o).floor = s.floor := rfl
@[simp] theorem State.setOru_tpe (s : State) (o : Oru) : (s.setOru o).tpe = s.tpe := rfl
@[simp] theorem State.setOru_due (s : State) (o : Oru) : (s.setOru o).due = s.due := rfl
@[simp] theorem State.setOru_pending (s : State) (o : Oru) : (s.setOru o).pending = s.pending := rfl
@[simp] theorem State.setJnu_rc (s : State) (j : Jnu) : (s.setJnu j).rc = s.rc := rfl
@[simp] theorem State.setJnu_mpt (s : State) (j : Jnu) : (s.setJnu j).mpt = s.mpt := rfl
@[simp] theorem State.setJnu_oru (s : State) (j : Jnu) : (s.setJnu j).oru = s.oru := rfl
@[simp] theorem State.setJnu_jnu (s : State) (j : Jnu) : (s.setJnu j).jnu = j := rfl
@[simp] theorem State.setJnu_stw (s : State) (j : Jnu) : (s.setJnu j).stw = s.stw := rfl
@[simp] theorem State.setJnu_floor (s : State) (j : Jnu) : (s.setJnu j).floor = s.floor := rfl
@[simp] theorem State.setJnu_tpe (s : State) (j : Jnu) : (s.setJnu j).tpe = s.tpe := rfl
@[simp] theorem State.setJnu_due (s : State) (j : Jnu) : (s.setJnu j).due = s.due := rfl
@[simp] theorem State.setJnu_pending (s : State) (j : Jnu) : (s.setJnu j).pending = s.pending := rfl
@[simp] theorem State.setStw_rc (s : State) (w : Stw) : (s.setStw w).rc = s.rc := rfl
@[simp] theorem State.setStw_mpt (s : State) (w : Stw) : (s.setStw w).mpt = s.mpt := rfl
@[simp] theorem State.setStw_oru (s : State) (w : Stw) : (s.setStw w).oru = s.oru := rfl
@[simp] theorem State.setStw_jnu (s : State) (w : Stw) : (s.setStw w).jnu = s.jnu := rfl
@[simp] theorem State.setStw_stw (s : State) (w : Stw) : (s.setStw w).stw = w := rfl
@[simp] theorem State.setStw_floor (s : State) (w : Stw) : (s.setStw w).floor = s.floor := rfl
@[simp] theorem State.setStw_tpe (s : State) (w : Stw) : (s.setStw w).tpe = s.tpe := rfl
@[simp] theorem State.setStw_due (s : State) (w : Stw) : (s.setStw w).due = s.due := rfl
@[simp] theorem State.setStw_pending (s : State) (w : Stw) : (s.setStw w).pending = s.pending := rfl
@[simp] theorem State.setFloor_rc (s : State) (f : Floor) : (s.setFloor f).rc = s.rc := rfl
@[simp] theorem State.setFloor_mpt (s : State) (f : Floor) : (s.setFloor f).mpt = s.mpt := rfl
@[simp] theorem State.setFloor_oru (s : State) (f : Floor) : (s.setFloor f).oru = s.oru := rfl
@[simp] theorem State.setFloor_jnu (s : State) (f : Floor) : (s.setFloor f).jnu = s.jnu := rfl
@[simp] theorem State.setFloor_stw (s : State) (f : Floor) : (s.setFloor f).stw = s.stw := rfl
@[simp] theorem State.setFloor_floor (s : State) (f : Floor) : (s.setFloor f).floor = f := rfl
@[simp] theorem State.setFloor_tpe (s : State) (f : Floor) : (s.setFloor f).tpe = s.tpe := rfl
@[simp] theorem State.setFloor_due (s : State) (f : Floor) : (s.setFloor f).due = s.due := rfl
@[simp] theorem State.setFloor_pending (s : State) (f : Floor) : (s.setFloor f).pending = s.pending := rfl
@[simp] theorem State.setJobs_rc (s : State) (j : List TpeJob) : (s.setJobs j).rc = s.rc := rfl
@[simp] theorem State.setJobs_mpt (s : State) (j : List TpeJob) : (s.setJobs j).mpt = s.mpt := rfl
@[simp] theorem State.setJobs_oru (s : State) (j : List TpeJob) : (s.setJobs j).oru = s.oru := rfl
@[simp] theorem State.setJobs_jnu (s : State) (j : List TpeJob) : (s.setJobs j).jnu = s.jnu := rfl
@[simp] theorem State.setJobs_stw (s : State) (j : List TpeJob) : (s.setJobs j).stw = s.stw := rfl
@[simp] theorem State.setJobs_floor (s : State) (j : List TpeJob) : (s.setJobs j).floor = s.floor := rfl
@[simp] theorem State.setJobs_tpe (s : State) (j : List TpeJob) : (s.setJobs j).tpe = { s.tpe with jobs := j } := rfl
@[simp] theorem State.setJobs_due (s : State) (j : List TpeJob) : (s.setJobs j).due = s.due := rfl
@[simp] theorem State.setJobs_pending (s : State) (j : List TpeJob) : (s.setJobs j).pending = s.pending := rfl
@[simp] theorem State.setStaging_rc (s : State) (q : List StagedFrame) : (s.setStaging q).rc = s.rc := rfl
@[simp] theorem State.setStaging_mpt (s : State) (q : List StagedFrame) : (s.setStaging q).mpt = s.mpt := rfl
@[simp] theorem State.setStaging_oru (s : State) (q : List StagedFrame) : (s.setStaging q).oru = s.oru := rfl
@[simp] theorem State.setStaging_jnu (s : State) (q : List StagedFrame) : (s.setStaging q).jnu = s.jnu := rfl
@[simp] theorem State.setStaging_stw (s : State) (q : List StagedFrame) : (s.setStaging q).stw = s.stw := rfl
@[simp] theorem State.setStaging_floor (s : State) (q : List StagedFrame) : (s.setStaging q).floor = s.floor := rfl
@[simp] theorem State.setStaging_tpe (s : State) (q : List StagedFrame) : (s.setStaging q).tpe = { s.tpe with staging := q } := rfl
@[simp] theorem State.setStaging_due (s : State) (q : List StagedFrame) : (s.setStaging q).due = s.due := rfl
@[simp] theorem State.setStaging_pending (s : State) (q : List StagedFrame) : (s.setStaging q).pending = s.pending := rfl
@[simp] theorem State.setCause_rc (s : State) (c : Cause) : (State.setCause c s).rc = { s.rc with attn := raiseCause c s.rc.attn } := rfl
@[simp] theorem State.setCause_mpt (s : State) (c : Cause) : (State.setCause c s).mpt = s.mpt := rfl
@[simp] theorem State.setCause_oru (s : State) (c : Cause) : (State.setCause c s).oru = s.oru := rfl
@[simp] theorem State.setCause_jnu (s : State) (c : Cause) : (State.setCause c s).jnu = s.jnu := rfl
@[simp] theorem State.setCause_stw (s : State) (c : Cause) : (State.setCause c s).stw = s.stw := rfl
@[simp] theorem State.setCause_floor (s : State) (c : Cause) : (State.setCause c s).floor = s.floor := rfl
@[simp] theorem State.setCause_tpe (s : State) (c : Cause) : (State.setCause c s).tpe = s.tpe := rfl
@[simp] theorem State.setCause_due (s : State) (c : Cause) : (State.setCause c s).due = s.due := rfl
@[simp] theorem State.setCause_pending (s : State) (c : Cause) : (State.setCause c s).pending = s.pending := rfl
@[simp] theorem State.note_rc (s : State) (b : NoteBody) : (State.note b s).rc = s.rc := rfl
@[simp] theorem State.note_mpt (s : State) (b : NoteBody) : (State.note b s).mpt = s.mpt := rfl
@[simp] theorem State.note_oru (s : State) (b : NoteBody) : (State.note b s).oru = s.oru := rfl
@[simp] theorem State.note_jnu (s : State) (b : NoteBody) : (State.note b s).jnu = s.jnu.hand s.floor.mxe.frame b := rfl
@[simp] theorem State.note_stw (s : State) (b : NoteBody) : (State.note b s).stw = s.stw := rfl
@[simp] theorem State.note_floor (s : State) (b : NoteBody) : (State.note b s).floor = s.floor := rfl
@[simp] theorem State.note_tpe (s : State) (b : NoteBody) : (State.note b s).tpe = s.tpe := rfl
@[simp] theorem State.note_due (s : State) (b : NoteBody) : (State.note b s).due = s.due := rfl
@[simp] theorem State.note_pending (s : State) (b : NoteBody) : (State.note b s).pending = s.pending := rfl
@[simp] theorem State.handEntry_rc (s : State) (e : Entry) : (State.handEntry e s).rc = s.rc := rfl
@[simp] theorem State.handEntry_mpt (s : State) (e : Entry) : (State.handEntry e s).mpt = s.mpt := rfl
@[simp] theorem State.handEntry_oru (s : State) (e : Entry) : (State.handEntry e s).oru = s.oru := rfl
@[simp] theorem State.handEntry_jnu (s : State) (e : Entry) : (State.handEntry e s).jnu = s.jnu := rfl
@[simp] theorem State.handEntry_stw (s : State) (e : Entry) : (State.handEntry e s).stw = s.stw.hand s.floor e := rfl
@[simp] theorem State.handEntry_floor (s : State) (e : Entry) : (State.handEntry e s).floor = s.floor := rfl
@[simp] theorem State.handEntry_tpe (s : State) (e : Entry) : (State.handEntry e s).tpe = s.tpe := rfl
@[simp] theorem State.handEntry_due (s : State) (e : Entry) : (State.handEntry e s).due = s.due := rfl
@[simp] theorem State.handEntry_pending (s : State) (e : Entry) : (State.handEntry e s).pending = s.pending := rfl
@[simp] theorem State.request_rc (s : State) (r : Requester) (a : Access) : (State.request r a s).rc = s.rc := rfl
@[simp] theorem State.request_mpt (s : State) (r : Requester) (a : Access) : (State.request r a s).mpt = s.mpt.setPort r { s.mpt.port r with waiting := some a } := rfl
@[simp] theorem State.request_oru (s : State) (r : Requester) (a : Access) : (State.request r a s).oru = s.oru := rfl
@[simp] theorem State.request_jnu (s : State) (r : Requester) (a : Access) : (State.request r a s).jnu = s.jnu := rfl
@[simp] theorem State.request_stw (s : State) (r : Requester) (a : Access) : (State.request r a s).stw = s.stw := rfl
@[simp] theorem State.request_floor (s : State) (r : Requester) (a : Access) : (State.request r a s).floor = s.floor := rfl
@[simp] theorem State.request_tpe (s : State) (r : Requester) (a : Access) : (State.request r a s).tpe = s.tpe := rfl
@[simp] theorem State.request_due (s : State) (r : Requester) (a : Access) : (State.request r a s).due = s.due := rfl
@[simp] theorem State.request_pending (s : State) (r : Requester) (a : Access) : (State.request r a s).pending = s.pending := rfl
@[simp] theorem State.freePort_rc (s : State) (r : Requester) : (State.freePort r s).rc = s.rc := rfl
@[simp] theorem State.freePort_mpt (s : State) (r : Requester) : (State.freePort r s).mpt = s.mpt.setPort r { s.mpt.port r with inFlight := none } := rfl
@[simp] theorem State.freePort_oru (s : State) (r : Requester) : (State.freePort r s).oru = s.oru := rfl
@[simp] theorem State.freePort_jnu (s : State) (r : Requester) : (State.freePort r s).jnu = s.jnu := rfl
@[simp] theorem State.freePort_stw (s : State) (r : Requester) : (State.freePort r s).stw = s.stw := rfl
@[simp] theorem State.freePort_floor (s : State) (r : Requester) : (State.freePort r s).floor = s.floor := rfl
@[simp] theorem State.freePort_tpe (s : State) (r : Requester) : (State.freePort r s).tpe = s.tpe := rfl
@[simp] theorem State.freePort_due (s : State) (r : Requester) : (State.freePort r s).due = s.due := rfl
@[simp] theorem State.freePort_pending (s : State) (r : Requester) : (State.freePort r s).pending = s.pending := rfl
@[simp] theorem State.withdraw_rc (s : State) (r : Requester) : (State.withdraw r s).rc = s.rc := rfl
@[simp] theorem State.withdraw_mpt (s : State) (r : Requester) : (State.withdraw r s).mpt = s.mpt.setPort r { s.mpt.port r with waiting := none } := rfl
@[simp] theorem State.withdraw_oru (s : State) (r : Requester) : (State.withdraw r s).oru = s.oru := rfl
@[simp] theorem State.withdraw_jnu (s : State) (r : Requester) : (State.withdraw r s).jnu = s.jnu := rfl
@[simp] theorem State.withdraw_stw (s : State) (r : Requester) : (State.withdraw r s).stw = s.stw := rfl
@[simp] theorem State.withdraw_floor (s : State) (r : Requester) : (State.withdraw r s).floor = s.floor := rfl
@[simp] theorem State.withdraw_tpe (s : State) (r : Requester) : (State.withdraw r s).tpe = s.tpe := rfl
@[simp] theorem State.withdraw_due (s : State) (r : Requester) : (State.withdraw r s).due = s.due := rfl
@[simp] theorem State.withdraw_pending (s : State) (r : Requester) : (State.withdraw r s).pending = s.pending := rfl
@[simp] theorem State.abandonPort_rc (s : State) (r : Requester) (x : Fate) : (State.abandonPort r x s).rc = s.rc := rfl
@[simp] theorem State.abandonPort_mpt (s : State) (r : Requester) (x : Fate) : (State.abandonPort r x s).mpt = s.mpt.setPort r ((s.mpt.port r).abandon x) := rfl
@[simp] theorem State.abandonPort_oru (s : State) (r : Requester) (x : Fate) : (State.abandonPort r x s).oru = s.oru := rfl
@[simp] theorem State.abandonPort_jnu (s : State) (r : Requester) (x : Fate) : (State.abandonPort r x s).jnu = s.jnu := rfl
@[simp] theorem State.abandonPort_stw (s : State) (r : Requester) (x : Fate) : (State.abandonPort r x s).stw = s.stw := rfl
@[simp] theorem State.abandonPort_floor (s : State) (r : Requester) (x : Fate) : (State.abandonPort r x s).floor = s.floor := rfl
@[simp] theorem State.abandonPort_tpe (s : State) (r : Requester) (x : Fate) : (State.abandonPort r x s).tpe = s.tpe := rfl
@[simp] theorem State.abandonPort_due (s : State) (r : Requester) (x : Fate) : (State.abandonPort r x s).due = s.due := rfl
@[simp] theorem State.abandonPort_pending (s : State) (r : Requester) (x : Fate) : (State.abandonPort r x s).pending = s.pending := rfl
@[simp] theorem State.commit_rc (s : State) (w : Work) : (s.commit w).rc = s.rc := rfl
@[simp] theorem State.commit_mpt (s : State) (w : Work) : (s.commit w).mpt = s.mpt := rfl
@[simp] theorem State.commit_oru (s : State) (w : Work) : (s.commit w).oru = s.oru := rfl
@[simp] theorem State.commit_jnu (s : State) (w : Work) : (s.commit w).jnu = w.notes.foldl (Jnu.hand w.floor.mxe.frame) s.jnu := rfl
@[simp] theorem State.commit_stw (s : State) (w : Work) : (s.commit w).stw = w.handed.foldl (Stw.hand w.floor) s.stw := rfl
@[simp] theorem State.commit_floor (s : State) (w : Work) : (s.commit w).floor = w.floor := rfl
@[simp] theorem State.commit_tpe (s : State) (w : Work) : (s.commit w).tpe = s.tpe := rfl
@[simp] theorem State.commit_due (s : State) (w : Work) : (s.commit w).due = s.due ++ w.raised := rfl
@[simp] theorem State.commit_pending (s : State) (w : Work) : (s.commit w).pending = s.pending := rfl

@[simp] theorem Work.of_floor (f : Floor) : (Work.of f).floor = f := rfl
@[simp] theorem Work.of_notes (f : Floor) : (Work.of f).notes = [] := rfl
@[simp] theorem Work.of_handed (f : Floor) : (Work.of f).handed = [] := rfl
@[simp] theorem Work.of_raised (f : Floor) : (Work.of f).raised = [] := rfl

/-! ### Ports -/

@[simp] theorem Mpt.port_setPort_self (m : Mpt) (r : Requester) (p : Port) : (m.setPort r p).port r = p := by
  cases r <;> rfl

theorem Mpt.port_setPort_ne (m : Mpt) {r q : Requester} (p : Port) (h : r ≠ q) : (m.setPort r p).port q = m.port q := by
  cases r <;> cases q <;> first | rfl | exact absurd rfl h

/-! ### Tap records -/

theorem State.putTap_tpe (s : State) (n : TapNo) (r : TapRec) :
    (s.putTap n r).tpe = { s.tpe with taps := s.tpe.taps.set n r } := by
  unfold State.putTap; dsimp only; split <;> rfl

theorem State.putTap_stw (s : State) (n : TapNo) (r : TapRec) :
    (s.putTap n r).stw = s.stw ∨ (s.putTap n r).stw = s.stw.hand s.floor (.handset n) := by
  unfold State.putTap; dsimp only; split
  · exact Or.inl rfl
  · exact Or.inr rfl

@[simp] theorem State.putTap_rc (s : State) (n : TapNo) (r : TapRec) : (s.putTap n r).rc = s.rc := by
  unfold State.putTap; dsimp only; split <;> rfl
@[simp] theorem State.putTap_mpt (s : State) (n : TapNo) (r : TapRec) : (s.putTap n r).mpt = s.mpt := by
  unfold State.putTap; dsimp only; split <;> rfl
@[simp] theorem State.putTap_oru (s : State) (n : TapNo) (r : TapRec) : (s.putTap n r).oru = s.oru := by
  unfold State.putTap; dsimp only; split <;> rfl
@[simp] theorem State.putTap_jnu (s : State) (n : TapNo) (r : TapRec) : (s.putTap n r).jnu = s.jnu := by
  unfold State.putTap; dsimp only; split <;> rfl
@[simp] theorem State.putTap_floor (s : State) (n : TapNo) (r : TapRec) : (s.putTap n r).floor = s.floor := by
  unfold State.putTap; dsimp only; split <;> rfl
@[simp] theorem State.putTap_due (s : State) (n : TapNo) (r : TapRec) : (s.putTap n r).due = s.due := by
  unfold State.putTap; dsimp only; split <;> rfl
@[simp] theorem State.putTap_pending (s : State) (n : TapNo) (r : TapRec) : (s.putTap n r).pending = s.pending := by
  unfold State.putTap; dsimp only; split <;> rfl

/-! What STOP does to the floor (R166): TPE and ORU leave it. -/

@[simp] theorem oruEnd_floor (s : State) : (oruEnd s).floor = s.floor := rfl
@[simp] theorem requestJob_floor (s : State) : (requestJob s).floor = s.floor := by
  unfold requestJob; repeat' split
  all_goals simp
@[simp] theorem haltTaps_floor (s : State) : (haltTaps s).floor = s.floor := by
  unfold haltTaps
  induction List.finRange 64 generalizing s with
  | nil => rfl
  | cons n rest ih => simp only [List.foldl_cons, ih]; simp
@[simp] theorem stopOru_floor (s : State) : (stopOru s).floor = s.floor := by
  unfold stopOru; repeat' split
  all_goals simp [State.withdraw]
@[simp] theorem stopTaps_floor (s : State) : (stopTaps s).floor = s.floor := by
  unfold stopTaps; dsimp only; split
  all_goals simp [State.abandonPort]
@[simp] theorem startStopping_floor (s : State) : (startStopping s).floor = s.floor.leaveRunning := by
  simp [startStopping]

end Sys2Proof.Machine
end

