-- ==== Sys2Proof/Laws/Handing.lean ====
section
/-! SUPPORT. What the operations around an event can do, said once: handing notes and entries over, taking raised events,
taking a completion, and taking an order and writing its outcome back. -/

namespace Sys2Proof.Machine

/-! ### Notes and entries -/

theorem Jnu.hand_keeps (f : Word) (j : Jnu) (b : NoteBody) :
    (j.hand f b).produced = j.produced ∧ (j.hand f b).consumed = j.consumed ∧ (j.hand f b).phase = j.phase ∧
      (j.hand f b).linger = j.linger ∧ j.queue.length ≤ (j.hand f b).queue.length := by
  unfold Jnu.hand
  split <;> simp

theorem Jnu.hand_bounded (f : Word) (j : Jnu) (b : NoteBody) (h : j.queue.length ≤ Config.notePlaces) :
    (j.hand f b).queue.length ≤ Config.notePlaces := by
  unfold Jnu.hand
  split <;> simp <;> omega

theorem Jnu.hands_bounded (f : Word) (ns : List NoteBody) (j : Jnu) (h : j.queue.length ≤ Config.notePlaces) :
    (ns.foldl (Jnu.hand f) j).queue.length ≤ Config.notePlaces := by
  induction ns generalizing j with
  | nil => exact h
  | cons n ns ih => exact ih _ (j.hand_bounded f n h)

theorem Stw.mem_hand (f : Floor) (w : Stw) (e d : Entry) :
    d ∈ (w.hand f e).queue ↔ d ∈ w.queue ∨ d = e := by
  unfold Stw.hand
  dsimp only
  split
  · next h => constructor
              · exact Or.inl
              · rintro (g | rfl)
                · exact g
                · exact h
  · simp

theorem Stw.mem_hands (f : Floor) (es : List Entry) (w : Stw) (d : Entry) :
    d ∈ (es.foldl (Stw.hand f) w).queue ↔ d ∈ w.queue ∨ d ∈ es := by
  induction es generalizing w with
  | nil => simp
  | cons e es ih => simp only [List.foldl_cons, ih, Stw.mem_hand, List.mem_cons, or_assoc]

theorem Stw.hand_nodup (f : Floor) (w : Stw) (e : Entry) (h : w.queue.Nodup) :
    (w.hand f e).queue.Nodup := by
  unfold Stw.hand
  dsimp only
  split
  · exact h
  · next g => simpa [List.nodup_append] using ⟨h, fun a ha e' => g (e' ▸ ha)⟩

theorem Stw.hands_nodup (f : Floor) (es : List Entry) (w : Stw) (h : w.queue.Nodup) :
    (es.foldl (Stw.hand f) w).queue.Nodup := by
  induction es generalizing w with
  | nil => exact h
  | cons e es ih => exact ih _ (w.hand_nodup f e h)

/-- A hand-over changes the queue and, for a line, the depth and the saturation counter shown. -/
theorem Stw.hand_keeps (f : Floor) (w : Stw) (e : Entry) :
    w.hand f e =
      { w with
        queue := (w.hand f e).queue, depths := depthsShown f.ltm w.depths e
        saturations := saturationsShown f.mxe.transmitClips w.saturations e } := rfl

theorem Stw.hands_keep (f : Floor) (es : List Entry) (w : Stw) :
    es.foldl (Stw.hand f) w =
      { w with
        queue := (es.foldl (Stw.hand f) w).queue, depths := (es.foldl (Stw.hand f) w).depths
        saturations := (es.foldl (Stw.hand f) w).saturations } := by
  induction es generalizing w with
  | nil => rfl
  | cons e es ih =>
    rw [List.foldl_cons, ih, Stw.hand_keeps f w e]

theorem State.commit_of (s : State) : s.commit (Work.of s.floor) = s := by
  simp [State.commit, Work.of]

/-! ### Raised events -/

theorem settle_quiet {s : State} (h : s.due = []) : settle s = s := by
  cases s
  simp_all [settle]

theorem takeEvent_due (e : Raised) (s : State) : (takeEvent e s).due = s.due := rfl

theorem settle_cons {s : State} {e : Raised} {es : List Raised} (h : s.due = e :: es) :
    settle s = settle (takeEvent e { s with due := es }) := by
  have key : ∀ (es : List Raised) (s : State) (d : List Raised),
      es.foldl (fun s e => takeEvent e s) { s with due := d } =
        { es.foldl (fun s e => takeEvent e s) s with due := d } := by
    intro es
    induction es with
    | nil => intros; rfl
    | cons x xs ih =>
      intro s d
      simp only [List.foldl_cons]
      rw [← ih]
      rfl
  unfold settle
  rw [h, List.foldl_cons, takeEvent_due]
  rfl

/-! ### Completions -/

theorem completion_live {r : Requester} {awaits : State → Bool} {act : State → State} {s : State} {f : Flight}
    (hf : (s.mpt.port r).inFlight = some f) (hl : f.fate = .live) (ha : awaits s = true) :
    completion r awaits act s = act (s.freePort r) := by
  simp [completion, hf, hl, ha]

/-- A completion acts, frees the port alone, or changes nothing. -/
theorem completion_cases (r : Requester) (awaits : State → Bool) (act : State → State) (s : State) :
    completion r awaits act s = act (s.freePort r) ∨ completion r awaits act s = s.freePort r ∨
      completion r awaits act s = s := by
  unfold completion
  split
  · exact .inr (.inr rfl)
  · split
    · exact .inr (.inl rfl)
    · split
      · exact .inl rfl
      · exact .inr (.inr rfl)

/-! ### Orders -/

/-- The outcome of an order joins whatever its owner did. -/
theorem completed_of_commit (s : State) (w : Work) (o : OrderResult) (h : w.raised = []) :
    Completed s o (completeOrder o (s.commit w)) ∧ (completeOrder o (s.commit w)).floor = w.floor ∧
      (completeOrder o (s.commit w)).jnu = w.notes.foldl (Jnu.hand w.floor.mxe.frame) s.jnu ∧
      (completeOrder o (s.commit w)).stw = w.handed.foldl (Stw.hand w.floor) s.stw := by
  unfold completeOrder
  cases hd : s.oru.order with
  | none =>
    refine ⟨⟨?_, ?_, ?_, ?_, ?_, ?_⟩, ?_, ?_, ?_⟩ <;> simp [State.commit, State.setOru, hd, h]
  | some d =>
    cases hn : s.oru.next with
    | none =>
      refine ⟨⟨?_, ?_, ?_, ?_, ?_, ?_⟩, ?_, ?_, ?_⟩ <;>
        simp [State.commit, State.setOru, oruStep, oruRequest, oruAccess, hd, hn, h]
    | some a =>
      refine ⟨⟨?_, ?_, ?_, ?_, ?_, ?_⟩, ?_, ?_, ?_⟩ <;>
        simp [State.commit, State.setOru, oruStep, oruRequest, oruAccess, State.request, Mpt.setPort, Mpt.port,
          writeAccess, atOffset, bytesOf, hd, hn, h]

/-- An order over the floor that may be taken completes with its own result. -/
theorem takeOrder_taken {c : Instr} {n : Bool} {f : Work → Work × OrderResult} {s : State} (h : Turn c n s) :
    takeOrder c n (floorOrder f) s =
      .next (completeOrder (f (Work.of s.floor)).2 (s.commit (f (Work.of s.floor)).1)) := by
  simp [takeOrder, settle_quiet h.quiet, h.taken, floorOrder]

/-- An order over the floor that its owner refuses changes nothing. -/
theorem takeOrder_refused {c : Instr} {n : Bool} {f : Work → Work × OrderResult} {s : State} {code : ResultCode}
    (h : Turn c n s) (hx : exec c s = takeOrder c n (floorOrder f) s)
    (hf : f (Work.of s.floor) = refuse code (Work.of s.floor)) : Refuses c s code := by
  have k := completed_of_commit s (Work.of s.floor) { code := code, data := [] } rfl
  refine ⟨_, ?_, k.1, k.2.1, k.2.2.1, k.2.2.2⟩
  rw [hx, takeOrder_taken h, hf]
  rfl

/-- An outcome that comes with a later event goes to the order that its owner has taken. -/
theorem completeTaken_taken {s : State} {d : Dispatched} {o : OrderResult} (h : s.oru.order = some d)
    (k : d.taken = true) : completeTaken o s = completeOrder o s := by
  simp [completeTaken, h, k]

/-- An order dispatched since waits for its own outcome. -/
theorem completeTaken_waiting {s : State} {d : Dispatched} {o : OrderResult} (h : s.oru.order = some d)
    (k : d.taken = false) : completeTaken o s = s.setOru { s.oru with lastOutcome := some o } := by
  simp [completeTaken, h, k]

/-- Every order of the table is carried out at STOP as by its own row. -/
theorem execOrder_eq_exec {c : Instr} (h : immediateOrder c = true ∨ ∃ n, c = .tapStart n) : execOrder c = exec c := by
  cases c <;> first | rfl | simp [immediateOrder] at h

/-- Without a dispatched order STOP carries out none. -/
theorem carryDispatched_none {s : State} (h : s.oru.order.bind Dispatched.order = none) : carryDispatched s = s := by
  simp [carryDispatched, h]

/-- At STOP a dispatched order has the effect of its own row. -/
theorem carryDispatched_of_exec {s t : State} {d : Dispatched} {c : Instr} (hd : s.oru.order = some d)
    (hc : d.order = some c) (h : immediateOrder c = true ∨ ∃ n, c = .tapStart n) (k : exec c s = .next t) :
    carryDispatched s = t := by
  simp [carryDispatched, hd, hc, execOrder_eq_exec h, k]

/-- A dispatched order is taken in RUNNING alone (R9). -/
theorem mayTake_dispatched {c : Instr} {n : Bool} {s : State} {d : Dispatched} (hd : s.oru.order = some d)
    (h : mayTake c n s = true) : s.rc.runState = .running ∧ s.oru.step = .execute ∧ d.order = some c ∧
      d.taken = false ∧ d.outcome = none := by
  simp [mayTake, hd, State.running, and_assoc] at h
  exact h.2

/-! ### Tap records -/

/-- Writing a tap record changes the taps and STW alone. -/
theorem State.putTap_keeps (s : State) (n : TapNo) (r : TapRec) :
    s.putTap n r = { s with tpe := { s.tpe with taps := s.tpe.taps.set n r }, stw := (s.putTap n r).stw } := by
  unfold State.putTap
  split <;> rfl

/-- Writing tap after tap by a function of its record changes the taps and STW alone. -/
theorem State.putTaps_keep (g : TapRec → TapRec) (ns : List TapNo) (s : State) :
    ns.foldl (fun s n => s.putTap n (g (s.tap n))) s =
      { s with
        tpe := { s.tpe with taps := ns.foldl (fun t n => t.set n (g (t.get n))) s.tpe.taps }
        stw := (ns.foldl (fun s n => s.putTap n (g (s.tap n))) s).stw } := by
  induction ns generalizing s with
  | nil => rfl
  | cons n ns ih =>
    rw [List.foldl_cons, ih, State.putTap_keeps]
    rfl

/-- A table with the cells of distinct numbers changed by a function. -/
theorem Table.get_foldl_set {n : Nat} {α : Type} (g : α → α) (ns : List (Fin n)) (h : ns.Nodup) (t : Table n α)
    (i : Fin n) :
    (ns.foldl (fun t k => t.set k (g (t.get k))) t).get i = if i ∈ ns then g (t.get i) else t.get i := by
  induction ns generalizing t with
  | nil => simp
  | cons k ns ih =>
    rw [List.foldl_cons, ih h.of_cons]
    by_cases e : k = i
    · subst e; simp [(List.nodup_cons.mp h).1]
    · simp [Table.get_set_ne, e, Ne.symm e]

/-- At STOP every tap is STOPPED and not closing, and nothing beside the taps and STW changes (R161). -/
theorem haltTaps_keeps (s : State) :
    haltTaps s = { s with tpe := { s.tpe with taps := (haltTaps s).tpe.taps }, stw := (haltTaps s).stw } := by
  unfold haltTaps
  rw [State.putTaps_keep TapRec.halt]

theorem haltTaps_tap (s : State) (n : TapNo) : (haltTaps s).tpe.taps.get n = (s.tpe.taps.get n).halt := by
  unfold haltTaps
  rw [State.putTaps_keep TapRec.halt]
  simp [Table.get_foldl_set, List.nodup_finRange]

end Sys2Proof.Machine
end

