-- ==== Sys2Proof/Laws/Announce.lean ====
section
/-! SUPPORT. How ANNOUNCE goes through its mask (R125): the positions of a mask, and an announcement over several positions as
one over the lowest and one over the rest. -/

namespace Sys2Proof.Machine

theorem inMask_maskOf (p q : PositionNo) : inMask (maskOf p) q = decide (p = q) := by
  revert p q; decide +kernel

theorem inMask_or (m n : Word) (q : PositionNo) : inMask (m ||| n) q = (inMask m q || inMask n q) := by
  simp [inMask]

theorem mem_maskPositions (m : Word) (q : PositionNo) : q ∈ maskPositions m ↔ inMask m q = true := by
  simp [maskPositions]

theorem maskPositions_ascending (m : Word) : (maskPositions m).Pairwise (· < ·) :=
  (List.pairwise_lt_finRange 32).filter _

/-- The positions of a mask are its lowest one and then those of the rest. -/
theorem maskPositions_lowest {p : PositionNo} {rest : Word} (h : ∀ q, inMask rest q = true → p < q) :
    maskPositions (maskOf p ||| rest) = p :: maskPositions rest := by
  have hr : (p :: maskPositions rest).Pairwise (· < ·) :=
    List.pairwise_cons.2 ⟨fun q hq => h q ((mem_maskPositions rest q).1 hq), maskPositions_ascending rest⟩
  have hl := maskPositions_ascending (maskOf p ||| rest)
  refine List.Perm.eq_of_pairwise (le := (· < ·)) (fun a b _ _ h1 h2 => absurd h1 (lt_asymm h2)) hl hr ?_
  refine (List.perm_ext_iff_of_nodup (hl.imp ne_of_lt) (hr.imp ne_of_lt)).2 fun q => ?_
  rw [mem_maskPositions, List.mem_cons, mem_maskPositions, inMask_or, inMask_maskOf]
  simp [@eq_comm _ p q]

/-- What ANNOUNCE does at a position does not depend on the positions reached before. -/
theorem announceAt_mask (s : BridgeNo) (n : Nat) (w : Work) (m : Word) (p : PositionNo) :
    announceAt s n (w, m) p = ((announceAt s n (w, 0#32) p).1, m ||| (announceAt s n (w, 0#32) p).2) := by
  simp only [announceAt]
  split <;> simp

/-- An ANNOUNCE over several positions gathers the masks of its parts. -/
theorem announceAll_mask (s : BridgeNo) (n : Nat) (ps : List PositionNo) (w : Work) (m : Word) :
    ps.foldl (announceAt s n) (w, m) =
      ((ps.foldl (announceAt s n) (w, 0#32)).1, m ||| (ps.foldl (announceAt s n) (w, 0#32)).2) := by
  induction ps generalizing w m with
  | nil => simp
  | cons p ps ih =>
    simp only [List.foldl_cons]
    rw [announceAt_mask, ih, ih (announceAt s n (w, 0#32) p).1 (announceAt s n (w, 0#32) p).2]
    simp [BitVec.or_assoc]

end Sys2Proof.Machine
end

