-- ==== Sys2Proof/Laws/Moves.lean ====
section
/-! SUPPORT. What the shared operations of CNC can do, said once: each is a sequence of moves, and a move changes one record
of one kind. A property that every move keeps is kept by every operation. -/

namespace Sys2Proof.Machine

/-- The states that membership leaves as they are (R42). -/
def fixedState (s : LineState) : Bool := s = .fault || s = .test || s = .leg || s = .disabled

/-- One change of one record in an event; `calls` allows handset records, `talks` hoot and talk records. -/
inductive Move (calls talks : Bool) : Work → Work → Prop
  | note (w b) : Move calls talks w (w.note b)
  | hand (w e) : Move calls talks w (w.hand e)
  | line (w l r) (only : r = { w.line l with state := r.state, knock := r.knock })
      (fixed : fixedState (w.line l).state = true → r = w.line l)
      (loose : fixedState r.state = fixedState (w.line l).state) : Move calls talks w (w.putLine l r)
  | group (w g r) (config : r.roster = (w.group g).roster ∧ r.timeout = (w.group g).timeout ∧
      r.cadence = (w.group g).cadence) : Move calls talks w (w.putGroup g r)
  | channel (w p c r) : Move calls talks w (w.putChannel p c r)
  | zeroGain (w p c) : Move calls talks w (w.zeroGain p c)
  | ringer (w p r) : Move calls talks w (w.putRinger p r)
  | ringList (w p list) (short : list.length ≤ Config.ringPlaces ∨ list.length ≤ (w.ringList p).length) :
      Move calls talks w (w.setCnc { w.cnc with ringLists := w.cnc.ringLists.set p list })
  | insert (w sl m) (free : w.cnc.pool.get sl = none) : Move calls talks w (w.setCnc (w.cnc.insert sl m))
  | erase (w sl m) (held : w.cnc.pool.get sl = some m) : Move calls talks w (w.setCnc (w.cnc.erase sl m))
  | mode (w sl m mode) (held : w.cnc.pool.get sl = some m) :
      Move calls talks w (w.setCnc (w.cnc.changeMode sl m mode))
  | handset (w h r) (allowed : calls = true) : Move calls talks w (w.putHandset h r)
  | hoot (w k r) (allowed : talks = true) (config : r.roster = (w.hoot k).roster ∧ r.talk = (w.hoot k).talk ∧
      r.limit = (w.hoot k).limit ∧ r.priority = (w.hoot k).priority) : Move calls talks w (w.putHoot k r)
  | talk (w p r) (allowed : talks = true) : Move calls talks w (w.putTalk p r)

/-- A sequence of moves. -/
abbrev Moves (calls talks : Bool) : Work → Work → Prop := Relation.ReflTransGen (Move calls talks)

namespace Moves
variable {a b : Bool} {w w' w'' : Work}

theorem one (h : Move a b w w') : Moves a b w w' := Relation.ReflTransGen.single h

theorem foldl {α : Type} (f : Work → α → Work) (h : ∀ w x, Moves a b w (f w x)) (xs : List α) (w : Work) :
    Moves a b w (xs.foldl f w) := by
  induction xs generalizing w with
  | nil => exact .refl
  | cons x xs ih => exact (h w x).trans (ih _)

theorem note (w : Work) (n : NoteBody) : Moves a b w (w.note n) := one (.note w n)
theorem hand (w : Work) (e : Entry) : Moves a b w (w.hand e) := one (.hand w e)

/-- Moves that need fewer records are moves where more are allowed. -/
theorem mono {c d : Bool} (h : Moves a b w w') (hc : a = true → c = true) (hd : b = true → d = true) :
    Moves c d w w' := by
  induction h with
  | refl => exact .refl
  | tail _ m ih =>
    refine ih.tail ?_
    cases m with
    | note => exact .note _ _
    | hand => exact .hand _ _
    | line _ _ h1 h2 h3 => exact .line _ _ _ h1 h2 h3
    | group _ _ h1 => exact .group _ _ _ h1
    | channel => exact .channel _ _ _ _
    | zeroGain => exact .zeroGain _ _ _
    | ringer => exact .ringer _ _ _
    | ringList _ _ h1 => exact .ringList _ _ _ h1
    | insert _ _ h1 => exact .insert _ _ _ h1
    | erase _ _ h1 => exact .erase _ _ _ h1
    | mode _ _ _ h1 => exact .mode _ _ _ _ h1
    | handset _ _ h1 => exact .handset _ _ _ (hc h1)
    | hoot _ _ h1 h2 => exact .hoot _ _ _ (hd h1) h2
    | talk _ _ h1 => exact .talk _ _ _ (hd h1)

/-- What no move changes. -/
structure Keeps (w w' : Work) : Prop where
  lhp : w'.floor.lhp = w.floor.lhp
  ltm : w'.floor.ltm = w.floor.ltm
  plp : w'.floor.plp = w.floor.plp
  raised : w'.raised = w.raised
  frame : w'.floor.mxe.frame = w.floor.mxe.frame
  lineGains : w'.floor.mxe.lineGains = w.floor.mxe.lineGains
  positionGains : w'.floor.mxe.positionGains = w.floor.mxe.positionGains
  earClips : w'.floor.mxe.earClips = w.floor.mxe.earClips
  channelClips : w'.floor.mxe.channelClips = w.floor.mxe.channelClips
  sideClips : w'.floor.mxe.sideClips = w.floor.mxe.sideClips
  transmitClips : w'.floor.mxe.transmitClips = w.floor.mxe.transmitClips
  activity : w'.floor.mxe.activity = w.floor.mxe.activity
  mix : w'.floor.mxe.mix = w.floor.mxe.mix
  appearances : w'.floor.cnc.appearances = w.floor.cnc.appearances
  cadences : w'.floor.cnc.cadences = w.floor.cnc.cadences
  settings : w'.floor.cnc.settings = w.floor.cnc.settings
  lines : ∀ l, w'.line l = { w.line l with state := (w'.line l).state, knock := (w'.line l).knock }
  fixed : ∀ l, fixedState (w.line l).state = true → w'.line l = w.line l
  loose : ∀ l, fixedState (w'.line l).state = fixedState (w.line l).state
  groups : ∀ g, (w'.group g).roster = (w.group g).roster ∧ (w'.group g).timeout = (w.group g).timeout ∧
    (w'.group g).cadence = (w.group g).cadence
  hoots : ∀ k, (w'.hoot k).roster = (w.hoot k).roster ∧ (w'.hoot k).talk = (w.hoot k).talk ∧
    (w'.hoot k).limit = (w.hoot k).limit ∧ (w'.hoot k).priority = (w.hoot k).priority

theorem Keeps.refl (w : Work) : Keeps w w := by constructor <;> simp

theorem Keeps.trans (h : Keeps w w') (g : Keeps w' w'') : Keeps w w'' where
  lhp := g.lhp.trans h.lhp
  ltm := g.ltm.trans h.ltm
  plp := g.plp.trans h.plp
  raised := g.raised.trans h.raised
  frame := g.frame.trans h.frame
  lineGains := g.lineGains.trans h.lineGains
  positionGains := g.positionGains.trans h.positionGains
  earClips := g.earClips.trans h.earClips
  channelClips := g.channelClips.trans h.channelClips
  sideClips := g.sideClips.trans h.sideClips
  transmitClips := g.transmitClips.trans h.transmitClips
  activity := g.activity.trans h.activity
  mix := g.mix.trans h.mix
  appearances := g.appearances.trans h.appearances
  cadences := g.cadences.trans h.cadences
  settings := g.settings.trans h.settings
  lines := fun l => by rw [g.lines l, h.lines l]
  fixed := fun l e => by
    have e1 := h.fixed l e
    rw [g.fixed l (by rw [e1]; exact e), e1]
  loose := fun l => (g.loose l).trans (h.loose l)
  groups := fun x =>
    ⟨(g.groups x).1.trans (h.groups x).1, (g.groups x).2.1.trans (h.groups x).2.1,
      (g.groups x).2.2.trans (h.groups x).2.2⟩
  hoots := fun x =>
    ⟨(g.hoots x).1.trans (h.hoots x).1, (g.hoots x).2.1.trans (h.hoots x).2.1,
      (g.hoots x).2.2.1.trans (h.hoots x).2.2.1, (g.hoots x).2.2.2.trans (h.hoots x).2.2.2⟩

theorem Keeps.of_move (h : Move a b w w') : Keeps w w' := by
  cases h with
  | line l r only fixed loose =>
    have e : ∀ k, (w.putLine l r).line k = if l = k then r else w.line k := fun k => by
      simp [Work.line, Table.get_set]
    constructor <;> try (simp [Work.group, Work.hoot, Work.cnc])
    · intro k
      rw [e]
      split
      · next h => subst h; exact only
      · rfl
    · intro k hk
      rw [e]
      split
      · next h => subst h; exact fixed hk
      · rfl
    · intro k
      rw [e]
      split
      · next h => subst h; exact loose
      · rfl
  | group g r config =>
    constructor <;> try (simp [Work.line, Work.hoot, Work.cnc])
    intro k
    by_cases e : g = k
    · subst e; simpa [Work.group, Work.cnc] using config
    · simp [Work.group, Work.cnc, Table.get_set_ne _ _ e]
  | hoot k r _ config =>
    constructor <;> try (simp [Work.line, Work.group, Work.cnc])
    intro x
    by_cases e : k = x
    · subst e; simpa [Work.hoot, Work.cnc] using config
    · simp [Work.hoot, Work.cnc, Table.get_set_ne _ _ e]
  | _ =>
    constructor <;>
      simp [Cnc.insert, Cnc.erase, Cnc.changeMode, Work.line, Work.group, Work.hoot, Work.cnc, Work.mxe]

/-- What every sequence of moves keeps. -/
theorem keeps (h : Moves a b w w') : Keeps w w' := by
  induction h with
  | refl => exact .refl _
  | tail _ m ih => exact ih.trans (.of_move m)

/-- Without leave to change them, handset records stand. -/
theorem handsets (h : Moves false b w w') : w'.cnc.handsets = w.cnc.handsets := by
  induction h with
  | refl => rfl
  | tail _ m ih =>
    rw [← ih]
    cases m <;> first
      | contradiction
      | simp [Cnc.insert, Cnc.erase, Cnc.changeMode, Work.cnc, Work.mxe]

/-- Without leave to change them, hoot and talk records stand. -/
theorem talkRecords (h : Moves a false w w') : w'.cnc.hoots = w.cnc.hoots ∧ w'.cnc.talks = w.cnc.talks := by
  induction h with
  | refl => exact ⟨rfl, rfl⟩
  | tail _ m ih =>
    rw [← ih.1, ← ih.2]
    cases m <;> first
      | contradiction
      | simp [Cnc.insert, Cnc.erase, Cnc.changeMode, Work.cnc, Work.mxe]

/-- Ring lists keep a bound of 16. -/
theorem ringLists (h : Moves a b w w') (hw : ∀ p, (w.ringList p).length ≤ Config.ringPlaces) :
    ∀ p, (w'.ringList p).length ≤ Config.ringPlaces := by
  induction h with
  | refl => exact hw
  | tail _ m ih =>
    cases m with
    | ringList p list short =>
      intro q
      by_cases e : p = q
      · subst e
        have := ih p
        simp only [Work.setCnc_floor, Work.ringList, Work.cnc, Table.get_set_self] at this ⊢
        rcases short with h1 | h1
        · exact h1
        · exact le_trans h1 this
      · simpa [Work.ringList, Work.cnc, Table.get_set_ne _ _ e] using ih q
    | _ => simpa [Cnc.insert, Cnc.erase, Cnc.changeMode, Work.ringList, Work.cnc, Work.mxe] using ih

/-- Notes are only added. -/
theorem notes (h : Moves a b w w') : ∃ ns, w'.notes = w.notes ++ ns := by
  induction h with
  | refl => exact ⟨[], by simp⟩
  | tail _ m ih =>
    obtain ⟨ns, e⟩ := ih
    cases m <;> first
      | exact ⟨ns, by simpa using e⟩
      | exact ⟨ns ++ [_], by simp [e]; rfl⟩

end Moves
end Sys2Proof.Machine
end

