-- ==== Sys2Proof/Laws/MovesOf.lean ====
section
/-! SUPPORT. Each shared operation of CNC is a sequence of moves. -/

namespace Sys2Proof.Machine
variable {a b : Bool}

open Relation (ReflTransGen)

/-! ### Members -/

theorem handMember_moves (w : Work) (m : Member) : Moves a b w (w.handMember m) := by
  unfold Work.handMember
  split
  · split
    · exact .hand w _
    · exact .refl
    · exact .refl
  · split
    · exact .hand w _
    · exact .refl
    · exact .refl
  · exact .hand w _

theorem freeSlot_free {c : Cnc} {sl : SlotNo} (h : freeSlot c = some sl) : c.pool.get sl = none := by
  have := List.find?_some h
  simpa using this

theorem create_moves {w w' : Work} {kind : MemberKind} {br : BridgeNo} {mode : Mode} {sl : SlotNo}
    (h : w.create kind br mode = some (w', sl)) : Moves a b w w' := by
  unfold Work.create at h
  split at h
  · cases h
  · next s hs =>
    simp only [Option.some.injEq, Prod.mk.injEq] at h
    rw [← h.1]
    exact (Moves.one (.insert w s _ (freeSlot_free hs))).trans (handMember_moves _ _)

theorem remove_moves (w : Work) (sl : SlotNo) : Moves a b w (w.remove sl) := by
  unfold Work.remove
  split
  · exact .refl
  · next m h => exact (Moves.one (.erase w sl m h)).trans (handMember_moves _ _)

theorem setMode_moves (w : Work) (sl : SlotNo) (mode : Mode) : Moves a b w (w.setMode sl mode) := by
  unfold Work.setMode
  split
  · exact .refl
  · next m h => exact (Moves.one (.mode w sl m mode h)).trans (handMember_moves _ _)

theorem zeroGain_moves (w : Work) (p : PositionNo) (c : ChannelNo) : Moves a b w (w.zeroGain p c) :=
  .one (.zeroGain w p c)

theorem applyCut_moves (q : PositionNo) (w : Work) (x : SlotNo × Member) : Moves a b w (applyCut q w x) := by
  unfold applyCut
  split
  · exact .refl
  · split
    · exact (setMode_moves w _ _).trans (zeroGain_moves _ _ _)
    · exact .refl

theorem undoCut_moves (w : Work) (x : SlotNo × Member) : Moves a b w (undoCut w x) := by
  unfold undoCut
  split
  · exact .refl
  · split
    · exact (setMode_moves w _ _).trans (zeroGain_moves _ _ _)
    · exact .refl

theorem cutStep_moves (l : LineNo) (w : Work) : Moves a b w (cutStep l w) := by
  unfold cutStep
  simp only
  split
  · exact .foldl _ (applyCut_moves _) _ _
  · exact .foldl _ undoCut_moves _ _

theorem reevalCut_moves (br : BridgeNo) (w : Work) : Moves a b w (reevalCut br w) := by
  unfold reevalCut
  split
  · exact cutStep_moves _ w
  · exact .refl
  · exact .refl

theorem removeAndCut_moves (w : Work) (sl : SlotNo) : Moves a b w (w.removeAndCut sl) := by
  unfold Work.removeAndCut
  split
  · exact .refl
  · exact (remove_moves w sl).trans (reevalCut_moves _ _)

theorem setModeAndCut_moves (w : Work) (sl : SlotNo) (mode : Mode) : Moves a b w (w.setModeAndCut sl mode) := by
  unfold Work.setModeAndCut
  split
  · exact .refl
  · exact (setMode_moves w sl mode).trans (reevalCut_moves _ _)

/-! ### Alerts -/

theorem ringerHead_moves (p : PositionNo) (head : Option Alert) (w : Work) : Moves a b w (ringerHead p head w) := by
  unfold ringerHead
  simp only
  split <;> exact .one (.ringer w p _)

theorem setRingList_moves (p : PositionNo) (new : List Alert) (w : Work)
    (short : new.length ≤ Config.ringPlaces ∨ new.length ≤ (w.ringList p).length) :
    Moves a b w (setRingList p new w) := by
  unfold setRingList
  have h := (Moves.one (Move.ringList (calls := a) (talks := b) w p new short)).trans (Moves.hand _ (.position p))
  simp only
  split
  · exact h
  · exact h.trans (ringerHead_moves p _ _)

theorem addAlert_moves (p : PositionNo) (br : BridgeNo) (reason : AlertReason) (c : CadenceNo) (w : Work) :
    Moves a b w (addAlert p br reason c w).1 := by
  unfold addAlert
  simp only
  split
  · exact .refl
  · split
    · next h => exact setRingList_moves p _ w (Or.inl (by simp only [List.length_append, List.length_singleton]; omega))
    · exact .note w _

theorem removeAlertAt_moves (br : BridgeNo) (covers : AlertReason → Bool) (acc : Work × Word) (p : PositionNo) :
    Moves a b acc.1 (removeAlertAt br covers acc p).1 := by
  unfold removeAlertAt
  simp only
  split
  · exact setRingList_moves p _ _ (Or.inr (List.length_filter_le _ _))
  · exact .refl

/-- A fold that carries a result beside the work. -/
theorem Moves.foldlFst {α β : Type} (f : Work × β → α → Work × β) (h : ∀ x y, Moves a b x.1 (f x y).1) (ys : List α)
    (x : Work × β) : Moves a b x.1 (ys.foldl f x).1 := by
  induction ys generalizing x with
  | nil => exact .refl
  | cons y ys ih => exact (h x y).trans (ih _)

theorem removeAlerts_moves (br : BridgeNo) (ps : List PositionNo) (covers : AlertReason → Bool) (reason : AlertEnd)
    (w : Work) : Moves a b w (removeAlerts br ps covers reason w) := by
  unfold removeAlerts
  have h : Moves a b w (ps.foldl (removeAlertAt br covers) (w, 0#32)).1 :=
    Moves.foldlFst _ (removeAlertAt_moves br covers) ps (w, 0#32)
  simp only
  split
  · exact h
  · exact h.trans (Moves.note _ _)

theorem addLineAlerts_moves (l : LineNo) (w : Work) : Moves a b w (addLineAlerts l w) := by
  unfold addLineAlerts
  exact .foldl _ (fun w p => addAlert_moves p _ _ _ w) _ _

theorem clearRecall_moves (h : HandsetNo) (br : BridgeNo) (r : Bool) (w : Work) : Moves a b w (clearRecall h br r w) := by
  unfold clearRecall
  simp only
  split
  · exact removeAlerts_moves _ _ _ _ w
  · exact .refl

theorem putHandset_moves (w : Work) (h : HandsetNo) (r : HandsetRec) : Moves true b w (w.putHandset h r) :=
  .one (.handset w h r rfl)

theorem recallEntry_moves (h : HandsetNo) (br : BridgeNo) (cause : RecallCause) (w : Work) :
    Moves true b w (recallEntry h br cause w) := by
  unfold recallEntry
  simp only
  split
  · exact .refl
  · exact ((putHandset_moves w h _).trans (Moves.note _ _)).trans (addAlert_moves _ _ _ _ _)

/-! ### Speakers -/

theorem putChannel_moves (w : Work) (p : PositionNo) (c : ChannelNo) (r : ChannelRec) :
    Moves a b w (w.putChannel p c r) := .one (.channel w p c r)

theorem dropMember_moves (m : Option SlotNo) (w : Work) : Moves a b w (w.dropMember m) := by
  unfold Work.dropMember
  split
  · exact removeAndCut_moves w _
  · exact .refl

theorem judgeMember_moves (m : Option SlotNo) (p : PositionNo) (w : Work) : Moves a b w (w.judgeMember m p) := by
  unfold Work.judgeMember
  split
  · exact .refl
  · split
    · exact .refl
    · exact setModeAndCut_moves w _ _

theorem suspendMember_moves (m : Option SlotNo) (w : Work) : Moves a b w (w.suspendMember m) := by
  unfold Work.suspendMember
  split
  · exact setModeAndCut_moves w _ _
  · exact .refl

theorem popChannel_moves (p : PositionNo) (c : ChannelNo) (w : Work) : Moves a b w (popChannel p c w) := by
  unfold popChannel
  simp only
  split
  · exact .refl
  · refine ReflTransGen.trans ?_ (judgeMember_moves _ _ _)
    refine ReflTransGen.trans ?_ (zeroGain_moves _ _ _)
    refine ReflTransGen.trans ?_ (putChannel_moves _ _ _ _)
    exact dropMember_moves _ w

theorem endChannel_moves (s : BridgeNo) (j : Bool) (acc : Ending) (x : PositionNo × ChannelNo) :
    Moves a b acc.work (endChannel s j acc x).work := by
  unfold endChannel
  simp only
  split
  · exact .refl
  · have h := popChannel_moves (a := a) (b := b) x.1 x.2 acc.work
    cases j
    · exact h
    · exact h.tail (.note _ _)
  · have h := (putChannel_moves (a := a) (b := b) acc.work x.1 x.2 { acc.work.channel x.1 x.2 with
      stack := (acc.work.channel x.1 x.2).stack.filter (fun e => !isAnnouncementOf s e) }).trans
      (dropMember_moves (((acc.work.channel x.1 x.2).stack.find? (isAnnouncementOf s)).bind ChannelEntry.member) _)
    cases j
    · exact h
    · exact h.tail (.note _ _)

theorem endAnnouncements_moves (s : BridgeNo) (j : Bool) (w : Work) : Moves a b w (endAnnouncements s j w).work := by
  have : ∀ (xs : List (PositionNo × ChannelNo)) (acc : Ending),
      Moves a b acc.work (xs.foldl (endChannel s j) acc).work := by
    intro xs
    induction xs with
    | nil => exact fun _ => .refl
    | cons x xs ih => exact fun acc => (endChannel_moves s j acc x).trans (ih _)
  rw [endAnnouncements]
  generalize allChannels = xs
  exact this xs { work := w, count := 0, mask := 0 }

theorem sourceEnds_moves (s : BridgeNo) (w : Work) : Moves a b w (sourceEnds s w) := by
  rw [sourceEnds]
  exact endAnnouncements_moves s true w

theorem loseSpeaker_moves (sl : SlotNo) (p : PositionNo) (c : ChannelNo) (w : Work) :
    Moves a b w (loseSpeaker sl p c w) := by
  unfold loseSpeaker
  have h := (removeAndCut_moves (a := a) (b := b) w sl).trans (putChannel_moves _ p c
    { current := ((w.removeAndCut sl).channel p c).current.lose sl,
      stack := ((w.removeAndCut sl).channel p c).stack.map (ChannelEntry.lose sl) })
  simp only
  split
  · exact h.trans (zeroGain_moves _ p c)
  · exact h

theorem loseAssignedSpeaker_moves (br : BridgeNo) (p : PositionNo) (w : Work) :
    Moves a b w (loseAssignedSpeaker br p w) := by
  unfold loseAssignedSpeaker
  split
  · exact .refl
  · exact loseSpeaker_moves _ _ _ w

theorem pushChannel_moves (p : PositionNo) (c : ChannelNo) (s : BridgeNo) (n : Nat) (w : Work) :
    Moves a b w (pushChannel p c s n w) := by
  unfold pushChannel
  have h1 := suspendMember_moves (a := a) (b := b) (w.channel p c).current.member w
  simp only
  split
  · exact h1
  · next hc =>
    refine ReflTransGen.trans ?_ (zeroGain_moves _ _ _)
    refine ReflTransGen.trans ?_ (reevalCut_moves _ _)
    refine ReflTransGen.trans ?_ (putChannel_moves _ _ _ _)
    exact h1.trans (create_moves hc)

theorem announceAt_moves (s : BridgeNo) (n : Nat) (acc : Work × Word) (p : PositionNo) :
    Moves a b acc.1 (announceAt s n acc p).1 := by
  unfold announceAt
  split
  · exact .refl
  · exact .refl
  · dsimp only
    exact pushChannel_moves p (acc.1.settings p).announceChannel s n acc.1

/-! ### Re-evaluation -/

theorem membershipState_loose (kind : LineKind) (e : Code) (before : LineState) (x y : Nat) :
    fixedState (membershipState kind e before x y) = fixedState before := by
  cases before <;> simp only [membershipState, byModes] <;> (repeat' split) <;> rfl

theorem lineMembership_moves (l : LineNo) (w : Work) : Moves a b w (lineMembership l w) := by
  unfold lineMembership
  refine .one (.line w l _ rfl ?_ (membershipState_loose _ _ _ _ _))
  intro h
  generalize w.line l = r at h ⊢
  obtain ⟨cfg, state, cause, accepted, candidate, run, dead, knock, since, ring⟩ := r
  cases state <;> simp [fixedState] at h <;> simp [membershipState]

theorem putGroup_moves (w : Work) (g : GroupNo) (r : GroupRec) (h : r.roster = (w.group g).roster ∧
    r.timeout = (w.group g).timeout ∧ r.cadence = (w.group g).cadence) : Moves a b w (w.putGroup g r) :=
  .one (.group w g r h)

theorem endIntercom_moves (g : GroupNo) (ps : List PositionNo) (reason : AlertEnd) (w : Work) :
    Moves a b w (endIntercom g ps reason w) := by
  unfold endIntercom
  exact (removeAlerts_moves _ ps _ reason w).trans (putGroup_moves _ g _ ⟨rfl, rfl, rfl⟩)

theorem groupMembership_moves (g : GroupNo) (w : Work) : Moves a b w (groupMembership g w) := by
  unfold groupMembership
  simp only
  split
  · exact .refl
  · have h : Moves a b w ((w.putGroup g { w.group g with
        state := groupStateOf (handsetMembers w.cnc (groupBridge g)).length }).note (.groupState g (w.group g).state
          (groupStateOf (handsetMembers w.cnc (groupBridge g)).length)
          (handsetMembers w.cnc (groupBridge g)).length)) :=
      ReflTransGen.tail (putGroup_moves w g { w.group g with
        state := groupStateOf (handsetMembers w.cnc (groupBridge g)).length } ⟨rfl, rfl, rfl⟩) (.note _ _)
    split
    · exact (h.trans (endIntercom_moves _ _ _ _)).trans (sourceEnds_moves _ _)
    · exact h

theorem reevalHandset_moves (hold : Bool) (br : BridgeNo) (w : Work) : Moves a b w (reevalHandset hold br w) := by
  unfold reevalHandset
  split
  · split
    · exact cutStep_moves _ w
    · exact (cutStep_moves _ w).trans (lineMembership_moves _ _)
  · exact groupMembership_moves _ w
  · exact .refl

theorem removeHandsetMember_moves (hold : Bool) (sl : SlotNo) (w : Work) :
    Moves a b w (removeHandsetMember hold sl w) := by
  unfold removeHandsetMember
  split
  · exact .refl
  · exact (remove_moves w sl).trans (reevalHandset_moves _ _ _)

theorem setHandsetMode_moves (sl : SlotNo) (mode : Mode) (w : Work) : Moves a b w (setHandsetMode sl mode w) := by
  unfold setHandsetMode
  split
  · exact .refl
  · exact (setMode_moves w sl mode).trans (reevalHandset_moves _ _ _)

/-- After the note and the handset record of a dropped entry, everything else is moves without handset records. -/
theorem dropHeldEntry_moves (hold : Bool) (h : HandsetNo) (br : BridgeNo) (cause : Option DropCause) (w : Work) :
    Moves true b w (dropHeldEntry hold h br cause w) := by
  unfold dropHeldEntry
  simp only
  split
  · exact .refl
  · next e _ =>
    have h1 : ∀ w1 : Work, Moves true b w w1 → Moves true b w
        (clearRecall h br e.recalled (match handsetSlot (w1.putHandset h { w.handset h with
            stack := (w.handset h).stack.filter (fun x => x.bridge ≠ br) }).cnc br h with
          | some sl => removeHandsetMember hold sl (w1.putHandset h { w.handset h with
            stack := (w.handset h).stack.filter (fun x => x.bridge ≠ br) })
          | none => w1.putHandset h { w.handset h with
            stack := (w.handset h).stack.filter (fun x => x.bridge ≠ br) })) := by
      intro w1 m
      refine ReflTransGen.trans ?_ (clearRecall_moves _ _ _ _)
      refine ReflTransGen.trans (m.trans (putHandset_moves w1 h { w.handset h with
        stack := (w.handset h).stack.filter (fun x => x.bridge ≠ br) })) ?_
      split
      · exact removeHandsetMember_moves _ _ _
      · exact .refl
    cases cause with
    | none => exact h1 w .refl
    | some c => exact h1 _ (Moves.note w _)

theorem releaseActive_rest (h : HandsetNo) (after : HandsetState) (w : Work) :
    Moves a b (w.putHandset h { w.handset h with state := after, active := none }) (releaseActive h after w) := by
  unfold releaseActive
  simp only
  split
  · exact removeHandsetMember_moves _ _ _
  · exact .refl

theorem releaseActive_moves (h : HandsetNo) (after : HandsetState) (w : Work) :
    Moves true b w (releaseActive h after w) := (putHandset_moves w h _).trans (releaseActive_rest h after w)

/-! ### Groups -/

theorem alertRosterAt_moves (g : GroupNo) (c : CadenceNo) (acc : Work × Word) (p : PositionNo) :
    Moves a b acc.1 (alertRosterAt g c acc p).1 := by
  unfold alertRosterAt
  exact addAlert_moves _ _ _ _ _

theorem alertRoster_moves (g : GroupNo) (caller : PositionNo) (w : Work) : Moves a b w (alertRoster g caller w).1 := by
  unfold alertRoster
  simp only
  have h := Moves.foldlFst (a := a) (b := b) _ (alertRosterAt_moves g (w.group g).cadence)
    (maskPositions (maskWithout (w.group g).roster caller)) (w, 0#32)
  exact h.trans (putGroup_moves _ g _ ⟨rfl, rfl, rfl⟩)

theorem answerGroup_moves (g : GroupNo) (w : Work) : Moves a b w (answerGroup g w) := endIntercom_moves g _ _ w

theorem rosterRemoval_moves (g : GroupNo) (w : Work) (p : PositionNo) : Moves a b w (rosterRemoval g w p) := by
  unfold rosterRemoval
  simp only
  refine ReflTransGen.trans ?_ (loseAssignedSpeaker_moves _ _ _)
  split
  · exact (removeAlerts_moves _ _ _ _ w).trans (putGroup_moves _ g _ ⟨rfl, rfl, rfl⟩)
  · exact .refl

theorem groupAlertExpiry_moves (g : GroupNo) (w : Work) : Moves a b w (groupAlertExpiry g w) := by
  unfold groupAlertExpiry
  simp only
  split
  · exact (Moves.note w _).trans (endIntercom_moves _ _ _ _)
  · exact .refl

/-! ### Handsets -/

theorem pushHeld_moves (h : HandsetNo) (br : BridgeNo) (w : Work) : Moves true b w (pushHeld h br w) :=
  putHandset_moves w h _

theorem holdActive_moves (h : HandsetNo) (after : HandsetState) (w : Work) : Moves true b w (holdActive h after w) := by
  unfold holdActive
  simp only
  split
  · exact ((putHandset_moves w h _).trans (pushHeld_moves _ _ _)).trans (setHandsetMode_moves _ _ _)
  · exact .refl

theorem displace_moves (h : HandsetNo) (w : Work) : Moves true b w (displace h w).1 := by
  unfold displace
  split
  · exact .refl
  · split
    · exact holdActive_moves _ _ w
    · exact releaseActive_moves _ _ w

theorem popEntry_moves (h : HandsetNo) (br : BridgeNo) (w : Work) : Moves true b w (popEntry h br w) := by
  unfold popEntry
  exact (putHandset_moves w h _).trans (clearRecall_moves _ _ _ _)

theorem connect_moves (h : HandsetNo) (sl : SlotNo) (w : Work) : Moves true b w (connect h sl w) :=
  putHandset_moves w h _

theorem reviveMember_moves (h : HandsetNo) (br : BridgeNo) (w : Work) : Moves true b w (reviveMember h br w) := by
  unfold reviveMember
  split
  · exact .refl
  · exact (setHandsetMode_moves _ _ w).trans (connect_moves _ _ _)

theorem answerBridge_moves (br : BridgeNo) (w : Work) : Moves a b w (answerBridge br w) := by
  unfold answerBridge
  split
  · exact removeAlerts_moves _ _ _ _ w
  · exact answerGroup_moves _ w
  · exact .refl

theorem joinNew_moves (h : HandsetNo) (br : BridgeNo) (w : Work) : Moves true b w (joinNew h br w) := by
  unfold joinNew
  split
  · exact .refl
  · next hc =>
    exact (((create_moves hc).trans (reevalHandset_moves _ _ _)).trans (answerBridge_moves _ _)).trans
      (connect_moves _ _ _)

theorem callAlerts_moves (ring : Option GroupNo) (h : HandsetNo) (w : Work) : Moves a b w (callAlerts ring h w).1 := by
  unfold callAlerts
  split
  · exact alertRoster_moves _ _ w
  · exact .refl

theorem performSelect_moves (h : HandsetNo) (br : BridgeNo) (notify call : Bool) (w : Work) :
    Moves true b w (performSelect h br notify call w).work := by
  unfold performSelect
  simp only
  have h1 : Moves true b w (if onStack (w.handset h) br then popEntry h br w else w) := by
    split
    · exact popEntry_moves _ _ w
    · exact .refl
  generalize (if onStack (w.handset h) br then popEntry h br w else w) = w1 at h1 ⊢
  have h2 := h1.trans (displace_moves (b := b) h w1)
  generalize displace h w1 = d at h2 ⊢
  have h3 : Moves true b w (if onStack (w.handset h) br then reviveMember h br d.1 else joinNew h br d.1) := by
    split
    · exact h2.trans (reviveMember_moves _ _ _)
    · exact h2.trans (joinNew_moves _ _ _)
  generalize (if onStack (w.handset h) br then reviveMember h br d.1 else joinNew h br d.1) = w2 at h3 ⊢
  have h4 := h3.trans (callAlerts_moves (a := true) (b := b) (ringsGroup call br w) h w2)
  generalize callAlerts (ringsGroup call br w) h w2 = x at h4 ⊢
  split
  · exact h4.trans (Moves.note _ _)
  · exact h4

theorem hookChange_moves (h : HandsetNo) (w : Work) : Moves true b w (hookChange h w) := by
  unfold hookChange
  simp only
  split
  · split
    · exact (putHandset_moves w h _).trans (Moves.note _ _)
    · exact .refl
  · split
    · exact .refl
    · exact (Moves.note w _).trans (releaseActive_moves _ _ _)

theorem recallExpiry_moves (h : HandsetNo) (br : BridgeNo) (w : Work) : Moves true b w (recallExpiry h br w) := by
  unfold recallExpiry
  simp only
  split
  · exact recallEntry_moves _ _ _ w
  · exact .refl

/-! ### Supervisor -/

theorem dropHeldMember_moves (hold : Bool) (br : BridgeNo) (cause : DropCause) (w : Work) (h : HandsetNo) :
    Moves true b w (dropHeldMember hold br cause w h) := by
  unfold dropHeldMember
  split
  · exact .refl
  · split
    · exact dropHeldEntry_moves _ _ _ _ w
    · exact .refl

theorem faultMember_moves (br : BridgeNo) (w : Work) (h : HandsetNo) : Moves true b w (faultMember br w h) := by
  unfold faultMember
  split
  · exact .refl
  · split
    · exact dropHeldEntry_moves _ _ _ _ w
    · exact releaseActive_moves _ _ w

theorem recallHeld_moves (l : LineNo) (w : Work) : Moves true b w (recallHeld l w) := by
  unfold recallHeld
  exact .foldl _ (fun w h => recallEntry_moves h _ _ w) _ _

theorem removeAllSpeakers_moves (br : BridgeNo) (w : Work) : Moves a b w (removeAllSpeakers br w) := by
  unfold removeAllSpeakers
  refine .foldl _ (fun w x => ?_) _ _
  split
  · exact loseSpeaker_moves _ _ _ w
  · exact .refl

/-! ### Hoots -/

theorem putTalk_moves (w : Work) (p : PositionNo) (r : TalkRec) : Moves a true w (w.putTalk p r) := .one (.talk w p r rfl)

theorem putHoot_moves (w : Work) (k : HootNo) (r : HootRec) (h : r.roster = (w.hoot k).roster ∧
    r.talk = (w.hoot k).talk ∧ r.limit = (w.hoot k).limit ∧ r.priority = (w.hoot k).priority) :
    Moves a true w (w.putHoot k r) := .one (.hoot w k r rfl h)

theorem grant_moves (p : PositionNo) (k : HootNo) (w : Work) : Moves a true w (grant p k w) := by
  unfold grant
  split
  · exact .refl
  · next hc => exact ((create_moves hc).trans (putTalk_moves _ _ _)).trans (Moves.note _ _)

theorem grantLoop_moves (fuel : Nat) (k : HootNo) (w : Work) : Moves a true w (grantLoop fuel k w) := by
  induction fuel generalizing w with
  | zero => exact .refl
  | succ n ih =>
    unfold grantLoop
    split
    · exact .refl
    · split
      · refine ReflTransGen.trans ?_ (ih _)
        refine ReflTransGen.trans ?_ (grant_moves _ _ _)
        exact putHoot_moves w k _ ⟨rfl, rfl, rfl, rfl⟩
      · exact .refl

theorem grantPass_moves (k : HootNo) (w : Work) : Moves a true w (grantPass k w) := grantLoop_moves _ k w

theorem framePasses_moves (w : Work) : Moves a true w (framePasses w) := .foldl _ (fun w k => grantPass_moves k w) _ _

theorem enqueue_moves (p : PositionNo) (k : HootNo) (w : Work) : Moves a true w (enqueue p k w) := by
  unfold enqueue
  refine ReflTransGen.tail ?_ (.note _ _)
  refine ReflTransGen.trans ?_ (putTalk_moves _ _ _)
  exact putHoot_moves w k _ ⟨rfl, rfl, rfl, rfl⟩

theorem pressOn_moves (p : PositionNo) (k : HootNo) (w : Work) : Moves a true w (pressOn p k w) := by
  unfold pressOn
  split
  · split
    · exact grant_moves _ _ w
    · exact enqueue_moves _ _ w
  · exact (enqueue_moves _ _ w).trans (grantPass_moves _ _)

theorem press_moves (p : PositionNo) (w : Work) : Moves a true w (press p w) := by
  unfold press
  simp only
  split
  · exact (putTalk_moves w _ _).trans (Moves.note _ _)
  · exact (putTalk_moves w _ _).trans (pressOn_moves _ _ _)

theorem removeMic_moves (p : PositionNo) (k : HootNo) (w : Work) : Moves a b w (removeMic p k w) := by
  unfold removeMic
  split
  · exact .refl
  · exact removeAndCut_moves w _

theorem endTalk_moves (p : PositionNo) (k : HootNo) (cause : PttCause) (w : Work) :
    Moves a true w (endTalk p k cause w) := by
  unfold endTalk
  simp only
  split
  · exact .refl
  · exact ((removeMic_moves _ _ w).trans (putTalk_moves _ _ _)).trans (Moves.note _ _)
  · refine ReflTransGen.tail ?_ (.note _ _)
    refine ReflTransGen.trans ?_ (putTalk_moves _ _ _)
    exact putHoot_moves w k _ ⟨rfl, rfl, rfl, rfl⟩

theorem unpress_moves (p : PositionNo) (cause : PttCause) (w : Work) : Moves a true w (unpress p cause w) := by
  unfold unpress
  simp only
  split
  · exact putTalk_moves w _ _
  · split
    · exact ((putTalk_moves w _ _).trans (endTalk_moves _ _ _ _)).trans (grantPass_moves _ _)
    · exact (putTalk_moves w _ _).trans (endTalk_moves _ _ _ _)

theorem loseTalk_moves (k : HootNo) (old new : HootRec) (w : Work) (p : PositionNo) :
    Moves a true w (loseTalk k old new w p) := by
  unfold loseTalk
  simp only
  have h : Moves a true w (if (mayTalk old p && !mayTalk new p) = true ∧ (w.talk p).target = some k then
      (endTalk p k .roster w).putTalk p { (endTalk p k .roster w).talk p with target := none } else w) := by
    split
    · exact (endTalk_moves _ _ _ w).trans (putTalk_moves _ _ _)
    · exact .refl
  split
  · exact h.trans (loseAssignedSpeaker_moves _ _ _)
  · exact h

theorem bumpOne_moves (k : HootNo) (w : Work) (p : PositionNo) : Moves a true w (bumpOne k w p) := by
  unfold bumpOne
  exact (removeMic_moves _ _ w).trans (putTalk_moves _ _ _)

theorem bumpNotes_moves (k : HootNo) (n : Nat) (ps : List PositionNo) (w : Work) : Moves a b w (bumpNotes k n ps w) := by
  induction ps generalizing n w with
  | nil => exact .refl
  | cons p ps ih => exact (Moves.note w _).trans (ih _ _)

theorem bump_moves (k : HootNo) (w : Work) : Moves a true w (bump k w).1 := by
  unfold bump
  simp only
  refine ReflTransGen.trans ?_ (bumpNotes_moves _ _ _ _)
  have h := Moves.foldl (a := a) (b := true) (bumpOne k) (bumpOne_moves k)
    (((micMembers w.cnc (hootBridge k)).map (fun x => x.2)).drop (w.hoot k).limit).reverse w
  split
  · exact h
  · exact h.trans (putHoot_moves _ k _ ⟨rfl, rfl, rfl, rfl⟩)

theorem handsetLinkLoss_moves (h : HandsetNo) (w : Work) : Moves true b w (handsetLinkLoss h w) := by
  unfold handsetLinkLoss
  exact (releaseActive_moves _ _ w).trans (Moves.foldl _ (fun w br => dropHeldEntry_moves _ _ br _ w) _ _)

theorem linkLoss_moves (p : PositionNo) (w : Work) : Moves true true w (linkLoss p w) := by
  unfold linkLoss
  exact ((handsetLinkLoss_moves _ w).trans (handsetLinkLoss_moves _ _)).trans (unpress_moves _ _ _)

end Sys2Proof.Machine
end

