-- ==== Sys2Proof/Laws/Calls.lean ====
section
/-! SUPPORT. What a re-evaluation of a bridge makes of its members: the pool and the lists stay sound, the SPEAKER members
follow the cut (R13 to R15) and the line follows its handset members (R42). -/

namespace Sys2Proof.Machine
variable {a b : Bool} {w w' : Work}

/-! ### The pool and the lists -/

theorem PoolSound.insert {c : Cnc} (h : PoolSound c) {sl : SlotNo} (m : Member) (free : c.pool.get sl = none) :
    PoolSound (c.insert sl m) := by
  have off : ∀ br, sl ∉ (c.bridges.get br).members := fun br hm => by
    obtain ⟨n, hn, -⟩ := h.own br sl hm
    rw [free] at hn; cases hn
  refine ⟨fun br => ?_, fun br x hx => ?_, fun x n hn => ?_⟩
  · simp only [Cnc.insert, Table.get_upd]
    split
    · next e => subst e; exact List.Nodup.append (h.once _) (by simp) (by simpa using off _)
    · exact h.once br
  · simp only [Cnc.insert, Table.get_upd, Table.get_set] at hx ⊢
    split at hx
    · next e =>
      subst e
      rcases List.mem_append.1 hx with hx | hx
      · have : sl ≠ x := fun e => off _ (e ▸ hx)
        simpa [this] using h.own _ x hx
      · have : sl = x := (List.mem_singleton.1 hx).symm
        exact ⟨m, by simp [this], rfl⟩
    · have : sl ≠ x := fun e => off _ (e ▸ hx)
      simpa [this] using h.own _ x hx
  · simp only [Cnc.insert, Table.get_upd, Table.get_set] at hn ⊢
    split at hn
    · next e => cases hn; subst e; simp
    · have := h.listed x n hn
      split
      · next e => rw [e]; exact List.mem_append_left _ this
      · exact this

theorem PoolSound.erase {c : Cnc} (h : PoolSound c) {sl : SlotNo} {m : Member} (held : c.pool.get sl = some m) :
    PoolSound (c.erase sl m) := by
  refine ⟨fun br => ?_, fun br x hx => ?_, fun x n hn => ?_⟩
  · simp only [Cnc.erase, Table.get_upd]
    split
    · next e => subst e; exact (h.once _).erase _
    · exact h.once br
  · simp only [Cnc.erase, Table.get_upd, Table.get_set] at hx ⊢
    split at hx
    · next e =>
      subst e
      have hx' := (h.once _).mem_erase_iff.1 hx
      simpa [Ne.symm hx'.1] using h.own _ x hx'.2
    · next e =>
      obtain ⟨n, hn, hb⟩ := h.own _ x hx
      have : sl ≠ x := fun e' => e (by subst e'; rw [held] at hn; cases hn; exact hb)
      simpa [this] using ⟨n, hn, hb⟩
  · simp only [Cnc.erase, Table.get_upd, Table.get_set] at hn ⊢
    split at hn
    · cases hn
    · next e =>
      have := h.listed x n hn
      split
      · next e2 => rw [e2]; exact (h.once _).mem_erase_iff.2 ⟨fun e3 => e e3.symm, this⟩
      · exact this

theorem PoolSound.changeMode {c : Cnc} (h : PoolSound c) {sl : SlotNo} {m : Member} (held : c.pool.get sl = some m)
    (mode : Mode) : PoolSound (c.changeMode sl m mode) := by
  have lists : ∀ br, ((c.changeMode sl m mode).bridges.get br).members = (c.bridges.get br).members := fun br => by
    simp only [Cnc.changeMode, Table.get_upd]; split
    · next e => subst e; rfl
    · rfl
  refine ⟨fun br => ?_, fun br x hx => ?_, fun x n hn => ?_⟩
  · rw [lists]; exact h.once br
  · rw [lists] at hx
    obtain ⟨n, hn, hb⟩ := h.own _ x hx
    by_cases e : sl = x
    · subst e; rw [held] at hn; cases hn
      exact ⟨{ m with mode := mode }, by simp [Cnc.changeMode], hb⟩
    · exact ⟨n, by simp [Cnc.changeMode, Table.get_set_ne _ _ e, hn], hb⟩
  · rw [lists]
    simp only [Cnc.changeMode, Table.get_set] at hn
    split at hn
    · next e => cases hn; subst e; exact h.listed sl m held
    · exact h.listed x n hn

/-- Every sequence of moves keeps the pool and the lists sound. -/
theorem Moves.poolSound (h : Moves a b w w') (hw : PoolSound w.cnc) : PoolSound w'.cnc := by
  induction h with
  | refl => exact hw
  | tail _ m ih =>
    cases m with
    | insert sl m free => exact ih.insert m free
    | erase sl m held => exact ih.erase held
    | mode sl m mode held => exact ih.changeMode held mode
    | _ => exact ⟨by simpa [Work.cnc, Work.mxe] using ih.once, by simpa [Work.cnc, Work.mxe] using ih.own,
             by simpa [Work.cnc, Work.mxe] using ih.listed⟩

/-! ### The privacy cut -/

/-- A member under the cut of a holding position, or with the cut undone (R14, R15). -/
def cutMember (holder : Option PositionNo) (m : Member) : Member := match m.speaker?, holder with
  | none, _ => m
  | some (p, _), some q => if p ≠ q ∧ m.mode = .active then { m with mode := .cut } else m
  | some _, none => if m.mode = .cut then { m with mode := .active } else m

/-- One member at step 1 of a re-evaluation. -/
def cutOne : Option PositionNo → Work → SlotNo × Member → Work
  | some q => applyCut q
  | none => undoCut

theorem cutStep_eq (l : LineNo) (w : Work) :
    cutStep l w = (membersOf w.cnc (lineBridge l)).foldl (cutOne (holdingPosition w.floor l)) w := by
  unfold cutStep cutOne
  simp only
  split <;> simp_all

@[simp] theorem cutMember_kind (holder : Option PositionNo) (m : Member) : (cutMember holder m).kind = m.kind := by
  unfold cutMember; repeat' split
  all_goals rfl
@[simp] theorem cutMember_bridge (holder : Option PositionNo) (m : Member) : (cutMember holder m).bridge = m.bridge := by
  unfold cutMember; repeat' split
  all_goals rfl
@[simp] theorem cutMember_handset (holder : Option PositionNo) (m : Member) : (cutMember holder m).handset? = m.handset? := by
  simp [Member.handset?]
theorem cutMember_eq_mode (holder : Option PositionNo) (m : Member) :
    cutMember holder m = { m with mode := (cutMember holder m).mode } := by
  unfold cutMember; repeat' split
  all_goals rfl

theorem cutMember_of_handset (holder : Option PositionNo) {m : Member} {h : HandsetNo} (e : m.handset? = some h) :
    cutMember holder m = m := by
  obtain ⟨kind, br, mode, join⟩ := m
  cases kind <;> simp_all [Member.handset?, cutMember, Member.speaker?]

/-- A step that changes nothing of CNC but the pool and talker counts, and nothing of the floor beside CNC but channel
gains. -/
structure ModesOnly (w w' : Work) : Prop where
  lists : ∀ br, (w'.cnc.bridges.get br).members = (w.cnc.bridges.get br).members
  cnc : w'.cnc = { w.cnc with pool := w'.cnc.pool, bridges := w'.cnc.bridges }
  lsv : w'.floor.lsv = w.floor.lsv

theorem ModesOnly.refl (w : Work) : ModesOnly w w := ⟨fun _ => rfl, rfl, rfl⟩
theorem ModesOnly.trans {w w' w'' : Work} (h : ModesOnly w w') (g : ModesOnly w' w'') : ModesOnly w w'' where
  lists := fun br => (g.lists br).trans (h.lists br)
  cnc := by rw [g.cnc, h.cnc]
  lsv := g.lsv.trans h.lsv

theorem handMember_floor (w : Work) (m : Member) : (w.handMember m).floor = w.floor := by
  unfold Work.handMember; repeat' split
  all_goals simp

theorem setMode_some {w : Work} {sl : SlotNo} {m : Member} (e : w.cnc.pool.get sl = some m) (mode : Mode) :
    (w.setMode sl mode).floor = { w.floor with cnc := w.cnc.changeMode sl m mode } := by
  simp [Work.setMode, e, handMember_floor]

theorem changeMode_lists (c : Cnc) (sl : SlotNo) (m : Member) (mode : Mode) (br : BridgeNo) :
    ((c.changeMode sl m mode).bridges.get br).members = (c.bridges.get br).members := by
  simp only [Cnc.changeMode, Table.get_upd]; split
  · next e => subst e; rfl
  · rfl

theorem setMode_modesOnly (w : Work) (sl : SlotNo) (mode : Mode) : ModesOnly w (w.setMode sl mode) := by
  cases e : w.cnc.pool.get sl with
  | none => simp only [Work.setMode, e]; exact .refl w
  | some m =>
    constructor <;> simp only [Work.cnc, setMode_some e]
    · exact changeMode_lists _ _ _ _
    · rfl

theorem setMode_pool {w : Work} {sl : SlotNo} {m : Member} (e : w.cnc.pool.get sl = some m) (mode : Mode) (x : SlotNo) :
    (w.setMode sl mode).cnc.pool.get x = if sl = x then some { m with mode := mode } else w.cnc.pool.get x := by
  simp only [Work.cnc, setMode_some e, Cnc.changeMode, Table.get_set]

@[simp] theorem setMode_mxe (w : Work) (sl : SlotNo) (mode : Mode) : (w.setMode sl mode).floor.mxe = w.floor.mxe := by
  unfold Work.setMode; split <;> simp [handMember_floor]

theorem zeroGain_gain (w : Work) (p q : PositionNo) (c d : ChannelNo) :
    (w.zeroGain p c).floor.gain q d = if p = q ∧ c = d then 0 else w.floor.gain q d := by
  simp only [Work.zeroGain_floor, Floor.gain, Table.get_upd]
  by_cases h : p = q
  · subst h; simp [Table.get_set]
  · simp [h]

theorem zeroGain_modesOnly (w : Work) (p : PositionNo) (c : ChannelNo) : ModesOnly w (w.zeroGain p c) := by
  constructor <;> simp [Work.cnc]

/-- One member at step 1: its mode follows, and where it changes its channel's gain is 0. -/
theorem cutOne_does (holder : Option PositionNo) {w : Work} {x : SlotNo × Member} {m : Member}
    (e : w.cnc.pool.get x.1 = some m) (hm : m = x.2 ∨ m = cutMember holder x.2) :
    ModesOnly w (cutOne holder w x) ∧
    (∀ sl, (cutOne holder w x).cnc.pool.get sl = if x.1 = sl then some (cutMember holder x.2) else w.cnc.pool.get sl) ∧
    ∀ p c, (cutOne holder w x).floor.gain p c =
      if x.2.kind = .speaker p c ∧ cutMember holder x.2 ≠ x.2 then 0 else w.floor.gain p c := by
  obtain ⟨sl, n⟩ := x
  have stays : cutMember holder n = n → m = n := fun h => by rcases hm with h2 | h2; exacts [h2, h2.trans h]
  have same : cutMember holder n = n → ModesOnly w w ∧
      (∀ x, w.cnc.pool.get x = if sl = x then some (cutMember holder n) else w.cnc.pool.get x) ∧
      ∀ p c, w.floor.gain p c =
        if n.kind = .speaker p c ∧ cutMember holder n ≠ n then 0 else w.floor.gain p c := fun h => by
    refine ⟨.refl w, fun x => ?_, fun p c => by simp [h]⟩
    split
    · next e2 => subst e2; rw [e, h, stays h]
    · rfl
  have moves : ∀ mode p c, n.kind = .speaker p c → cutMember holder n = { n with mode := mode } →
      cutMember holder n ≠ n → ModesOnly w ((w.setMode sl mode).zeroGain p c) ∧
      (∀ x, ((w.setMode sl mode).zeroGain p c).cnc.pool.get x =
        if sl = x then some (cutMember holder n) else w.cnc.pool.get x) ∧
      ∀ q d, ((w.setMode sl mode).zeroGain p c).floor.gain q d =
        if n.kind = .speaker q d ∧ cutMember holder n ≠ n then 0 else w.floor.gain q d := fun mode p c hk hc hn => by
    have hw : ({ m with mode := mode } : Member) = cutMember holder n := by
      rcases hm with h2 | h2 <;> rw [h2, hc]
    refine ⟨(setMode_modesOnly w sl mode).trans (zeroGain_modesOnly _ p c), fun x => ?_, fun q d => ?_⟩
    · rw [← hw, ← setMode_pool e mode x]; simp [Work.cnc]
    · rw [zeroGain_gain]; simp [hk, hn, Floor.gain]
  obtain ⟨kind, br, mode, join⟩ := n
  cases kind with
  | handset h => cases holder <;> exact same (by simp [cutMember, Member.speaker?])
  | mic q => cases holder <;> exact same (by simp [cutMember, Member.speaker?])
  | speaker p c =>
    cases holder with
    | none =>
      simp only [cutOne, undoCut, Member.speaker?]
      by_cases hc : mode = .cut
      · rw [if_pos hc]; exact moves .active p c rfl (by simp [cutMember, Member.speaker?, hc]) (by simp [cutMember, Member.speaker?, hc])
      · rw [if_neg hc]; exact same (by simp [cutMember, Member.speaker?, hc])
    | some q =>
      simp only [cutOne, applyCut, Member.speaker?]
      by_cases hc : p ≠ q ∧ mode = .active
      · rw [if_pos hc]; exact moves .cut p c rfl (by simp [cutMember, Member.speaker?, hc]) (by simp [cutMember, Member.speaker?, hc])
      · rw [if_neg hc]; exact same (by simp [cutMember, Member.speaker?, hc])

/-- Step 1 over members as they stand in the pool. -/
theorem foldl_cutOne (holder : Option PositionNo) (pool : SlotNo → Option Member) (xs : List (SlotNo × Member)) (w : Work)
    (hx : ∀ x ∈ xs, pool x.1 = some x.2)
    (hw : ∀ x ∈ xs, ∃ m, w.cnc.pool.get x.1 = some m ∧ (m = x.2 ∨ m = cutMember holder x.2)) :
    ModesOnly w (xs.foldl (cutOne holder) w) ∧
    (∀ sl, (xs.foldl (cutOne holder) w).cnc.pool.get sl =
      if sl ∈ xs.map Prod.fst then (pool sl).map (cutMember holder) else w.cnc.pool.get sl) ∧
    ∀ p c, (xs.foldl (cutOne holder) w).floor.gain p c =
      if ∃ x ∈ xs, x.2.kind = .speaker p c ∧ cutMember holder x.2 ≠ x.2 then 0 else w.floor.gain p c := by
  induction xs generalizing w with
  | nil => exact ⟨.refl w, by simp, by simp⟩
  | cons x xs ih =>
    obtain ⟨m, e, hm⟩ := hw x (by simp)
    obtain ⟨h1, h2, h3⟩ := cutOne_does holder e hm
    obtain ⟨i1, i2, i3⟩ := ih (cutOne holder w x) (fun y hy => hx y (List.mem_cons_of_mem _ hy)) (fun y hy => by
      rw [h2]
      split
      · next e2 =>
        have : x.2 = y.2 := by
          have a1 := hx x (by simp)
          have a2 := hx y (List.mem_cons_of_mem _ hy)
          rw [e2, a2] at a1; exact (Option.some.inj a1).symm
        exact ⟨_, rfl, Or.inr (by rw [this])⟩
      · exact hw y (List.mem_cons_of_mem _ hy))
    simp only [List.foldl_cons]
    refine ⟨h1.trans i1, fun sl => ?_, fun p c => ?_⟩
    · rw [i2, h2]
      by_cases a1 : sl ∈ xs.map Prod.fst
      · simp [a1]
      · by_cases a2 : x.1 = sl
        · subst a2; simp [a1, hx x (by simp)]
        · simp [a1, a2, Ne.symm a2]
    · rw [i3, h3]
      by_cases a1 : ∃ y ∈ xs, y.2.kind = .speaker p c ∧ cutMember holder y.2 ≠ y.2
      · rw [if_pos a1, if_pos (by obtain ⟨y, hy, hk⟩ := a1; exact ⟨y, List.mem_cons_of_mem _ hy, hk⟩)]
      · rw [if_neg a1]
        by_cases a2 : x.2.kind = .speaker p c ∧ cutMember holder x.2 ≠ x.2
        · rw [if_pos a2, if_pos ⟨x, by simp, a2⟩]
        · rw [if_neg a2, if_neg]
          rintro ⟨y, hy, hk⟩
          rcases List.mem_cons.1 hy with rfl | hy
          · exact a2 hk
          · exact a1 ⟨y, hy, hk⟩

theorem mem_membersOf {c : Cnc} {br : BridgeNo} {sl : SlotNo} {m : Member} :
    (sl, m) ∈ membersOf c br ↔ sl ∈ (c.bridges.get br).members ∧ c.pool.get sl = some m := by
  simp only [membersOf, List.mem_filterMap, Option.map_eq_some_iff]
  constructor
  · rintro ⟨x, hx, n, hn, e⟩
    cases e; exact ⟨hx, hn⟩
  · rintro ⟨h1, h2⟩; exact ⟨sl, h1, m, h2, rfl⟩

/-- What step 1 of a line's re-evaluation does (R12, R14, R15). -/
theorem cutStep_does (l : LineNo) (w : Work) :
    ModesOnly w (cutStep l w) ∧
    (∀ sl, (cutStep l w).cnc.pool.get sl =
      if sl ∈ (w.cnc.bridges.get (lineBridge l)).members then
        (w.cnc.pool.get sl).map (cutMember (holdingPosition w.floor l))
      else w.cnc.pool.get sl) ∧
    ∀ p c, (cutStep l w).floor.gain p c =
      if ∃ x ∈ membersOf w.cnc (lineBridge l), x.2.kind = .speaker p c ∧
          cutMember (holdingPosition w.floor l) x.2 ≠ x.2 then 0
      else w.floor.gain p c := by
  rw [cutStep_eq]
  have hx : ∀ x ∈ membersOf w.cnc (lineBridge l), w.cnc.pool.get x.1 = some x.2 := fun x hx =>
    (mem_membersOf.1 hx).2
  obtain ⟨h1, h2, h3⟩ := foldl_cutOne (holdingPosition w.floor l) (w.cnc.pool.get ·) _ w hx
    (fun x h => ⟨x.2, hx x h, Or.inl rfl⟩)
  refine ⟨h1, fun sl => ?_, h3⟩
  rw [h2]
  by_cases a1 : sl ∈ (w.cnc.bridges.get (lineBridge l)).members
  · cases e : w.cnc.pool.get sl with
    | none => simp
    | some m =>
      have : sl ∈ (membersOf w.cnc (lineBridge l)).map Prod.fst := List.mem_map.2 ⟨(sl, m), mem_membersOf.2 ⟨a1, e⟩, rfl⟩
      rw [if_pos this, if_pos a1]
  · have : sl ∉ (membersOf w.cnc (lineBridge l)).map Prod.fst := fun h => by
      obtain ⟨x, hx, rfl⟩ := List.mem_map.1 h
      exact a1 (mem_membersOf.1 hx).1
    rw [if_neg this, if_neg a1]

/-! ### Handset members -/

/-- A member as a handset's, if it is one. -/
def callOf (sl : SlotNo) (m : Member) : Option Call := m.handset?.map (fun h => (sl, h, m.mode))

theorem handsetMembers_eq (c : Cnc) (br : BridgeNo) :
    handsetMembers c br = (c.bridges.get br).members.filterMap (fun sl => (c.pool.get sl).bind (callOf sl)) := by
  simp only [handsetMembers, membersOf, List.filterMap_filterMap]
  congr 1
  funext sl
  cases c.pool.get sl <;> rfl

theorem callOf_cutMember (sl : SlotNo) (holder : Option PositionNo) (m : Member) :
    callOf sl (cutMember holder m) = callOf sl m := by
  unfold callOf
  cases e : m.handset? with
  | none => simp [e]
  | some h => rw [cutMember_of_handset holder e, e]

theorem cutStep_handsetMembers (l : LineNo) (w : Work) (br : BridgeNo) :
    handsetMembers (cutStep l w).cnc br = handsetMembers w.cnc br := by
  obtain ⟨h1, h2, -⟩ := cutStep_does l w
  rw [handsetMembers_eq, handsetMembers_eq, h1.lists]
  congr 1
  funext sl
  rw [h2]
  split
  · cases w.cnc.pool.get sl <;> simp [callOf_cutMember]
  · rfl

theorem mem_handsetMembers {c : Cnc} {br : BridgeNo} {sl : SlotNo} {h : HandsetNo} {mode : Mode} :
    (sl, h, mode) ∈ handsetMembers c br ↔ sl ∈ (c.bridges.get br).members ∧
      ∃ m, c.pool.get sl = some m ∧ m.kind = .handset h ∧ m.mode = mode := by
  rw [handsetMembers_eq, List.mem_filterMap]
  constructor
  · rintro ⟨x, hx, e⟩
    obtain ⟨m, hm, e⟩ := Option.bind_eq_some_iff.1 e
    obtain ⟨k, hk, e⟩ := Option.map_eq_some_iff.1 e
    cases e
    obtain ⟨kind, br, mode, join⟩ := m
    cases kind <;> simp [Member.handset?] at hk
    subst hk; exact ⟨hx, _, hm, rfl, rfl⟩
  · rintro ⟨hx, m, hm, hk, rfl⟩
    exact ⟨sl, hx, by simp [hm, callOf, Member.handset?, hk]⟩

/-! ### The holding position -/

theorem holdingPosition_of_heldBy {f : Floor} {l : LineNo} {q : PositionNo} (h : HeldBy f l q) :
    holdingPosition f l = some q := by
  unfold holdingPosition
  rw [if_pos h.1]
  cases e : handsetMembers f.cnc (lineBridge l) with
  | nil => exact absurd e h.2.1
  | cons x xs => simp [h.2.2 x (by simp [e])]

theorem holdingPosition_of_notHeld {f : Floor} {l : LineNo} (h : NotHeld f l) : holdingPosition f l = none := by
  unfold holdingPosition
  rcases h with h | h
  · simp [h]
  · simp [h]

theorem holdingPosition_congr {f g : Floor} {l : LineNo} (h1 : (g.lsv.get l).cfg = (f.lsv.get l).cfg)
    (h2 : handsetMembers g.cnc (lineBridge l) = handsetMembers f.cnc (lineBridge l)) :
    holdingPosition g l = holdingPosition f l := by simp only [holdingPosition, h1, h2]

/-- A bridge's cut condition against a position, written out from R13. -/
theorem cutAgainst_line (f : Floor) (l : LineNo) (p : PositionNo) :
    cutAgainst f (lineBridge l) p = (match holdingPosition f l with
      | some q => q ≠ p
      | none => false) := by
  have : bridgeKind (lineBridge l) = .line l := by simp [bridgeKind, lineBridge]
  cases h : holdingPosition f l <;> simp [cutAgainst, this, h]

/-! ### The line after a change of its handset members -/

theorem lineAfter_eq (r : LineRec) (n m : Nat) :
    lineAfter r n m =
      { r with
        state := membershipState r.cfg.kind (effective r.cfg.kind r.accepted) r.state n m
        knock := if r.state = .alerting ∧
          membershipState r.cfg.kind (effective r.cfg.kind r.accepted) r.state n m ≠ .alerting then none else r.knock } := by
  obtain ⟨cfg, state, cause, accepted, candidate, run, dead, knock, since, ring⟩ := r
  by_cases h : n = 0 <;> by_cases h2 : m = 0
  all_goals cases state
  all_goals simp only [lineAfter, membershipState, byModes, h, h2, Nat.pos_iff_ne_zero]
  all_goals (try cases hk : cfg.kind)
  all_goals simp_all

/-- Two floors that agree in the members, the channels, the lines and the channel gains. -/
structure SameCalls (f g : Floor) : Prop where
  channels : g.cnc.channels = f.cnc.channels
  pool : g.cnc.pool = f.cnc.pool
  bridges : g.cnc.bridges = f.cnc.bridges
  lsv : g.lsv = f.lsv
  gains : g.mxe.channelGains = f.mxe.channelGains

theorem SameCalls.refl (f : Floor) : SameCalls f f := ⟨rfl, rfl, rfl, rfl, rfl⟩
theorem SameCalls.trans {f g k : Floor} (h : SameCalls f g) (i : SameCalls g k) : SameCalls f k :=
  ⟨i.channels.trans h.channels, i.pool.trans h.pool, i.bridges.trans h.bridges, i.lsv.trans h.lsv, i.gains.trans h.gains⟩

theorem SameCalls.membersOf {f g : Floor} (h : SameCalls f g) (br : BridgeNo) :
    membersOf g.cnc br = membersOf f.cnc br := by simp only [Machine.membersOf, h.pool, h.bridges]
theorem SameCalls.handsetMembers {f g : Floor} (h : SameCalls f g) (br : BridgeNo) :
    handsetMembers g.cnc br = handsetMembers f.cnc br := by simp only [Machine.handsetMembers, h.membersOf]
theorem SameCalls.heldBy {f g : Floor} (h : SameCalls f g) {l : LineNo} {q : PositionNo} : HeldBy g l q ↔ HeldBy f l q := by
  simp only [HeldBy, h.handsetMembers, h.lsv]
theorem SameCalls.notHeld {f g : Floor} (h : SameCalls f g) {l : LineNo} : NotHeld g l ↔ NotHeld f l := by
  simp only [NotHeld, h.handsetMembers, h.lsv]

/-- A change of calls is the same to an observer of members, lines and gains. -/
theorem CallChanged.same {l : LineNo} {calls : List Call} {f g k : Floor} (h : CallChanged l calls f g)
    (s : SameCalls g k) : CallChanged l calls f k where
  line := by obtain ⟨h1, h2⟩ := h.line; exact ⟨by rw [s.handsetMembers, h1], by rw [s.lsv, h2]⟩
  lines := by rw [s.lsv]; exact h.lines
  cut :=
    { held := by simp only [s.heldBy, s.pool, Floor.gain, s.gains]; exact h.cut.held
      undone := by simp only [s.notHeld, s.pool, Floor.gain, s.gains]; exact h.cut.undone }
  beside :=
    { members := by simp only [s.pool]; exact h.beside.members
      gains := by simp only [s.pool, Floor.gain, s.gains]; exact h.beside.gains }

/-- A step that leaves the lines, the gains and the SPEAKER members, those of a line's bridge among them. -/
structure SpeakersStand (l : LineNo) (f g : Floor) : Prop where
  lsv : g.lsv = f.lsv
  gains : g.mxe.channelGains = f.mxe.channelGains
  speakers : ∀ sl m p c, SpeakerOn g l sl m p c ↔ SpeakerOn f l sl m p c
  pool : ∀ sl m p c, m.kind = .speaker p c → (g.cnc.pool.get sl = some m ↔ f.cnc.pool.get sl = some m)

theorem cutMember_heldBy {f : Floor} {l : LineNo} {q : PositionNo} (h : HeldBy f l q) {m : Member} {p : PositionNo}
    {c : ChannelNo} (hk : m.kind = .speaker p c) :
    cutMember (holdingPosition f l) m = { m with mode := if p ≠ q ∧ m.mode = .active then .cut else m.mode } := by
  rw [holdingPosition_of_heldBy h]
  obtain ⟨kind, br, mode, join⟩ := m
  cases hk
  simp only [cutMember, Member.speaker?]
  split <;> rfl

theorem cutMember_notHeld {f : Floor} {l : LineNo} (h : NotHeld f l) {m : Member} {p : PositionNo}
    {c : ChannelNo} (hk : m.kind = .speaker p c) :
    cutMember (holdingPosition f l) m = { m with mode := if m.mode = .cut then .active else m.mode } := by
  rw [holdingPosition_of_notHeld h]
  obtain ⟨kind, br, mode, join⟩ := m
  cases hk
  simp only [cutMember, Member.speaker?]
  split <;> rfl

/-- Steps 1 and 2 of a line's re-evaluation (R12). -/
theorem reevalLine_does (l : LineNo) (w : Work) :
    let n := handsetCounts w.cnc (lineBridge l)
    let after := lineMembership l (cutStep l w)
    after.floor.cnc = (cutStep l w).cnc ∧ after.floor.mxe = (cutStep l w).floor.mxe ∧
    after.floor.lsv = w.floor.lsv.set l (lineAfter (w.line l) n.1 n.2) ∧
    ∀ br, handsetMembers after.cnc br = handsetMembers w.cnc br := by
  intro n after
  have h1 := (cutStep_does l w).1
  have e : after = (cutStep l w).putLine l (lineAfter (w.line l) n.1 n.2) := by
    have h2 : handsetCounts (cutStep l w).cnc (lineBridge l) = n := by
      simp only [handsetCounts, cutStep_handsetMembers, n]
    have h3 : (cutStep l w).line l = w.line l := by simp only [Work.line, h1.lsv]
    simp only [after, lineMembership, h2, h3, lineAfter_eq]
  rw [e]
  refine ⟨by simp, by simp, by simp [h1.lsv], fun br => ?_⟩
  have : ((cutStep l w).putLine l (lineAfter (w.line l) n.1 n.2)).cnc = (cutStep l w).cnc := by simp [Work.cnc]
  rw [this, cutStep_handsetMembers]

/-- The re-evaluation of a line's bridge after a step that left its SPEAKER members. -/
theorem callChanged_of_stand {l : LineNo} {f : Floor} {w : Work} (h : SpeakersStand l f w.floor) :
    CallChanged l (handsetMembers w.cnc (lineBridge l)) f (lineMembership l (cutStep l w)).floor := by
  obtain ⟨h1, h2, h3⟩ := cutStep_does l w
  obtain ⟨r1, r2, r3, r4⟩ := reevalLine_does l w
  generalize lineMembership l (cutStep l w) = g at r1 r2 r3 r4 ⊢
  have cfg : (g.floor.lsv.get l).cfg = (w.floor.lsv.get l).cfg := by rw [r3]; simp [lineAfter]
  have hold : holdingPosition g.floor l = holdingPosition w.floor l := holdingPosition_congr cfg (r4 _)
  have heldBy : ∀ q, HeldBy g.floor l q → HeldBy w.floor l q := fun q hq => by
    simpa only [HeldBy, cfg, r4] using hq
  have notHeld : NotHeld g.floor l → NotHeld w.floor l := fun hq => by
    simpa only [NotHeld, cfg, r4] using hq
  have pool : ∀ sl m p c, SpeakerOn f l sl m p c →
      g.floor.cnc.pool.get sl = some (cutMember (holdingPosition w.floor l) m) := fun sl m p c hs => by
    have hs' := mem_membersOf.1 ((h.speakers sl m p c).2 hs).1
    rw [r1, h2, if_pos hs'.1, hs'.2]; rfl
  have gain : ∀ sl m p c, SpeakerOn f l sl m p c → cutMember (holdingPosition w.floor l) m ≠ m →
      g.floor.gain p c = 0 := fun sl m p c hs hn => by
    have := h3 p c
    rw [if_pos ⟨(sl, m), ((h.speakers sl m p c).2 hs).1, hs.2, hn⟩] at this
    simpa only [Floor.gain, r2] using this
  refine ⟨⟨r4 _, ?_⟩, fun k hk => ?_, ⟨fun q hq sl m p c hs => ?_, fun hq sl m p c hs => ?_⟩,
    ⟨fun sl m p c hm hk hs => ?_, fun p c hp => ?_⟩⟩
  · rw [r3, ← h.lsv]; simp [handsetCounts, Work.line]
  · rw [r3, Table.get_set_ne _ _ (Ne.symm hk), h.lsv]
  · have e := cutMember_heldBy (heldBy q hq) (m := m) hs.2
    refine ⟨by rw [pool sl m p c hs, e], fun h4 h5 => gain sl m p c hs ?_⟩
    rw [e]; simp only [h4, h5, ne_eq, not_false_eq_true, and_self, if_true]
    intro h6; exact absurd (congrArg Member.mode h6) (by simp [h5])
  · have e := cutMember_notHeld (notHeld hq) (m := m) hs.2
    refine ⟨by rw [pool sl m p c hs, e], fun h5 => gain sl m p c hs ?_⟩
    rw [e]; simp only [h5, if_true]
    intro h6; exact absurd (congrArg Member.mode h6) (by simp [h5])
  · have hm' := (h.pool sl m p c hk).2 hm
    have off : sl ∉ (w.cnc.bridges.get (lineBridge l)).members := fun h4 =>
      hs l rfl ((h.speakers sl m p c).1 ⟨mem_membersOf.2 ⟨h4, hm'⟩, hk⟩)
    rw [r1, h2, if_neg off]; exact hm'
  · have hw : w.floor.gain p c = f.gain p c := by simp only [Floor.gain, h.gains]
    have := h3 p c
    rw [if_neg] at this
    · rw [← hw, ← this]; simp only [Floor.gain, r2]
    · rintro ⟨⟨sl, m⟩, hm, hk, hn⟩
      have hs := (h.speakers sl m p c).1 ⟨hm, hk⟩
      have h5 := hp l sl m rfl hs
      rw [pool sl m p c hs] at h5
      exact hn (Option.some.inj h5)

/-! ### Operations that leave members, lines and gains -/

theorem note_same (w : Work) (n : NoteBody) : SameCalls w.floor (w.note n).floor := .refl _
theorem putHandset_same (w : Work) (h : HandsetNo) (r : HandsetRec) : SameCalls w.floor (w.putHandset h r).floor := by
  constructor <;> simp [Work.cnc]
theorem putGroup_same (w : Work) (g : GroupNo) (r : GroupRec) : SameCalls w.floor (w.putGroup g r).floor := by
  constructor <;> simp [Work.cnc]
theorem ringerHead_same (p : PositionNo) (head : Option Alert) (w : Work) :
    SameCalls w.floor (ringerHead p head w).floor := by
  unfold ringerHead; dsimp only; split <;> constructor <;> simp [Work.mxe]
theorem setRingList_same (p : PositionNo) (new : List Alert) (w : Work) :
    SameCalls w.floor (setRingList p new w).floor := by
  have h : SameCalls w.floor
      ((w.setCnc { w.cnc with ringLists := w.cnc.ringLists.set p new }).hand (.position p)).floor := by
    constructor <;> simp [Work.cnc]
  unfold setRingList; dsimp only; split
  · exact h
  · exact h.trans (ringerHead_same _ _ _)
theorem addAlert_same (p : PositionNo) (br : BridgeNo) (reason : AlertReason) (c : CadenceNo) (w : Work) :
    SameCalls w.floor (addAlert p br reason c w).1.floor := by
  unfold addAlert; dsimp only; repeat' split
  · exact .refl _
  · exact setRingList_same _ _ w
  · exact note_same w _

/-- A fold over the members' neighbours leaves them too. -/
theorem SameCalls.foldl {α β : Type} (step : Work × β → α → Work × β) (h : ∀ x y, SameCalls x.1.floor (step x y).1.floor)
    (ys : List α) (x : Work × β) : SameCalls x.1.floor (ys.foldl step x).1.floor := by
  induction ys generalizing x with
  | nil => exact .refl _
  | cons y ys ih => exact (h x y).trans (ih _)

theorem removeAlertAt_same (br : BridgeNo) (covers : AlertReason → Bool) (acc : Work × Word) (p : PositionNo) :
    SameCalls acc.1.floor (removeAlertAt br covers acc p).1.floor := by
  unfold removeAlertAt; dsimp only; split
  · exact setRingList_same _ _ _
  · exact .refl _
theorem removeAlerts_same (br : BridgeNo) (ps : List PositionNo) (covers : AlertReason → Bool) (reason : AlertEnd)
    (w : Work) : SameCalls w.floor (removeAlerts br ps covers reason w).floor := by
  have h := SameCalls.foldl _ (removeAlertAt_same br covers) ps (w, 0#32)
  unfold removeAlerts; dsimp only; split
  · exact h
  · exact h
theorem clearRecall_same (h : HandsetNo) (br : BridgeNo) (r : Bool) (w : Work) :
    SameCalls w.floor (clearRecall h br r w).floor := by
  unfold clearRecall; dsimp only; split
  · exact removeAlerts_same _ _ _ _ w
  · exact .refl _
theorem endIntercom_same (g : GroupNo) (ps : List PositionNo) (reason : AlertEnd) (w : Work) :
    SameCalls w.floor (endIntercom g ps reason w).floor :=
  (removeAlerts_same _ ps _ reason w).trans (putGroup_same _ _ _)
theorem answerBridge_same (br : BridgeNo) (w : Work) : SameCalls w.floor (answerBridge br w).floor := by
  unfold answerBridge; split
  · exact removeAlerts_same _ _ _ _ w
  · exact endIntercom_same _ _ _ w
  · exact .refl _
theorem popEntry_same (h : HandsetNo) (br : BridgeNo) (w : Work) : SameCalls w.floor (popEntry h br w).floor :=
  (putHandset_same w h _).trans (clearRecall_same _ _ _ _)
theorem alertRoster_same (g : GroupNo) (p : PositionNo) (w : Work) : SameCalls w.floor (alertRoster g p w).1.floor := by
  have h := SameCalls.foldl (alertRosterAt g (w.group g).cadence) (fun x y => addAlert_same _ _ _ _ _)
    (maskPositions (maskWithout (w.group g).roster p)) (w, 0#32)
  unfold alertRoster
  exact h.trans (putGroup_same _ _ _)
theorem callAlerts_same (ring : Option GroupNo) (h : HandsetNo) (w : Work) :
    SameCalls w.floor (callAlerts ring h w).1.floor := by
  unfold callAlerts; split
  · exact alertRoster_same _ _ w
  · exact .refl _

theorem SameCalls.stand {f g : Floor} (h : SameCalls f g) (l : LineNo) : SpeakersStand l f g :=
  ⟨h.lsv, h.gains, fun sl m p c => by simp only [SpeakerOn, h.membersOf], fun sl m p c _ => by rw [h.pool]⟩

theorem SpeakersStand.trans {l : LineNo} {f g k : Floor} (h : SpeakersStand l f g) (i : SpeakersStand l g k) :
    SpeakersStand l f k :=
  ⟨i.lsv.trans h.lsv, i.gains.trans h.gains, fun sl m p c => (i.speakers sl m p c).trans (h.speakers sl m p c),
    fun sl m p c hk => (i.pool sl m p c hk).trans (h.pool sl m p c hk)⟩

/-! ### A handset's member held, retrieved, removed or created -/

/-- The slots of a list but one, as handset members. -/
theorem withoutSlot_filterMap (sl : SlotNo) (pool : SlotNo → Option Member) (xs : List SlotNo) :
    withoutSlot sl (xs.filterMap (fun x => (pool x).bind (callOf x))) =
      xs.filterMap (fun x => (if sl = x then none else pool x).bind (callOf x)) := by
  rw [withoutSlot, List.filter_filterMap]
  congr 1
  funext x
  cases e : pool x with
  | none => simp
  | some n =>
    by_cases e2 : sl = x
    · subst e2; cases h : n.handset? <;> simp [callOf, h]
    · cases h : n.handset? <;> simp [callOf, h, e2, Ne.symm e2]

theorem filterMap_erase (sl : SlotNo) (pool : SlotNo → Option Member) (xs : List SlotNo) :
    (xs.erase sl).filterMap (fun x => (if sl = x then none else pool x).bind (callOf x)) =
      xs.filterMap (fun x => (if sl = x then none else pool x).bind (callOf x)) := by
  induction xs with
  | nil => rfl
  | cons x xs ih =>
    by_cases e : x = sl
    · subst e; simp
    · rw [List.erase_cons_tail (by simpa using e), List.filterMap_cons, List.filterMap_cons, ih]

theorem setMode_call {w : Work} {sl : SlotNo} {m : Member} {h : HandsetNo} (e : w.cnc.pool.get sl = some m)
    (hk : m.kind = .handset h) (mode : Mode) :
    (∀ l, SpeakersStand l w.floor (w.setMode sl mode).floor) ∧
    ∀ br, handsetMembers (w.setMode sl mode).cnc br = withMode sl mode (handsetMembers w.cnc br) := by
  have hm := setMode_modesOnly w sl mode
  have hp := setMode_pool e mode
  have pool : ∀ x n p c, n.kind = .speaker p c →
      ((w.setMode sl mode).cnc.pool.get x = some n ↔ w.cnc.pool.get x = some n) := fun x n p c hn => by
    rw [hp]
    split
    · next e2 =>
      subst e2; rw [e]
      constructor <;> intro h4 <;> cases h4 <;> simp [hk] at hn
    · rfl
  refine ⟨fun l => ⟨hm.lsv, by simp, fun x n p c => ?_, pool⟩, fun br => ?_⟩
  · simp only [SpeakerOn, mem_membersOf]
    rw [show (w.setMode sl mode).floor.cnc = (w.setMode sl mode).cnc from rfl, hm.lists]
    exact and_congr_left fun h3 => and_congr_right fun _ => pool x n p c h3
  · rw [handsetMembers_eq, handsetMembers_eq, hm.lists, withMode, List.map_filterMap]
    congr 1
    funext x
    rw [hp]
    by_cases e2 : sl = x
    · subst e2; simp [e, callOf, Member.handset?, hk]
    · rw [if_neg e2]
      cases e3 : w.cnc.pool.get x with
      | none => rfl
      | some n =>
        simp only [Option.bind_some, callOf]
        cases n.handset? <;> simp [Ne.symm e2]

theorem remove_some {w : Work} {sl : SlotNo} {m : Member} (e : w.cnc.pool.get sl = some m) :
    (w.remove sl).floor = { w.floor with cnc := w.cnc.erase sl m } := by
  simp [Work.remove, e, handMember_floor]

theorem remove_call {w : Work} {sl : SlotNo} {m : Member} {h : HandsetNo} (e : w.cnc.pool.get sl = some m)
    (hk : m.kind = .handset h) :
    (∀ l, SpeakersStand l w.floor (w.remove sl).floor) ∧
    ∀ br, handsetMembers (w.remove sl).cnc br = withoutSlot sl (handsetMembers w.cnc br) := by
  have hp : ∀ x, (w.remove sl).cnc.pool.get x = if sl = x then none else w.cnc.pool.get x := fun x => by
    simp only [Work.cnc, remove_some e, Cnc.erase, Table.get_set]
  have hl : ∀ br x, x ≠ sl → (x ∈ ((w.remove sl).cnc.bridges.get br).members ↔ x ∈ (w.cnc.bridges.get br).members) :=
    fun br x hx => by
      simp only [Work.cnc, remove_some e, Cnc.erase, Table.get_upd]
      split
      · next e2 => subst e2; exact List.mem_erase_of_ne hx
      · rfl
  have pool : ∀ x n p c, n.kind = .speaker p c →
      ((w.remove sl).cnc.pool.get x = some n ↔ w.cnc.pool.get x = some n) := fun x n p c hn => by
    rw [hp]
    split
    · next e2 =>
      subst e2; rw [e]
      constructor <;> intro h4 <;> cases h4; simp [hk] at hn
    · rfl
  refine ⟨fun l => ⟨by rw [remove_some e], by rw [remove_some e], fun x n p c => ?_, pool⟩, fun br => ?_⟩
  · simp only [SpeakerOn, mem_membersOf]
    rw [show (w.remove sl).floor.cnc = (w.remove sl).cnc from rfl]
    refine and_congr_left fun h3 => ⟨fun ⟨h1, h2⟩ => ?_, fun ⟨h1, h2⟩ => ?_⟩
    · have h4 := (pool x n p c h3).1 h2
      exact ⟨(hl _ _ (fun e2 => by rw [e2, hp, if_pos rfl] at h2; cases h2)).1 h1, h4⟩
    · have h4 := (pool x n p c h3).2 h2
      exact ⟨(hl _ _ (fun e2 => by rw [e2, hp, if_pos rfl] at h4; cases h4)).2 h1, h4⟩
  · have hp' : (fun x => ((w.remove sl).cnc.pool.get x).bind (callOf x)) =
        fun x => (if sl = x then none else w.cnc.pool.get x).bind (callOf x) := funext fun x => by rw [hp]
    rw [handsetMembers_eq, handsetMembers_eq, withoutSlot_filterMap, hp']
    simp only [Work.cnc, remove_some e, Cnc.erase, Table.get_upd]
    split
    · next e2 => subst e2; exact filterMap_erase _ _ _
    · rfl

/-- A new handset member stands at the tail of its bridge's handset members. -/
theorem create_call {w w' : Work} {h : HandsetNo} {br : BridgeNo} {mode : Mode} {sl : SlotNo} (sound : PoolSound w.cnc)
    (e : w.create (.handset h) br mode = some (w', sl)) :
    (∀ l, SpeakersStand l w.floor w'.floor) ∧
    ∀ b, handsetMembers w'.cnc b = handsetMembers w.cnc b ++ (if b = br then [(sl, h, mode)] else []) := by
  unfold Work.create at e
  split at e
  · cases e
  · next s hs =>
    simp only [Option.some.injEq, Prod.mk.injEq] at e
    obtain ⟨rfl, rfl⟩ := e
    have free := freeSlot_free hs
    have off : ∀ b x, x ∈ (w.cnc.bridges.get b).members → s ≠ x := fun b x hx e2 => by
      obtain ⟨n, hn, -⟩ := sound.own b x hx
      rw [← e2, free] at hn; cases hn
    simp only [handMember_floor, Work.cnc, Work.setCnc_floor]
    refine ⟨fun l => ⟨rfl, rfl, fun x n p c => ?_, fun x n p c hn => ?_⟩, fun b => ?_⟩
    · simp only [SpeakerOn, mem_membersOf, Cnc.insert, Table.get_upd, Table.get_set]
      constructor
      · rintro ⟨⟨h1, h2⟩, h3⟩
        by_cases e2 : s = x
        · subst e2; rw [if_pos rfl] at h2; cases h2; cases h3
        · rw [if_neg e2] at h2
          refine ⟨⟨?_, h2⟩, h3⟩
          split at h1
          · next e3 =>
            rw [← e3]
            rcases List.mem_append.1 h1 with h4 | h4
            · exact h4
            · exact absurd (List.mem_singleton.1 h4).symm e2
          · exact h1
      · rintro ⟨⟨h1, h2⟩, h3⟩
        refine ⟨⟨?_, by rw [if_neg (off _ x h1)]; exact h2⟩, h3⟩
        split
        · next e3 => rw [e3]; exact List.mem_append_left _ h1
        · exact h1
    · simp only [Cnc.insert, Table.get_set]
      split
      · next e2 =>
        subst e2
        constructor <;> intro h4
        · cases h4; cases hn
        · rw [show w.floor.cnc.pool.get s = none from free] at h4; cases h4
      · rfl
    · rw [handsetMembers_eq, handsetMembers_eq]
      have same : ∀ xs : List SlotNo, (∀ x ∈ xs, s ≠ x) →
          xs.filterMap (fun x => ((w.floor.cnc.insert s
            { kind := .handset h, bridge := br, mode := mode, joinFrame := w.frame }).pool.get x).bind (callOf x)) =
          xs.filterMap (fun x => (w.floor.cnc.pool.get x).bind (callOf x)) := fun xs hx =>
        List.filterMap_congr fun x hm => by simp only [Cnc.insert, Table.get_set, if_neg (hx x hm)]
      rw [← same _ (off b)]
      by_cases e2 : b = br
      · subst e2; simp [Cnc.insert, callOf, Member.handset?]
      · simp [Cnc.insert, Table.get_upd, e2, Ne.symm e2]

/-! ### One change of a call, with its re-evaluation -/

theorem bridgeKind_line (l : LineNo) : bridgeKind (lineBridge l) = .line l := by simp [bridgeKind, lineBridge]

theorem bridgeKind_group (g : GroupNo) : bridgeKind (groupBridge g) = .group g := by
  have h1 : ¬ 256 + g.val < 256 := by omega
  have h2 : 256 + g.val < 320 := by omega
  simp [bridgeKind, groupBridge, h2]

theorem setHandsetMode_line {w : Work} {sl : SlotNo} {m : Member} {h : HandsetNo} {l : LineNo}
    (e : w.cnc.pool.get sl = some m) (hk : m.kind = .handset h) (hb : m.bridge = lineBridge l) (mode : Mode) :
    CallChanged l (withMode sl mode (handsetMembers w.cnc (lineBridge l))) w.floor (setHandsetMode sl mode w).floor := by
  have h1 := setMode_call e hk mode
  have := callChanged_of_stand (h1.1 l)
  rw [h1.2] at this
  simpa only [setHandsetMode, slotBridge, e, Option.map_some, hb, reevalHandset, bridgeKind_line, Bool.false_eq_true,
    if_false] using this

theorem removeHandsetMember_line {w : Work} {sl : SlotNo} {m : Member} {h : HandsetNo} {l : LineNo}
    (e : w.cnc.pool.get sl = some m) (hk : m.kind = .handset h) (hb : m.bridge = lineBridge l) :
    CallChanged l (withoutSlot sl (handsetMembers w.cnc (lineBridge l))) w.floor
      (removeHandsetMember false sl w).floor := by
  have h1 := remove_call e hk
  have := callChanged_of_stand (h1.1 l)
  rw [h1.2] at this
  simpa only [removeHandsetMember, slotBridge, e, Option.map_some, hb, reevalHandset, bridgeKind_line, Bool.false_eq_true,
    if_false] using this

/-- A call of a handset on a bridge: the slot, and the member in it. -/
structure CallAt (c : Cnc) (br : BridgeNo) (h : HandsetNo) (sl : SlotNo) (m : Member) : Prop where
  pool : c.pool.get sl = some m
  kind : m.kind = .handset h
  bridge : m.bridge = br

theorem CallChanged.before {l : LineNo} {calls : List Call} {f f' g : Floor} (h : CallChanged l calls f' g)
    (s : SameCalls f f') : CallChanged l calls f g where
  line := by obtain ⟨h1, h2⟩ := h.line; exact ⟨h1, by rw [h2, s.lsv]⟩
  lines := by rw [← s.lsv]; exact h.lines
  cut :=
    { held := fun q hq sl m p c hs => h.cut.held q hq sl m p c (by simpa only [SpeakerOn, s.membersOf] using hs)
      undone := fun hq sl m p c hs => h.cut.undone hq sl m p c (by simpa only [SpeakerOn, s.membersOf] using hs) }
  beside :=
    { members := fun sl m p c hm hk hs => h.beside.members sl m p c (by rw [s.pool]; exact hm) hk (fun k hk2 h2 =>
        hs k hk2 (by simpa only [SpeakerOn, s.membersOf] using h2))
      gains := fun p c hp => by
        have := h.beside.gains p c (fun k sl m hk hs => hp k sl m hk (by simpa only [SpeakerOn, s.membersOf] using hs))
        simpa only [Floor.gain, s.gains] using this }

/-- A call held (R87). -/
theorem holdActive_line {w : Work} {h : HandsetNo} {sl : SlotNo} {m : Member} {l : LineNo}
    (ha : (w.handset h).active = some sl) (e : CallAt w.cnc (lineBridge l) h sl m) (after : HandsetState) :
    CallChanged l (withMode sl .held (handsetMembers w.cnc (lineBridge l))) w.floor (holdActive h after w).floor := by
  have hb : activeBridge w.cnc h = some (lineBridge l) := by
    simp [activeBridge, show (w.cnc.handsets.get h).active = some sl from ha, slotBridge, e.pool, e.bridge]
  have s := (putHandset_same w h { w.handset h with state := after, active := none }).trans
    (putHandset_same _ h _ : SameCalls _ (pushHeld h (lineBridge l) _).floor)
  simp only [holdActive, ha, hb]
  have e' := e.pool
  rw [show w.cnc.pool = w.floor.cnc.pool from rfl, ← s.pool] at e'
  have := setHandsetMode_line (l := l) e' e.kind e.bridge .held
  rw [show handsetMembers w.cnc (lineBridge l) = _ from (s.handsetMembers _).symm]
  exact this.before s

/-- A call released (R77, R89). -/
theorem releaseActive_line {w : Work} {h : HandsetNo} {sl : SlotNo} {m : Member} {l : LineNo}
    (ha : (w.handset h).active = some sl) (e : CallAt w.cnc (lineBridge l) h sl m) (after : HandsetState) :
    CallChanged l (withoutSlot sl (handsetMembers w.cnc (lineBridge l))) w.floor (releaseActive h after w).floor := by
  have s := putHandset_same w h { w.handset h with state := after, active := none }
  simp only [releaseActive, ha]
  have e' := e.pool
  rw [show w.cnc.pool = w.floor.cnc.pool from rfl, ← s.pool] at e'
  have := removeHandsetMember_line (l := l) e' e.kind e.bridge
  rw [show handsetMembers w.cnc (lineBridge l) = _ from (s.handsetMembers _).symm]
  exact this.before s

/-- A held entry dropped: its note and the handset's record first, then the member, then the alert (R82). -/
theorem dropHeldEntry_shape {w : Work} {h : HandsetNo} {br : BridgeNo}
    (hs : ∃ e ∈ (w.handset h).stack, e.bridge = br) (hold : Bool) (cause : Option DropCause) :
    ∃ w2 recalled, SameCalls w.floor w2.floor ∧
      w2.cnc = { w.cnc with handsets := w.cnc.handsets.set h { w.handset h with
        stack := (w.handset h).stack.filter (fun x => x.bridge ≠ br) } } ∧
      dropHeldEntry hold h br cause w = clearRecall h br recalled (match handsetSlot w2.cnc br h with
        | some sl => removeHandsetMember hold sl w2
        | none => w2) := by
  obtain ⟨x, hx⟩ : ∃ x, (w.handset h).stack.find? (fun e => e.bridge = br) = some x := by
    obtain ⟨e, he, hb⟩ := hs
    exact Option.isSome_iff_exists.1 (List.find?_isSome.2 ⟨e, he, by simpa using hb⟩)
  let r : HandsetRec := { w.handset h with stack := (w.handset h).stack.filter (fun x => x.bridge ≠ br) }
  simp only [dropHeldEntry, hx]
  cases cause with
  | none => exact ⟨w.putHandset h r, x.recalled, putHandset_same w h r, by simp [Work.cnc, r], rfl⟩
  | some c =>
    exact ⟨(w.note (.holdDropped h br c x.holdFrame x.recalled)).putHandset h r, x.recalled,
      (note_same w _).trans (putHandset_same _ h r), by simp [Work.cnc, r], rfl⟩

/-- A held call dropped (R82). -/
theorem dropHeldEntry_line {w : Work} {h : HandsetNo} {sl : SlotNo} {m : Member} {l : LineNo}
    (hs : ∃ e ∈ (w.handset h).stack, e.bridge = lineBridge l) (hsl : handsetSlot w.cnc (lineBridge l) h = some sl)
    (e : CallAt w.cnc (lineBridge l) h sl m) (cause : Option DropCause) :
    CallChanged l (withoutSlot sl (handsetMembers w.cnc (lineBridge l))) w.floor
      (dropHeldEntry false h (lineBridge l) cause w).floor := by
  obtain ⟨w2, recalled, s, -, e2⟩ := dropHeldEntry_shape hs false cause
  have e3 : handsetSlot w2.cnc (lineBridge l) h = some sl := by
    rw [← hsl]; simp only [handsetSlot, show _ = _ from s.handsetMembers _]
  simp only [e2, e3]
  have e' := e.pool
  rw [show w.cnc.pool = w.floor.cnc.pool from rfl, ← s.pool] at e'
  have := removeHandsetMember_line (l := l) e' e.kind e.bridge
  rw [show handsetMembers w.cnc (lineBridge l) = _ from (s.handsetMembers _).symm]
  exact (this.before s).same (clearRecall_same _ _ _ _)

/-! ### What a group's re-evaluation leaves (R101, R129) -/

theorem reevalCut_modesOnly (br : BridgeNo) (w : Work) : ModesOnly w (reevalCut br w) := by
  unfold reevalCut; split
  · exact (cutStep_does _ w).1
  · exact .refl w
  · exact .refl w

theorem removeAndCut_lsv (w : Work) (sl : SlotNo) : (w.removeAndCut sl).floor.lsv = w.floor.lsv := by
  unfold Work.removeAndCut; split
  · rfl
  · rw [(reevalCut_modesOnly _ _).lsv]
    unfold Work.remove; split <;> simp [handMember_floor]

theorem setModeAndCut_lsv (w : Work) (sl : SlotNo) (mode : Mode) : (w.setModeAndCut sl mode).floor.lsv = w.floor.lsv := by
  unfold Work.setModeAndCut; split
  · rfl
  · rw [(reevalCut_modesOnly _ _).lsv, (setMode_modesOnly w sl mode).lsv]

theorem popChannel_lsv (p : PositionNo) (c : ChannelNo) (w : Work) : (popChannel p c w).floor.lsv = w.floor.lsv := by
  unfold popChannel; dsimp only; split
  · rfl
  · unfold Work.judgeMember Work.dropMember; repeat' split
    all_goals simp [setModeAndCut_lsv, removeAndCut_lsv]

theorem endChannel_lsv (s : BridgeNo) (j : Bool) (acc : Ending) (x : PositionNo × ChannelNo) :
    (endChannel s j acc x).work.floor.lsv = acc.work.floor.lsv := by
  unfold endChannel; dsimp only; split
  · rfl
  · cases j <;> simp [popChannel_lsv]
  · unfold Work.dropMember
    cases j <;> simp only [Bool.false_eq_true, if_false, if_true] <;> split <;> simp [removeAndCut_lsv]

theorem sourceEnds_lsv (s : BridgeNo) (w : Work) : (sourceEnds s w).floor.lsv = w.floor.lsv := by
  have : ∀ (xs : List (PositionNo × ChannelNo)) (acc : Ending),
      (xs.foldl (endChannel s true) acc).work.floor.lsv = acc.work.floor.lsv := fun xs => by
    induction xs with
    | nil => exact fun _ => rfl
    | cons x xs ih => exact fun acc => (ih _).trans (endChannel_lsv s true acc x)
  rw [sourceEnds, endAnnouncements]
  generalize allChannels = xs
  exact this xs { work := w, count := 0, mask := 0 }

theorem groupMembership_lsv (g : GroupNo) (w : Work) : (groupMembership g w).floor.lsv = w.floor.lsv := by
  unfold groupMembership; dsimp only; repeat' split
  · rfl
  · rw [sourceEnds_lsv, (endIntercom_same _ _ _ _).lsv]; simp
  · simp

end Sys2Proof.Machine
end

