-- ==== Sys2Proof/Laws/Cuts.lean ====
section
/-! SUPPORT. The SPEAKER members through a whole event at the calls: what keeps the cut of every line as its handset members have
it (R13 to R15), and what pops and removals leave of the members (R101, R128, R129). -/

namespace Sys2Proof.Machine
variable {f0 : Floor} {w w' w'' : Work}

/-- The pool is sound, the channels' members are their own, and a channel that had no saved entry has none. -/
structure CncSound (f0 : Floor) (c : Cnc) : Prop where
  pool : PoolSound c
  channels : ChannelsOwnMembers c
  saved : ∀ p d, ((f0.cnc.channels.get p).get d).stack = [] → ((c.channels.get p).get d).stack = []

/-- What a step leaves of the SPEAKER members, where the channels had their saved entries at `f0`. -/
structure Follow (f0 f g : Floor) : Prop where
  modes : ∀ sl n p c, g.cnc.pool.get sl = some n → n.kind = .speaker p c → ∃ m, f.cnc.pool.get sl = some m ∧
    n = { m with mode := n.mode } ∧ (n.mode = m.mode ∨ ((n.mode = .active ∨ n.mode = .cut) ∧ g.gain p c = 0))
  gains : ∀ p c, g.gain p c = f.gain p c ∨ g.gain p c = 0
  left : ∀ sl m p c, f.cnc.pool.get sl = some m → m.kind = .speaker p c →
    ((f0.cnc.channels.get p).get c).stack = [] → ∃ n, g.cnc.pool.get sl = some n ∧ n.kind = m.kind

/-- What a step of an event at the calls keeps. -/
structure Kept (f0 : Floor) (w w' : Work) : Prop where
  sound : CncSound f0 w'.cnc
  cut : ∀ l, CutHolds w.floor l → CutHolds w'.floor l
  speakers : Follow f0 w.floor w'.floor
  free : ∀ sl, w.cnc.pool.get sl = none → w'.cnc.pool.get sl = none

/-- A step that keeps the handset members and the lines beside. -/
structure KeptCalls (f0 : Floor) (w w' : Work) : Prop where
  kept : Kept f0 w w'
  calls : ∀ br, handsetMembers w'.cnc br = handsetMembers w.cnc br
  lsv : w'.floor.lsv = w.floor.lsv

theorem Follow.refl (f0 f : Floor) : Follow f0 f f :=
  ⟨fun _ n _ _ h _ => ⟨n, h, rfl, Or.inl rfl⟩, fun _ _ => Or.inl rfl, fun _ m _ _ h _ _ => ⟨m, h, rfl⟩⟩

theorem Follow.trans {f g k : Floor} (h : Follow f0 f g) (i : Follow f0 g k) : Follow f0 f k where
  modes := fun sl n p c hn hk => by
    obtain ⟨m', hm', e', o'⟩ := i.modes sl n p c hn hk
    have hk' : m'.kind = .speaker p c := by rw [← hk, e']
    obtain ⟨m, hm, e, o⟩ := h.modes sl m' p c hm' hk'
    refine ⟨m, hm, by rw [e', e], ?_⟩
    rcases o' with o' | o'
    · rcases o with o | ⟨o, og⟩
      · exact Or.inl (o'.trans o)
      · refine Or.inr ⟨by rw [o']; exact o, ?_⟩
        rcases i.gains p c with z | z
        · rw [z, og]
        · exact z
    · exact Or.inr o'
  gains := fun p c => by
    rcases i.gains p c with z | z
    · rw [z]; exact h.gains p c
    · exact Or.inr z
  left := fun sl m p c hm hk e => by
    obtain ⟨n, hn, hk2⟩ := h.left sl m p c hm hk e
    obtain ⟨n3, hn3, hk3⟩ := i.left sl n p c hn (hk2.trans hk) e
    exact ⟨n3, hn3, hk3.trans hk2⟩

/-- Through a whole event, whose channels are those it began with. -/
theorem Kept.speakersFollow (h : Kept w.floor w w') : SpeakersFollow w.floor w'.floor :=
  ⟨h.speakers.modes, h.speakers.gains, fun sl m p c hm hk e => ⟨h.sound.saved p c e, h.speakers.left sl m p c hm hk e⟩⟩

theorem Kept.refl (h : CncSound f0 w.cnc) : Kept f0 w w := ⟨h, fun _ h => h, .refl _ _, fun _ h => h⟩
theorem Kept.trans (h : Kept f0 w w') (i : Kept f0 w' w'') : Kept f0 w w'' :=
  ⟨i.sound, fun l x => i.cut l (h.cut l x), h.speakers.trans i.speakers, fun sl x => i.free sl (h.free sl x)⟩
theorem KeptCalls.refl (h : CncSound f0 w.cnc) : KeptCalls f0 w w := ⟨.refl h, fun _ => rfl, rfl⟩
theorem KeptCalls.trans (h : KeptCalls f0 w w') (i : KeptCalls f0 w' w'') : KeptCalls f0 w w'' :=
  ⟨h.kept.trans i.kept, fun br => (i.calls br).trans (h.calls br), i.lsv.trans h.lsv⟩

/-! ### Lines that a step does not reach -/

/-- A step leaves a line's privacy, its handset members and its SPEAKER members. -/
structure LineStands (l : LineNo) (f g : Floor) : Prop where
  cfg : (g.lsv.get l).cfg = (f.lsv.get l).cfg
  calls : handsetMembers g.cnc (lineBridge l) = handsetMembers f.cnc (lineBridge l)
  speakers : ∀ sl m p c, SpeakerOn g l sl m p c → SpeakerOn f l sl m p c

theorem LineStands.cutHolds {l : LineNo} {f g : Floor} (h : LineStands l f g) (c : CutHolds f l) : CutHolds g l where
  held := fun q hq sl m p d hs => c.held q (by simpa only [HeldBy, h.cfg, h.calls] using hq) sl m p d (h.speakers _ _ _ _ hs)
  undone := fun hq sl m p d hs => c.undone (by simpa only [NotHeld, h.cfg, h.calls] using hq) sl m p d (h.speakers _ _ _ _ hs)

theorem SameCalls.lineStands {f g : Floor} (h : SameCalls f g) (l : LineNo) : LineStands l f g :=
  ⟨by rw [h.lsv], h.handsetMembers _, fun sl m p c hs => by simpa only [SpeakerOn, h.membersOf] using hs⟩

/-- A step that leaves members, channels, lines and gains keeps everything. -/
theorem SameCalls.kept (h : SameCalls w.floor w'.floor) (s : CncSound f0 w.cnc) : KeptCalls f0 w w' where
  kept :=
    { sound :=
        { pool := ⟨by rw [show w'.cnc.bridges = _ from h.bridges]; exact s.pool.once,
            by rw [show w'.cnc.bridges = _ from h.bridges, show w'.cnc.pool = _ from h.pool]; exact s.pool.own,
            by rw [show w'.cnc.bridges = _ from h.bridges, show w'.cnc.pool = _ from h.pool]; exact s.pool.listed⟩
          channels := by
            unfold ChannelsOwnMembers
            rw [show w'.cnc.channels = _ from h.channels, show w'.cnc.pool = _ from h.pool]; exact s.channels
          saved := by rw [show w'.cnc.channels = _ from h.channels]; exact s.saved }
      cut := fun l => (h.lineStands l).cutHolds
      speakers :=
        { modes := fun sl n p c hn _ => ⟨n, by rwa [← h.pool], rfl, Or.inl rfl⟩
          gains := fun p c => Or.inl (by simp only [Floor.gain, h.gains])
          left := fun sl m p c hm _ _ => ⟨m, by rwa [h.pool], rfl⟩ }
      free := fun sl e => by rw [show w'.cnc.pool = _ from h.pool]; exact e }
  calls := fun br => h.handsetMembers br
  lsv := h.lsv

/-! ### The cut -/

theorem cutStep_cutHolds (l : LineNo) (w : Work) : CutHolds (cutStep l w).floor l := by
  obtain ⟨h1, h2, -⟩ := cutStep_does l w
  have calls := cutStep_handsetMembers l w (lineBridge l)
  have speakers : ∀ sl n p c, SpeakerOn (cutStep l w).floor l sl n p c → ∃ m, m.kind = .speaker p c ∧
      n = cutMember (holdingPosition w.floor l) m := fun sl n p c hs => by
    obtain ⟨a1, a2⟩ := mem_membersOf.1 hs.1
    rw [show (cutStep l w).floor.cnc = (cutStep l w).cnc from rfl, h1.lists] at a1
    rw [show (cutStep l w).floor.cnc = (cutStep l w).cnc from rfl, h2, if_pos a1] at a2
    obtain ⟨m, hm, e⟩ := Option.map_eq_some_iff.1 a2
    exact ⟨m, by rw [← hs.2, ← e, cutMember_kind], e.symm⟩
  constructor
  · intro q hq sl n p c hs hp
    obtain ⟨m, hk, e⟩ := speakers sl n p c hs
    have hq' : HeldBy w.floor l q := by simpa only [HeldBy, h1.lsv, show handsetMembers (cutStep l w).floor.cnc _ = _ from calls] using hq
    rw [e, cutMember_heldBy hq' hk]
    simp only [hp, ne_eq, not_false_eq_true, true_and]
    split
    · simp
    · assumption
  · intro hq sl n p c hs
    obtain ⟨m, hk, e⟩ := speakers sl n p c hs
    have hq' : NotHeld w.floor l := by simpa only [NotHeld, h1.lsv, show handsetMembers (cutStep l w).floor.cnc _ = _ from calls] using hq
    rw [e, cutMember_notHeld hq' hk]
    simp only
    split
    · simp
    · assumption

theorem lineBridge_inj {k l : LineNo} (h : lineBridge k = lineBridge l) : k = l := by
  simpa [lineBridge, Fin.ext_iff] using h

theorem cutStep_other {l k : LineNo} (hk : k ≠ l) (w : Work) (s : PoolSound w.cnc) :
    LineStands k w.floor (cutStep l w).floor := by
  obtain ⟨h1, h2, -⟩ := cutStep_does l w
  refine ⟨by rw [h1.lsv], cutStep_handsetMembers l w _, fun sl m p c ⟨hs, hm⟩ => ⟨?_, hm⟩⟩
  obtain ⟨a1, a2⟩ := mem_membersOf.1 hs
  rw [show (cutStep l w).floor.cnc = (cutStep l w).cnc from rfl, h1.lists] at a1
  rw [show (cutStep l w).floor.cnc = (cutStep l w).cnc from rfl, h2] at a2
  split at a2
  · next a3 =>
    obtain ⟨n1, b1, c1⟩ := s.own _ sl a1
    obtain ⟨n2, b2, c2⟩ := s.own _ sl a3
    rw [b1] at b2; cases b2
    exact absurd (lineBridge_inj (c1.symm.trans c2)) hk
  · exact mem_membersOf.2 ⟨a1, a2⟩

theorem ModesOnly.channels (h : ModesOnly w w') : w'.cnc.channels = w.cnc.channels := by rw [h.cnc]

/-- The slots of a bridge's list hold the same members but for modes. -/
theorem ChannelsOwnMembers.of_kinds {c d : Cnc} (h : ChannelsOwnMembers c) (hc : d.channels = c.channels)
    (hp : ∀ sl n, d.pool.get sl = some n → ∃ m, c.pool.get sl = some m ∧ n.kind = m.kind) : ChannelsOwnMembers d := by
  intro p x e he sl n hs hn
  rw [hc] at he
  obtain ⟨m, hm, hk⟩ := hp sl n hn
  rw [hk]; exact h p x e he sl m hs hm

/-- What step 1 of a re-evaluation makes of a slot: its member, under the cut where it stands on the bridge. -/
theorem cutStep_pool (l : LineNo) (w : Work) {sl : SlotNo} {n : Member} (hn : (cutStep l w).cnc.pool.get sl = some n) :
    ∃ m, w.cnc.pool.get sl = some m ∧ (n = m ∨
      (sl ∈ (w.cnc.bridges.get (lineBridge l)).members ∧ n = cutMember (holdingPosition w.floor l) m)) := by
  rw [(cutStep_does l w).2.1] at hn
  split at hn
  · next a => obtain ⟨m, hm, e⟩ := Option.map_eq_some_iff.1 hn; exact ⟨m, hm, Or.inr ⟨a, e.symm⟩⟩
  · exact ⟨n, hn, Or.inl rfl⟩

theorem cutStep_follow (f0 : Floor) (l : LineNo) (w : Work) : Follow f0 w.floor (cutStep l w).floor := by
  obtain ⟨h1, h2, h3⟩ := cutStep_does l w
  refine ⟨fun sl n p c hn hk => ?_, fun p c => ?_, fun sl m p c hm hk e => ?_⟩
  · obtain ⟨m, hm, e | ⟨a, e⟩⟩ := cutStep_pool l w hn
    · subst e; exact ⟨n, hm, rfl, Or.inl rfl⟩
    · refine ⟨m, hm, by rw [e]; exact cutMember_eq_mode _ _, ?_⟩
      by_cases e2 : cutMember (holdingPosition w.floor l) m = m
      · left; rw [e, e2]
      · right
        have hk' : m.kind = .speaker p c := by rw [← hk, e, cutMember_kind]
        refine ⟨?_, ?_⟩
        · rw [e]
          unfold cutMember at e2 ⊢
          repeat' split
          all_goals simp_all
        · have := h3 p c
          rwa [if_pos ⟨(sl, m), mem_membersOf.2 ⟨a, hm⟩, hk', e2⟩] at this
  · have := h3 p c
    split at this
    · exact Or.inr this
    · exact Or.inl this
  · rw [show (cutStep l w).floor.cnc = (cutStep l w).cnc from rfl, h2]
    split
    · exact ⟨_, by rw [show w.cnc.pool.get sl = some m from hm]; rfl, cutMember_kind _ _⟩
    · exact ⟨m, hm, rfl⟩

theorem cutStep_kept (l : LineNo) (s : CncSound f0 w.cnc) : KeptCalls f0 w (cutStep l w) := by
  have h1 := (cutStep_does l w).1
  have kinds : ∀ sl n, (cutStep l w).cnc.pool.get sl = some n → ∃ m, w.cnc.pool.get sl = some m ∧ n.kind = m.kind :=
    fun sl n hn => by
      obtain ⟨m, hm, e | ⟨-, e⟩⟩ := cutStep_pool l w hn <;> exact ⟨m, hm, by simp [e]⟩
  refine ⟨⟨⟨(cutStep_moves (a := true) (b := true) l w).poolSound s.pool, s.channels.of_kinds h1.channels kinds,
    by rw [h1.channels]; exact s.saved⟩, fun k hk => ?_, cutStep_follow f0 l w, fun sl e => ?_⟩,
    cutStep_handsetMembers l w, h1.lsv⟩
  · by_cases e : k = l
    · subst e; exact cutStep_cutHolds k w
    · exact (cutStep_other e w s.pool).cutHolds hk
  · rw [(cutStep_does l w).2.1, e]; simp

theorem reevalCut_kept (br : BridgeNo) (s : CncSound f0 w.cnc) : KeptCalls f0 w (reevalCut br w) := by
  unfold reevalCut; split
  · exact cutStep_kept _ s
  · exact .refl s
  · exact .refl s

/-! ### A change of one member, and its re-evaluation -/

/-- A change of one member of a bridge, before the re-evaluation. -/
structure MemberChanged (f0 : Floor) (br : BridgeNo) (w w' : Work) : Prop where
  sound : CncSound f0 w'.cnc
  others : ∀ b, b ≠ br → membersOf w'.cnc b = membersOf w.cnc b
  lsv : w'.floor.lsv = w.floor.lsv
  speakers : Follow f0 w.floor w'.floor
  free : ∀ sl, w.cnc.pool.get sl = none → w'.cnc.pool.get sl = none

theorem MemberChanged.lineStands {br : BridgeNo} (h : MemberChanged f0 br w w') {k : LineNo} (hk : lineBridge k ≠ br) :
    LineStands k w.floor w'.floor := by
  have e : membersOf w'.floor.cnc (lineBridge k) = membersOf w.floor.cnc (lineBridge k) := h.others _ hk
  exact ⟨by rw [h.lsv], by simp only [handsetMembers, e], fun sl m p c hs => by simpa only [SpeakerOn, e] using hs⟩

theorem eq_lineBridge {br : BridgeNo} {l : LineNo} (h : bridgeKind br = .line l) : br = lineBridge l := by
  unfold bridgeKind at h
  split at h
  · rw [← BridgeKind.line.inj h]; rfl
  · split at h <;> exact BridgeKind.noConfusion h

theorem eq_groupBridge {br : BridgeNo} {g : GroupNo} (h : bridgeKind br = .group g) : br = groupBridge g := by
  unfold bridgeKind at h
  split at h
  · exact BridgeKind.noConfusion h
  · split at h
    · rw [← BridgeKind.group.inj h]; simp only [groupBridge, Fin.ext_iff]; omega
    · exact BridgeKind.noConfusion h

theorem MemberChanged.reevalCut {br : BridgeNo} (h : MemberChanged f0 br w w') : Kept f0 w (reevalCut br w') := by
  have k := (reevalCut_kept br h.sound).kept
  refine ⟨k.sound, fun l hl => ?_, h.speakers.trans k.speakers, fun sl x => k.free sl (h.free sl x)⟩
  by_cases e : lineBridge l = br
  · subst e
    simp only [Machine.reevalCut, bridgeKind_line]
    exact cutStep_cutHolds l w'
  · exact k.cut l ((h.lineStands e).cutHolds hl)

theorem erase_others {c : Cnc} {sl : SlotNo} {m : Member} (s : PoolSound c) (e : c.pool.get sl = some m) {b : BridgeNo}
    (hb : b ≠ m.bridge) : membersOf (c.erase sl m) b = membersOf c b := by
  simp only [membersOf, Cnc.erase, Table.get_upd, if_neg (Ne.symm hb)]
  refine List.filterMap_congr fun x hx => ?_
  obtain ⟨n, hn, hnb⟩ := s.own b x hx
  have : sl ≠ x := fun e2 => hb (by rw [← e2, e] at hn; cases hn; exact hnb.symm)
  rw [Table.get_set_ne _ _ this]

theorem changeMode_others {c : Cnc} {sl : SlotNo} {m : Member} (s : PoolSound c) (e : c.pool.get sl = some m) (mode : Mode)
    {b : BridgeNo} (hb : b ≠ m.bridge) : membersOf (c.changeMode sl m mode) b = membersOf c b := by
  simp only [membersOf, Cnc.changeMode, Table.get_upd, if_neg (Ne.symm hb)]
  refine List.filterMap_congr fun x hx => ?_
  obtain ⟨n, hn, hnb⟩ := s.own b x hx
  have : sl ≠ x := fun e2 => hb (by rw [← e2, e] at hn; cases hn; exact hnb.symm)
  rw [Table.get_set_ne _ _ this]

theorem remove_changed {sl : SlotNo} {m : Member} (s : CncSound f0 w.cnc) (e : w.cnc.pool.get sl = some m)
    (saved : ∀ p c, m.kind = .speaker p c → ((f0.cnc.channels.get p).get c).stack ≠ []) :
    MemberChanged f0 m.bridge w (w.remove sl) := by
  have hp : ∀ x, (w.remove sl).cnc.pool.get x = if sl = x then none else w.cnc.pool.get x := fun x => by
    simp only [Work.cnc, remove_some e, Cnc.erase, Table.get_set]
  have hf := remove_some e
  refine ⟨⟨(remove_moves (a := true) (b := true) w sl).poolSound s.pool, s.channels.of_kinds ?_ fun x n hn => ?_, ?_⟩,
    fun b hb => ?_, by rw [hf], ⟨fun x n p c hn hk => ?_, fun p c => Or.inl (by rw [hf]), fun x n p c hn hk he => ?_⟩,
    fun x hx => by rw [hp, hx, ite_self]⟩
  · rw [show (w.remove sl).cnc = _ from congrArg Floor.cnc hf]; rfl
  · rw [hp] at hn; split at hn
    · cases hn
    · exact ⟨n, hn, rfl⟩
  · rw [show (w.remove sl).cnc = _ from congrArg Floor.cnc hf]; exact s.saved
  · rw [show (w.remove sl).cnc = _ from congrArg Floor.cnc hf]; exact erase_others s.pool e hb
  · rw [show (w.remove sl).floor.cnc = (w.remove sl).cnc from rfl, hp] at hn; split at hn
    · cases hn
    · exact ⟨n, hn, rfl, Or.inl rfl⟩
  · refine ⟨n, ?_, rfl⟩
    rw [show (w.remove sl).floor.cnc = (w.remove sl).cnc from rfl, hp, if_neg]
    · exact hn
    · intro e2; subst e2
      rw [show w.floor.cnc.pool.get sl = some m from e] at hn
      cases hn; exact saved p c hk he

theorem setMode_changed {sl : SlotNo} {m : Member} (s : CncSound f0 w.cnc) (e : w.cnc.pool.get sl = some m) (mode : Mode)
    (ramp : ∀ p c, m.kind = .speaker p c → (mode = .active ∨ mode = .cut) ∧ w.floor.gain p c = 0) :
    MemberChanged f0 m.bridge w (w.setMode sl mode) := by
  have hp := setMode_pool e mode
  have hf := setMode_some e mode
  have hm := setMode_modesOnly w sl mode
  refine ⟨⟨(setMode_moves (a := true) (b := true) w sl mode).poolSound s.pool, s.channels.of_kinds hm.channels
    fun x n hn => ?_, by rw [hm.channels]; exact s.saved⟩, fun b hb => ?_, hm.lsv,
    ⟨fun x n p c hn hk => ?_, fun p c => Or.inl (by simp [Floor.gain]), fun x n p c hn hk he => ?_⟩,
    fun x hx => ?_⟩
  · rw [hp] at hn; split at hn
    · next e2 => cases hn; subst e2; exact ⟨m, e, rfl⟩
    · exact ⟨n, hn, rfl⟩
  · rw [show (w.setMode sl mode).cnc = _ from congrArg Floor.cnc hf]; exact changeMode_others s.pool e mode hb
  · rw [show (w.setMode sl mode).floor.cnc = (w.setMode sl mode).cnc from rfl, hp] at hn; split at hn
    · next e2 =>
      cases hn; subst e2
      exact ⟨m, e, rfl, Or.inr ⟨(ramp p c hk).1, by simpa [Floor.gain] using (ramp p c hk).2⟩⟩
    · exact ⟨n, hn, rfl, Or.inl rfl⟩
  · rw [show (w.setMode sl mode).floor.cnc = (w.setMode sl mode).cnc from rfl, hp]
    split
    · next e2 =>
      subst e2
      rw [show w.floor.cnc.pool.get sl = some m from e] at hn
      cases hn; exact ⟨_, rfl, rfl⟩
    · exact ⟨n, hn, rfl⟩
  · rw [hp, hx]; split
    · next e2 => subst e2; rw [e] at hx; cases hx
    · rfl

/-- A change that touches no handset member leaves them. -/
theorem handsetMembers_of_calls {c d : Cnc} {br : BridgeNo} (hl : (d.bridges.get br).members = (c.bridges.get br).members)
    (hp : ∀ sl, (d.pool.get sl).bind (callOf sl) = (c.pool.get sl).bind (callOf sl)) :
    handsetMembers d br = handsetMembers c br := by
  rw [handsetMembers_eq, handsetMembers_eq, hl]
  exact List.filterMap_congr fun x _ => hp x

theorem callOf_speaker {sl : SlotNo} {m : Member} (h : m.handset? = none) : callOf sl m = none := by simp [callOf, h]

theorem handset_of_speaker {m : Member} {p : PositionNo} {c : ChannelNo} (h : m.kind = .speaker p c) : m.handset? = none := by
  simp [Member.handset?, h]

/-- The removal of a member that is no handset's, with its re-evaluation (R12). -/
theorem removeAndCut_kept {sl : SlotNo} (s : CncSound f0 w.cnc)
    (kind : ∀ m, w.cnc.pool.get sl = some m → m.handset? = none ∧
      ∀ p c, m.kind = .speaker p c → ((f0.cnc.channels.get p).get c).stack ≠ []) :
    KeptCalls f0 w (w.removeAndCut sl) := by
  unfold Work.removeAndCut slotBridge
  cases e : w.cnc.pool.get sl with
  | none => exact .refl s
  | some m =>
    obtain ⟨k1, k2⟩ := kind m e
    have h := remove_changed s e k2
    have r := reevalCut_kept m.bridge h.sound
    refine ⟨h.reevalCut, fun br => ?_, ?_⟩
    · refine (r.calls br).trans ?_
      rw [handsetMembers_eq, handsetMembers_eq]
      have hp : (fun x => ((w.remove sl).cnc.pool.get x).bind (callOf x)) =
          fun x => (w.cnc.pool.get x).bind (callOf x) := funext fun x => by
        simp only [Work.cnc, remove_some e, Cnc.erase, Table.get_set]
        split
        · next e2 => subst e2; rw [show w.floor.cnc.pool.get sl = some m from e]; simp [callOf_speaker k1]
        · rfl
      rw [hp]
      simp only [Work.cnc, remove_some e, Cnc.erase, Table.get_upd]
      split
      · next e2 =>
        subst e2
        have h2 : ∀ xs : List SlotNo, (xs.erase sl).filterMap (fun x => (w.floor.cnc.pool.get x).bind (callOf x)) =
            xs.filterMap (fun x => (w.floor.cnc.pool.get x).bind (callOf x)) := fun xs => by
          induction xs with
          | nil => rfl
          | cons x xs ih =>
            by_cases e3 : x = sl
            · subst e3
              rw [List.erase_cons_head, List.filterMap_cons, show w.floor.cnc.pool.get x = some m from e]
              simp [callOf_speaker k1]
            · rw [List.erase_cons_tail (by simpa using e3), List.filterMap_cons, List.filterMap_cons, ih]
        exact h2 _
      · rfl
    · exact r.lsv.trans h.lsv

/-- The mode of a channel's member judged afresh, its channel at gain 0, with the re-evaluation (R12, R128). -/
theorem setModeAndCut_kept {sl : SlotNo} {mode : Mode} (s : CncSound f0 w.cnc)
    (kind : ∀ m, w.cnc.pool.get sl = some m → ∃ p c, m.kind = .speaker p c ∧ w.floor.gain p c = 0)
    (hm : mode = .active ∨ mode = .cut) : KeptCalls f0 w (w.setModeAndCut sl mode) := by
  unfold Work.setModeAndCut slotBridge
  cases e : w.cnc.pool.get sl with
  | none => exact .refl s
  | some m =>
    obtain ⟨p, c, hk, hg⟩ := kind m e
    have h := setMode_changed s e mode (fun q d hq => by rw [hk] at hq; cases hq; exact ⟨hm, hg⟩)
    have r := reevalCut_kept m.bridge h.sound
    refine ⟨h.reevalCut, fun br => (r.calls br).trans ?_, r.lsv.trans h.lsv⟩
    refine handsetMembers_of_calls ((setMode_modesOnly w sl mode).lists br) fun x => ?_
    rw [setMode_pool e]
    split
    · next e2 =>
      subst e2
      have h2 : ∀ n : Member, n.kind = m.kind → callOf sl n = none := fun n hn =>
        callOf_speaker (handset_of_speaker (hn.trans hk))
      rw [e]; exact (h2 { m with mode := mode } rfl).trans (h2 m rfl).symm
    · rfl

/-! ### Pops and endings (R128, R129) -/

/-- A channel that loses entries, and keeps one saved or had none to lose. -/
theorem putChannel_kept {p : PositionNo} {c : ChannelNo} {r : ChannelRec} (s : CncSound f0 w.cnc)
    (entries : ∀ e ∈ r.current :: r.stack, e ∈ (w.channel p c).current :: (w.channel p c).stack)
    (saved : ((f0.cnc.channels.get p).get c).stack ≠ []) : KeptCalls f0 w (w.putChannel p c r) := by
  have pool : (w.putChannel p c r).floor.cnc.pool = w.floor.cnc.pool := by simp
  have members : ∀ br, membersOf (w.putChannel p c r).floor.cnc br = membersOf w.floor.cnc br := by simp [membersOf]
  have calls : ∀ br, handsetMembers (w.putChannel p c r).cnc br = handsetMembers w.cnc br := fun br => by
    simp only [handsetMembers, show membersOf (w.putChannel p c r).cnc br = _ from members br]
  have lsv : (w.putChannel p c r).floor.lsv = w.floor.lsv := by simp
  have ch : ∀ q d, ((w.putChannel p c r).cnc.channels.get q).get d = if p = q ∧ c = d then r else w.channel q d :=
    fun q d => by
      simp only [Work.cnc, Work.putChannel_floor, Table.get_upd]
      by_cases e : p = q
      · subst e; simp [Table.get_set]
      · simp [e]
  refine ⟨⟨⟨(putChannel_moves (a := true) (b := true) w p c r).poolSound s.pool, fun q d e he sl m hs hm => ?_,
    fun q d e => ?_⟩, fun l => LineStands.cutHolds ⟨by rw [lsv], calls _,
      fun sl m q d hs => by simpa only [SpeakerOn, members] using hs⟩,
    ⟨fun sl n q d hn _ => ⟨n, by rwa [← pool], rfl, Or.inl rfl⟩, fun q d => Or.inl (by simp [Floor.gain]),
      fun sl m q d hm _ _ => ⟨m, by rwa [pool], rfl⟩⟩,
    fun sl e => by rw [show (w.putChannel p c r).cnc.pool = _ from pool]; exact e⟩, calls, lsv⟩
  · rw [show (w.putChannel p c r).cnc.pool = _ from pool] at hm
    rw [ch] at he
    split at he
    · next e2 => obtain ⟨rfl, rfl⟩ := e2; exact s.channels p c e (entries e he) sl m hs hm
    · exact s.channels q d e he sl m hs hm
  · rw [ch]; split
    · next e2 => obtain ⟨rfl, rfl⟩ := e2; exact absurd e saved
    · exact s.saved q d e

theorem zeroGain_kept (p : PositionNo) (c : ChannelNo) (s : CncSound f0 w.cnc) : KeptCalls f0 w (w.zeroGain p c) := by
  have hc : (w.zeroGain p c).floor.cnc = w.floor.cnc := by simp
  refine ⟨⟨by rw [show (w.zeroGain p c).cnc = _ from hc]; exact s, fun l h => ?_,
    ⟨fun sl n q d hn _ => ⟨n, by rwa [← hc], rfl, Or.inl rfl⟩, fun q d => ?_,
      fun sl m q d hm _ _ => ⟨m, by rwa [hc], rfl⟩⟩,
    fun sl e => by rw [show (w.zeroGain p c).cnc = _ from hc]; exact e⟩, fun br => by rw [show (w.zeroGain p c).cnc = _ from hc],
    by simp⟩
  · have hl : (w.zeroGain p c).floor.lsv = w.floor.lsv := by simp
    exact LineStands.cutHolds ⟨by rw [hl], by rw [hc], fun sl m q d hs => by simpa only [SpeakerOn, hc] using hs⟩ h
  · rw [zeroGain_gain]; split
    · exact Or.inr rfl
    · exact Or.inl rfl

theorem removeAndCut_channels (w : Work) (sl : SlotNo) : (w.removeAndCut sl).cnc.channels = w.cnc.channels := by
  unfold Work.removeAndCut; split
  · rfl
  · rw [(reevalCut_modesOnly _ _).channels]
    unfold Work.remove; split <;> simp [Work.cnc, handMember_floor, Cnc.erase]

/-- The removal of the member of one of a channel's entries, while the channel has saved ones. -/
theorem dropMember_kept {p : PositionNo} {c : ChannelNo} (s : CncSound f0 w.cnc)
    (hr : ((f0.cnc.channels.get p).get c).stack ≠ []) {x : Option SlotNo}
    (he : ∀ sl m, x = some sl → w.cnc.pool.get sl = some m → m.kind = .speaker p c) :
    KeptCalls f0 w (w.dropMember x) := by
  cases x with
  | none => exact .refl s
  | some sl =>
    refine removeAndCut_kept s fun m hm => ?_
    have hk := he sl m rfl hm
    exact ⟨handset_of_speaker hk, fun q d hq => by rw [hk] at hq; cases hq; exact hr⟩

theorem popChannel_kept (p : PositionNo) (c : ChannelNo) (s : CncSound f0 w.cnc) : KeptCalls f0 w (popChannel p c w) := by
  unfold popChannel; dsimp only
  split
  · exact .refl s
  · next top rest hr =>
    have saved : ((w.cnc.channels.get p).get c).stack ≠ [] := by rw [show (w.cnc.channels.get p).get c = w.channel p c from rfl, hr]; simp
    have saved0 : ((f0.cnc.channels.get p).get c).stack ≠ [] := fun h => saved (s.saved p c h)
    have k1 := dropMember_kept s saved0 (x := (w.channel p c).current.member)
      (fun sl m h hm => s.channels p c _ (by simp [Work.channel]) sl m h hm)
    generalize hw1 : w.dropMember (w.channel p c).current.member = w1 at k1
    have hch : w1.channel p c = w.channel p c := by
      rw [← hw1]; unfold Work.dropMember; split
      · simp only [Work.channel, removeAndCut_channels]
      · rfl
    have k2 := putChannel_kept (p := p) (c := c) (r := { current := top, stack := rest }) k1.kept.sound
      (fun e he => by rw [hch, hr]; exact List.mem_cons_of_mem _ he) saved0
    have k3 := zeroGain_kept p c k2.kept.sound
    have k := (k1.trans k2).trans k3
    generalize hw3 : (w1.putChannel p c { current := top, stack := rest }).zeroGain p c = w3 at k3 k
    refine k.trans ?_
    unfold Work.judgeMember
    split
    · exact .refl k.kept.sound
    · next sl hsl =>
      split
      · exact .refl k.kept.sound
      · refine setModeAndCut_kept k.kept.sound (fun m hm => ⟨p, c, ?_, ?_⟩) ?_
        · refine k.kept.sound.channels p c top ?_ sl m hsl hm
          rw [← hw3]; simp [Work.cnc]
        · rw [← hw3, zeroGain_gain]; simp
        · unfold speakerMode; split
          · exact Or.inr rfl
          · exact Or.inl rfl

theorem note_kept (n : NoteBody) (s : CncSound f0 w.cnc) : KeptCalls f0 w (w.note n) :=
  (note_same w n).kept s

theorem endChannel_kept (b : BridgeNo) (j : Bool) (acc : Ending) (x : PositionNo × ChannelNo) (s : CncSound f0 acc.work.cnc) :
    KeptCalls f0 acc.work (endChannel b j acc x).work := by
  unfold endChannel; dsimp only
  split
  · exact .refl s
  · have k := popChannel_kept x.1 x.2 s
    cases j
    · exact k
    · exact k.trans (note_kept _ k.kept.sound)
  · next hx =>
    have saved : ((f0.cnc.channels.get x.1).get x.2).stack ≠ [] := fun h0 => by
      have h : (acc.work.channel x.1 x.2).stack = [] := s.saved _ _ h0
      unfold endingAt at hx; rw [h] at hx; simp at hx; split at hx <;> exact EndingAt.noConfusion hx
    let r : ChannelRec := { acc.work.channel x.1 x.2 with
      stack := (acc.work.channel x.1 x.2).stack.filter (fun e => !isAnnouncementOf b e) }
    have k1 : KeptCalls f0 acc.work (acc.work.putChannel x.1 x.2 r) := putChannel_kept s (fun e he => by
      rcases List.mem_cons.1 he with rfl | he
      · exact List.mem_cons_self ..
      · exact List.mem_cons_of_mem _ (List.mem_of_mem_filter he)) saved
    have k2 : KeptCalls f0 acc.work ((acc.work.putChannel x.1 x.2 r).dropMember
        (((acc.work.channel x.1 x.2).stack.find? (isAnnouncementOf b)).bind ChannelEntry.member)) := by
      refine k1.trans (dropMember_kept k1.kept.sound saved fun sl m h hm => ?_)
      obtain ⟨e, he, h⟩ := Option.bind_eq_some_iff.1 h
      have same : (acc.work.putChannel x.1 x.2 r).cnc.pool = acc.work.cnc.pool := by simp [Work.cnc]
      rw [same] at hm
      exact s.channels x.1 x.2 e (List.mem_cons_of_mem _ (List.mem_of_find?_eq_some he)) sl m h hm
    cases j
    · exact k2
    · exact k2.trans (note_kept _ k2.kept.sound)

theorem sourceEnds_kept (b : BridgeNo) (s : CncSound f0 w.cnc) : KeptCalls f0 w (sourceEnds b w) := by
  have : ∀ (xs : List (PositionNo × ChannelNo)) (acc : Ending), CncSound f0 acc.work.cnc →
      KeptCalls f0 acc.work (xs.foldl (endChannel b true) acc).work := fun xs => by
    induction xs with
    | nil => exact fun _ h => .refl h
    | cons x xs ih =>
      intro acc h
      have k := endChannel_kept b true acc x h
      exact k.trans (ih _ k.kept.sound)
  rw [sourceEnds, endAnnouncements]
  generalize allChannels = xs
  exact this xs { work := w, count := 0, mask := 0 } s

end Sys2Proof.Machine
end

