-- ==== Sys2Proof/Laws/CallMoves.lean ====
section
/-! SUPPORT. A handset's calls changed one after another: what each re-evaluation does to lines, handset members and SPEAKER
members (R12), and what becomes of them when a handset moves to a bridge (R86). -/

namespace Sys2Proof.Machine
variable {f0 : Floor} {w w' w'' : Work}

/-! ### One re-evaluation -/

theorem lineMembership_floor (l : LineNo) (w : Work) :
    let n := handsetCounts w.cnc (lineBridge l)
    (lineMembership l w).floor =
      { w.floor with lsv := w.floor.lsv.set l (lineAfter (w.line l) n.1 n.2) } := by
  simp only [lineMembership, lineAfter_eq]; simp

/-- A step that leaves CNC, the gains and the lines' configurations. -/
theorem kept_of_cfg (hc : w'.floor.cnc = w.floor.cnc) (hg : w'.floor.mxe.channelGains = w.floor.mxe.channelGains)
    (hl : ∀ l, (w'.floor.lsv.get l).cfg = (w.floor.lsv.get l).cfg) (s : CncSound f0 w.cnc) : Kept f0 w w' where
  sound := by rw [show w'.cnc = _ from hc]; exact s
  cut := fun l => LineStands.cutHolds ⟨hl l, by rw [hc], fun sl m p c hs => by simpa only [SpeakerOn, hc] using hs⟩
  speakers := ⟨fun sl n p c hn _ => ⟨n, by rwa [← hc], rfl, Or.inl rfl⟩,
    fun p c => Or.inl (by simp only [Floor.gain, hg]), fun sl m p c hm _ _ => ⟨m, by rwa [hc], rfl⟩⟩
  free := fun sl e => by rw [show w'.cnc = _ from hc]; exact e

theorem putLine_kept {l : LineNo} {r : LineRec} (hr : r.cfg = (w.line l).cfg) (s : CncSound f0 w.cnc) :
    Kept f0 w (w.putLine l r) := by
  refine kept_of_cfg (by simp) (by simp) (fun k => ?_) s
  simp only [Work.putLine_floor, Table.get_set]
  split
  · next e => subst e; exact hr
  · rfl

theorem groupMembership_kept (g : GroupNo) (s : CncSound f0 w.cnc) : KeptCalls f0 w (groupMembership g w) := by
  unfold groupMembership; dsimp only
  split
  · exact .refl s
  · have same : ∀ r n, SameCalls w.floor ((w.putGroup g r).note n).floor := fun r n =>
      (putGroup_same w g r).trans (note_same _ n)
    have k : ∀ r n, KeptCalls f0 w ((w.putGroup g r).note n) := fun r n => (same r n).kept s
    split
    · have k1 := k { w.group g with state := groupStateOf (handsetMembers w.cnc (groupBridge g)).length }
        (.groupState g (w.group g).state (groupStateOf (handsetMembers w.cnc (groupBridge g)).length)
          (handsetMembers w.cnc (groupBridge g)).length)
      have k2 := (endIntercom_same g allPositions .abandoned _).kept k1.kept.sound
      exact (k1.trans k2).trans (sourceEnds_kept _ k2.kept.sound)
    · exact k _ _

/-- A re-evaluation after a change of one handset's member (R12). -/
theorem reevalHandset_kept (hold : Bool) {br : BridgeNo} (h : MemberChanged f0 br w w') :
    Kept f0 w (reevalHandset hold br w') ∧ (∀ l, br = lineBridge l → CutHolds (reevalHandset hold br w').floor l) ∧
    ∀ b, handsetMembers (reevalHandset hold br w').cnc b = handsetMembers w'.cnc b := by
  have off : (∀ l, br ≠ lineBridge l) → Kept f0 w w' := fun hb =>
    ⟨h.sound, fun l hl => (h.lineStands (hb l).symm).cutHolds hl, h.speakers, h.free⟩
  unfold reevalHandset
  split
  · next l e =>
    have hb := eq_lineBridge e
    subst hb
    have k := h.reevalCut
    simp only [reevalCut, bridgeKind_line] at k
    have one : ∀ j, lineBridge l = lineBridge j → CutHolds (cutStep l w').floor j := fun j e => by
      rw [← lineBridge_inj e]; exact cutStep_cutHolds l w'
    split
    · exact ⟨k, one, cutStep_handsetMembers l w'⟩
    · have m : Kept f0 (cutStep l w') (lineMembership l (cutStep l w')) := putLine_kept rfl k.sound
      refine ⟨k.trans m, fun j e => m.cut j (one j e), (reevalLine_does l w').2.2.2⟩
  · next g e =>
    have hb := eq_groupBridge e
    subst hb
    have no : ∀ l, groupBridge g ≠ lineBridge l := fun l e2 => by rw [e2, bridgeKind_line] at e; cases e
    have k := groupMembership_kept g h.sound
    exact ⟨(off no).trans k.kept, fun l e => absurd e (no l), k.calls⟩
  · next j e =>
    have no : ∀ l, br ≠ lineBridge l := fun l e2 => by rw [e2, bridgeKind_line] at e; cases e
    exact ⟨off no, fun l e => absurd e (no l), fun _ => rfl⟩

theorem reevalHandset_lsv (hold : Bool) (br : BridgeNo) (w : Work) (l : LineNo) :
    (reevalHandset hold br w).floor.lsv.get l =
      if br = lineBridge l ∧ hold = false then
        lineAfter (w.floor.lsv.get l) (handsetCounts w.cnc br).1 (handsetCounts w.cnc br).2
      else w.floor.lsv.get l := by
  unfold reevalHandset
  split
  · next k e =>
    have hb := eq_lineBridge e
    subst hb
    cases hold
    · simp only [Bool.false_eq_true, if_false, and_true, (reevalLine_does k w).2.2.1]
      by_cases e2 : k = l
      · subst e2; simp [Work.line]
      · rw [Table.get_set_ne _ _ e2, if_neg fun e3 => e2 (lineBridge_inj e3)]
    · simp [(cutStep_does k w).1.lsv]
  · next g e => rw [groupMembership_lsv, if_neg]; rintro ⟨rfl, -⟩; rw [bridgeKind_line] at e; cases e
  · next g e => rw [if_neg]; rintro ⟨rfl, -⟩; rw [bridgeKind_line] at e; cases e

/-- One change of a handset's member with its re-evaluation, from `w` to `w'`. -/
structure CallStep (f0 : Floor) (br : BridgeNo) (w w' : Work) : Prop where
  kept : Kept f0 w w'
  cut : ∀ l, br = lineBridge l → CutHolds w'.floor l
  lsv : ∀ l, w'.floor.lsv.get l = if br = lineBridge l then
      lineAfter (w.floor.lsv.get l) (handsetCounts w'.cnc br).1 (handsetCounts w'.cnc br).2
    else w.floor.lsv.get l

theorem reevalHandset_step {br : BridgeNo} (h : MemberChanged f0 br w w') : CallStep f0 br w (reevalHandset false br w') := by
  obtain ⟨k1, k2, k3⟩ := reevalHandset_kept false h
  refine ⟨k1, k2, fun l => ?_⟩
  rw [reevalHandset_lsv, h.lsv]
  simp only [handsetCounts, k3, and_true]

/-- A step before that leaves the calls. -/
theorem CallStep.before {br : BridgeNo} (h : CallStep f0 br w' w'') (k : KeptCalls f0 w w') : CallStep f0 br w w'' :=
  ⟨k.kept.trans h.kept, h.cut, by rw [← k.lsv]; exact h.lsv⟩

/-- A step after that leaves the calls. -/
theorem CallStep.after {br : BridgeNo} (h : CallStep f0 br w w') (k : KeptCalls f0 w' w'') : CallStep f0 br w w'' where
  kept := h.kept.trans k.kept
  cut := fun l e => k.kept.cut l (h.cut l e)
  lsv := fun l => by
    rw [k.lsv, h.lsv]
    simp only [handsetCounts, k.calls]

theorem setHandsetMode_step {sl : SlotNo} {m : Member} {h : HandsetNo} (s : CncSound f0 w.cnc)
    (e : w.cnc.pool.get sl = some m) (hk : m.kind = .handset h) (mode : Mode) :
    CallStep f0 m.bridge w (setHandsetMode sl mode w) ∧
    ∀ b, handsetMembers (setHandsetMode sl mode w).cnc b = withMode sl mode (handsetMembers w.cnc b) := by
  have c := setMode_changed s e mode (fun p d hq => by rw [hk] at hq; cases hq)
  simp only [setHandsetMode, slotBridge, e, Option.map_some]
  exact ⟨reevalHandset_step c, fun b => ((reevalHandset_kept false c).2.2 b).trans ((setMode_call e hk mode).2 b)⟩

theorem removeHandsetMember_step {sl : SlotNo} {m : Member} {h : HandsetNo} (s : CncSound f0 w.cnc)
    (e : w.cnc.pool.get sl = some m) (hk : m.kind = .handset h) :
    CallStep f0 m.bridge w (removeHandsetMember false sl w) ∧
    ∀ b, handsetMembers (removeHandsetMember false sl w).cnc b = withoutSlot sl (handsetMembers w.cnc b) := by
  have c := remove_changed s e (fun p d hq => by rw [hk] at hq; cases hq)
  simp only [removeHandsetMember, slotBridge, e, Option.map_some]
  exact ⟨reevalHandset_step c, fun b => ((reevalHandset_kept false c).2.2 b).trans ((remove_call e hk).2 b)⟩

/-- A call released (R77, R89). -/
theorem releaseActive_step {h : HandsetNo} {sl : SlotNo} {m : Member} {br : BridgeNo} (s : CncSound f0 w.cnc)
    (ha : (w.handset h).active = some sl) (e : CallAt w.cnc br h sl m) (after : HandsetState) :
    CallStep f0 br w (releaseActive h after w) ∧
    ∀ b, handsetMembers (releaseActive h after w).cnc b = withoutSlot sl (handsetMembers w.cnc b) := by
  have same := putHandset_same w h { w.handset h with state := after, active := none }
  have k := same.kept s
  have e1 := e.pool
  rw [show w.cnc.pool = w.floor.cnc.pool from rfl, ← same.pool] at e1
  have r := removeHandsetMember_step k.kept.sound e1 e.kind
  simp only [releaseActive, ha]
  exact ⟨by rw [← e.bridge]; exact r.1.before k, fun b => by rw [r.2, k.calls]⟩

/-- A held call dropped (R82); with `hold` LSV keeps the line's state (R43). -/
theorem dropHeldEntry_kept (hold : Bool) {h : HandsetNo} {sl : SlotNo} {m : Member} {br : BridgeNo}
    (s : CncSound f0 w.cnc) (hs : ∃ e ∈ (w.handset h).stack, e.bridge = br) (hsl : handsetSlot w.cnc br h = some sl)
    (e : CallAt w.cnc br h sl m) (cause : Option DropCause) :
    let w' := dropHeldEntry hold h br cause w
    Kept f0 w w' ∧ (∀ l, br = lineBridge l → CutHolds w'.floor l) ∧
    (∀ b, handsetMembers w'.cnc b = withoutSlot sl (handsetMembers w.cnc b)) ∧
    ∀ l, w'.floor.lsv.get l = if br = lineBridge l ∧ hold = false then
        lineAfter (w.floor.lsv.get l) (handsetCounts w'.cnc br).1 (handsetCounts w'.cnc br).2
      else w.floor.lsv.get l := by
  intro w'
  obtain ⟨w2, recalled, same, -, e2⟩ := dropHeldEntry_shape hs hold cause
  have k := same.kept s
  have e3 : handsetSlot w2.cnc br h = some sl := by
    rw [← hsl]; simp only [handsetSlot, show handsetMembers w2.cnc br = _ from k.calls br]
  have e4 := e.pool
  rw [show w.cnc.pool = w.floor.cnc.pool from rfl, ← same.pool] at e4
  have c := remove_changed k.kept.sound e4 (fun p d hq => by rw [e.kind] at hq; cases hq)
  rw [e.bridge] at c
  obtain ⟨r1, r2, r3⟩ := reevalHandset_kept hold c
  have e5 : w' = clearRecall h br recalled (reevalHandset hold br (w2.remove sl)) := by
    simp only [w', e2, e3, removeHandsetMember, slotBridge, show w2.cnc.pool.get sl = some m from e4, Option.map_some,
      e.bridge]
  have last := (clearRecall_same h br recalled (reevalHandset hold br (w2.remove sl))).kept r1.sound
  rw [← e5] at last
  have calls : ∀ b, handsetMembers w'.cnc b = handsetMembers (w2.remove sl).cnc b := fun b => (last.calls b).trans (r3 b)
  refine ⟨(k.kept.trans r1).trans last.kept, fun l el => last.kept.cut l (r2 l el), fun b => ?_, fun l => ?_⟩
  · rw [calls, (remove_call e4 e.kind).2, k.calls]
  · rw [last.lsv, reevalHandset_lsv, c.lsv, k.lsv]
    simp only [handsetCounts, calls]

/-! ### Exactly which SPEAKER members change -/

/-- The SPEAKER members after re-evaluations of these lines, exactly. -/
structure CutsOn (on : LineNo → Prop) (f g : Floor) : Prop where
  follows : ∀ l, on l → CutFollows l f g
  beside : SpeakersBeside on f g
  stays : ∀ sl m p c, f.cnc.pool.get sl = some m → m.kind = .speaker p c →
    ∃ n, g.cnc.pool.get sl = some n ∧ n = { m with mode := n.mode }
  came : ∀ sl n p c, g.cnc.pool.get sl = some n → n.kind = .speaker p c →
    ∃ m, f.cnc.pool.get sl = some m ∧ n = { m with mode := n.mode }
  gains : ∀ p c, g.gain p c = f.gain p c ∨ g.gain p c = 0

theorem CutsOn.congr {on on' : LineNo → Prop} {f g : Floor} (h : CutsOn on f g) (e : ∀ l, on l ↔ on' l) :
    CutsOn on' f g := by rwa [← show on = on' from funext fun l => propext (e l)]

theorem SpeakersStand.cutsOn {f g : Floor} {l : LineNo} (h : SpeakersStand l f g) : CutsOn (fun _ => False) f g where
  follows := fun _ e => e.elim
  beside := ⟨fun sl m p c hm hk _ => (h.pool sl m p c hk).2 hm, fun p c _ => by simp only [Floor.gain, h.gains]⟩
  stays := fun sl m p c hm hk => ⟨m, (h.pool sl m p c hk).2 hm, rfl⟩
  came := fun sl n p c hn hk => ⟨n, (h.pool sl n p c hk).1 hn, rfl⟩
  gains := fun p c => Or.inl (by simp only [Floor.gain, h.gains])

/-- One re-evaluation after another, of other lines. -/
theorem CutsOn.trans {on on' : LineNo → Prop} {f g k : Floor} (h : CutsOn on f g) (i : CutsOn on' g k)
    (sf : PoolSound f.cnc) (sg : PoolSound g.cnc) (apart : ∀ l, on l → ¬ on' l)
    (cfg : ∀ l, on l → (k.lsv.get l).cfg = (g.lsv.get l).cfg)
    (calls : ∀ l, on l → handsetMembers k.cnc (lineBridge l) = handsetMembers g.cnc (lineBridge l)) :
    CutsOn (fun l => on l ∨ on' l) f k := by
  have bridge : ∀ {c : Cnc}, PoolSound c → ∀ {l sl m}, (sl, m) ∈ membersOf c (lineBridge l) → m.bridge = lineBridge l :=
    fun s l sl m hm => by
      obtain ⟨n, hn, hb⟩ := s.own _ sl (mem_membersOf.1 hm).1
      rw [(mem_membersOf.1 hm).2] at hn; cases hn; exact hb
  have listed : ∀ {c : Cnc}, PoolSound c → ∀ {l sl m}, c.pool.get sl = some m → m.bridge = lineBridge l →
      (sl, m) ∈ membersOf c (lineBridge l) := fun s l sl m hm hb =>
    mem_membersOf.2 ⟨by rw [← hb]; exact s.listed sl m hm, hm⟩
  -- a member on a line of `on` stands through the second step
  have first : ∀ l sl m p c, on l → SpeakerOn f l sl m p c → ∀ n, g.cnc.pool.get sl = some n →
      n = { m with mode := n.mode } → k.cnc.pool.get sl = some n := fun l sl m p c hl hs n hn e => by
    refine i.beside.members sl n p c hn (by rw [e]; exact hs.2) fun j hj hs2 => ?_
    have h1 := bridge sg hs2.1
    have h2 := bridge sf hs.1
    rw [e] at h1
    exact apart l hl (by rw [lineBridge_inj (h2.symm.trans h1)]; exact hj)
  have second : ∀ l sl m p c, on' l → (SpeakerOn f l sl m p c ↔ SpeakerOn g l sl m p c) := fun l sl m p c hl => by
    constructor <;> intro hs
    · have hb := bridge sf hs.1
      refine ⟨listed sg (h.beside.members sl m p c (mem_membersOf.1 hs.1).2 hs.2 fun j hj hs2 => ?_) hb, hs.2⟩
      exact apart j hj (by rw [lineBridge_inj ((bridge sf hs2.1).symm.trans hb)]; exact hl)
    · have hb := bridge sg hs.1
      have hm := (mem_membersOf.1 hs.1).2
      obtain ⟨m0, hm0, e⟩ := h.came sl m p c hm hs.2
      have hb0 : m0.bridge = lineBridge l := by rw [e] at hb; exact hb
      have hk0 : m0.kind = .speaker p c := by have := hs.2; rw [e] at this; exact this
      have := h.beside.members sl m0 p c hm0 hk0 fun j hj hs2 =>
        apart j hj (by rw [lineBridge_inj ((bridge sf hs2.1).symm.trans hb0)]; exact hl)
      rw [hm] at this; cases this
      exact ⟨listed sf hm0 hb0, hs.2⟩
  have zero : ∀ p c, g.gain p c = 0 → k.gain p c = 0 := fun p c e => by
    rcases i.gains p c with z | z
    · rw [z, e]
    · exact z
  refine ⟨fun l hl => ?_, ⟨fun sl m p c hm hk hs => ?_, fun p c hp => ?_⟩, fun sl m p c hm hk => ?_,
    fun sl n p c hn hk => ?_, fun p c => ?_⟩
  · rcases hl with hl | hl
    · have heldBy : ∀ q, HeldBy k l q → HeldBy g l q := fun q hq => by
        simpa only [HeldBy, cfg l hl, calls l hl] using hq
      have notHeld : NotHeld k l → NotHeld g l := fun hq => by simpa only [NotHeld, cfg l hl, calls l hl] using hq
      refine ⟨fun q hq sl m p c hs => ?_, fun hq sl m p c hs => ?_⟩
      · obtain ⟨e1, e2⟩ := (h.follows l hl).held q (heldBy q hq) sl m p c hs
        exact ⟨first l sl m p c hl hs _ e1 rfl, fun a b => zero p c (e2 a b)⟩
      · obtain ⟨e1, e2⟩ := (h.follows l hl).undone (notHeld hq) sl m p c hs
        exact ⟨first l sl m p c hl hs _ e1 rfl, fun a => zero p c (e2 a)⟩
    · exact ⟨fun q hq sl m p c hs => (i.follows l hl).held q hq sl m p c ((second l sl m p c hl).1 hs),
        fun hq sl m p c hs => (i.follows l hl).undone hq sl m p c ((second l sl m p c hl).1 hs)⟩
  · refine i.beside.members sl m p c (h.beside.members sl m p c hm hk fun l hl => hs l (Or.inl hl)) hk fun l hl hs2 => ?_
    exact hs l (Or.inr hl) ((second l sl m p c hl).2 hs2)
  · rw [i.beside.gains p c fun l sl m hl hs => hp l sl m (Or.inr hl) ((second l sl m p c hl).2 hs)]
    refine h.beside.gains p c fun l sl m hl hs => ?_
    obtain ⟨n, hn, e⟩ := h.stays sl m p c (mem_membersOf.1 hs.1).2 hs.2
    have := first l sl m p c hl hs n hn e
    rw [hp l sl m (Or.inl hl) hs] at this
    rw [hn]; exact this.symm
  · obtain ⟨n, hn, e⟩ := h.stays sl m p c hm hk
    obtain ⟨n2, hn2, e2⟩ := i.stays sl n p c hn (by rw [e]; exact hk)
    exact ⟨n2, hn2, by rw [e2, e]⟩
  · obtain ⟨m, hm, e⟩ := i.came sl n p c hn hk
    obtain ⟨m2, hm2, e2⟩ := h.came sl m p c hm (by rw [e] at hk; exact hk)
    exact ⟨m2, hm2, by rw [e, e2]⟩
  · rcases i.gains p c with z | z
    · rw [z]; exact h.gains p c
    · exact Or.inr z

/-- A step that leaves the calls, the lines and the gains. -/
theorem CutsOn.after {on : LineNo → Prop} {f g k : Floor} (h : CutsOn on f g) (s : SameCalls g k) : CutsOn on f k where
  follows := fun l hl =>
    { held := by simp only [s.heldBy, s.pool, Floor.gain, s.gains]; exact (h.follows l hl).held
      undone := by simp only [s.notHeld, s.pool, Floor.gain, s.gains]; exact (h.follows l hl).undone }
  beside :=
    { members := by simp only [s.pool]; exact h.beside.members
      gains := by simp only [s.pool, Floor.gain, s.gains]; exact h.beside.gains }
  stays := by simp only [s.pool]; exact h.stays
  came := by simp only [s.pool]; exact h.came
  gains := by simp only [Floor.gain, s.gains]; exact h.gains

/-- A group with a handset member keeps its announcements (R101). -/
theorem groupMembership_same {g : GroupNo} (h : handsetMembers w.cnc (groupBridge g) ≠ []) :
    SameCalls w.floor (groupMembership g w).floor := by
  have n0 : (handsetMembers w.cnc (groupBridge g)).length ≠ 0 := fun e => h (List.length_eq_zero_iff.1 e)
  unfold groupMembership; dsimp only
  split
  · exact .refl _
  · rw [if_neg]
    · exact (putGroup_same w g _).trans (note_same _ _)
    · unfold groupStateOf; rw [if_neg n0]; split <;> simp

/-- A re-evaluation after a step that left the SPEAKER members, of a bridge that keeps a handset member if it is a group's. -/
structure CutsStep (f0 : Floor) (br : BridgeNo) (f g : Floor) : Prop where
  saved : ∀ p d, ((f0.cnc.channels.get p).get d).stack = [] → ((g.cnc.channels.get p).get d).stack = []
  keeps : ∀ l, CutHolds f l → CutHolds g l
  speakers : Follow f0 f g
  cut : ∀ l, br = lineBridge l → CutHolds g l
  lsv : ∀ l, g.lsv.get l = if br = lineBridge l then
      lineAfter (f.lsv.get l) (handsetCounts g.cnc br).1 (handsetCounts g.cnc br).2
    else f.lsv.get l

theorem CallStep.cuts {br : BridgeNo} (h : CallStep f0 br w w') : CutsStep f0 br w.floor w'.floor :=
  ⟨h.kept.sound.saved, h.kept.cut, h.kept.speakers, h.cut, h.lsv⟩

theorem SpeakersStand.follow {f g : Floor} {l : LineNo} (f0 : Floor) (h : SpeakersStand l f g) : Follow f0 f g :=
  ⟨fun sl n p c hn hk => ⟨n, (h.pool sl n p c hk).1 hn, rfl, Or.inl rfl⟩,
    fun p c => Or.inl (by simp only [Floor.gain, h.gains]),
    fun sl m p c hm hk _ => ⟨m, (h.pool sl m p c hk).2 hm, rfl⟩⟩

theorem reevalHandset_stand {br : BridgeNo} {f : Floor} (stand : ∀ l, SpeakersStand l f w.floor)
    (calls : ∀ b, b ≠ br → handsetMembers w.cnc b = handsetMembers f.cnc b)
    (nonempty : ∀ g, br = groupBridge g → handsetMembers w.cnc br ≠ []) (pool : PoolSound w.cnc)
    (saved : ∀ p d, ((f0.cnc.channels.get p).get d).stack = [] → ((w.cnc.channels.get p).get d).stack = []) :
    let w' := reevalHandset false br w
    CutsStep f0 br f w'.floor ∧ CutsOn (fun l => lineBridge l = br) f w'.floor ∧
    (∀ b, handsetMembers w'.cnc b = handsetMembers w.cnc b) ∧
    ∀ sl m h, m.kind = .handset h → (w'.cnc.pool.get sl = some m ↔ w.cnc.pool.get sl = some m) := by
  intro w'
  have keeps : ∀ l, lineBridge l ≠ br → CutHolds f l → CutHolds w.floor l := fun l hl hc => by
    have st := stand l
    exact LineStands.cutHolds ⟨by rw [st.lsv], calls _ hl, fun sl m p c hs => (st.speakers sl m p c).1 hs⟩ hc
  have lsv : ∀ l, w'.floor.lsv.get l = if br = lineBridge l then
      lineAfter (f.lsv.get l) (handsetCounts w.cnc br).1 (handsetCounts w.cnc br).2 else f.lsv.get l := fun l => by
    rw [show w' = reevalHandset false br w from rfl, reevalHandset_lsv, (stand l).lsv]; simp
  have same : SameCalls w.floor w'.floor → (∀ l, br ≠ lineBridge l) → CutsStep f0 br f w'.floor ∧
      CutsOn (fun l => lineBridge l = br) f w'.floor ∧ (∀ b, handsetMembers w'.cnc b = handsetMembers w.cnc b) ∧
      ∀ sl m h, m.kind = .handset h → (w'.cnc.pool.get sl = some m ↔ w.cnc.pool.get sl = some m) := fun s no => by
    have st := (stand 0).trans (s.stand 0)
    refine ⟨⟨by rw [s.channels]; exact saved, fun l hc => (s.lineStands l).cutHolds (keeps l (no l).symm hc),
      st.follow f0, fun l e => absurd e (no l), fun l => by rw [lsv, if_neg (no l), if_neg (no l)]⟩,
      st.cutsOn.congr fun l => ⟨False.elim, fun e => no l e.symm⟩, s.handsetMembers, fun sl m h _ => by
        rw [show w'.cnc.pool = _ from s.pool]⟩
  cases e : bridgeKind br with
  | line l =>
    have hb := eq_lineBridge e
    subst hb
    have ew : w' = lineMembership l (cutStep l w) := by simp [w', reevalHandset, bridgeKind_line]
    obtain ⟨d1, d2, d3⟩ := cutStep_does l w
    obtain ⟨r1, r2, r3, r4⟩ := reevalLine_does l w
    rw [← ew] at r1 r2 r3 r4
    have c := callChanged_of_stand (stand l)
    rw [← ew] at c
    have cuts : ∀ k, CutHolds (cutStep l w).floor k → CutHolds w'.floor k := fun k hc => by
      refine LineStands.cutHolds ⟨?_, ?_, fun sl m p d hs => by simpa only [SpeakerOn, r1] using hs⟩ hc
      · rw [r3, d1.lsv, Table.get_set]; split
        · next e2 => subst e2; rfl
        · rfl
      · rw [show w'.floor.cnc = _ from r1]
    have fol : Follow f0 f w'.floor := by
      have h1 := ((stand l).follow f0).trans (cutStep_follow f0 l w)
      exact ⟨by simp only [r1, Floor.gain, r2]; exact h1.modes, by simp only [Floor.gain, r2]; exact h1.gains,
        by rw [show w'.floor.cnc = _ from r1]; exact h1.left⟩
    have pool2 : ∀ sl n, w'.cnc.pool.get sl = some n → ∃ m, w.cnc.pool.get sl = some m ∧ n = { m with mode := n.mode } :=
      fun sl n hn => by
        rw [show w'.cnc = _ from r1] at hn
        obtain ⟨m, hm, e | ⟨-, e⟩⟩ := cutStep_pool l w hn
        · exact ⟨m, hm, by rw [e]⟩
        · exact ⟨m, hm, by rw [e]; exact cutMember_eq_mode _ _⟩
    refine ⟨⟨?_, fun k hc => ?_, fol, fun k e => ?_, fun k => ?_⟩, ⟨fun k hk => ?_, ?_, fun sl m p d hm hk => ?_,
      fun sl n p d hn hk => ?_, fol.gains⟩, r4, fun sl m h hk => ?_⟩
    · rw [show w'.floor.cnc = _ from r1, d1.channels]; exact saved
    · by_cases e2 : k = l
      · subst e2; exact cuts _ (cutStep_cutHolds _ w)
      · exact cuts k ((cutStep_other e2 w pool).cutHolds (keeps k (fun e3 => e2 (lineBridge_inj e3)) hc))
    · rw [← lineBridge_inj e]; exact cuts _ (cutStep_cutHolds _ w)
    · rw [lsv]; simp only [handsetCounts, show handsetMembers w'.floor.cnc _ = _ from r4 _]
    · rw [lineBridge_inj hk]; exact c.cut
    · rw [show (fun k => lineBridge k = lineBridge l) = fun k => k = l from
        funext fun k => propext ⟨lineBridge_inj, fun e => by rw [e]⟩]
      exact c.beside
    · have hm2 := ((stand l).pool sl m p d hk).2 hm
      rw [show w'.floor.cnc = _ from r1, d2]
      split
      · exact ⟨_, by rw [show w.cnc.pool.get sl = some m from hm2]; rfl, cutMember_eq_mode _ _⟩
      · exact ⟨m, hm2, rfl⟩
    · obtain ⟨m, hm, e⟩ := pool2 sl n hn
      exact ⟨m, ((stand l).pool sl m p d (by rw [e] at hk; exact hk)).1 hm, e⟩
    · rw [show w'.cnc = _ from r1, d2]
      split
      · cases e3 : w.cnc.pool.get sl with
        | none => simp
        | some n =>
          have : ∀ x : Member, x.kind = .handset h → cutMember (holdingPosition w.floor l) x = x := fun x hx =>
            cutMember_of_handset _ (h := h) (by simp [Member.handset?, hx])
          simp only [Option.map_some, Option.some.injEq]
          constructor
          · intro e4
            rw [← e4, cutMember_kind] at hk
            rw [← e4, this n hk]
          · intro e4; rw [e4, this m hk]
      · rfl
  | group g =>
    have hb := eq_groupBridge e
    subst hb
    refine same ?_ fun l e2 => by rw [e2, bridgeKind_line] at e; cases e
    have := groupMembership_same (nonempty g rfl)
    simpa [w', reevalHandset, bridgeKind_group] using this
  | hoot k =>
    refine same ?_ fun l e2 => by rw [e2, bridgeKind_line] at e; cases e
    simp only [w', reevalHandset, e]; exact .refl _

/-! ### A handset leaves its call, and takes another (R86) -/

theorem handsetMembers_bridge {c : Cnc} (s : PoolSound c) {b : BridgeNo} {x : Call} (h : x ∈ handsetMembers c b) :
    ∃ m, c.pool.get x.1 = some m ∧ m.kind = .handset x.2.1 ∧ m.mode = x.2.2 ∧ m.bridge = b := by
  obtain ⟨sl, k, mode⟩ := x
  obtain ⟨hl, m, hm, hk, e⟩ := mem_handsetMembers.1 h
  obtain ⟨n, hn, hb⟩ := s.own b sl hl
  rw [hm] at hn; cases hn
  exact ⟨m, hm, hk, e, hb⟩

theorem withMode_other {sl : SlotNo} {mode : Mode} {calls : List Call} (h : ∀ x ∈ calls, x.1 ≠ sl) :
    withMode sl mode calls = calls := by
  unfold withMode
  conv_rhs => rw [← List.map_id calls]
  exact List.map_congr_left fun x hx => by simp [h x hx]

theorem withoutSlot_other {sl : SlotNo} {calls : List Call} (h : ∀ x ∈ calls, x.1 ≠ sl) :
    withoutSlot sl calls = calls := List.filter_eq_self.2 fun x hx => by simp [h x hx]

/-- The handset members of each bridge after a handset has left its call: HELD with auto-hold, else gone. -/
def callsLeft (f : Floor) (h : HandsetNo) (x : BridgeNo) : List Call :=
  let calls := handsetMembers f.cnc x
  if activeBridge f.cnc h = some x then
    if (f.cnc.settings.get (handsetPosition h)).autoHold then
      calls.map (fun y => if some y.1 = (f.cnc.handsets.get h).active then (y.1, y.2.1, .held) else y)
    else calls.filter (fun y => some y.1 ≠ (f.cnc.handsets.get h).active)
  else calls

/-- A handset has left the call it had, if it had one. -/
structure CallLeft (f0 : Floor) (h : HandsetNo) (w d : Work) (out : Displaced) : Prop where
  sound : CncSound f0 d.cnc
  keeps : ∀ l, CutHolds w.floor l → CutHolds d.floor l
  speakers : Follow f0 w.floor d.floor
  free : ∀ sl, w.cnc.pool.get sl = none → d.cnc.pool.get sl = none
  cut : ∀ l, activeBridge w.cnc h = some (lineBridge l) → CutHolds d.floor l
  lsv : ∀ l, d.floor.lsv.get l = if activeBridge w.cnc h = some (lineBridge l) then
      lineAfter (w.floor.lsv.get l) (handsetCounts d.cnc (lineBridge l)).1 (handsetCounts d.cnc (lineBridge l)).2
    else w.floor.lsv.get l
  calls : ∀ x, handsetMembers d.cnc x = callsLeft w.floor h x
  stack : (d.handset h).stack = match activeBridge w.cnc h with
    | none => (w.handset h).stack
    | some x => if (w.settings (handsetPosition h)).autoHold then
        { bridge := x, holdFrame := w.frame, recalled := false } :: (w.handset h).stack else (w.handset h).stack
  displaced : out = match activeBridge w.cnc h with
    | none => .none
    | some x => if (w.settings (handsetPosition h)).autoHold then .held x else .released x
  exactly : (∀ k, out ≠ .released (groupBridge k)) →
    CutsOn (fun l => activeBridge w.cnc h = some (lineBridge l)) w.floor d.floor

theorem displace_left {h : HandsetNo} (s : CncSound f0 w.cnc) (own : OwnActive w.cnc h) :
    CallLeft f0 h w (displace h w).1 (displace h w).2 := by
  cases hx : activeBridge w.cnc h with
  | none =>
    have e : displace h w = (w, .none) := by simp [displace, hx]
    rw [e]
    have st := (SameCalls.refl w.floor).stand 0
    refine ⟨s, fun _ h => h, .refl _ _, fun _ h => h, fun l e => ?_, fun l => by simp [hx], fun x => ?_, by simp [hx], by simp [hx],
      fun _ => st.cutsOn.congr fun l => by simp [hx]⟩
    · rw [hx] at e; cases e
    · simp [callsLeft, show activeBridge w.floor.cnc h = none from hx, Work.cnc]
  | some x =>
    obtain ⟨old, ha, hb⟩ := Option.bind_eq_some_iff.1 hx
    obtain ⟨m, hm, hk⟩ := own old ha
    have hmb : m.bridge = x := by simpa [slotBridge, hm] using hb
    subst hmb
    have off : ∀ x, x ≠ m.bridge → ∀ y ∈ handsetMembers w.cnc x, y.1 ≠ old := fun x hx y hy e => by
      obtain ⟨n, hn, -, -, hnb⟩ := handsetMembers_bridge s.pool hy
      rw [e, hm] at hn; cases hn; exact hx hnb.symm
    have listed : old ∈ (w.cnc.bridges.get m.bridge).members := s.pool.listed old m hm
    cases auto : (w.settings (handsetPosition h)).autoHold
    · -- released
      have e : displace h w = (releaseActive h .idle w, .released m.bridge) := by simp [displace, hx, auto]
      have e1 : releaseActive h .idle w =
          removeHandsetMember false old (w.putHandset h { w.handset h with state := .idle, active := none }) := by
        simp [releaseActive, show (w.handset h).active = some old from ha]
      rw [e, e1]
      generalize hw1 : w.putHandset h { w.handset h with state := .idle, active := none } = w1
      have same : SameCalls w.floor w1.floor := by rw [← hw1]; exact putHandset_same _ _ _
      have k := same.kept s
      have hm1 : w1.cnc.pool.get old = some m := by rw [show w1.cnc.pool = _ from same.pool]; exact hm
      obtain ⟨st, calls⟩ := removeHandsetMember_step k.kept.sound hm1 hk
      have stack : ((removeHandsetMember false old w1).handset h).stack = (w.handset h).stack := by
        have := (removeHandsetMember_moves (a := false) (b := false) false old w1).handsets
        rw [show (removeHandsetMember false old w1).handset h = w1.handset h by simp only [Work.handset, this], ← hw1]
        simp [Work.handset, Work.cnc]
      generalize hd : removeHandsetMember false old w1 = d at st calls stack ⊢
      have st := st.before k
      refine ⟨st.kept.sound, st.kept.cut, st.kept.speakers, st.kept.free,
        fun l e => st.cut l (by rw [hx] at e; exact Option.some.inj e), fun l => ?_, fun x => ?_, by rw [hx]; simpa [auto] using stack, by simp [hx, auto], fun no => ?_⟩
      · rw [st.lsv l, hx]
        by_cases e : m.bridge = lineBridge l
        · rw [if_pos e, if_pos (by rw [e]), e]
        · rw [if_neg e, if_neg (fun e2 => e (Option.some.inj e2))]
      · rw [calls, k.calls, callsLeft]
        simp only [show activeBridge w.floor.cnc h = some m.bridge from hx, Option.some.injEq,
          show (w.floor.cnc.settings.get (handsetPosition h)).autoHold = false from auto,
          show (w.floor.cnc.handsets.get h).active = some old from ha, Bool.false_eq_true, if_false]
        split
        · simp [withoutSlot, Work.cnc]
        · next e => exact withoutSlot_other (off x (Ne.symm e))
      · have step := reevalHandset_stand (f0 := f0) (br := m.bridge) (f := w.floor) (w := w1.remove old)
          (fun l => (same.stand l).trans ((remove_call hm1 hk).1 l))
          (fun b hb => by
            rw [(remove_call hm1 hk).2, k.calls]; exact withoutSlot_other (off b hb))
          (fun g e => absurd (by rw [e]) (no g))
          ((remove_moves (a := true) (b := true) w1 old).poolSound k.kept.sound.pool)
          (by
            rw [show (w1.remove old).cnc = _ from congrArg Floor.cnc (remove_some hm1)]
            exact k.kept.sound.saved)
        have e3 : d = reevalHandset false m.bridge (w1.remove old) := by
          rw [← hd]; simp [removeHandsetMember, slotBridge, hm1]
        rw [e3]
        exact step.2.1.congr fun l => ⟨fun e => by rw [hx, e], fun e => by rw [hx] at e; exact (Option.some.inj e).symm⟩
    · -- held
      have e : displace h w = (holdActive h .idle w, .held m.bridge) := by simp [displace, hx, auto]
      have e1 : holdActive h .idle w =
          setHandsetMode old .held (pushHeld h m.bridge (w.putHandset h { w.handset h with state := .idle, active := none })) := by
        simp [holdActive, show (w.handset h).active = some old from ha, hx]
      rw [e, e1]
      generalize hw1 : pushHeld h m.bridge (w.putHandset h { w.handset h with state := .idle, active := none }) = w1
      have same : SameCalls w.floor w1.floor := by
        rw [← hw1]; exact (putHandset_same _ _ _).trans (putHandset_same _ _ _)
      have k := same.kept s
      have hm1 : w1.cnc.pool.get old = some m := by rw [show w1.cnc.pool = _ from same.pool]; exact hm
      obtain ⟨st, calls⟩ := setHandsetMode_step k.kept.sound hm1 hk .held
      have stack : ((setHandsetMode old .held w1).handset h).stack =
          { bridge := m.bridge, holdFrame := w.frame, recalled := false } :: (w.handset h).stack := by
        have := (setHandsetMode_moves (a := false) (b := false) old .held w1).handsets
        rw [show (setHandsetMode old .held w1).handset h = w1.handset h by simp only [Work.handset, this], ← hw1]
        simp [pushHeld, Work.cnc, Work.handset, Work.frame]
      generalize hd : setHandsetMode old .held w1 = d at st calls stack ⊢
      have st := st.before k
      refine ⟨st.kept.sound, st.kept.cut, st.kept.speakers, st.kept.free,
        fun l e => st.cut l (by rw [hx] at e; exact Option.some.inj e), fun l => ?_, fun x => ?_, by rw [hx]; simpa [auto] using stack, by simp [hx, auto], fun _ => ?_⟩
      · rw [st.lsv l, hx]
        by_cases e : m.bridge = lineBridge l
        · rw [if_pos e, if_pos (by rw [e]), e]
        · rw [if_neg e, if_neg (fun e2 => e (Option.some.inj e2))]
      · rw [calls, k.calls, callsLeft]
        simp only [show activeBridge w.floor.cnc h = some m.bridge from hx, Option.some.injEq,
          show (w.floor.cnc.settings.get (handsetPosition h)).autoHold = true from auto,
          show (w.floor.cnc.handsets.get h).active = some old from ha, if_true]
        split
        · simp [withMode, Work.cnc]
        · next e => exact withMode_other (off x (Ne.symm e))
      · have c := setMode_call hm1 hk .held
        have step := reevalHandset_stand (f0 := f0) (br := m.bridge) (f := w.floor) (w := w1.setMode old .held)
          (fun l => (same.stand l).trans (c.1 l))
          (fun b hb => by rw [c.2, k.calls]; exact withMode_other (off b hb))
          (fun g e => by
            rw [c.2, k.calls]
            have : (old, h, m.mode) ∈ handsetMembers w.cnc m.bridge := mem_handsetMembers.2 ⟨listed, m, hm, hk, rfl⟩
            intro e2
            have := List.mem_map_of_mem (f := fun x : Call => if x.1 = old then (x.1, x.2.1, Mode.held) else x) this
            rw [show List.map _ _ = _ from e2] at this; cases this)
          ((setMode_moves (a := true) (b := true) w1 old .held).poolSound k.kept.sound.pool)
          (by rw [(setMode_modesOnly w1 old .held).channels]; exact k.kept.sound.saved)
        have e3 : d = reevalHandset false m.bridge (w1.setMode old .held) := by
          rw [← hd]; simp [setHandsetMode, slotBridge, hm1]
        rw [e3]
        exact step.2.1.congr fun l => ⟨fun e => by rw [hx, e], fun e => by rw [hx] at e; exact (Option.some.inj e).symm⟩

/-- A handset has taken the slot `sl` of a bridge; `calls` are the handset members of the bridge with it. -/
structure CallTaken (f0 : Floor) (h : HandsetNo) (b : BridgeNo) (sl : SlotNo) (calls : List Call) (d g : Floor) : Prop where
  step : CutsStep f0 b d g
  exactly : CutsOn (fun l => lineBridge l = b) d g
  calls : ∀ x, handsetMembers g.cnc x = if x = b then calls else handsetMembers d.cnc x
  slot : ∃ m, g.cnc.pool.get sl = some m ∧ m.kind = .handset h ∧ m.bridge = b ∧ m.mode = .active
  handset : g.cnc.handsets.get h =
    { state := .connected, active := some sl, stack := (d.cnc.handsets.get h).stack }

theorem connect_same (h : HandsetNo) (sl : SlotNo) (w : Work) : SameCalls w.floor (connect h sl w).floor :=
  putHandset_same w h _

theorem CutsStep.after {br : BridgeNo} {f g k : Floor} (h : CutsStep f0 br f g) (s : SameCalls g k) :
    CutsStep f0 br f k where
  saved := by rw [s.channels]; exact h.saved
  keeps := fun l c => (s.lineStands l).cutHolds (h.keeps l c)
  speakers := h.speakers.trans ((s.stand 0).follow f0)
  cut := fun l e => (s.lineStands l).cutHolds (h.cut l e)
  lsv := fun l => by rw [s.lsv, h.lsv]; simp only [handsetCounts, s.handsetMembers]

theorem CallTaken.after {h : HandsetNo} {b : BridgeNo} {sl : SlotNo} {calls : List Call} {d g k : Floor}
    (t : CallTaken f0 h b sl calls d g) (s : SameCalls g k) (hs : k.cnc.handsets = g.cnc.handsets) :
    CallTaken f0 h b sl calls d k where
  step := t.step.after s
  exactly := t.exactly.after s
  calls := fun x => by rw [s.handsetMembers, t.calls]
  slot := by rw [s.pool]; exact t.slot
  handset := by rw [hs]; exact t.handset

theorem reviveMember_taken {h : HandsetNo} {b : BridgeNo} {sl : SlotNo} (s : CncSound f0 w.cnc)
    (hsl : handsetSlot w.cnc b h = some sl) :
    CallTaken f0 h b sl (withMode sl .active (handsetMembers w.cnc b)) w.floor (reviveMember h b w).floor := by
  obtain ⟨x, hx, ex⟩ := Option.map_eq_some_iff.1 hsl
  have mem := List.mem_of_find?_eq_some hx
  have hh : x.2.1 = h := by simpa using List.find?_some hx
  subst ex
  obtain ⟨m, hm, hk, hmode, hb⟩ := handsetMembers_bridge s.pool mem
  subst hb hh
  have c := setMode_call hm hk .active
  have off : ∀ y, y ≠ m.bridge → ∀ z ∈ handsetMembers w.cnc y, z.1 ≠ x.1 := fun y hy z hz e => by
    obtain ⟨n, hn, -, -, hnb⟩ := handsetMembers_bridge s.pool hz
    rw [e, hm] at hn; cases hn; exact hy hnb.symm
  obtain ⟨s1, s2, s3, s4⟩ := reevalHandset_stand (f0 := f0) (br := m.bridge) (f := w.floor) (w := w.setMode x.1 .active) c.1
    (fun y hy => by rw [c.2]; exact withMode_other (off y hy))
    (fun g e => by
      rw [c.2]
      intro e2
      have := List.mem_map_of_mem (f := fun y : Call => if y.1 = x.1 then (y.1, y.2.1, Mode.active) else y) mem
      rw [show List.map _ _ = _ from e2] at this; cases this)
    ((setMode_moves (a := true) (b := true) w x.1 .active).poolSound s.pool)
    (by rw [(setMode_modesOnly w x.1 .active).channels]; exact s.saved)
  have e3 : reviveMember x.2.1 m.bridge w = connect x.2.1 x.1 (reevalHandset false m.bridge (w.setMode x.1 .active)) := by
    simp [reviveMember, hsl, setHandsetMode, slotBridge, hm]
  rw [e3]
  have hs : (reevalHandset false m.bridge (w.setMode x.1 .active)).cnc.handsets = w.cnc.handsets :=
    Moves.handsets (b := false) ((setMode_moves w x.1 .active).trans (reevalHandset_moves _ _ _))
  generalize reevalHandset false m.bridge (w.setMode x.1 .active) = g at s1 s2 s3 s4 hs ⊢
  have same := connect_same x.2.1 x.1 g
  refine ⟨s1.after same, s2.after same, fun y => ?_, ?_, ?_⟩
  · rw [same.handsetMembers, show handsetMembers g.floor.cnc y = _ from s3 y, c.2]
    split
    · next e => rw [e]
    · next e => exact withMode_other (off y e)
  · rw [same.pool]
    exact ⟨{ m with mode := .active }, (s4 x.1 { m with mode := .active } x.2.1 hk).2 (by rw [setMode_pool hm, if_pos rfl]), hk, rfl, rfl⟩
  · simp only [connect, Work.handset, hs, Work.putHandset_floor]; simp [Work.cnc]

theorem answerBridge_handsets (b : BridgeNo) (w : Work) : (answerBridge b w).cnc.handsets = w.cnc.handsets :=
  (answerBridge_moves (a := false) (b := false) b w).handsets

theorem joinNew_taken {h : HandsetNo} {b : BridgeNo} (s : CncSound f0 w.cnc) (free : freeSlot w.cnc ≠ none) :
    ∃ sl, CallTaken f0 h b sl (handsetMembers w.cnc b ++ [(sl, h, .active)]) w.floor (joinNew h b w).floor := by
  obtain ⟨sl, hsl⟩ := Option.ne_none_iff_exists'.1 free
  generalize hm : ({ kind := .handset h, bridge := b, mode := .active, joinFrame := w.frame } : Member) = m
  obtain ⟨w1, hw1⟩ : ∃ w1, w1 = (w.setCnc (w.cnc.insert sl m)).handMember m := ⟨_, rfl⟩
  have hc : w.create (.handset h) b .active = some (w1, sl) := by unfold Work.create; rw [hsl, hw1, ← hm]
  have c := create_call s.pool hc
  have hcnc : w1.cnc = w.cnc.insert sl m := by rw [hw1]; simp only [Work.cnc, handMember_floor, Work.setCnc_floor]
  obtain ⟨s1, s2, s3, s4⟩ := reevalHandset_stand (f0 := f0) (br := b) (f := w.floor) (w := w1) c.1
    (fun y hy => by rw [c.2, if_neg hy]; simp [Work.cnc])
    (fun g e => by rw [c.2, if_pos rfl]; exact List.append_ne_nil_of_right_ne_nil _ (List.cons_ne_nil _ _))
    ((create_moves (a := true) (b := true) hc).poolSound s.pool)
    (by rw [hcnc]; exact s.saved)
  refine ⟨sl, ?_⟩
  have e3 : joinNew h b w = connect h sl (answerBridge b (reevalHandset false b w1)) := by
    unfold joinNew; rw [hc]
  rw [e3]
  have hs : (reevalHandset false b w1).cnc.handsets = w.cnc.handsets :=
    Moves.handsets (b := false) ((create_moves hc).trans (reevalHandset_moves _ _ _))
  generalize reevalHandset false b w1 = g at s1 s2 s3 s4 hs ⊢
  have same := (answerBridge_same b g).trans (connect_same h sl _)
  refine ⟨s1.after same, s2.after same, fun y => ?_, ?_, ?_⟩
  · rw [same.handsetMembers, show handsetMembers g.floor.cnc y = _ from s3 y, c.2]
    split
    · next e => rw [e]
    · simp [Work.cnc]
  · rw [same.pool]
    refine ⟨m, (s4 sl m h (by rw [← hm])).2 ?_, by rw [← hm], by rw [← hm], by rw [← hm]⟩
    rw [hcnc, Cnc.insert, Table.get_set, if_pos rfl]
  · simp only [connect, Work.handset, answerBridge_handsets, hs, Work.putHandset_floor]; simp [Work.cnc]

theorem popEntry_stack (h : HandsetNo) (b : BridgeNo) (w : Work) :
    ((popEntry h b w).handset h).stack = (w.handset h).stack.filter (fun e => e.bridge ≠ b) ∧
    ((popEntry h b w).handset h).active = (w.handset h).active := by
  have : ∀ r v, (clearRecall h b r v).cnc.handsets = v.cnc.handsets := fun r v =>
    (clearRecall_moves (a := false) (b := false) h b r v).handsets
  simp only [popEntry, Work.handset, this]; simp [Work.cnc]

/-- A handset that has left its call and taken another has moved (R86). -/
theorem callMoved_of {f : Floor} {h : HandsetNo} {b : BridgeNo} {d : Work} {out : Displaced} {sl : SlotNo}
    {calls : List Call} {g : Floor} (same : SameCalls f w.floor) (settings : w.floor.cnc.settings = f.cnc.settings)
    (frame : w.floor.mxe.frame = f.mxe.frame)
    (active : (w.handset h).active = (f.cnc.handsets.get h).active)
    (stack : (w.handset h).stack = (f.cnc.handsets.get h).stack.filter (fun e => e.bridge ≠ b))
    (sf : PoolSound f.cnc) (left : CallLeft f h w d out) (taken : CallTaken f h b sl calls d.floor g)
    (away : activeBridge f.cnc h ≠ some b) (hcalls : calls = if (f.cnc.handsets.get h).stack.any (fun e => e.bridge = b) then
      withMode sl .active (handsetMembers f.cnc b) else handsetMembers f.cnc b ++ [(sl, h, .active)]) :
    CallMoved h b f g := by
  have act : activeBridge w.cnc h = activeBridge f.cnc h := by
    have : slotBridge w.cnc = slotBridge f.cnc := funext fun x => by
      simp only [slotBridge, show w.cnc.pool = _ from same.pool]
    simp only [activeBridge, show (w.cnc.handsets.get h).active = _ from active, this]
  have left_calls : ∀ x, callsLeft w.floor h x = callsLeft f h x := fun x => by
    simp only [callsLeft, show activeBridge w.floor.cnc h = _ from act, same.handsetMembers, settings,
      show (w.floor.cnc.handsets.get h).active = _ from active]
  have auto : (w.settings (handsetPosition h)).autoHold = (f.cnc.settings.get (handsetPosition h)).autoHold := by
    simp only [Work.settings, show w.cnc.settings = _ from settings]
  have gcalls : ∀ x, handsetMembers g.cnc x = callsAfter f h b sl x := fun x => by
    rw [taken.calls, show handsetMembers d.floor.cnc x = _ from left.calls x, left_calls, callsAfter]
    split
    · next e => rw [hcalls, e]
    · simp only [callsLeft]
  have after : stackAfter f h b = ((d.handset h).stack, out) := by
    rw [left.stack, left.displaced, act, stack, auto, stackAfter]
    cases activeBridge f.cnc h with
    | none => rfl
    | some x =>
      simp only
      split
      · rw [show w.frame = f.mxe.frame from frame]
      · rfl
  have lsv : ∀ l, lineBridge l ≠ b → g.lsv.get l = d.floor.lsv.get l := fun l e => by
    rw [taken.step.lsv, if_neg (Ne.symm e)]
  refine ⟨⟨sl, ?_⟩, fun l hl => ⟨⟨rfl, ?_⟩, ?_⟩, fun l hl => ?_, ?_, fun no => ?_⟩
  · obtain ⟨m, h1, h2, h3, h4⟩ := taken.slot
    refine ⟨m, ?_, h1, h2, h3, h4, gcalls⟩
    rw [taken.handset, after]
  · by_cases e : lineBridge l = b
    · rw [taken.step.lsv, if_pos e.symm, left.lsv, if_neg (by rw [act, e]; exact away), ← e, same.lsv]; rfl
    · rcases hl with hl | hl
      · exact absurd hl e
      · rw [lsv l e, left.lsv, if_pos (by rw [act]; exact hl), same.lsv]
        simp only [handsetCounts, taken.calls, if_neg e]
  · by_cases e : lineBridge l = b
    · exact taken.step.cut l e.symm
    · rcases hl with hl | hl
      · exact absurd hl e
      · exact taken.step.keeps l (left.cut l (by rw [act]; exact hl))
  · rw [lsv l fun e => hl (Or.inl e), left.lsv, if_neg fun e => hl (Or.inr (by rw [← act]; exact e)), same.lsv]
  · have fol := (((same.stand 0).follow f).trans left.speakers).trans taken.step.speakers
    exact ⟨fol.modes, fol.gains, fun x m p c hm hk e => ⟨taken.step.saved p c e, fol.left x m p c hm hk e⟩⟩
  · have on := left.exactly (by rw [after] at no; exact no)
    have stand := (same.stand 0).cutsOn
    have first : CutsOn (fun l => activeBridge f.cnc h = some (lineBridge l)) f d.floor := by
      have sw : PoolSound w.cnc := ⟨by rw [show w.cnc.bridges = _ from same.bridges]; exact sf.once,
        by rw [show w.cnc.bridges = _ from same.bridges, show w.cnc.pool = _ from same.pool]; exact sf.own,
        by rw [show w.cnc.bridges = _ from same.bridges, show w.cnc.pool = _ from same.pool]; exact sf.listed⟩
      exact (stand.trans on sf sw (fun l e => e.elim) (fun l e => e.elim) (fun l e => e.elim)).congr fun l => by
        rw [act]; simp
    have both := first.trans taken.exactly sf left.sound.pool (fun l e e2 => away (by rw [e, e2]))
      (fun l e => by rw [lsv l fun e2 => away (by rw [e, e2])])
      (fun l e => by rw [taken.calls, if_neg fun e2 => away (by rw [e, e2])])
    have both := both.congr (on' := Touched f h b) fun l => by unfold Touched; exact or_comm
    exact ⟨both.follows, both.beside⟩

theorem freeSlot_ne_none {c d : Cnc} (h : ∀ sl, c.pool.get sl = none → d.pool.get sl = none) (e : freeSlot c ≠ none) :
    freeSlot d ≠ none := by
  obtain ⟨sl, hsl⟩ := Option.ne_none_iff_exists'.1 e
  have := h sl (freeSlot_free hsl)
  intro n
  have := List.find?_eq_none.1 n sl (List.mem_finRange sl)
  simp_all

theorem heldOn_iff {f : Floor} {h : HandsetNo} {b : BridgeNo} :
    (f.cnc.handsets.get h).stack.any (fun e => e.bridge = b) = true ↔ HeldOn f h b := by
  simp [HeldOn, List.any_eq_true]

/-- What the calls of a handset are when it is to move. -/
structure MayMove (w : Work) (h : HandsetNo) (b : BridgeNo) : Prop where
  sound : CallsSound w.cnc h
  away : activeBridge w.cnc h ≠ some b
  held : HeldOn w.floor h b → handsetSlot w.cnc b h ≠ none
  room : ¬ HeldOn w.floor h b → freeSlot w.cnc ≠ none

theorem MayMove.cnc {h : HandsetNo} {b : BridgeNo} (m : MayMove w h b) : CncSound w.floor w.cnc :=
  ⟨m.sound.pool, m.sound.channels, fun _ _ e => e⟩

/-- A handset retrieves its held member on a bridge (R86, R88). -/
theorem retrieve_moved {h : HandsetNo} {b : BridgeNo} (m : MayMove w h b) (held : HeldOn w.floor h b) :
    CallMoved h b w.floor (reviveMember h b (displace h (popEntry h b w)).1).floor := by
  have same := popEntry_same h b w
  obtain ⟨p1, p2⟩ := popEntry_stack h b w
  have keep := (popEntry_moves (b := false) h b w).keeps
  have s := (same.kept m.cnc).kept.sound
  generalize popEntry h b w = w1 at same p1 p2 keep s ⊢
  have own : OwnActive w1.cnc h := fun sl e => by
    rw [show w1.cnc.pool = _ from same.pool]
    exact m.sound.active sl (by rw [← e]; exact p2.symm)
  have left := displace_left s own
  obtain ⟨sl, hsl⟩ := Option.ne_none_iff_exists'.1 (m.held held)
  have act : activeBridge w1.cnc h = activeBridge w.cnc h := by
    have : slotBridge w1.cnc = slotBridge w.cnc := funext fun x => by
      simp only [slotBridge, show w1.cnc.pool = _ from same.pool]
    simp only [activeBridge, show (w1.cnc.handsets.get h).active = _ from p2, this]
  have calls : handsetMembers (displace h w1).1.cnc b = handsetMembers w.cnc b := by
    rw [left.calls, callsLeft, if_neg (by rw [show activeBridge w1.floor.cnc h = _ from act]; exact m.away),
      same.handsetMembers]
  have taken := reviveMember_taken (f0 := w.floor) left.sound (h := h) (b := b) (sl := sl)
    (by rw [← hsl]; simp only [handsetSlot, calls])
  exact callMoved_of same keep.settings keep.frame p2 p1 m.sound.pool left taken m.away
    (by rw [if_pos (heldOn_iff.2 held), calls])

/-- A handset joins a bridge on a new member (R86). -/
theorem join_moved {h : HandsetNo} {b : BridgeNo} (m : MayMove w h b) (fresh : ¬ HeldOn w.floor h b) :
    CallMoved h b w.floor (joinNew h b (displace h w).1).floor := by
  have left := displace_left m.cnc m.sound.active
  have calls : handsetMembers (displace h w).1.cnc b = handsetMembers w.cnc b := by
    rw [left.calls, callsLeft, if_neg m.away]
  obtain ⟨sl, taken⟩ := joinNew_taken (f0 := w.floor) left.sound (h := h) (b := b)
    (freeSlot_ne_none left.free (m.room fresh))
  have stack : (w.handset h).stack = (w.handset h).stack.filter (fun e => e.bridge ≠ b) :=
    (List.filter_eq_self.2 fun e he => by simpa using fun e2 => fresh ⟨e, he, e2⟩).symm
  exact callMoved_of (.refl _) rfl rfl rfl stack m.sound.pool left taken m.away
    (by rw [if_neg (fun e => fresh (heldOn_iff.1 e)), calls])

theorem CallMoved.same {h : HandsetNo} {b : BridgeNo} {f g k : Floor} (m : CallMoved h b f g) (s : SameCalls g k)
    (hs : k.cnc.handsets = g.cnc.handsets) : CallMoved h b f k where
  calls := by simp only [hs, s.pool, s.handsetMembers]; exact m.calls
  touched := fun l hl => by
    obtain ⟨⟨-, e⟩, c⟩ := m.touched l hl
    exact ⟨⟨rfl, by rw [s.lsv, s.handsetMembers]; exact e⟩, (s.lineStands l).cutHolds c⟩
  others := by rw [s.lsv]; exact m.others
  speakers := ⟨by simp only [s.pool, Floor.gain, s.gains]; exact m.speakers.modes,
    by simp only [Floor.gain, s.gains]; exact m.speakers.gains, by simp only [s.pool, s.channels]; exact m.speakers.left⟩
  exactly := fun no => by
    obtain ⟨e1, e2⟩ := m.exactly no
    exact ⟨fun l hl =>
      { held := by simp only [s.heldBy, s.pool, Floor.gain, s.gains]; exact (e1 l hl).held
        undone := by simp only [s.notHeld, s.pool, Floor.gain, s.gains]; exact (e1 l hl).undone },
      { members := by simp only [s.pool]; exact e2.members
        gains := by simp only [s.pool, Floor.gain, s.gains]; exact e2.gains }⟩

/-- SELECT and CALL_GROUP, their checks passed (R86, R97). -/
theorem performSelect_moved {h : HandsetNo} {b : BridgeNo} (m : MayMove w h b) (notify call : Bool) :
    CallMoved h b w.floor (performSelect h b notify call w).work.floor := by
  unfold performSelect; dsimp only
  have on : onStack (w.handset h) b = true ↔ HeldOn w.floor h b := heldOn_iff
  have core : CallMoved h b w.floor (if onStack (w.handset h) b then
        reviveMember h b (displace h (if onStack (w.handset h) b then popEntry h b w else w)).1
      else joinNew h b (displace h (if onStack (w.handset h) b then popEntry h b w else w)).1).floor := by
    by_cases e : onStack (w.handset h) b = true
    · rw [if_pos e, if_pos e]; exact retrieve_moved m (on.1 e)
    · rw [if_neg e, if_neg e]; exact join_moved m fun e2 => e (on.2 e2)
  generalize (if onStack (w.handset h) b then
        reviveMember h b (displace h (if onStack (w.handset h) b then popEntry h b w else w)).1
      else joinNew h b (displace h (if onStack (w.handset h) b then popEntry h b w else w)).1) = w2 at core ⊢
  have rung := core.same (callAlerts_same (ringsGroup call b w) h w2)
    (callAlerts_moves (a := false) (b := false) (ringsGroup call b w) h w2).handsets
  split
  · exact rung.same (note_same _ _) (by simp)
  · exact rung

end Sys2Proof.Machine
end

