-- ==== Sys2Proof/WellFormed.lean ====
section
/-! DEFINITION. Which commands can stand on the part's ports: records and frames have the lengths of chapter 12, and an
"other" register write names no register of its own. -/

namespace Sys2Proof

/-- Whether an offset (and a value) belongs to another row of the table: CB_ADDR, NUDGE, ATTN and ATTN_MASK, or a
write of RUN, STOP or RESET (chapter 12.1). -/
def ownRegisterWrite (offset value : Word) : Bool :=
  offset = 0x08#32 ∨ offset = 0x0C#32 ∨ offset = 0x14#32 ∨ offset = 0x18#32 ∨ offset = 0x1C#32 ∨
    (offset = 0x10#32 ∧ (value = 1#32 ∨ value = 2#32 ∨ value = 3#32))

/-- The lengths of chapter 12 and the offsets of chapter 12.1. -/
def Instr.wf : Instr → Bool
  | .otherRegisterWrite offset value => !ownRegisterWrite offset value
  | .controlBlockReadDone block => block.length = 80
  | .positionLinkFrameArrival _ frame => frame.length = 200
  | .lineParcelArrival parcel => parcel.length = 68
  | .orderRecordReadDone record => record.length = 64
  | .tapStartDescriptorReadDone descriptor => descriptor.length = 28
  | .pinReset | .run | .stop | .reset | .cbAddrWrite _ _ | .nudge _ | .attnWrite _ | .attnMaskWrite _
  | .startWritesDone | .stoppingClear | .stoppingComplete | .frameMark _ | .cardPresenceChange _ | .linkDown _
  | .linkUp _ | .filteredHookChange _ | .filteredPttPress _ | .filteredPttRelease _ | .acceptedChange _
  | .lineDeadExpiry _ | .knockTimerExpiry _ | .ringoutPhaseExpiry _ | .recallExpiry _ _ | .groupAlertTimerExpiry _
  | .ringerPhaseExpiry _ | .clipEpisodeEnd _ | .activityWindowEnd _ _ | .frameGrantPass | .frameEvent | .pollExpiry
  | .orderLinkReadDone _ | .orderResultWriteDone | .orderStateWriteDone | .orderCursorWriteDone | .nop | .setLine _
  | .ringOut _ _ | .ringStop _ | .loopTest _ | .endTest _ | .flush _ | .setAppearance _ | .setCadence _
  | .setPosition _ | .select _ _ _ | .callGroup _ _ _ | .hold _ | .retrieve _ | .release _ | .dropHeld _ _
  | .setGroup _ | .setHoot _ | .pttTarget _ _ | .assignSpeaker _ | .speakerGain _ _ _ | .announce _ _ _
  | .endAnnounce _ | .setMix _ | .tapStart _ | .tapStartWriteDone | .tapStop _ | .mptIssue | .memBusError _
  | .readTimeout _ | .lateReadCompletion _ | .journalAppendStart | .journalConsumedReadDone _ | .journalNoteWriteDone
  | .journalProducedWriteDone | .journalLostWriteDone | .lingerExpiry | .statusRewriteStart
  | .statusCountOddWriteDone | .statusBodyWriteDone | .statusCountEvenWriteDone | .stagingDrainTake
  | .tapReturnedReadDone _ | .tapFrameWriteDone | .tapFilledWriteDone | .tapDroppedTotalWriteDone
  | .accessCompletionAfterReset _ => true

end Sys2Proof
end

