-- ==== Sys2Proof/Tests/Slice0.lean ====
section
/-! SUPPORT. Small tests: the form that commands must have, single steps, and for every statement with hypotheses states
and operands that meet them, clause by clause (`test_meets_<statement>`). -/

namespace Sys2Proof.Tests
open Sys2Proof Sys2Proof.Machine

set_option Elab.async false

/-! ### Small states -/

/-- The part as after reset, but in RUNNING. -/
def running : State := { State.reset with rc := { State.reset.rc with runState := .running } }

def inFloor (g : Floor → Floor) (s : State) : State := { s with floor := g s.floor }
def inCnc (g : Cnc → Cnc) : State → State := inFloor (fun f => { f with cnc := g f.cnc })
def inMxe (g : Mxe → Mxe) : State → State := inFloor (fun f => { f with mxe := g f.mxe })
def line (l : LineNo) (g : LineRec → LineRec) : State → State := inFloor (fun f => { f with lsv := f.lsv.upd l g })
def term (l : LineNo) (g : TermRec → TermRec) : State → State := inFloor (fun f => { f with ltm := f.ltm.upd l g })
def link (p : PositionNo) (g : LinkRec → LinkRec) : State → State :=
  inFloor (fun f => { f with plp := { f.plp with links := f.plp.links.upd p g } })
def card (k : CardNo) (r : CardRec) : State → State :=
  inFloor (fun f => { f with lhp := { f.lhp with cards := f.lhp.cards.set k r } })
def handset (h : HandsetNo) (r : HandsetRec) : State → State :=
  inCnc (fun c => { c with handsets := c.handsets.set h r })
def talk (p : PositionNo) (r : TalkRec) : State → State := inCnc (fun c => { c with talks := c.talks.set p r })
def hoot (k : HootNo) (g : HootRec → HootRec) : State → State := inCnc (fun c => { c with hoots := c.hoots.upd k g })
def group (n : GroupNo) (g : GroupRec → GroupRec) : State → State :=
  inCnc (fun c => { c with groups := c.groups.upd n g })
def settings (p : PositionNo) (g : Settings → Settings) : State → State :=
  inCnc (fun c => { c with settings := c.settings.upd p g })
def appearance (p : PositionNo) (l : LineNo) (a : Appearance) : State → State :=
  inCnc (fun c => { c with appearances := c.appearances.upd p (fun t => t.set l (some a)) })
def channel (p : PositionNo) (n : ChannelNo) (g : ChannelRec → ChannelRec) : State → State :=
  inCnc (fun c => { c with channels := c.channels.upd p (fun t => t.upd n g) })
def ringer (p : PositionNo) (r : Ringer) : State → State := inMxe (fun m => { m with ringers := m.ringers.set p r })
def cadence (n : CadenceNo) (d : Cadence) : State → State :=
  inCnc (fun c => { c with cadences := c.cadences.set n d })
/-- A member in a slot and at the end of its bridge's list. -/
def member (sl : SlotNo) (kind : MemberKind) (b : BridgeNo) (mode : Mode) : State → State := inCnc (fun c =>
  { c with
    pool := c.pool.set sl (some { kind := kind, bridge := b, mode := mode, joinFrame := 0 })
    bridges := c.bridges.upd b (fun r => { r with members := r.members ++ [sl] }) })
def due (e : Raised) (s : State) : State := { s with due := [e] }
def tap (n : TapNo) (g : TapRec → TapRec) (s : State) : State := { s with tpe := { s.tpe with taps := s.tpe.taps.upd n g } }
def jobs (js : List TpeJob) (s : State) : State := { s with tpe := { s.tpe with jobs := js } }
def runState (r : RunState) (s : State) : State := { s with rc := { s.rc with runState := r } }
def phase (p : StartPhase) (s : State) : State := { s with rc := { s.rc with startPhase := p } }

def flight : Flight := { access := { addr := 0, op := .read 8 }, fate := .live }
/-- An access of a requester in flight. -/
def flies (r : Requester) (s : State) : State := { s with mpt := s.mpt.setPort r { waiting := none, inFlight := some flight } }
def oru (g : Oru → Oru) (s : State) : State := { s with oru := g s.oru }

/-- A handset CONNECTED on a bridge by the member in slot 0. -/
def connected (h : HandsetNo) (b : BridgeNo) (s : State) : State :=
  handset h { state := .connected, active := some 0, stack := [] } (member 0 (.handset h) b .active s)
/-- A handset IDLE with one held call, its member in slot 1. -/
def holding (h : HandsetNo) (b : BridgeNo) (s : State) : State :=
  handset h { state := .idle, active := none, stack := [{ bridge := b, holdFrame := 0, recalled := false }] }
    (member 1 (.handset h) b .held s)
def up (p : PositionNo) : State → State := link p (fun r => { r with up := true })
/-- A position whose link is UP and whose handset A is off-hook. -/
def offHook (p : PositionNo) (s : State) : State := handset (handsetA p) { state := .idle, active := none, stack := [] } (up p s)
/-- A mark taken in RUNNING is owed its frames, and two earlier ones stand on the outputs. -/
def owed : State → State := inFloor (fun f =>
  { f with lhp := { f.lhp with sent := [[1#8]] }, plp := { f.plp with sent := Table.fill 32 [2#8], owed := true } })
def lineIs (l : LineNo) (state : LineState) : State → State :=
  line l (fun r => { r with state := state, cfg := { r.cfg with enable := true } })

theorem turn_iff (c : Instr) (b : Bool) (s : State) : Turn c b s ↔ s.due = [] ∧ mayTake c b s = true :=
  ⟨fun h => ⟨h.quiet, h.taken⟩, fun h => ⟨h.1, h.2⟩⟩

/-! ### Sound calls -/

theorem poolSound_congr {c d : Cnc} (h : PoolSound c) (hp : d.pool = c.pool)
    (hl : ∀ b, (d.bridges.get b).members = (c.bridges.get b).members) : PoolSound d :=
  ⟨fun b => by rw [hl]; exact h.once b, fun b => by rw [hl, hp]; exact h.own b, fun sl m => by rw [hl, hp]; exact h.listed sl m⟩

theorem reset_poolSound : PoolSound State.reset.floor.cnc := by
  refine ⟨fun b => ?_, fun b => ?_, fun sl m h => ?_⟩
  · simp [State.reset, Floor.initial, Cnc.initial, BridgeRec.empty]
  · simp [State.reset, Floor.initial, Cnc.initial, BridgeRec.empty]
  · simp [State.reset, Floor.initial, Cnc.initial] at h

/-- A member in a free slot keeps the pool sound. -/
theorem member_poolSound {s : State} (h : PoolSound s.floor.cnc) (sl : SlotNo) (kind : MemberKind) (b : BridgeNo) (mode : Mode)
    (free : s.floor.cnc.pool.get sl = none) : PoolSound (member sl kind b mode s).floor.cnc := by
  refine poolSound_congr (h.insert { kind := kind, bridge := b, mode := mode, joinFrame := 0 } free) rfl fun x => ?_
  simp only [member, inCnc, inFloor, Cnc.insert, Table.get_upd]
  split <;> rfl

/-- Channels without members. -/
theorem channelsOwnMembers_of_none {c : Cnc}
    (h : ∀ p d, ∀ e ∈ ((c.channels.get p).get d).current :: ((c.channels.get p).get d).stack, e.member = none) :
    ChannelsOwnMembers c := by
  intro p d e he sl m hm
  simp [h p d e he] at hm

theorem ownActive_of_none {c : Cnc} {h : HandsetNo} (e : (c.handsets.get h).active = none) : OwnActive c h := by
  intro sl hs; rw [e] at hs; cases hs

theorem ownActive_of {c : Cnc} {h : HandsetNo} (sl : SlotNo) (m : Member) (e : (c.handsets.get h).active = some sl)
    (hm : c.pool.get sl = some m) (hk : m.kind = .handset h) : OwnActive c h := by
  intro x hx; rw [e] at hx; cases hx; exact ⟨m, hm, hk⟩

/-- A handset CONNECTED on a bridge by the member in slot 0. -/
theorem connected_sound {b : BridgeNo} {s : State} (pool : PoolSound s.floor.cnc) (free : s.floor.cnc.pool.get 0 = none)
    (channels : ChannelsOwnMembers (connected 0 b s).floor.cnc) : CallsSound (connected 0 b s).floor.cnc 0 :=
  ⟨poolSound_congr (member_poolSound pool 0 (.handset 0) b .active free) rfl fun _ => rfl, channels,
    ownActive_of 0 { kind := .handset 0, bridge := b, mode := .active, joinFrame := 0 }
      (by simp [connected, handset, inCnc, inFloor]) (by simp [connected, handset, member, inCnc, inFloor]) rfl⟩

/-- A handset with one held call by the member in slot 1. -/
theorem holding_sound {h : HandsetNo} {b : BridgeNo} {s : State} (pool : PoolSound s.floor.cnc)
    (free : s.floor.cnc.pool.get 1 = none) (channels : ChannelsOwnMembers (holding h b s).floor.cnc) :
    CallsSound (holding h b s).floor.cnc h :=
  ⟨poolSound_congr (member_poolSound pool 1 (.handset h) b .held free) rfl fun _ => rfl, channels,
    ownActive_of_none (by simp [holding, handset, inCnc, inFloor])⟩

/-- A handset without a call and with a held member. -/
abbrev Waits (f : Floor) (h : HandsetNo) (b : BridgeNo) (sl : SlotNo) : Prop :=
  (f.cnc.handsets.get h).active = none ∧ (∃ e ∈ (f.cnc.handsets.get h).stack, e.bridge = b) ∧
    handsetSlot f.cnc b h = some sl ∧ slotBridge f.cnc sl = some b

theorem heldAt_of_waits {f : Floor} {h : HandsetNo} {b : BridgeNo} {sl : SlotNo} (w : Waits f h b sl) : HeldAt f h b sl :=
  ⟨w.2.1, w.2.2.1, w.2.2.2, Or.inl w.1⟩

theorem callsAgree_of_none {c : Cnc} {b : BridgeNo} (h : membersOf c b = []) : CallsAgree c b := by
  constructor <;> simp [handsetMembers, h]

/-- Handset 0 CONNECTED on line 5, alone. -/
def oneCall : State := connected 0 5 (lineIs 5 .connected (up 0 running))
/-- Handset 0 with a held call on line 255, alone. -/
def oneHeld : State := holding 0 255 (lineIs 255 .held (up 0 running))
/-- Line 5 is PRIVATE, and channel 7 of position 1 hears it by the member in slot 2. -/
def overheard (m : Mode) (s : State) : State :=
  channel 1 7 (fun r => { r with current := { r.current with source := some 5, member := some 2 } })
    (inMxe (fun x => { x with channelGains := x.channelGains.upd 1 (fun t => t.set 7 4096) })
      (line 5 (fun r => { r with cfg := { r.cfg with privacy := .exclusive } }) (member 2 (.speaker 1 7) 5 m s)))

theorem oneCall_sound : CallsSound oneCall.floor.cnc 0 :=
  connected_sound reset_poolSound (by decide +kernel) (channelsOwnMembers_of_none (by decide +kernel))
theorem oneHeld_sound : CallsSound oneHeld.floor.cnc 0 :=
  holding_sound reset_poolSound (by decide +kernel) (channelsOwnMembers_of_none (by decide +kernel))

/-! ### The form of commands -/

theorem test_wf_accepts : Instr.wf (.otherRegisterWrite 0x100#32 1#32) = true ∧
    Instr.wf (.controlBlockReadDone (zeros 80)) = true ∧ Instr.wf (.positionLinkFrameArrival 31 (zeros 200)) = true ∧
    Instr.wf (.lineParcelArrival (zeros 68)) = true ∧ Instr.wf (.orderRecordReadDone (zeros 64)) = true ∧
    Instr.wf (.tapStartDescriptorReadDone (zeros 28)) = true ∧ Instr.wf .nop = true := by decide +kernel
theorem test_wf_refuses_an_own_register : Instr.wf (.otherRegisterWrite 0x14#32 0#32) = false := by decide
theorem test_wf_refuses_an_own_run_write : Instr.wf (.otherRegisterWrite 0x10#32 2#32) = false := by decide
theorem test_wf_refuses_a_short_control_block : Instr.wf (.controlBlockReadDone (zeros 79)) = false := by decide +kernel
theorem test_wf_refuses_a_long_link_frame : Instr.wf (.positionLinkFrameArrival 0 (zeros 201)) = false := by
  decide +kernel
theorem test_wf_refuses_a_short_parcel : Instr.wf (.lineParcelArrival (zeros 67)) = false := by decide +kernel
theorem test_wf_refuses_a_short_record : Instr.wf (.orderRecordReadDone (zeros 63)) = false := by decide +kernel
theorem test_wf_refuses_a_long_descriptor : Instr.wf (.tapStartDescriptorReadDone (zeros 29)) = false := by
  decide +kernel

/-! ### Single steps -/

/-- The state that a command answers (the state given, where it answers none). -/
def after (c : Instr) (s : State) : State := match exec c s with
  | .next t => t
  | .fault _ => s
  | .refused _ => s

theorem test_idle_at_reset : step State.reset = .next State.reset := rfl
theorem test_cb_addr_low_bits_drop : (after (.cbAddrWrite false 0x1234567F#32) State.reset).rc.cbAddr = 0x12345640#64 := by
  decide +kernel
theorem test_the_address_reads_as_two_halves :
    let s : State := { State.reset with rc := { State.reset.rc with cbAddr := 0x123456789ABCDEC0#64 } }
    s.readRegister 0x0C = 0x12345678#32 ∧ s.readRegister 0x08 = 0x9ABCDEC0#32 := by decide +kernel
theorem test_run_reads_the_control_block :
    let t := after .run State.reset
    t.rc.runState = .starting ∧ t.mpt.oru.waiting = some { addr := 0, op := .read 80 } := by decide +kernel
theorem test_nop_answers_the_frame_counter :
    (after .nop (inMxe (fun m => { m with frame := 0x01020304#32 }) running)).oru.lastOutcome =
      some { code := .ok, data := [4#8, 3#8, 2#8, 1#8] } := by decide +kernel
theorem test_eighth_mark_raises_card_presence :
    let t := after (.frameMark 0xFFFE#16) (card 0 { present := false, marks := 7 } State.reset)
    t.due = [.cardPresence 0] ∧ (t.floor.lhp.cards.get 0).marks = 8 := by decide +kernel
theorem test_a_mark_owes_its_frames_to_the_frame_event :
    (after (.frameMark 0#16) running).floor.plp.owed = true ∧ (after (.frameMark 0#16) State.reset).floor.plp.owed = false := by
  decide +kernel
theorem test_stop_sends_the_owed_frames_as_silence :
    let t := after .stop (owed (up 0 running))
    t.floor.plp.sent.get 0 = silentFrame true ∧ t.floor.plp.sent.get 31 = silentFrame false ∧ t.floor.lhp.sent = [] ∧
      t.floor.plp.owed = false := by decide +kernel
theorem test_hold_pushes :
    (after (.hold 0#8) (connected 0 5 running)).floor.cnc.handsets.get 0 =
      { state := .idle, active := none, stack := [{ bridge := 5, holdFrame := 0, recalled := false }] } := by
  decide +kernel
theorem test_select_cuts_the_others_on_a_private_line :
    let t := after (.select 0#8 5#16 false) (overheard .active (appearance 0 5 { ring := true, speaker := true }
      (lineIs 5 .idle (offHook 0 running))))
    (t.floor.cnc.handsets.get 0).state = .connected ∧
      t.floor.cnc.pool.get 2 = some { kind := .speaker 1 7, bridge := 5, mode := .cut, joinFrame := 0 } ∧
      t.floor.gain 1 7 = 0 ∧ (t.floor.lsv.get 5).state = .outgoing := by decide +kernel
theorem test_release_undoes_the_cut :
    let t := after (.release 0#8) (overheard .cut oneCall)
    t.floor.cnc.pool.get 2 = some { kind := .speaker 1 7, bridge := 5, mode := .active, joinFrame := 0 } ∧
      t.floor.gain 1 7 = 0 ∧ (t.floor.lsv.get 5).state = .idle := by decide +kernel
theorem test_halving_rounds_to_nearest : halve 3#16 = 2#16 ∧ halve 0xFFFD#16 = 0xFFFF#16 := by decide +kernel
theorem test_ramp_stops_at_its_target : ramp 128 4000 4096 = 4096 ∧ ramp 128 0 4096 = 128 := by decide

/-! ### Hypotheses that are met: queue, registers, run control -/

theorem test_meets_StepTakesTheFrontCommand :
    ({ State.reset with pending := [.nop, .run] } : State).pending = .nop :: [.run] := rfl

theorem test_meets_RaisedEventsAreTakenInTurn :
    (State.reset.pending = [] ∧ State.reset.due = []) ∧
    ((due .grantPass running).pending = [] ∧ (due .grantPass running).due = .grantPass :: []) ∧
    settlesFirst .nop = true ∧
    (raisedOf .frameGrantPass = some .grantPass ∧ .grantPass ∈ (due .grantPass running).due) ∧
    (raisedOf (.linkDown 31) = some (.linkDown 31) ∧ .linkDown 31 ∉ (due .grantPass running).due) := by decide +kernel

theorem test_reset_bounded : HostSideBounded State.reset ∧ FloorBounded State.reset := by
  refine ⟨⟨by unfold CbAligned; decide, by unfold NoteQueueBounded; decide, by unfold HandOverDistinct; decide,
    by unfold StagingBounded; decide⟩, ⟨?_, ?_, reset_poolSound⟩⟩
  · intro l
    simp [State.reset, Floor.initial, TermRec.cleared]
  · intro p
    simp [State.reset, Floor.initial, Cnc.initial]

theorem test_meets_HostSideStaysBounded : ∃ s t, HostSideBounded s ∧ step s = .next t :=
  ⟨State.reset, State.reset, test_reset_bounded.1, rfl⟩

theorem test_meets_FloorStaysBounded : ∃ s t, FloorBounded s ∧ step s = .next t :=
  ⟨State.reset, State.reset, test_reset_bounded.2, rfl⟩

theorem test_meets_ResetsReturnToTheResetState :
    (owed running).floor.plp.owed = true ∧ running.floor.plp.owed = false := ⟨rfl, rfl⟩

theorem test_meets_HostRegistersTakeTheirWrites :
    State.reset.rc.runState = .stopped ∧ running.rc.runState ≠ .stopped ∧
    (∀ o ∈ [0x04, 0x09, 0x20], o ∉ [0x00, 0x08, 0x0C, 0x10, 0x14, 0x18, 0x1C]) := by decide +kernel

theorem test_meets_NudgeAndPollWakeAWaitingOru :
    let waits := oru (fun o => { o with poll := some 1 }) running
    let waitsAtRecord := oru (fun o => { o with step := .recordRead, next := some 64#64 }) running
    let walks := oru (fun o => { o with active := true }) running
    (waits.due = [] ∧ waits.rc.runState = .running ∧ waits.oru.active = false ∧ waits.oru.poll.isSome = true ∧
      waits.oru.step = .linkRead) ∧
    (waitsAtRecord.due = [] ∧ waitsAtRecord.oru.active = false ∧ waitsAtRecord.oru.step = .recordRead ∧
      waitsAtRecord.oru.next = some 64#64) ∧
    (walks.due = [] ∧ walks.rc.runState = .running ∧ walks.oru.active = true) ∧ running.oru.poll = none ∧
    State.reset.rc.runState ≠ .running := by decide +kernel

/-- A control block that R165 accepts at address 64. -/
def goodBlock : List Byte :=
  bytesOf 4 1 ++ bytesOf 4 5 ++ bytesOf 8 0x1000 ++ zeros 8 ++ bytesOf 8 0x2000 ++ [4#8, 0#8, 1#8, 0#8] ++ zeros 20 ++
    bytesOf 8 0x3000 ++ bytesOf 8 0x4000 ++ zeros 8

theorem test_meets_RunReadsAndChecksTheControlBlock :
    let starts := flies .oru (phase .reading (runState .starting { State.reset with
      rc := { State.reset.rc with cbAddr := 64#64 } }))
    (State.reset.due = [] ∧ State.reset.rc.runState = .stopped) ∧ running.rc.runState ≠ .stopped ∧
    (starts.due = [] ∧ goodBlock.length = 80 ∧ starts.rc.runState = .starting ∧ starts.rc.startPhase = .reading ∧
      starts.mpt.oru.inFlight = some flight ∧ flight.fate = .live ∧ starts.rc.abandoning = false) ∧
    (starts.rc.cbAddr ≠ 0#64 ∧ fieldAt goodBlock 0 4 = 1 ∧ 4 ≤ fieldAt goodBlock 0x20 1 ∧
      fieldAt goodBlock 0x20 1 ≤ 12 ∧
      ∀ at_ ∈ [0x08, 0x18, 0x38, 0x40], fieldAt goodBlock at_ 8 ≠ 0 ∧ fieldAt goodBlock at_ 8 % 64 = 0) ∧
    ((zeros 80).length = 80 ∧ fieldAt (zeros 80) 0 4 ≠ 1) ∧
    ({ starts.rc with abandoning := true } : RunControl).abandoning = true := by decide +kernel

theorem test_meets_StartWritesLeadToRunning :
    ∀ p ∈ [StartPhase.cursor, .produced, .lost],
      let s := flies .oru (phase p (runState .starting State.reset))
      s.due = [] ∧ s.rc.runState = .starting ∧ s.rc.abandoning = false ∧ s.mpt.oru.inFlight = some flight ∧
        s.rc.startPhase = p ∧
        (let left : State := { s with rc := { s.rc with abandoning := true } }
         left.due = [] ∧ left.rc.runState = .starting ∧ left.rc.abandoning = true ∧ left.rc.startPhase = p ∧
          left.mpt.oru.inFlight = some flight ∧ flight.fate = .live) := by decide +kernel

theorem test_meets_StopClearsTheDynamicState :
    let starts := flies .oru (runState .starting State.reset)
    let stops := runState .stopping State.reset
    let cleared : State := { stops with rc := { stops.rc with cleared := true } }
    let d : Dispatched := { kind := 0#8, notify := true, tag := 1#32, order := some .nop, taken := false, outcome := none
                            codeWritten := false }
    let done : Dispatched := { d with outcome := some { code := .ok, data := [] } }
    let walks := oru (fun o => { o with active := true, order := some done }) running
    let retries := oru (fun o => { o with order := some done }) running
    let waits := oru (fun o => { o with active := true, step := .execute, order := some d }) running
    let behind : State := jobs [.startRead 63] waits
    let drains := flies .tpe (jobs [.writeFrame] running)
    (running.due = [] ∧ running.rc.runState = .running ∧ running.oru.order = none) ∧
    ((owed running).due = [] ∧ (owed running).oru.order = none ∧ (owed running).floor.plp.owed = true ∧
      running.floor.plp.owed = false) ∧
    (walks.due = [] ∧ walks.oru.order = some done ∧ walks.oru.active = true ∧ done.outcome ≠ none) ∧
    (retries.due = [] ∧ retries.oru.order = some done ∧ retries.oru.active = false) ∧
    (waits.due = [] ∧ waits.rc.runState = .running ∧ waits.oru.step = .execute ∧ waits.starting = false ∧
      immediateOrder .nop = true ∧ waits.oru.order = some d ∧ d.order = some .nop ∧ d.taken = false ∧ d.outcome = none) ∧
    (behind.due = [] ∧ behind.oru.order = some d ∧ behind.starting ≠ false) ∧
    ((runState .starting State.reset).due = [] ∧ (runState .starting State.reset).liveFlight .oru = false) ∧
    (drains.due = [] ∧ drains.rc.runState = .running ∧ drains.tpe.jobs = .writeFrame :: [] ∧
      startJob .writeFrame = false ∧ (after .stop drains).tpe.jobs = [] ∧ drains.mpt.tpe.inFlight = some flight ∧
      flight.fate = .live) ∧
    (starts.due = [] ∧ starts.rc.runState = .starting ∧ starts.liveFlight .oru = true) ∧
    State.reset.rc.runState = .stopped ∧
    (stops.due = [] ∧ stops.rc.runState = .stopping ∧ stops.rc.cleared = false ∧ stops.oru.order = none ∧
      stops.tpe.jobs = []) ∧
    (cleared.due = [] ∧ cleared.rc.runState = .stopping ∧ cleared.rc.cleared = true ∧ cleared.jnu.queue = [] ∧
      cleared.jnu.phase = .idle ∧ cleared.stw.queue = [] ∧ cleared.stw.phase = .idle ∧
      ∀ r ∈ [Requester.tpe, .jnu, .stw, .oru], cleared.mpt.port r = { waiting := none, inFlight := none }) := by
  decide +kernel

/-! ### Marks, links and the key -/

theorem test_meets_FrameMarkCountsCardsAndLinks :
    let s := up 0 State.reset
    s.due = [] ∧ (s.floor.plp.links.get 0).up = true ∧ (s.floor.plp.links.get 31).up = false ∧
    s.rc.runState ≠ .running ∧ (up 0 running).due = [] ∧ (up 0 running).rc.runState = .running := by decide +kernel

theorem test_meets_CardPresenceChangesAtTheEighthMark :
    let s := due (.cardPresence 15) (card 15 { present := true, marks := 8 } running)
    .cardPresence 15 ∈ s.due ∧ 8 ≤ (s.floor.lhp.cards.get 15).marks ∧ s.rc.runState = .running ∧
      State.reset.rc.runState ≠ .running := by decide +kernel

theorem test_meets_LinkChangesActOnThePosition :
    let falls := due (.linkDown 31) (link 31 (fun r => { r with up := true, missed := 3 })
      (talk 31 { target := some 0, key := true, status := .queued } (hoot 0 (fun r => { r with queue := [31] }) running)))
    let rises := due (.linkUp 0) (link 0 (fun r => { r with good := 16 }) running)
    (.linkDown 31 ∈ falls.due ∧ (falls.floor.plp.links.get 31).up = true ∧ 3 ≤ (falls.floor.plp.links.get 31).missed ∧
      falls.rc.runState = .running ∧ (falls.floor.cnc.talks.get 31).target = some 0 ∧
      (31 ∈ (falls.floor.cnc.hoots.get 0).queue → (falls.floor.cnc.talks.get 31).status = .queued)) ∧
    (let s := due (.linkDown 0) (link 0 (fun r => { r with up := true, missed := 3 })
       (talk 0 { target := some 0, key := true, status := .talking } (holding 0 5 running)))
     .linkDown 0 ∈ s.due ∧ (s.floor.cnc.talks.get 0).status ≠ .idle ∧ (s.floor.cnc.talks.get 0).target = some 0 ∧
      (∀ h ∈ [handsetA 0, handsetB 0], ((s.floor.cnc.handsets.get h).stack.map (fun e => e.bridge)).Nodup) ∧
      HeldOn s.floor 0 5 ∧ handsetSlot s.floor.cnc 5 0 = some 1) ∧
    (let s := connected 0 5 (link 0 (fun r => { r with up := true, missed := 3 }) running)
     activeBridge s.floor.cnc 0 = some 5 ∧ handsetSlot s.floor.cnc 5 0 = some 0) ∧
    (.linkUp 0 ∈ rises.due ∧ (rises.floor.plp.links.get 0).up = false ∧ 16 ≤ (rises.floor.plp.links.get 0).good ∧
      rises.rc.runState = .running) ∧ State.reset.rc.runState ≠ .running := by
  simp only [HeldOn]; decide +kernel

/-- A call of the position that goes DOWN, active or held, on a bridge whose calls agree. -/
theorem test_meets_LinkChangesActOnThePosition_calls :
    let falls (s : State) := due (.linkDown 0) (link 0 (fun r => { r with up := true, missed := 3 }) s)
    CallsAgree (falls (connected 0 5 running)).floor.cnc 5 ∧ CallsAgree (falls (holding 1 5 running)).floor.cnc 5 := by
  refine ⟨⟨?_, ?_, ?_, ?_⟩, ⟨?_, ?_, ?_, ?_⟩⟩ <;> decide +kernel

/-- The link of a position falls, with a call on line 5 in a part whose calls agree everywhere. -/
theorem test_meets_LinkChangesActOnThePosition_lines :
    let s := due (.linkDown 0) (link 0 (fun r => { r with up := true, missed := 3 }) oneCall)
    let had (l : LineNo) := handsetMembers s.floor.cnc (lineBridge l)
    let calls (l : LineNo) := (had l).filter (fun x => x.2.1 ≠ handsetA 0 && x.2.1 ≠ handsetB 0)
    PoolSound s.floor.cnc ∧ ChannelsOwnMembers s.floor.cnc ∧
      (∀ h, h = handsetA 0 ∨ h = handsetB 0 → OwnActive s.floor.cnc h) ∧ (∀ b, CallsAgree s.floor.cnc b) ∧
      calls 5 ≠ had 5 ∧ calls 6 = had 6 ∧ (s.floor.lsv.get 5).state ∉ [LineState.idle, .alerting] := by
  refine ⟨oneCall_sound.pool, oneCall_sound.channels, fun h hh => ?_, fun b => ?_, by decide +kernel, by decide +kernel,
    by decide +kernel⟩
  · rcases hh with e | e <;> subst e
    · exact oneCall_sound.active
    · exact ownActive_of_none (by decide +kernel)
  · by_cases e : b = 5
    · subst e; constructor <;> decide +kernel
    · refine callsAgree_of_none ?_
      simp [oneCall, connected, handset, membersOf, member, lineIs, up, line, link, due, inCnc, inFloor, Table.get_upd, Ne.symm e, running,
        State.reset, Floor.initial, Cnc.initial, BridgeRec.empty]

theorem test_meets_ValidLinkFramesAreKept :
    let frame := withCheck (7#8 :: zeros 195)
    (frame.length = 200 ∧ fieldAt frame 0xC4 4 = (checkOf (frame.take 0xC4)).toNat) ∧
    (zeros 199).length ≠ 200 ∧ fieldAt (zeros 200) 0xC4 4 ≠ (checkOf ((zeros 200).take 0xC4)).toNat := by
  decide +kernel

theorem test_meets_HookChangesKeepTheHoldStack :
    let lifts := due (.hook 1) (link 0 (fun r => { r with up := true, hookB := { accepted := true, run := 0 } }) running)
    let hangsUp := due (.hook 0) (connected 0 5 (up 0 running))
    (.hook 1 ∈ lifts.due ∧ hookAccepted (Work.of lifts.floor) 1 = true ∧
      (lifts.floor.cnc.handsets.get 1).state = .onHook) ∧
    (.hook 0 ∈ hangsUp.due ∧ hookAccepted (Work.of hangsUp.floor) 0 = false ∧
      (hangsUp.floor.cnc.handsets.get 0).state ≠ .onHook ∧ (hangsUp.floor.cnc.handsets.get 0).active = some 0) := by
  decide +kernel

/-- A handset hangs up on a line, and on a group. -/
theorem test_meets_HookChangesKeepTheHoldStack_calls :
    let line := due (.hook 0) oneCall
    let group := due (.hook 0) (connected 0 319 (up 0 running))
    (∀ s ∈ [line, group], .hook 0 ∈ s.due ∧ hookAccepted (Work.of s.floor) 0 = false ∧
      (s.floor.cnc.handsets.get 0).state ≠ .onHook ∧ (s.floor.cnc.handsets.get 0).active = some 0) ∧
    (activeBridge line.floor.cnc 0 = some (lineBridge 5) ∧ handsetSlot line.floor.cnc (lineBridge 5) 0 = some 0) ∧
    ∀ l, activeBridge group.floor.cnc 0 ≠ some (lineBridge l) := by decide +kernel

theorem test_meets_APressIsIgnoredGrantedOrQueued :
    let pressed := due (.press 3) (link 3 (fun r => { r with up := true, ptt := { accepted := true, run := 0 } }) running)
    let aims := talk 3 { target := some 2, key := false, status := .idle } pressed
    let full := member 0 (.mic 4) 322 .active aims
    (.press 3 ∈ pressed.due ∧ (pressed.floor.plp.links.get 3).ptt.accepted = true ∧
      (pressed.floor.cnc.talks.get 3).key = false ∧ (pressed.floor.cnc.talks.get 3).target = none) ∧
    (.press 3 ∈ aims.due ∧ (aims.floor.plp.links.get 3).ptt.accepted = true ∧
      (aims.floor.cnc.talks.get 3).target = some 2 ∧ (aims.floor.cnc.talks.get 3).key = false ∧
      (aims.floor.cnc.hoots.get 2).queue = [] ∧ freeSlot aims.floor.cnc = some 0 ∧
      talkerCount aims.floor.cnc 2 < (aims.floor.cnc.hoots.get 2).limit) ∧
    (.press 3 ∈ full.due ∧ (full.floor.plp.links.get 3).ptt.accepted = true ∧
      (full.floor.cnc.talks.get 3).target = some 2 ∧ (full.floor.cnc.talks.get 3).key = false ∧
      (full.floor.cnc.hoots.get 2).limit ≤ talkerCount full.floor.cnc 2) ∧
    (let behind := hoot 2 (fun r => { r with queue := [9] }) aims
     (behind.floor.cnc.hoots.get 2).queue = 9 :: [] ∧ freeSlot behind.floor.cnc = some 0 ∧
      talkerCount behind.floor.cnc 2 < (behind.floor.cnc.hoots.get 2).limit ∧
      0 ∉ (behind.floor.cnc.bridges.get (hootBridge 2)).members ∧ .press 3 ∈ behind.due) := by decide +kernel

theorem test_meets_AReleaseEndsTheTalkOrTheWait :
    let lets (r : TalkRec) := due (.unpress 3) (talk 3 r (up 3 (member 0 (.mic 3) 322 .active running)))
    let idle := lets { target := none, key := true, status := .idle }
    let waits := lets { target := some 2, key := true, status := .queued }
    let talks := lets { target := some 2, key := true, status := .talking }
    (∀ s ∈ [idle, waits, talks], .unpress 3 ∈ s.due ∧ (s.floor.plp.links.get 3).ptt.accepted = false ∧
      (s.floor.cnc.talks.get 3).key = true) ∧
    (idle.floor.cnc.talks.get 3).status = .idle ∧
    ((waits.floor.cnc.talks.get 3).target = some 2 ∧ (waits.floor.cnc.talks.get 3).status = .queued) ∧
    ((talks.floor.cnc.talks.get 3).target = some 2 ∧ (talks.floor.cnc.talks.get 3).status = .talking ∧
      3 ∉ (talks.floor.cnc.hoots.get 2).queue ∧ (talks.floor.cnc.hoots.get 2).queue = [] ∧
      (micMembers talks.floor.cnc (hootBridge 2)).countP (fun y => y.2 = 3) ≤ 1 ∧
      (micMembers talks.floor.cnc (hootBridge 2)).find? (fun y => y.2 = 3) = some (0, 3)) := by decide +kernel

theorem test_meets_GrantPassesServeTheQueuesInOrder : .grantPass ∈ (due .grantPass running).due := by decide +kernel

/-! ### Parcels, lines and timers -/

/-- The bytes of a parcel of line 0. -/
def parcel (sequence code : Byte) : List Byte := [0#8, sequence, code, 0#8] ++ zeros 64
/-- What such a parcel says. -/
def parcelOf (sequence : Byte) (code : Code) : Parcel :=
  { line := 0, sequence := sequence, code := code, err := false, samples := silence }
/-- Line 0 in a state, on a PRESENT card, with the last sequence number 10. -/
def carries (state : LineState) (g : TermRec → TermRec) : State :=
  card 0 { present := true, marks := 0 } (lineIs 0 state (term 0 (fun r => g { r with lastSeq := some 10#8 }) running))
/-- Sixteen places taken. -/
def fullQueue : List QEntry := List.replicate 16 .placeholder

theorem test_meets_ArrivalsFollowTheSequenceCheck :
    let fresh := carries .idle (fun r => { r with lastSeq := none })
    let full := carries .idle (fun r => { r with queue := fullQueue })
    let bad := carries .fault id
    (∀ s ∈ [fresh, full, bad], s.due = [] ∧ s.rc.runState = .running ∧
      (s.floor.lhp.cards.get (lineCard 0)).present = true ∧ (s.floor.lsv.get 0).state ≠ .disabled ∧
      (s.floor.lsv.get 0).state ≠ .test ∧ (s.floor.ltm.get 0).queue.length ≤ 16) ∧
    (∀ n ∈ [0, 10, 11, 12, 13, 14], parseParcel (parcel (BitVec.ofNat 8 n) 0#8) = some (parcelOf (BitVec.ofNat 8 n) .quiet)) ∧
    (fresh.floor.ltm.get 0).lastSeq = none ∧
    (∀ n ∈ [0, 1, 2], n ≤ 2 ∧ (full.floor.ltm.get 0).lastSeq = some 10#8 ∧
      BitVec.ofNat 8 (11 + n) = 10#8 + BitVec.ofNat 8 (n + 1)) ∧
    (14#8 ≠ 10#8 ∧ 14#8 ≠ 10#8 + 1#8 ∧ 14#8 ≠ 10#8 + 2#8 ∧ 14#8 ≠ 10#8 + 3#8) ∧
    (16 < (full.floor.ltm.get 0).queue.length + 0 + 1 ∧ (full.floor.ltm.get 0).episode = false) ∧
    (full.floor.lsv.get 0).state ≠ .fault ∧ (bad.floor.lsv.get 0).state = .fault := by decide +kernel

theorem test_meets_AcceptedCodesReachTheFilter :
    let testing := carries .test id
    let listening := carries .idle id
    (∀ s ∈ [testing, listening], s.due = [] ∧ s.rc.runState = .running ∧
      (s.floor.lhp.cards.get (lineCard 0)).present = true ∧ (s.floor.lsv.get 0).state ≠ .disabled) ∧
    ((zeros 67).length ≠ 68 ∧ (parcel 10#8 0#8).length = 68) ∧
    (parseParcel (parcel 10#8 0#8) = some (parcelOf 10#8 .quiet) ∧
      parseParcel (parcel 11#8 0#8) = some (parcelOf 11#8 .quiet) ∧
      parseParcel (parcel 11#8 1#8) = some (parcelOf 11#8 .seize)) ∧
    (testing.floor.lsv.get 0).state = .test ∧ (listening.floor.lsv.get 0).state ≠ .test ∧
    (listening.floor.ltm.get 0).lastSeq = some 10#8 ∧ (listening.floor.ltm.get 0).lastSeq ≠ some 11#8 ∧
    (listening.floor.lsv.get 0).accepted = .quiet ∧ Code.seize ≠ (listening.floor.lsv.get 0).accepted ∧
    State.reset.rc.runState ≠ .running ∧ (running.floor.lhp.cards.get (lineCard 0)).present = false ∧
    (running.floor.lsv.get 0).state = .disabled := by decide +kernel

/-- Line 255 of a kind, in a state, with an accepted code and another that has run for the persistence. -/
def offers (kind : LineKind) (state : LineState) (was code : Code) (s : State) : State :=
  due (.accepted 255) (line 255 (fun r => { r with
    cfg := { r.cfg with enable := true, kind := kind }, state := state, accepted := was, candidate := some code
    run := 3 }) s)

theorem test_meets_AcceptedCodesMoveTheLine :
    let eff := effective .signalled
    (∀ x : LineKind × LineState × Code × Code,
      x ∈ [(.signalled, .idle, .quiet, .seize), (.knock, .idle, .ring, .quiet), (.signalled, .alerting, .seize, .quiet),
        (.signalled, .connected, .seize, .quiet), (.signalled, .held, .seize, .quiet),
        (.signalled, .outgoing, .quiet, .seize), (.signalled, .clearing, .quiet, .seize), (.knock, .alerting, .ring, .quiet),
        (.knock, .connected, .ring, .quiet), (.signalled, .fault, .fault, .seize), (.signalled, .fault, .fault, .quiet),
        (.knock, .fault, .fault, .ring), (.opened, .leg, .quiet, .seize), (.opened, .idle, .quiet, .seize),
        (.knock, .connected, .quiet, .ring), (.signalled, .connected, .quiet, .seize),
        (.signalled, .clearing, .seize, .quiet)] →
      let s := offers x.1 x.2.1 x.2.2.1 x.2.2.2 running
      let r := s.floor.lsv.get 255
      .accepted 255 ∈ s.due ∧ r.candidate = some x.2.2.2 ∧ r.cfg.persistence ≤ r.run ∧ x.2.2.2 ≠ .fault ∧
        r.cfg.kind = x.1 ∧ r.state = x.2.1 ∧ r.accepted = x.2.2.1) ∧
    (let s := offers .knock .held .ring .quiet (holding 0 255 running)
     .accepted 255 ∈ s.due ∧ (s.floor.lsv.get 255).candidate = some .quiet ∧ (s.floor.lsv.get 255).state = .held ∧
      (s.floor.lsv.get 255).cfg.kind = .knock ∧ (s.floor.lsv.get 255).accepted = .ring ∧
      (s.floor.cnc.handsets.get 0).stack.find? (fun e => e.bridge = lineBridge 255 && !e.recalled) =
        some { bridge := 255, holdFrame := 0, recalled := false }) ∧
    (eff .quiet ≠ .seize ∧ eff .seize = .seize ∧ eff .seize ≠ .quiet ∧ eff .quiet = .quiet ∧
      eff .fault ≠ .seize) := by decide +kernel

/-- The channels of a part without speaker members. -/
theorem channelsHoldSpeakers_of_none {c : Cnc}
    (h : ∀ p d, ∀ e ∈ ((c.channels.get p).get d).current :: ((c.channels.get p).get d).stack, e.member = none) :
    ChannelsHoldSpeakers c := by
  intro p d e he sl m hm
  simp [h p d e he] at hm

/-- A held call on a line whose far end clears, or which enters FAULT. -/
theorem test_meets_calls :
    let s := holding 0 255 running
    CallsAgree s.floor.cnc (lineBridge 255) ∧ ChannelsHoldSpeakers s.floor.cnc ∧
      callOn s.floor.cnc (lineBridge 255) 0 = some (1, .held) ∧ callOn s.floor.cnc (lineBridge 255) 1 = none := by
  refine ⟨⟨by decide +kernel, by decide +kernel, by decide +kernel, by decide +kernel⟩,
    channelsHoldSpeakers_of_none (by decide +kernel), by decide +kernel, by decide +kernel⟩

/-- Calls that agree in a sound part, on a line whose far end clears or which enters FAULT; and FAULT accepted in LEG. -/
theorem test_meets_calls_sound :
    let clears := offers .signalled .held .seize .quiet oneHeld
    let dead := due (.lineDead 255) (line 255 (fun r => { r with dead := 100 }) oneHeld)
    let leg := offers .opened .leg .quiet .fault running
    (∀ s ∈ [clears, dead], CallsAgree s.floor.cnc (lineBridge 255) ∧ PoolSound s.floor.cnc ∧ ChannelsOwnMembers s.floor.cnc ∧
      0 < (handsetCounts s.floor.cnc (lineBridge 255)).2 ∧ handsetMembers s.floor.cnc (lineBridge 255) ≠ []) ∧
    (.lineDead 255 ∈ dead.due ∧ (dead.floor.lsv.get 255).state = .held ∧
      (dead.floor.lsv.get 255).cfg.deadTime ≤ (dead.floor.lsv.get 255).dead) ∧
    (.accepted 255 ∈ leg.due ∧ (leg.floor.lsv.get 255).state = .leg ∧ (leg.floor.lsv.get 255).candidate = some .fault ∧
      (leg.floor.lsv.get 255).cfg.persistence ≤ (leg.floor.lsv.get 255).run) := by
  refine ⟨fun s hs => ?_, by decide +kernel, by decide +kernel⟩
  have e : s.floor.cnc = oneHeld.floor.cnc := by
    rcases List.mem_pair.1 hs with rfl | rfl <;> rfl
  rw [e]
  exact ⟨by constructor <;> decide +kernel, oneHeld_sound.pool, oneHeld_sound.channels, by decide +kernel, by decide +kernel⟩

theorem test_meets_LinesEnterFault :
    let far := due (.accepted 0) (line 0 (fun r => { r with state := .alerting, candidate := some .fault, run := 3 }) running)
    let dead := due (.lineDead 0) (line 0 (fun r => { r with state := .clearing, dead := 100 }) running)
    (.accepted 0 ∈ far.due ∧ (far.floor.lsv.get 0).state = .alerting ∧ (far.floor.lsv.get 0).candidate = some .fault ∧
      (far.floor.lsv.get 0).cfg.persistence ≤ (far.floor.lsv.get 0).run) ∧
    (.lineDead 0 ∈ dead.due ∧
      (dead.floor.lsv.get 0).state ∈ [LineState.idle, .alerting, .outgoing, .connected, .held, .clearing] ∧
      (dead.floor.lsv.get 0).cfg.deadTime ≤ (dead.floor.lsv.get 0).dead) := by decide +kernel

theorem test_meets_TimersAtTheirEnds :
    let knocked := due (.knockExpiry 7) (line 7 (fun r => { r with state := .alerting, knock := some 0 }) running)
    let recalled := due (.recall 0 5) (inMxe (fun m => { m with frame := 300000#32 })
      (settings 0 (fun r => { r with recallTime := 600 }) (holding 0 5 running)))
    let unanswered := due (.groupAlert 63) (group 63 (fun r => { r with timer := some 0, alerted := 1#32 }) running)
    (.knockExpiry 7 ∈ knocked.due ∧ (knocked.floor.lsv.get 7).state = .alerting ∧
      (knocked.floor.lsv.get 7).knock = some 0) ∧
    (.recall 0 5 ∈ recalled.due ∧
      (recalled.floor.cnc.handsets.get 0).stack.find? (fun x => x.bridge = 5 && !x.recalled) =
        some { bridge := 5, holdFrame := 0, recalled := false } ∧
      (recalled.floor.cnc.settings.get (handsetPosition 0)).recallTime ≠ 0 ∧
      (recalled.floor.cnc.settings.get (handsetPosition 0)).recallTime * 500 ≤
        (recalled.floor.mxe.frame - 0#32).toNat) ∧
    (.groupAlert 63 ∈ unanswered.due ∧ (unanswered.floor.cnc.groups.get 63).timer = some 0) := by decide +kernel

theorem test_meets_PhasesFollowTheCadence :
    let rings (x : RingOut) := due (.ringoutPhase 9) (line 9 (fun r => { r with ringOut := some x }) running)
    let ring : RingOut := { segments := [(5, 0), (7, 8)], repeats := 2, segment := 0, on := true, framesLeft := 0
                            cyclesLeft := 2 }
    let last : RingOut := { ring with on := false, segment := 1, cyclesLeft := 1 }
    let d : Cadence := { segments := [(5, 0), (7, 8)], repeats := 2 }
    let sounds (r : Ringer) := due (.ringerPhase 4) (ringer 4 r (cadence 1 d running))
    let tone : Ringer := { state := .ringing, cadence := 1, segment := 0, on := true, framesLeft := 0, cyclesDone := 0
                           tone := 0 }
    (ring.on = true ∧ last.on = false ∧ 0 + 1 < ring.segments.length ∧ last.segments.length ≤ last.segment + 1 ∧
      (∀ y ∈ [(0, 0), (0, 0)], y = (0, 0)) ∧ (∃ y ∈ ring.segments, y ≠ (0, 0)) ∧
      (∀ j < 2, (RingOut.advance^[j] ring).framesLeft = 0 ∧ 0 < (RingOut.advance^[j] ring).cyclesLeft) ∧
      0 < (RingOut.advance^[2] ring).framesLeft) ∧
    (∀ x ∈ [ring, last, { ring with framesLeft := 3 }],
      .ringoutPhase 9 ∈ (rings x).due ∧ ((rings x).floor.lsv.get 9).ringOut = some x) ∧
    (ring.framesLeft = 0 ∧ 0 < ring.settle.cyclesLeft ∧ last.framesLeft = 0 ∧ last.settle.cyclesLeft = 0) ∧
    (let zero : Cadence := { segments := [(0, 0), (0, 0)], repeats := 2 }
     (∀ y ∈ zero.segments, y = (0, 0)) ∧ zero.repeats ≠ 0 ∧ ¬ zero.segments.length ≤ tone.segment + 1 ∧
      (let end_ : Ringer := { tone with segment := 1, cyclesDone := 1 }
       end_.state = .ringing ∧ zero.segments.length ≤ end_.segment + 1 ∧ zero.repeats ≤ end_.cyclesDone + 1)) ∧
    (tone.on = true ∧ tone.segment + 1 < d.segments.length ∧ d.segments.length ≤ 1 + 1 ∧ 0 + 1 < d.repeats ∧
      d.repeats ≠ 0 ∧ d.repeats ≤ 1 + 1 ∧ ({ d with repeats := 0 } : Cadence).repeats = 0 ∧
      (∃ y ∈ d.segments, y ≠ (0, 0)) ∧
      (∀ j < 2, ((Ringer.advance d)^[j] tone).state = .ringing ∧ ((Ringer.advance d)^[j] tone).framesLeft = 0) ∧
      0 < ((Ringer.advance d)^[2] tone).framesLeft) ∧
    (∀ r ∈ [tone, { tone with on := false, segment := 1 }, { tone with framesLeft := 3 }, { tone with state := .done },
        { tone with on := false }],
      .ringerPhase 4 ∈ (sounds r).due ∧ (sounds r).floor.mxe.ringers.get 4 = r ∧
        (sounds r).floor.cnc.cadences.get r.cadence = d) ∧
    (tone.state = .ringing ∧ tone.framesLeft = 0 ∧ 0 < (segmentAt d.segments 0).1 ∧ 0 < (segmentAt d.segments 1).2 ∧
      (segmentAt d.segments 0).2 = 0) := by decide +kernel

theorem test_meets_ClipAndActivityEndings :
    let clips := due (.clipEnd (.ear 63)) (inMxe (fun m => { m with
      earClips := m.earClips.set 63 { clipping := true, cleanRun := 500, count := 1 } }) running)
    let ends (n : Nat) := due (.activityEnd 31 7) (inMxe (fun m => { m with
      activity := m.activity.upd 31 (fun t => t.set 7 { active := false, window := 50, count := n }) }) running)
    (.clipEnd (.ear 63) ∈ clips.due ∧ (clips.floor.mxe.clip (.ear 63)).clipping = true ∧
      500 ≤ (clips.floor.mxe.clip (.ear 63)).cleanRun) ∧
    (∀ n ∈ [199, 200], .activityEnd 31 7 ∈ (ends n).due ∧
      (ends n).floor.mxe.mix.window ≤ (((ends n).floor.mxe.activity.get 31).get 7).window) := by decide +kernel

theorem test_meets_FrameEventsAdvanceThePart :
    let s := lineIs 0 .idle (lineIs 1 .test (term 3 (fun r => { r with queue := fullQueue ++ [.placeholder, .placeholder] })
      (lineIs 3 .test running)))
    let x : LinkFrame := { hookA := true, hookB := false, ptt := true, micA := silence, micB := silence, desk := silence }
    let reports := link 31 (fun r => { r with up := true, filtering := true, judged := some x }) running
    let tone : Ringer := { state := .ringing, cadence := 1, segment := 0, on := true, framesLeft := 3, cyclesDone := 0
                           tone := 0 }
    let rings (r : Ringer) := ringer 4 r (cadence 1 { segments := [(5, 6)], repeats := 0 } running)
    (State.reset.due = [] ∧ State.reset.rc.runState ≠ .running) ∧ (s.due = [] ∧ s.rc.runState = .running) ∧
    ((s.floor.lsv.get 0).state ≠ .test ∧ (s.floor.lsv.get 0).state ≠ .disabled) ∧
    (s.floor.lsv.get 2).state = .disabled ∧
    ((s.floor.lsv.get 1).state = .test ∧ ((s.floor.ltm.get 1).take (s.floor.lsv.get 1).cfg.prime).1.queue.length < 16) ∧
    ((s.floor.lsv.get 3).state = .test ∧
      16 ≤ ((s.floor.ltm.get 3).take (s.floor.lsv.get 3).cfg.prime).1.queue.length) ∧
    (reports.due = [] ∧ reports.rc.runState = .running ∧ (reports.floor.plp.links.get 31).judged = some x ∧
      (reports.floor.plp.links.get 31).up = true ∧ (reports.floor.plp.links.get 31).filtering = true ∧
      (reports.floor.plp.links.get 0).judged = none) ∧
    ((rings tone).due = [] ∧ (rings tone).floor.mxe.ringers.get 4 = tone ∧ 0 < tone.framesLeft ∧
      ((rings tone).floor.cnc.cadences.get tone.cadence).segments = [(5, 6)] ∧
      tone.tone < 2 * ((rings tone).floor.cnc.settings.get 4).halfPeriod) ∧
    ((rings { tone with framesLeft := 0 }).floor.mxe.ringers.get 4).framesLeft = 0 ∧
    (running.floor.mxe.ringers.get 4).state ≠ .ringing := by decide +kernel

/-- A ringer of full amplitude on a side of gain 8191 clips it. -/
theorem test_meets_FrameEventsAdvanceThePart_clip :
    let tone : Ringer := { state := .ringing, cadence := 1, segment := 0, on := true, framesLeft := 3, cyclesDone := 0
                           tone := 0 }
    let s := settings 4 (fun r => { r with ringAmplitude := some 32767 }) (inMxe (fun m => { m with
        positionGains := m.positionGains.upd 4 (fun r => { r with left := 8191 }) })
      (ringer 4 tone (cadence 1 { segments := [(5, 6)], repeats := 0 } running)))
    let out := outputs s.floor (deliveries (takes s.floor)) (Table.ofFn (positionRinger s.floor))
    s.due = [] ∧ (s.floor.mxe.clip (.side 4 .left)).clipping = false ∧ 0 < (out.of (.side 4 .left)).saturated := by
  decide +kernel

theorem test_meets_ConcealmentCoversOneErroredFrame :
    let q : TermRec := { TermRec.cleared .zero with
      playing := true, first := false, queue := [.placeholder], lastOrigin := .good }
    let silentNow : TermRec := { q with lastOrigin := .silent, queue := [.parcel silence true] }
    let deep : TermRec := { q with queue := .placeholder :: List.replicate 9 (.parcel silence false) }
    let priming : TermRec := { q with playing := false, first := true, queue := List.replicate 4 (.parcel silence false) }
    (q.playing = true ∧ min (4 + 6) 15 = 10 ∧ ¬ 10 ≤ q.queue.length ∧ q.queue = .placeholder :: [] ∧ q.lastOrigin = .good) ∧
    (silentNow.playing = true ∧ ¬ 10 ≤ silentNow.queue.length ∧ silentNow.queue = .parcel silence true :: [] ∧
      silentNow.lastOrigin ≠ .good) ∧
    (deep.playing = true ∧ 10 ≤ deep.queue.length ∧
      deep.queue.tail = .parcel silence false :: List.replicate 8 (.parcel silence false)) ∧
    (priming.playing = false ∧ 4 ≤ priming.queue.length) ∧
    ((TermRec.cleared .zero).playing = false ∧ (TermRec.cleared .zero).queue.length < 4) ∧
    ({ q with queue := [] } : TermRec).queue = [] ∧ LineState.idle ≠ .disabled ∧ LineState.idle ≠ .fault := by
  decide +kernel

theorem test_meets_GainsAndListenerSums :
    let c := (member 0 (.speaker 0 0) 5 .active (member 1 (.speaker 0 1) 5 .cut running)).floor.cnc
    let x (m : Option SlotNo) : ChannelRec := { current := { ChannelEntry.initial 0 with member := m }, stack := [] }
    (max 4096 4000 - min 4096 4000 ≤ 128 ∧ 128 < 4096 - 0 ∧ 128 < 4096 - 0) ∧ (x none).current.member = none ∧
    ((x (some 1)).current.member = some 1 ∧
      c.pool.get 1 = some { kind := .speaker 0 1, bridge := 5, mode := .cut, joinFrame := 0 }) ∧
    ((x (some 0)).current.member = some 0 ∧
      c.pool.get 0 = some { kind := .speaker 0 0, bridge := 5, mode := .active, joinFrame := 0 }) := by decide +kernel

/-- Listeners of each kind: an ear, channels, a line, a leg; and ringers in and out of their tone. -/
theorem test_meets_GainsAndListenerSums_outputs :
    let s := connected 0 5 (channel 0 0 (fun r => { r with current := { r.current with member := some 1 } })
      (channel 0 1 (fun r => { r with current := { r.current with member := some 2 } })
        (member 1 (.speaker 0 0) 5 .active (member 2 (.speaker 0 1) 6 .cut running))))
    let legs := hoot 31 (fun r => { r with legs := [7] }) (line 7 (fun r => { r with state := .leg }) running)
    let entry (c : ChannelNo) := ((s.floor.cnc.channels.get 0).get c).current
    let tone : Ringer := { state := .ringing, cadence := 1, segment := 0, on := true, framesLeft := 3, cyclesDone := 0
                           tone := 0 }
    let rings (r : Ringer) := ringer 4 r (cadence 1 { segments := [(5, 6)], repeats := 0 } running)
    let now (r : Ringer) := ((rings r).floor.mxe.ringers.get 4).settle ((rings r).floor.cnc.cadences.get r.cadence)
    ((running.floor.cnc.handsets.get 0).active = none ∧ (s.floor.cnc.handsets.get 0).active = some 0 ∧
      s.floor.cnc.pool.get 0 = some { kind := .handset 0, bridge := 5, mode := .active, joinFrame := 0 }) ∧
    ((entry 2).member = none ∧ (entry 0).member = some 1 ∧ (entry 1).member = some 2 ∧
      s.floor.cnc.pool.get 1 = some { kind := .speaker 0 0, bridge := 5, mode := .active, joinFrame := 0 } ∧
      s.floor.cnc.pool.get 2 = some { kind := .speaker 0 1, bridge := 6, mode := .cut, joinFrame := 0 }) ∧
    ((s.floor.lsv.get 5).state ≠ .leg ∧ (legs.floor.lsv.get 7).state = .leg ∧
      7 ∈ (legs.floor.cnc.hoots.get 31).legs ∧ ∀ j, 7 ∈ (legs.floor.cnc.hoots.get j).legs → j = 31) ∧
    (127 < 2 * 64 ∧ 2 * 2 ≤ 127 ∧ 0 < 32 ∧ 0 < 2) ∧
    ((now tone).state = .ringing ∧ 0 < (now tone).framesLeft ∧ (now tone).on = true ∧
      (now { tone with on := false }).on = false ∧ 0 < (now { tone with on := false }).framesLeft ∧
      (now { tone with state := .done }).state ≠ .ringing) := by decide +kernel

/-- The frames of the tone that R143 gives as an example. -/
theorem test_tone_follows_the_example :
    let one := toneSamples 8192 20 32 0
    let two := toneSamples 8192 20 32 one.2
    one = (List.replicate 20 8192 ++ List.replicate 12 (-8192), 32) ∧
      two = (List.replicate 8 (-8192) ++ List.replicate 20 8192 ++ List.replicate 4 (-8192), 24) := by decide +kernel

/-! ### ORU -/

theorem test_meets_TheWalkFollowsTheLink :
    let s := flies .oru running
    let nudged := oru (fun o => { o with nudged := true }) s
    (∀ x ∈ [s, nudged, runState .stopping s], x.due = [] ∧ x.oru.step = .linkRead ∧ x.mpt.oru.inFlight = some flight) ∧
    flight.fate = .live ∧ (s.rc.runState = .running ∧ s.oru.nudged = false) ∧ nudged.oru.nudged = true ∧
    (63#64 ≠ 0#64 ∧ (63#64).toNat % 64 ≠ 0) ∧ (64#64 ≠ 0#64 ∧ (64#64).toNat % 64 = 0) ∧
    (runState .stopping s).rc.runState = .stopping := by decide +kernel

/-- A record of 64 bytes with a state and a kind. -/
def record (state kind : Byte) : List Byte := zeros 8 ++ [state, kind] ++ zeros 54

theorem test_meets_APostedRecordIsDispatched :
    let s := flies .oru (oru (fun o => { o with step := .recordRead, next := some 64#64 }) running)
    let nudged := oru (fun o => { o with nudged := true }) s
    (∀ x ∈ [s, nudged], ∀ r ∈ [RunState.running, .stopping], let x := runState r x
      x.due = [] ∧ x.rc.runState = r ∧ x.oru.step = .recordRead ∧ x.oru.next = some 64#64 ∧
      x.mpt.oru.inFlight = some flight ∧ flight.fate = .live) ∧
    (s.oru.nudged = false ∧ nudged.oru.nudged = true) ∧
    (∀ r ∈ [record 0#8 0#8, record 1#8 0#8, record 1#8 255#8], r.length = 64) ∧
    fieldAt (record 0#8 0#8) 0x08 1 ≠ 1 ∧
    (fieldAt (record 1#8 0#8) 0x08 1 = 1 ∧ decodeOrder 0#8 false (zeros 40) = some .nop) ∧
    (fieldAt (record 1#8 255#8) 0x08 1 = 1 ∧ decodeOrder 255#8 false (zeros 40) = none) ∧
    (∀ k ∈ [0x07#8, 0x09#8, 0x0F#8, 0x21#8, 0x27#8, 0x2A#8], k.toNat ∈ [6, 7] ∨ (0x09 ≤ k.toNat ∧ k.toNat ≤ 0x0F) ∨
      (0x21 ≤ k.toNat ∧ k.toNat ≤ 0x27) ∨ 0x2A ≤ k.toNat) := by decide +kernel

/-- A NOP in progress whose outcome is known. -/
def doneNop (written : Bool) : Dispatched :=
  { kind := 0#8, notify := true, tag := 1#32, order := some .nop, taken := false
    outcome := some { code := .ok, data := [] }, codeWritten := written }

/-- A WAITING ORU at the steps of an order in progress. -/
theorem test_meets_NudgeAndPollWakeAWaitingOru_steps :
    ∀ x ∈ [(OruStep.execute, false), (.resultWrite, false), (.resultWrite, true), (.stateWrite, true), (.cursorWrite, true)],
      let s := oru (fun o => { o with step := x.1, next := some 64#64, order := some (doneNop x.2) }) running
      s.due = [] ∧ s.rc.runState = .running ∧ s.oru.active = false ∧ s.oru.step = x.1 ∧ s.oru.next = some 64#64 ∧
        s.oru.order = some (doneNop x.2) ∧ (doneNop x.2).outcome = some { code := .ok, data := [] } ∧
        (doneNop x.2).codeWritten = x.2 := by decide +kernel

theorem test_meets_OrdersAreWrittenBackInOrder :
    let at_ (step : OruStep) (w : Bool) (r : RunState) := flies .oru (oru (fun o => { o with
      step := step, next := some 64#64, order := some (doneNop w) }) (runState r running))
    ∀ x ∈ [(OruStep.resultWrite, false), (.resultWrite, true), (.stateWrite, true), (.cursorWrite, true)],
      ∀ r ∈ [RunState.running, .stopping],
      let s := at_ x.1 x.2 r
      s.due = [] ∧ s.rc.runState = r ∧ s.mpt.oru.inFlight = some flight ∧ s.oru.order = some (doneNop x.2) ∧
        (doneNop x.2).outcome = some { code := .ok, data := [] } ∧ s.oru.step = x.1 ∧ s.oru.next = some 64#64 ∧
        (doneNop x.2).codeWritten = x.2 := by decide +kernel

theorem test_meets_RefusedOrdersChangeNothing :
    let c := Instr.flush 256#16
    immediateOrder c = true ∧ running.due = [] ∧ (match exec c running with
      | .next _ => true
      | _ => false) = true ∧
      (after c running).oru.lastOutcome = some { code := .badNumber, data := [] } ∧ ResultCode.badNumber ≠ .ok := by
  decide +kernel

/-! ### Orders of lines -/

theorem test_meets_NopAndSetMix :
    let a : SetMixArgs := { rampStep := 0, threshold := 0, window := 0, count := 0, ringAmplitude := 0 }
    let d : Dispatched := { doneNop false with outcome := none }
    Turn .nop false running ∧ Turn (.setMix a) false running ∧
      Turn .nop false (oru (fun o => { o with step := .execute, next := some 64#64, order := some d }) running) := by
  simp only [turn_iff]; decide +kernel

/-- Arguments of SET_LINE that are in range. -/
def lineArgs (n : Half) (enable kind : Byte) : SetLineArgs :=
  { line := n, enable := enable, kind := kind, privacy := 0, cadence := 0, rxGain := 4096, txGain := 4096, prime := 4
    persistence := 3, deadTime := 100, knockTime := 10 }

theorem test_meets_SetLineReplacesTheConfiguration :
    let idle := lineIs 255 .idle running
    let knocks := line 255 (fun r => { r with cfg := { r.cfg with kind := .knock } }) idle
    let on := lineArgs 255#16 1#8 0#8
    let off := lineArgs 255#16 0#8 0#8
    (Turn (.setLine on) true State.reset ∧ Turn (.setLine on) true running ∧ Turn (.setLine on) true idle ∧
      Turn (.setLine off) true idle ∧ Turn (.setLine on) true knocks ∧ Turn (.setLine off) true (lineIs 255 .held running)) ∧
    (256 ≤ (256#16).toNat ∧ 3 ≤ (3#8).toNat ∧ 8 ≤ (8#8).toNat) ∧
    (lineKindArg 0#8 = some .signalled ∧ privacyArg 0#8 = some .shared ∧ lineKindArg 1#8 = some .knock) ∧
    ((lineIs 255 .held running).floor.lsv.get 255).cfg.enable = true ∧
    (idle.floor.lsv.get 255).state ∈ [LineState.disabled, .idle, .fault] ∧
    (knocks.floor.lsv.get 255).cfg.kind = .knock ∧ (running.floor.lsv.get 255).state = .disabled ∧
    ((lineIs 255 .held running).floor.lsv.get 255).state ∉ [LineState.disabled, .idle, .fault] := by
  simp only [turn_iff]; decide +kernel

theorem test_meets_RingOutStartsAndStops :
    let knocks := line 255 (fun r => { r with cfg := { r.cfg with kind := .knock } })
      (cadence 7 { segments := [(1, 1)], repeats := 1 } (lineIs 255 .idle running))
    let x : RingOut := { segments := [(1, 1)], repeats := 1, segment := 0, on := true, framesLeft := 1, cyclesLeft := 1 }
    let rings := line 255 (fun r => { r with ringOut := some x }) knocks
    (∀ s ∈ [running, knocks, rings, lineIs 255 .idle running],
      Turn (.ringOut 255#16 7#8) false s ∧ Turn (.ringStop 255#16) false s) ∧
    (256 ≤ (256#16).toNat ∧ 8 ≤ (8#8).toNat) ∧ ((lineIs 255 .idle running).floor.lsv.get 255).cfg.kind ≠ .knock ∧
    ((knocks.floor.lsv.get 255).cfg.kind = .knock ∧
      (knocks.floor.lsv.get 255).state ∉ [LineState.disabled, .fault, .test] ∧
      (knocks.floor.lsv.get 255).state ≠ .alerting ∧ (knocks.floor.cnc.cadences.get 7).repeats ≠ 0 ∧
      (knocks.floor.lsv.get 255).ringOut = none) ∧
    ((rings.floor.lsv.get 255).cfg.kind = .knock ∧ (rings.floor.lsv.get 255).ringOut = some x) := by
  simp only [turn_iff]; decide +kernel

theorem test_meets_LoopTestsAndFlush :
    let idle := lineIs 255 .idle running
    let x : RingOut := { segments := [(1, 1)], repeats := 1, segment := 0, on := true, framesLeft := 1, cyclesLeft := 1 }
    let rings := line 255 (fun r => { r with ringOut := some x }) idle
    (∀ s ∈ [running, idle, rings, lineIs 255 .test running],
      Turn (.loopTest 255#16) false s ∧ Turn (.endTest 255#16) false s ∧ Turn (.flush 255#16) false s) ∧
    256 ≤ (256#16).toNat ∧ (running.floor.lsv.get 255).state = .disabled ∧
    ((lineIs 255 .test running).floor.lsv.get 255).state = .test ∧
    ((idle.floor.lsv.get 255).state = .idle ∧ (idle.floor.lsv.get 255).ringOut = none) ∧
    ((rings.floor.lsv.get 255).state = .idle ∧ (rings.floor.lsv.get 255).ringOut ≠ none) := by
  simp only [turn_iff]; decide +kernel

/-- Arguments of SET_APPEARANCE. -/
def appearanceArgs (p : Byte) (l : Half) (present ring : Byte) : SetAppearanceArgs :=
  { position := p, line := l, present := present, ring := ring, speaker := 0 }

theorem test_meets_SetAppearanceFollowsAnAlertingLine :
    let alerting := lineIs 255 .alerting running
    let rings := appearance 31 255 { ring := true, speaker := false } alerting
    let many : Table 256 (Option Appearance) := Table.ofFn (fun l =>
      if l.val < 96 then some { ring := false, speaker := false } else none)
    let crowded := inCnc (fun c => { c with appearances := c.appearances.set 31 many }) running
    let on := appearanceArgs 31#8 255#16 1#8 1#8
    (∀ s ∈ [running, alerting, rings, crowded], ∀ a ∈ [on, appearanceArgs 31#8 255#16 0#8 0#8],
      Turn (.setAppearance a) false s) ∧
    (32 ≤ (32#8).toNat ∧ 256 ≤ (256#16).toNat) ∧
    (96 ≤ presentCount crowded.floor.cnc 31 ∧ (crowded.floor.cnc.appearances.get 31).get 255 = none) ∧
    presentCount running.floor.cnc 31 < 96 ∧ (running.floor.lsv.get 255).state ≠ .alerting ∧
    (alerting.floor.lsv.get 255).state = .alerting ∧ (alerting.floor.cnc.appearances.get 31).get 255 = none ∧
    ((rings.floor.cnc.appearances.get 31).get 255).map Appearance.ring = some true := by
  simp only [turn_iff]; decide +kernel

theorem test_meets_SetCadenceReplacesTheCadence :
    let a (n : Byte) : SetCadenceArgs := { cadence := 7, count := n, segments := Table.fill 4 (1, 1), repeats := 1 }
    (∀ n ∈ [0#8, 1#8, 4#8, 5#8], Turn (.setCadence (a n)) false running) ∧ 8 ≤ (8#8).toNat ∧
    ((0#8).toNat = 0 ∧ 4 < (5#8).toNat) ∧ (0 < (1#8).toNat ∧ (4#8).toNat ≤ 4) := by simp only [turn_iff]; decide +kernel

/-! ### Orders of positions and calls -/

/-- Arguments of SET_POSITION that are in range. -/
def positionArgs (p nesting : Byte) : SetPositionArgs :=
  { position := p, autoHold := 1, ringerSide := 2, announceChannel := 7, nesting := nesting, halfPeriod := 20
    recallTime := 0, volumeA := 0, volumeB := 0, micGainA := 0, micGainB := 0, deskGain := 0, sideLeft := 0
    sideRight := 0, ringAmplitude := 0xFFFF }

theorem test_meets_SetPositionReplacesTheSettings :
    let preempted := channel 31 0 (fun r => { r with stack := [r.current] }) running
    (∀ s ∈ [State.reset, running, preempted], ∀ n ∈ [0#8, 1#8, 2#8], Turn (.setPosition (positionArgs 31#8 n)) true s) ∧
    (32 ≤ (32#8).toNat ∧ 2 ≤ (2#8).toNat ∧ 3 ≤ (3#8).toNat ∧ 8 ≤ (8#8).toNat) ∧
    (onOffArg 1#8 = some true ∧ ringerSideArg 2#8 = some .both ∧ nestingArg 1#8 = some .equalOrHigher) ∧
    Nesting.equalOrHigher ≠ (preempted.floor.cnc.settings.get 31).nesting ∧
    ((preempted.floor.cnc.channels.get 31).get 0).stack ≠ [] ∧
    nestingArg 0#8 = some (running.floor.cnc.settings.get 31).nesting := by simp only [turn_iff]; decide +kernel

/-- Position 0 with handset 0 off-hook and an appearance of line 5, which is IDLE. -/
def atDesk : State := appearance 0 5 { ring := true, speaker := true } (lineIs 5 .idle (offHook 0 running))

theorem test_meets_SelectChecksInOrder :
    let grouped := group 63 (fun r => { r with roster := 1#32 }) (offHook 0 running)
    let member := connected 0 319 grouped
    (∀ s ∈ [running, atDesk, connected 0 5 atDesk], Turn (.select 0#8 5#16 true) false s) ∧
    (∀ s ∈ [running, offHook 0 running, grouped, member], Turn (.select 0#8 319#16 true) false s) ∧
    (64 ≤ (64#8).toNat ∧ 352 ≤ (352#16).toNat) ∧ (320 ≤ (320#16).toNat ∧ (351#16).toNat < 352) ∧
    selectCode running.floor 0 5 = some .onHook ∧
    (selectCode (connected 0 5 atDesk).floor 0 5 = none ∧
      activeBridge (connected 0 5 atDesk).floor.cnc 0 = some (lineBridge 5)) ∧
    ((319#16).toNat = 256 + (63 : GroupNo).val ∧ selectGroupCode running.floor 0 63 = some .onHook ∧
      selectGroupCode (offHook 0 running).floor 0 63 = some .notRostered) ∧
    (selectGroupCode member.floor 0 63 = none ∧ activeBridge member.floor.cnc 0 = some (groupBridge 63)) := by
  simp only [turn_iff]; decide +kernel

theorem test_meets_SelectConnectsTheHandset :
    let moves := appearance 0 6 { ring := true, speaker := true } (lineIs 6 .alerting (connected 0 5 atDesk))
    let back := holding 0 5 (lineIs 5 .held (up 0 atDesk))
    let again := handset 0 { state := .idle, active := none
                             stack := [{ bridge := 5, holdFrame := 0, recalled := true }] } back
    let grouped := group 63 (fun r => { r with roster := 1#32 }) (offHook 0 running)
    let waits := holding 0 319 grouped
    (Turn (.select 0#8 5#16 true) false atDesk ∧ selectCode atDesk.floor 0 5 = none ∧
      activeBridge atDesk.floor.cnc 0 ≠ some (lineBridge 5) ∧ ¬ HeldOn atDesk.floor 0 (lineBridge 5)) ∧
    (Turn (.select 0#8 6#16 false) false moves ∧ selectCode moves.floor 0 6 = none ∧
      activeBridge moves.floor.cnc 0 ≠ some (lineBridge 6) ∧ ¬ HeldOn moves.floor 0 (lineBridge 6)) ∧
    (∀ s ∈ [back, again], Turn (.select 0#8 5#16 true) false s ∧ selectCode s.floor 0 5 = none ∧
      activeBridge s.floor.cnc 0 ≠ some (lineBridge 5) ∧ Waits s.floor 0 (lineBridge 5) 1) ∧
    ((∃ e ∈ (again.floor.cnc.handsets.get 0).stack, e.bridge = lineBridge 5 ∧ e.recalled = true) ∧
      ∀ k ∈ [(1 : HandsetNo)], (again.floor.cnc.handsets.get k).stack = []) ∧
    (∀ s ∈ [grouped, waits], Turn (.select 0#8 319#16 true) false s ∧ selectGroupCode s.floor 0 63 = none ∧
      activeBridge s.floor.cnc 0 ≠ some (groupBridge 63)) ∧
    (¬ HeldOn grouped.floor 0 (groupBridge 63) ∧ Waits waits.floor 0 (groupBridge 63) 1) := by
  simp only [turn_iff, HeldOn]; decide +kernel

theorem test_meets_CallGroupAlertsTheRoster :
    let s := group 63 (fun r => { r with roster := 3#32, timeout := 120 }) (offHook 0 running)
    let joined := connected 0 319 (group 63 (fun r => { r with state := .calling }) s)
    let active := member 1 (.handset 2) 319 .active (group 63 (fun r => { r with state := .active }) s)
    let moves := connected 0 5 s
    (∀ x ∈ [running, s, joined, active, moves], Turn (.callGroup 0#8 63#8 true) false x) ∧
    (64 ≤ (64#8).toNat ∧ groupBridge 63 = 319) ∧ selectGroupCode running.floor 0 63 = some .onHook ∧
    (selectGroupCode joined.floor 0 63 = none ∧ activeBridge joined.floor.cnc 0 = some (groupBridge 63)) ∧
    (selectGroupCode active.floor 0 63 = none ∧ activeBridge active.floor.cnc 0 ≠ some (groupBridge 63) ∧
      (active.floor.cnc.groups.get 63).state ≠ .idle) ∧
    (selectGroupCode moves.floor 0 63 = none ∧ activeBridge moves.floor.cnc 0 ≠ some (groupBridge 63) ∧
      (moves.floor.cnc.groups.get 63).state = .idle ∧ ¬ HeldOn moves.floor 0 (groupBridge 63)) ∧
    (selectGroupCode s.floor 0 63 = none ∧ (s.floor.cnc.handsets.get 0).active = none ∧
      (s.floor.cnc.groups.get 63).state = .idle ∧ (s.floor.cnc.bridges.get 319).members = [] ∧
      ¬ HeldOn s.floor 0 (groupBridge 63) ∧ freeSlot s.floor.cnc = some 0 ∧
      ∀ q, s.floor.cnc.ringLists.get q = []) := by
  simp only [turn_iff, HeldOn]; decide +kernel

theorem test_meets_HoldPushesAndRetrievePops :
    let talking := connected 0 5 (up 0 running)
    let e : HoldEntry := { bridge := 6, holdFrame := 0, recalled := false }
    let full := handset 0 { state := .connected, active := some 0, stack := [e, e, e, e] } talking
    let waits := holding 0 5 (up 0 running)
    (∀ s ∈ [running, talking, full, waits, offHook 0 running],
      Turn (.hold 0#8) false s ∧ Turn (.retrieve 0#8) false s) ∧ 64 ≤ (64#8).toNat ∧
    activeBridge running.floor.cnc 0 = none ∧
    (activeBridge full.floor.cnc 0 ≠ none ∧ 4 ≤ (full.floor.cnc.handsets.get 0).stack.length) ∧
    (activeBridge talking.floor.cnc 0 = some 5 ∧ (talking.floor.cnc.handsets.get 0).stack.length < 4 ∧
      (talking.floor.cnc.handsets.get 0).active = some 0 ∧ handsetSlot talking.floor.cnc 5 0 = some 0) ∧
    (running.floor.plp.links.get 0).up = false ∧ ((offHook 0 running).floor.cnc.handsets.get 0).stack = [] ∧
    ((waits.floor.plp.links.get 0).up = true ∧ (waits.floor.cnc.handsets.get 0).state ≠ .onHook ∧
      (waits.floor.cnc.handsets.get 0).stack = { e with bridge := 5 } :: [] ∧ Waits waits.floor 0 5 1) := by
  simp only [turn_iff]; decide +kernel

theorem test_meets_ReleaseAndDropHeldRemoveTheMember :
    let talking := connected 0 5 (up 0 running)
    let waits := holding 0 351 (up 0 running)
    (∀ s ∈ [running, talking, waits], Turn (.release 0#8) false s ∧ Turn (.dropHeld 0#8 351#16) false s) ∧
    (64 ≤ (64#8).toNat ∧ 352 ≤ (352#16).toNat) ∧ activeBridge running.floor.cnc 0 = none ∧
    (activeBridge talking.floor.cnc 0 = some 5 ∧ (talking.floor.cnc.handsets.get 0).active = some 0) ∧
    (∀ e ∈ (talking.floor.cnc.handsets.get 0).stack, e.bridge ≠ 351) ∧
    (∃ e ∈ (waits.floor.cnc.handsets.get 0).stack, e.bridge = 351) ∧
    handsetSlot waits.floor.cnc 351 0 = some 1 ∧
    (let s := group 63 (fun r => { r with state := .calling }) (connected 0 319 (up 0 running))
     Turn (.release 0#8) false s ∧ activeBridge s.floor.cnc 0 = some (groupBridge 63) ∧
      (s.floor.cnc.handsets.get 0).active = some 0 ∧
      (handsetMembers s.floor.cnc (groupBridge 63)).map (fun x => x.1) = [0] ∧
      (s.floor.cnc.groups.get 63).state ≠ .idle) := by simp only [turn_iff]; decide +kernel

/-- Moves between calls that agree: to a new bridge with no call and with one on a line, to a held one with and without. -/
theorem test_meets_moves :
    let desk := appearance 0 6 { ring := true, speaker := true } (lineIs 6 .idle atDesk)
    let moves := connected 0 5 desk
    let back := holding 0 5 (lineIs 5 .held (up 0 desk))
    let both := handset 0 { state := .connected, active := some 0
                            stack := [{ bridge := 5, holdFrame := 0, recalled := false }] }
      (member 0 (.handset 0) 6 .active back)
    let other := 6
    (CallsSound desk.floor.cnc 0 ∧ Turn (.select 0#8 5#16 true) false desk ∧ selectCode desk.floor 0 5 = none ∧
      activeBridge desk.floor.cnc 0 ≠ some (lineBridge 5) ∧ ¬ HeldOn desk.floor 0 (lineBridge 5)) ∧
    (CallsSound moves.floor.cnc 0 ∧ Turn (.select 0#8 6#16 true) false moves ∧ selectCode moves.floor 0 other = none ∧
      activeBridge moves.floor.cnc 0 = some (lineBridge 5) ∧ lineBridge 5 ≠ lineBridge other ∧
      (∀ k, (stackAfter moves.floor 0 (lineBridge other)).2 ≠ .released (groupBridge k)) ∧
      Touched moves.floor 0 (lineBridge other) 5 ∧ Touched moves.floor 0 (lineBridge other) 6 ∧
      ¬ Touched moves.floor 0 (lineBridge other) 7) ∧
    (CallsSound back.floor.cnc 0 ∧ Waits back.floor 0 (lineBridge 5) 1) ∧
    (CallsSound both.floor.cnc 0 ∧ Turn (.retrieve 0#8) false both ∧ Turn (.select 0#8 5#16 true) false both ∧
      selectCode both.floor 0 5 = none ∧ HeldAt both.floor 0 (lineBridge 5) 1 ∧
      activeBridge both.floor.cnc 0 = some (lineBridge other)) := by
  intro desk moves back both other
  have pool : PoolSound desk.floor.cnc := poolSound_congr reset_poolSound rfl fun _ => rfl
  have desks : CallsSound desk.floor.cnc 0 :=
    ⟨pool, channelsOwnMembers_of_none (by decide +kernel), ownActive_of_none (by decide +kernel)⟩
  have backs : CallsSound back.floor.cnc 0 :=
    holding_sound pool (by decide +kernel) (channelsOwnMembers_of_none (by decide +kernel))
  have boths : CallsSound both.floor.cnc 0 :=
    ⟨poolSound_congr (member_poolSound backs.pool 0 (.handset 0) 6 .active (by decide +kernel)) rfl fun _ => rfl,
      channelsOwnMembers_of_none (by decide +kernel),
      ownActive_of 0 { kind := .handset 0, bridge := 6, mode := .active, joinFrame := 0 } (by decide +kernel)
        (by decide +kernel) rfl⟩
  refine ⟨⟨desks, ?_⟩, ⟨connected_sound pool (by decide +kernel) (channelsOwnMembers_of_none (by decide +kernel)), ?_⟩,
    ⟨backs, by decide +kernel⟩, boths, ?_, ?_, by decide +kernel, ⟨?_, by decide +kernel, by decide +kernel, Or.inr
      ⟨boths, by decide +kernel⟩⟩, by decide +kernel⟩
  · simp only [turn_iff, HeldOn]; decide +kernel
  · simp only [turn_iff, Touched]; decide +kernel
  · simp only [turn_iff]; decide +kernel
  · simp only [turn_iff]; decide +kernel
  · unfold HeldOn; decide +kernel

/-- Calls held, released and dropped, on a line and on a group, the members sound. -/
theorem test_meets_calls_held_and_released :
    let group := connected 0 319 (up 0 running)
    let heldLine := holding 0 5 (up 0 running)
    let heldGroup := holding 0 319 (up 0 running)
    (∀ s ∈ [oneCall, group], Turn (.hold 0#8) false s ∧ Turn (.release 0#8) false s ∧
      (s.floor.cnc.handsets.get 0).active = some 0 ∧ (s.floor.cnc.handsets.get 0).stack.length < 4) ∧
    (activeBridge oneCall.floor.cnc 0 = some (lineBridge 5) ∧ handsetSlot oneCall.floor.cnc (lineBridge 5) 0 = some 0 ∧
      oneCall.floor.cnc.pool.get 0 = some { kind := .handset 0, bridge := 5, mode := .active, joinFrame := 0 }) ∧
    activeBridge group.floor.cnc 0 = some (groupBridge 63) ∧
    (Turn (.dropHeld 0#8 5#16) false heldLine ∧ handsetSlot heldLine.floor.cnc 5 0 = some 1 ∧
      slotBridge heldLine.floor.cnc 1 = some (lineBridge 5) ∧ ∃ e ∈ (heldLine.floor.cnc.handsets.get 0).stack, e.bridge = 5) ∧
    (Turn (.dropHeld 0#8 319#16) false heldGroup ∧ groupBridge 63 = 319 ∧
      ∃ e ∈ (heldGroup.floor.cnc.handsets.get 0).stack, e.bridge = 319) ∧
    PoolSound heldGroup.floor.cnc := by
  refine ⟨?_, by decide +kernel, by decide +kernel, ?_, ?_,
    (holding_sound reset_poolSound (by decide +kernel) (channelsOwnMembers_of_none (by decide +kernel))).pool⟩ <;>
  · simp only [turn_iff]; decide +kernel

/-! ### Orders of groups, hoots and speakers -/

theorem test_meets_SetGroupReplacesTheRoster :
    let a (m : Word) : SetGroupArgs := { group := 63, cadence := 7, timeout := 0, roster := m }
    let alerted := group 63 (fun r => { r with roster := 3#32, alerted := 2#32, timer := some 9 }) running
    (∀ s ∈ [running, alerted], ∀ x ∈ [a 1#32, a 0xFF#32, a 0x1FF#32], Turn (.setGroup x) false s) ∧
    (64 ≤ (64#8).toNat ∧ 8 ≤ (8#8).toNat) ∧ 8 < (maskPositions 0x1FF#32).length ∧ (maskPositions 0xFF#32).length ≤ 8 ∧
    ((inMask (alerted.floor.cnc.groups.get 63).roster 1 && !inMask 1#32 1) = true ∧
      inMask (alerted.floor.cnc.groups.get 63).alerted 1 = true) := by simp only [turn_iff]; decide +kernel

/-- Channel 7 of position 1 hears a bridge by the member in slot 0, under an announcement or alone, assigned or not. -/
def hearsAt (b : BridgeNo) (origin : EntryOrigin) (below : Bool) (s : State) : State :=
  let e : ChannelEntry := { ChannelEntry.initial 7 with source := some b, origin := origin, member := some 0 }
  let top : ChannelEntry := { ChannelEntry.initial 7 with source := some 5, origin := .announced, priority := 1 }
  channel 1 7 (fun _ => if below then { current := top, stack := [e] } else { current := e, stack := [] })
    (member 0 (.speaker 1 7) b (if below then .suspended else .active) s)

theorem test_meets_SetGroupReplacesTheRoster_speaker :
    let a : SetGroupArgs := { group := 63, cadence := 7, timeout := 0, roster := 1#32 }
    let s (o : EntryOrigin) (below : Bool) := hearsAt 319 o below (group 63 (fun r => { r with roster := 3#32 }) running)
    let entries (s : State) := ((s.floor.cnc.channels.get 1).get 7).current :: ((s.floor.cnc.channels.get 1).get 7).stack
    (∀ below ∈ [true, false], Turn (.setGroup a) false (s .assigned below) ∧
      (speakerMember (s .assigned below).floor.cnc (groupBridge 63) 1).map Prod.fst = some 0 ∧
      ∃ e ∈ entries (s .assigned below), e.origin = .assigned ∧ e.member = some 0) ∧
    (inMask 3#32 1 && !inMask a.roster 1) = true ∧
    ((s .assigned false).floor.cnc.channels.get 1 |>.get 7).current.member = some 0 ∧
    (Turn (.setGroup a) false (s .announced false) ∧
      (speakerMember (s .announced false).floor.cnc (groupBridge 63) 1).map Prod.fst = some 0 ∧
      ∀ e ∈ entries (s .announced false), e.origin = .assigned → e.member ≠ some 0) := by
  simp only [turn_iff]; decide +kernel

/-- Arguments of SET_HOOT with two legs. -/
def hootArgs (count : Byte) (leg0 leg1 : Half) : SetHootArgs :=
  { hoot := 31, limit := 1, priority := 1, legCount := count, leg0 := leg0, leg1 := leg1, roster := 1, talk := 1 }

theorem test_meets_SetHootReplacesTheHoot :
    let legs := line 255 (fun r => { r with cfg := { r.cfg with kind := .opened } }) (lineIs 255 .idle running)
    (∀ s ∈ [running, legs], ∀ a ∈ [hootArgs 0#8 0 0, hootArgs 1#8 255 0, hootArgs 2#8 256 0, hootArgs 2#8 255 255,
      hootArgs 3#8 255 254], Turn (.setHoot a) false s) ∧
    (32 ≤ (32#8).toNat ∧ 256 ≤ (256#16).toNat) ∧
    ([255#16, 255#16].map BitVec.toNat = ([255, 255] : List LineNo).map Fin.val ∧ ¬ ([255, 255] : List LineNo).Nodup) ∧
    2 < (3#8).toNat ∧ (running.floor.lsv.get 255).cfg.kind ≠ .opened ∧
    ((legs.floor.lsv.get 255).cfg.kind = .opened ∧ (legs.floor.lsv.get 255).state = .idle ∧
      (legs.floor.cnc.bridges.get (lineBridge 255)).members = [] ∧ 255 ∉ (legs.floor.cnc.hoots.get 31).legs) ∧
    talkerCount legs.floor.cnc 31 ≤ clampTo 1 4 1 := by simp only [turn_iff]; decide +kernel

/-- Positions 2 and 1 talk on hoot 31 and position 3 waits; the order leaves rights to positions 0 to 2 and one talker. -/
theorem test_meets_SetHootReplacesTheHoot_talks :
    let talks (p : PositionNo) (x : TalkStatus) := talk p { target := some 31, key := true, status := x }
    let s := talks 1 .talking (talks 2 .talking (talks 3 .queued (member 0 (.mic 1) 351 .active (member 1 (.mic 2) 351 .active
      (hoot 31 (fun r => { r with roster := 15#32, talk := 15#32, limit := 2, queue := [3] }) running)))))
    let a : SetHootArgs := { hootArgs 0#8 0 0 with roster := 7#32, talk := 7#32 }
    let talkers := (micMembers s.floor.cnc (hootBridge 31)).map (fun x => x.2)
    Turn (.setHoot a) false s ∧ a.hoot.toNat = (31 : HootNo).val ∧ talkers = [2, 1] ∧ talkers.Nodup ∧
    ((s.floor.cnc.talks.get 3).target = some 31 ∧ inMask (s.floor.cnc.hoots.get 31).roster 3 = true ∧
      inMask (s.floor.cnc.hoots.get 31).talk 3 = true ∧ inMask a.roster 3 = false) ∧
    (3 ∈ (s.floor.cnc.hoots.get 31).queue ∧ (s.floor.cnc.talks.get 3).status = .queued ∧ 3 ∉ talkers) ∧
    ((∀ p ∈ (s.floor.cnc.hoots.get 31).queue, (s.floor.cnc.talks.get p).status = .queued) ∧
      (∀ p ∈ talkers, (s.floor.cnc.talks.get p).status = .talking) ∧
      talkers.drop (clampTo 1 4 a.limit.toNat) = [1]) := by simp only [turn_iff]; decide +kernel

/-- Two legs that the order does not name, one with FAULT accepted, and a position off the roster with its speaker. -/
theorem test_meets_SetHootReplacesTheHoot_losses :
    let leg (l : LineNo) (code : Code) := line l (fun r => { r with
      cfg := { r.cfg with kind := .opened }, state := .leg, accepted := code })
    let s (o : EntryOrigin) := hearsAt 351 o false (hoot 31 (fun r => { r with roster := 3#32, legs := [7, 255] })
      (leg 7 .quiet (leg 255 .quiet running)))
    let bad := leg 255 .fault (s .assigned)
    let a := hootArgs 0#8 0 0
    let entries (s : State) := ((s.floor.cnc.channels.get 1).get 7).current :: ((s.floor.cnc.channels.get 1).get 7).stack
    (∀ x ∈ [s .assigned, s .announced, bad], Turn (.setHoot a) false x ∧ (x.floor.cnc.hoots.get 31).legs = [7, 255] ∧
      inMask (x.floor.cnc.hoots.get 31).roster 1 = true ∧ inMask a.roster 1 = false ∧
      ∀ l ∈ [(7 : LineNo), 255], (x.floor.cnc.bridges.get (lineBridge l)).members = []) ∧
    (∀ o ∈ [EntryOrigin.assigned, .announced], ∀ l ∈ [(7 : LineNo), 255], ((s o).floor.lsv.get l).accepted ≠ .fault) ∧
    (bad.floor.lsv.get 255).accepted = .fault ∧
    ((speakerMember (s .assigned).floor.cnc (hootBridge 31) 1).map Prod.fst = some 0 ∧
      ∃ e ∈ entries (s .assigned), e.origin = .assigned ∧ e.member = some 0) ∧
    ((speakerMember (s .announced).floor.cnc (hootBridge 31) 1).map Prod.fst = some 0 ∧
      ∀ e ∈ entries (s .announced), e.origin = .assigned → e.member ≠ some 0) := by
  simp only [turn_iff]; decide +kernel

theorem test_meets_PttTargetIsWrittenAlone :
    let allowed := hoot 31 (fun r => { r with roster := 0x80000000#32, talk := 0x80000000#32 }) running
    let busy := talk 31 { target := some 31, key := true, status := .queued } running
    (∀ s ∈ [running, allowed, busy], Turn (.pttTarget 31#8 31#8) false s ∧ Turn (.pttTarget 31#8 255#8) false s) ∧
    (32 ≤ (32#8).toNat ∧ (254#8).toNat ≠ 255) ∧ (busy.floor.cnc.talks.get 31).status ≠ .idle ∧
    ((running.floor.cnc.talks.get 31).status = .idle ∧ inMask (running.floor.cnc.hoots.get 31).roster 31 = false) ∧
    ((allowed.floor.cnc.talks.get 31).status = .idle ∧ inMask (allowed.floor.cnc.hoots.get 31).roster 31 = true ∧
      inMask (allowed.floor.cnc.hoots.get 31).talk 31 = true) := by simp only [turn_iff]; decide +kernel

/-- Arguments of ASSIGN_SPEAKER on channel 0 of position 0. -/
def assignArgs (source : Half) (side : Byte) : AssignArgs :=
  { position := 0, channel := 0, source := source, gain := 4096, side := side }

/-- Channel 0 of position 0 on line 5, by the member in slot 0. -/
def listens : State := channel 0 0 (fun r => { r with
  current := { r.current with source := some 5, member := some 0 } }) (member 0 (.speaker 0 0) 5 .active atDesk)

theorem test_meets_SpeakersTakeTheirSourceAndGain :
    (∀ s ∈ [running, atDesk, listens], (∀ a ∈ [assignArgs 5 0, assignArgs 0xFFFF 1, assignArgs 351 2],
      Turn (.assignSpeaker a) false s) ∧ Turn (.speakerGain 31#8 7#8 8191#16) false s) ∧
    (32 ≤ (32#8).toNat ∧ 8 ≤ (8#8).toNat ∧ 352 ≤ (352#16).toNat ∧ 2 ≤ (2#8).toNat) ∧
    (sideArg 0#8 = some .left ∧ sideArg 1#8 = some .right) ∧
    (((listens.floor.cnc.channels.get 0).get 0).stack = [] ∧
      ((listens.floor.cnc.channels.get 0).get 0).current.source ≠ none ∧
      ((listens.floor.cnc.channels.get 0).get 0).current.member = some 0) ∧
    assignCode running.floor 0 0 5 = some .noAppearance ∧
    (assignCode listens.floor 0 0 5 = none ∧ ((listens.floor.cnc.channels.get 0).get 0).current.source = some 5) ∧
    (assignCode atDesk.floor 0 0 5 = none ∧ ((atDesk.floor.cnc.channels.get 0).get 0).current.source ≠ some 5) := by
  simp only [turn_iff]; decide +kernel

/-- The cut condition: a PRIVATE line with a call, one without, a SHARED line; and SPEAKER members under it. -/
theorem test_meets_SpeakersTakeTheirSourceAndGain_cut :
    let s (m : Mode) := overheard m oneCall
    (∀ m ∈ [Mode.active, .cut], HeldBy (s m).floor 5 0 ∧
      SpeakerOn (s m).floor 5 2 { kind := .speaker 1 7, bridge := 5, mode := m, joinFrame := 0 } 1 7) ∧
    NotHeld (overheard .active running).floor 5 ∧ NotHeld oneCall.floor 5 ∧ 256 ≤ (256 : BridgeNo).val := by
  simp only [HeldBy, NotHeld, SpeakerOn]; decide +kernel

/-- No slot of the pool is free. -/
def fillPool : State → State := inCnc (fun c => { c with pool := Table.fill 1024 (some
  { kind := .mic 0, bridge := 351, mode := .active, joinFrame := 0 }) })
def noSlot : State := fillPool running

/-- A source replaced by another with a full pool. -/
theorem test_meets_SpeakersTakeTheirSourceAndGain_full :
    let s := fillPool (channel 0 0 (fun r => { r with
      current := { r.current with source := some 6, member := some 1023 } }) atDesk)
    Turn (.assignSpeaker (assignArgs 5 0)) false s ∧ assignCode s.floor 0 0 5 = none ∧
      ((s.floor.cnc.channels.get 0).get 0).current.source ≠ some 5 ∧
      ((s.floor.cnc.channels.get 0).get 0).current.member = some 1023 := by simp only [turn_iff]; decide +kernel

theorem test_meets_SpeakersTakeTheirSourceAndGain_no_slot (s : State) : freeSlot (fillPool s).floor.cnc = none := by
  simp [freeSlot, fillPool, inCnc, inFloor]
/-- Channel 0 of position 31, its announce channel, with a priority, a number of saved entries and a nesting. -/
def announced (priority saved : Nat) (nesting : Nesting) : State :=
  settings 31 (fun r => { r with nesting := nesting }) (channel 31 0 (fun r =>
    { current := { r.current with priority := priority }, stack := List.replicate saved r.current }) running)
/-- Position 31 hears hoot 31 on channel 3, by the member in slot 0. -/
def hears (m : Mode) : State := member 0 (.speaker 31 3) 351 m running

theorem test_meets_AnnounceReachesThePositionsItMay :
    (∀ s ∈ [running, noSlot, hears .active, hears .cut, announced 0 2 .higherOnly, announced 0 3 .higherOnly,
        announced 2 0 .higherOnly, announced 1 0 .equalOrHigher],
      s.due = [] ∧ mayTake (.announce 351#16 0#8 (maskOf 31)) false s = true) ∧
    352 ≤ (352#16).toNat ∧ 7 < (8#8).toNat ∧ (bridgeKind 0 = .line 0 ∧ (running.floor.lsv.get 0).state = .disabled) ∧
    (bridgeKind (hootBridge 31) = .hoot 31 ∧ (running.floor.cnc.hoots.get 31).priority = 1 ∧
      (running.floor.cnc.settings.get 31).announceChannel = 0) ∧
    maskOf 31 = 0x80000000#32 := by
  decide +kernel

theorem test_meets_AnnounceReachesThePositionsItMay_rows :
    let current (s : State) := ((s.floor.cnc.channels.get 31).get 0).current
    let reached := announced 0 2 .higherOnly
    let equal := announced 1 0 .equalOrHigher
    let high := announced 2 0 .higherOnly
    (speakerMember reached.floor.cnc 351 31 = none ∧ freeSlot reached.floor.cnc = some 0 ∧
      ((reached.floor.cnc.channels.get 31).get 0).stack.length < 3 ∧ (current reached).priority < 1) ∧
    ((equal.floor.cnc.settings.get 31).nesting = .equalOrHigher ∧ (current equal).priority = 1) ∧
    (speakerMember high.floor.cnc 351 31 = none ∧ ¬ (current high).priority < 1 ∧
      (high.floor.cnc.settings.get 31).nesting ≠ .equalOrHigher) ∧
    (let heard := channel 31 0 (fun r => { r with current := { r.current with source := some 5, member := some 1 } })
       (member 1 (.speaker 31 0) 5 .cut reached)
     (current heard).member = some 1 ∧
      heard.floor.cnc.pool.get 1 = some { kind := .speaker 31 0, bridge := 5, mode := .cut, joinFrame := 0 } ∧
      speakerMember heard.floor.cnc 351 31 = none ∧ freeSlot heard.floor.cnc = some 0) ∧
    3 ≤ (((announced 0 3 .higherOnly).floor.cnc.channels.get 31).get 0).stack.length ∧
    (∀ m ∈ [Mode.active, .cut], speakerMember (hears m).floor.cnc 351 31 =
      some (0, { kind := .speaker 31 3, bridge := 351, mode := m, joinFrame := 0 })) := by decide +kernel

/-- A mask of several positions, sent directly and dispatched by ORU. -/
theorem test_meets_AnnounceReachesThePositionsItMay_several :
    let c := Instr.announce 351#16 0#8 0xC0000000#32
    let d : Dispatched := { kind := 0x1E#8, notify := false, tag := 1#32, order := some c, taken := false, outcome := none
                            codeWritten := false }
    let dispatched := oru (fun o => { o with step := .execute, active := true, next := some 64#64, order := some d }) running
    Turn c false running ∧ Turn c false dispatched ∧ running.oru.order = none ∧ dispatched.oru.order = some d ∧
      bridgeKind 351 = .hoot 31 ∧ (dispatched.floor.cnc.hoots.get 31).priority = 1 ∧
      (0xC0000000#32 = maskOf 30 ||| maskOf 31 ∧ ∀ q, inMask (maskOf 31) q = true → (30 : PositionNo) < q) := by
  simp only [turn_iff]; decide +kernel

theorem test_meets_AnnounceReachesThePositionsItMay_full : freeSlot noSlot.floor.cnc = none := by
  simp [freeSlot, noSlot, fillPool, inCnc, inFloor]

theorem test_meets_EndAnnounceEndsOnEveryChannel :
    let e : ChannelEntry := { source := some 351, origin := .announced, priority := 1, target := 4096, side := .left
                              member := some 0 }
    let below : ChannelEntry := { ChannelEntry.initial 7 with source := some 5, member := some 1 }
    let hears := member 1 (.speaker 31 7) 5 .suspended (member 0 (.speaker 31 7) 351 .active running)
    let s := channel 31 7 (fun _ => { current := e, stack := [below] }) hears
    let saved := channel 31 7 (fun _ => { current := { e with source := some 6, member := none }, stack := [e, below] }) hears
    let mine (x : ChannelEntry) : Bool := x.origin = .announced && x.source = some 351
    let hit (s : State) (x : PositionNo × ChannelNo) : Bool :=
      let r := (s.floor.cnc.channels.get x.1).get x.2
      mine r.current || r.stack.any mine
    (∀ x ∈ [running, s, saved], Turn (.endAnnounce 351#16) false x) ∧ 352 ≤ (352#16).toNat ∧
    (∀ x, hit running x = false) ∧
    (∀ u ∈ [s, saved], (∀ x, hit u x = true → x = (31, 7)) ∧ hit u (31, 7) = true ∧
      u.floor.cnc.pool.get 0 = some { kind := .speaker 31 7, bridge := 351, mode := .active, joinFrame := 0 } ∧
      u.floor.cnc.pool.get 1 = some { kind := .speaker 31 7, bridge := 5, mode := .suspended, joinFrame := 0 }) ∧
    (mine ((s.floor.cnc.channels.get 31).get 7).current = true ∧
      ((s.floor.cnc.channels.get 31).get 7).current.member = some 0 ∧
      ((s.floor.cnc.channels.get 31).get 7).stack = below :: []) ∧
    (mine ((saved.floor.cnc.channels.get 31).get 7).current = false ∧
      ((saved.floor.cnc.channels.get 31).get 7).stack.find? mine = some e ∧ e.member = some 0) := by
  simp only [turn_iff]; decide +kernel

/-- The cut of its members is settled on every bridge of a part that only hears. -/
theorem test_meets_EndAnnounceEndsOnEveryChannel_cut :
    let s := member 1 (.speaker 31 7) 5 .suspended (member 0 (.speaker 31 7) 351 .active running)
    ∀ d, CutSettled s.floor d := by
  intro s d
  by_cases h : d = 5
  · subst h; unfold CutSettled; decide +kernel
  · by_cases k : d = 351
    · subst k; unfold CutSettled; decide +kernel
    · have none : membersOf s.floor.cnc d = [] := by
        simp [s, membersOf, member, inCnc, inFloor, Table.get_upd, Ne.symm h, Ne.symm k, running, State.reset,
          Floor.initial, Cnc.initial, BridgeRec.empty]
      intro x hx
      simp [none] at hx

/-! ### Taps and memory -/

/-- A frame of tap 63 in the staging queue. -/
def staged (snapshot : Nat) : StagedFrame :=
  { tap := 63, number := 0, bridge := none, frame := 0, concealed := false, underflow := false, heldOrIdle := false
    onHook := true, ear := silence, mic := silence, snapshot := snapshot }
def stage (x : StagedFrame) (s : State) : State := { s with tpe := { s.tpe with staging := [x] } }

/-- A tap descriptor in range. -/
def goodDescriptor : List Byte := bytesOf 8 16 ++ bytesOf 2 4096 ++ [16#8, 1#8] ++ zeros 16

theorem test_meets_TapStartSetsTheTapUp :
    let reads := flies .tpe (jobs [.startRead 63] running)
    (Turn (.tapStart 63#8) false running ∧ Turn (.tapStart 63#8) false (tap 63 (fun r => { r with state := .running }) running)) ∧
    64 ≤ (64#8).toNat ∧ ((running.tpe.taps.get 63).state = .stopped ∧ (running.tpe.taps.get 63).closing = false ∧
      running.tpe.staging = [] ∧ running.tpe.jobs = []) ∧
    (Turn (.tapStart 63#8) false (jobs [.closeFilled 0] running) ∧ (jobs [.closeFilled 0] running).tpe.jobs ≠ []) ∧
    (reads.due = [] ∧ reads.tpe.jobs = [.startRead 63] ∧ reads.mpt.tpe.inFlight = some flight ∧ flight.fate = .live) ∧
    (goodDescriptor.length = 28 ∧ fieldAt goodDescriptor 0 8 = 16 ∧ fieldAt goodDescriptor 8 2 = 4096 ∧
      fieldAt goodDescriptor 10 1 = 16 ∧ tapModeArg (fieldAt goodDescriptor 11 1) = some .continuous) ∧
    ((zeros 28).length = 28 ∧ fieldAt (zeros 28) 0 8 = 0) ∧
    (let d := bytesOf 8 16 ++ zeros 20
     d.length = 28 ∧ fieldAt d 0 8 = 16 ∧ fieldAt d 8 2 < 16) ∧
    (∀ j ∈ [TpeJob.startFilled 63, .startTotal 63],
      (flies .tpe (jobs [j] running)).due = [] ∧ (flies .tpe (jobs [j] running)).tpe.jobs = [j] ∧
        (flies .tpe (jobs [j] running)).mpt.tpe.inFlight = some flight) := by simp only [turn_iff]; decide +kernel

theorem test_meets_TapStopStopsAndCloses :
    let on (g : TapRec → TapRec) := tap 63 (fun r => g { r with state := .running }) running
    let open_ := on id
    let filled := on (fun r => { r with granted := true, index := 1 })
    let gap := on (fun r => { r with episode := true })
    (∀ s ∈ [running, open_, filled, gap, stage (staged 0) open_], Turn (.tapStop 63#8) false s) ∧ 64 ≤ (64#8).toNat ∧
    (running.tpe.taps.get 63).state = .stopped ∧ (open_.tpe.taps.get 63).state ≠ .stopped ∧
    (∃ x ∈ (stage (staged 0) open_).tpe.staging, x.tap = 63) ∧ open_.tpe.staging = [] ∧
    ((filled.tpe.taps.get 63).granted = true ∧ 0 < (filled.tpe.taps.get 63).index) ∧
    ((gap.tpe.taps.get 63).granted = false ∧ (gap.tpe.taps.get 63).episode = true) ∧
    ((open_.tpe.taps.get 63).granted = false ∧ (open_.tpe.taps.get 63).episode = false) ∧
    (∀ s ∈ [filled, gap], Turn (.tapStop 63#8) false (jobs [.writeFrame] s) ∧ s.tpe.jobs = [] ∧
      (jobs [.writeFrame] s).tpe.jobs ≠ []) := by
  simp only [turn_iff]; decide +kernel

theorem test_meets_TapsStageTheirFrames :
    let on := tap 63 (fun r => { r with state := .running, mode := .continuous }) running
    let full : State := { on with tpe := { on.tpe with staging := List.replicate 64 (staged 0) } }
    (running.tpe.taps.get 63).state = .stopped ∧
    ((on.tpe.taps.get 63).state ≠ .stopped ∧ (on.tpe.taps.get 63).mode = .continuous ∧ on.tpe.staging.length < 64) ∧
    64 ≤ full.tpe.staging.length ∧
    ((activeBridge (connected 0 5 running).floor.cnc 0).map bridgeKind = some (.line 5) ∧
      (activeBridge (connected 0 319 running).floor.cnc 0).map bridgeKind = some (.group 63) ∧
      activeBridge running.floor.cnc 0 = none) := by decide +kernel

theorem test_meets_TheDrainWritesFramesInOrder :
    let at_ (js : List TpeJob) (k : Nat) (g : TapRec → TapRec) := flies .tpe (stage (staged k) (jobs js
      (tap 63 (fun r => g { r with state := .running, frames := 16, segments := 2 }) running)))
    let takes := stage (staged 0) running
    let idle (g : TapRec → TapRec) := g
    let closes (g : TapRec → TapRec) (r : TapRec) : TapRec := g { r with state := .stopped, closing := true }
    let full (r : TapRec) : TapRec := { r with index := 15 }
    let granted (r : TapRec) : TapRec := { r with granted := true, index := 1 }
    let behind (r : TapRec) : TapRec := { r with filled := 2#32 }
    (takes.due = [] ∧ takes.tpe.staging = staged 0 :: [] ∧ takes.tpe.jobs = [] ∧ running.tpe.staging = [] ∧
      (jobs [.writeFrame] takes).tpe.jobs ≠ [] ∧ (staged 0).tap = 63) ∧
    (∀ j ∈ [TpeJob.readReturned, .writeFrame, .gapTotal 63, .segmentFilled 63, .closeFilled 63, .closeTotal 63],
      ∀ g ∈ [idle id, closes id, closes granted, full, behind], ∀ k ∈ [0, 1],
      let s := at_ [j] k g
      s.due = [] ∧ s.mpt.tpe.inFlight = some flight ∧ flight.fate = .live ∧ s.tpe.jobs = j :: [] ∧
        s.tpe.staging = staged k :: []) ∧
    (let r := (at_ [.readReturned] 0 id).tpe.taps.get 63
     (r.filled - 0#32).toNat < r.segments ∧ r.closing = false) ∧
    (let r := (at_ [.readReturned] 0 behind).tpe.taps.get 63
     r.segments ≤ (r.filled - 0#32).toNat) ∧
    (let r := (at_ [.writeFrame] 0 id).tpe.taps.get 63
     min 4294967295 (r.pendingDrops + (staged 0).snapshot) = 0 ∧ r.index + 1 < r.frames ∧
       0 < min 4294967295 (r.pendingDrops + (staged 1).snapshot)) ∧
    (let r := (at_ [.writeFrame] 1 full).tpe.taps.get 63
     r.frames ≤ r.index + 1 ∧ 0 < min 4294967295 (r.pendingDrops + (staged 1).snapshot)) ∧
    (let r := (at_ [.gapTotal 63] 0 (closes granted)).tpe.taps.get 63
     r.closing = true ∧ r.granted = true ∧ 0 < r.index ∧ r.episode = false) ∧
    (let r := (at_ [.gapTotal 63] 0 (closes id)).tpe.taps.get 63
     r.closing = true ∧ r.granted = false ∧ r.index = 0 ∧
       ({ r with episode := true } : TapRec).episode = true) ∧
    ((at_ [.gapTotal 63, .segmentFilled 63] 1 full).tpe.jobs = .gapTotal 63 :: .segmentFilled 63 :: [] ∧
      ∀ k, ([] : List TpeJob).head? ≠ some (.segmentFilled k)) ∧
    (let twice : State := { at_ [.gapTotal 63] 0 (closes id) with
       tpe := { (at_ [.gapTotal 63] 0 (closes id)).tpe with staging := [staged 0, staged 0] } }
     twice.tpe.staging = staged 0 :: [staged 0] ∧ ∃ y ∈ [staged 0], y.tap = 63) := by decide +kernel

/-- A tap that changes between RUNNING and DROPPING, and a closing tap's last frame with the jobs of another tap behind it. -/
theorem test_meets_TheDrainWritesFramesInOrder_waiting :
    let at_ (js : List TpeJob) (g : TapRec → TapRec) := flies .tpe (stage (staged 0) (jobs js
      (tap 63 (fun r => g { r with frames := 16, segments := 2 }) running)))
    let is (x : TapState) (n : Word) (r : TapRec) : TapRec := { r with state := x, filled := n }
    let closes (granted : Bool) (r : TapRec) : TapRec := { r with closing := true, granted := granted, index := 1 }
    (∀ x ∈ [at_ [.readReturned] (is .dropping 0), at_ [.readReturned] (is .running 2)],
      x.due = [] ∧ x.mpt.tpe.inFlight = some flight ∧ x.tpe.jobs = [.readReturned] ∧ x.tpe.staging = [staged 0]) ∧
    (let r := (at_ [.readReturned] (is .dropping 0)).tpe.taps.get 63
     r.state = .dropping ∧ (r.filled - 0#32).toNat < r.segments) ∧
    (let r := (at_ [.readReturned] (is .running 2)).tpe.taps.get 63
     r.state = .running ∧ r.segments ≤ (r.filled - 0#32).toNat) ∧
    (∀ g ∈ [true, false], let s := at_ [.writeFrame, .closeFilled 5] (closes g)
     s.due = [] ∧ s.mpt.tpe.inFlight = some flight ∧ flight.fate = .live ∧
      s.tpe.jobs = .writeFrame :: [.closeFilled 5] ∧ s.tpe.staging = staged 0 :: [] ∧
      (s.tpe.taps.get 63).closing = true ∧ (s.tpe.taps.get 63).granted = g ∧ 0 < (s.tpe.taps.get 63).index ∧
      ∀ y ∈ ([] : List StagedFrame), y.tap ≠ 63) := by decide +kernel

theorem test_meets_TheMemoryPortServesInFixedOrder :
    let a : Access := { addr := 0, op := .read 8 }
    let waits : State := { running with mpt := running.mpt.setPort .oru (.asking a) }
    let starts := flies .oru (runState .starting State.reset)
    let with_ (f : Flight) (s : State) : State := { s with mpt := s.mpt.setPort .tpe { waiting := none, inFlight := some f } }
    let write : Flight := { access := { addr := 0, op := .write [1#8] }, fate := .live }
    (waits.due = [] ∧ (waits.mpt.port .oru).waiting = some a ∧ (waits.mpt.port .oru).inFlight = none ∧
      ∀ q ∈ [Requester.tpe, .jnu, .stw], (waits.mpt.port q).waiting = none) ∧
    (∀ q ∈ [Requester.tpe, .jnu, .stw, .oru], (running.mpt.port q).waiting = none) ∧
    (∀ r ∈ [Requester.tpe, .jnu, .stw, .oru], (flies r running).due = [] ∧
      ((flies r running).mpt.port r).inFlight = some flight ∧ flight.fate = .live ∧ flight.access.op = .read 8) ∧
    (((with_ write running).mpt.port .tpe).inFlight = some write ∧ write.access.op = .write [1#8]) ∧
    (∀ x ∈ [Fate.void, .discarded], ((with_ { flight with fate := x } running).mpt.port .tpe).inFlight =
      some { flight with fate := x } ∧ x ≠ .live) ∧
    (completesFor .tapFrameWriteDone = some .tpe ∧ completesFor .startWritesDone = some .oru ∧
      completesFor .journalNoteWriteDone = some .jnu ∧ completesFor .statusBodyWriteDone = some .stw) ∧
    ((starts.mpt.port .oru).inFlight = some flight ∧ starts.rc.runState = .starting) ∧
    ((flies .oru running).rc.runState = .running ∧ (flies .oru running).oru.nudged = false) ∧
    (let s := oru (fun o => { o with nudged := true }) (flies .oru running)
     s.oru.nudged = true ∧ oruAccess s = some { addr := 0, op := .read 8 }) ∧
    (runState .stopping (flies .oru running)).rc.runState = .stopping ∧
    (running.jnu.phase ≠ .writeLost ∧
      ({ running with jnu := { running.jnu with phase := .writeLost } } : State).jnu.phase = .writeLost) ∧
    (∀ js ∈ [[TpeJob.startRead 63], [.startFilled 63], [.startTotal 63], [.readReturned], [.writeFrame], [.segmentFilled 63],
        [.closeFilled 63], [.closeTotal 63], [.gapTotal 63], [.gapTotal 63, .segmentFilled 63]],
      let s := flies .tpe (stage (staged 0) (jobs js running))
      s.due = [] ∧ s.tpe.jobs = js ∧ s.mpt.tpe.inFlight = some flight ∧ s.tpe.staging = staged 0 :: [] ∧
        (s.tpe.taps.get (staged 0).tap).closing = false) ∧
    ∀ k, ([] : List TpeJob).head? ≠ some (.segmentFilled k) := by decide +kernel

/-- A note at the head of JNU's queue, in a phase. -/
def appends (p : JnuPhase) (lost : Nat) : State :=
  flies .jnu { running with
    rc := { running.rc with held := { running.rc.held with exponent := 4, trigger := 1 } }
    jnu := { running.jnu with queue := [{ frame := 0, body := .linkUp 0 }], phase := p, lost := lost
                              linger := some 1 } }

theorem test_meets_NotesAreAppendedOrCountedLost :
    (running.jnu.queue.length < 64 ∧ 64 ≤ (List.replicate 64 (Note.mk 0 (.linkUp 0))).length) ∧
    (let s : State := { running with jnu := { running.jnu with linger := some 1 } }
     s.due = [] ∧ s.jnu.linger = some 1 ∧ s.jnu.queue = []) ∧
    (∀ p ∈ [JnuPhase.idle, .readConsumed, .writeOverrun, .writeNote true, .writeProduced true, .writeLost],
      ∀ n ∈ [0, 1], (appends p n).due = [] ∧ (appends p n).rc.runState = .running ∧
        (runState .stopping (appends p n)).rc.runState = .stopping ∧ (runState .stopping (appends p n)).due = [] ∧
        (appends p n).jnu.queue = { frame := 0, body := .linkUp 0 } :: [] ∧
        (appends p n).mpt.jnu.inFlight = some flight ∧ (appends p n).jnu.phase = p ∧ (appends p n).jnu.lost = n ∧
        (appends p n).jnu.linger = some 1) ∧
    ((0#32 - 0xFFFFFFF1#32).toNat < 2 ^ 4 ∧ (0#32 - 0xFFFFFFF2#32).toNat < 2 ^ 4 - 1) ∧
    (2 ^ 4 ≤ (0#32 - 0xFFFFFFF0#32).toNat ∧ 2 ^ 4 - 1 ≤ (0#32 - 0xFFFFFFF1#32).toNat) := by decide +kernel

theorem test_meets_StatusEntriesAreRewrittenUnderAnOddCount :
    ∀ e ∈ [Entry.line 255, .handset 63, .position 31, .hoot 31], ∀ r ∈ [RunState.running, .stopping],
      (let s : State := { runState r running with stw := { running.stw with queue := [e] } }
       s.due = [] ∧ s.rc.runState = r ∧ s.stw.phase = .idle ∧ s.stw.queue = e :: []) ∧
      ∀ p ∈ [StwPhase.countOdd e, .body e, .countEven e],
        let s := flies .stw { runState r running with stw := { running.stw with phase := p } }
        s.due = [] ∧ s.mpt.stw.inFlight = some flight ∧ s.stw.phase = p := by decide +kernel

end Sys2Proof.Tests
end

section
/-! SUPPORT and O30. The take from a receive queue: where it begins, what it trims, and what it delivers (R25 to R29). -/

namespace Sys2Proof.Machine

/-! ### The take of one frame event (R25 to R28) -/

/-- R25: where a take from the queue begins; a queue that has primed becomes PLAYING. -/
def TermRec.started (t : TermRec) : TermRec :=
  if t.playing then t else { t with playing := true, first := false }

/-- R26: the oldest entry is trimmed at or above the trim mark. -/
def TermRec.trimmed (prime : Nat) (t : TermRec) : TermRec :=
  if trimMark prime ≤ t.queue.length then
    { t with queue := t.queue.tail, counters := { t.counters with slip := inc16 t.counters.slip } }
  else t

theorem TermRec.take_of_ready {t : TermRec} {prime : Nat} (h : t.playing = true ∨ prime ≤ t.queue.length) :
    t.take prime = t.started.takePlaying prime := by
  unfold TermRec.take TermRec.started
  by_cases hp : t.playing = true
  · simp [hp]
  · have depth : ¬ t.queue.length < prime := Nat.not_lt.2 (h.resolve_left hp)
    simp [hp, depth]

theorem TermRec.take_of_below_prime {t : TermRec} {prime : Nat} (hp : t.playing = false)
    (depth : t.queue.length < prime) : t.take prime = (t.silent, false) := by
  simp [TermRec.take, hp, depth]

theorem TermRec.takePlaying_of_entry {t : TermRec} {prime : Nat} {e : QEntry} {rest : List QEntry}
    (h : (t.trimmed prime).queue = e :: rest) :
    t.takePlaying prime = (TermRec.deliver { t.trimmed prime with queue := rest } e, false) := by
  unfold TermRec.trimmed at h ⊢
  simp only [TermRec.takePlaying, h]

theorem TermRec.takePlaying_of_empty {t : TermRec} (prime : Nat) (h : t.queue = []) :
    t.takePlaying prime =
      (({ t with playing := false, counters := { t.counters with underflow := inc16 t.counters.underflow } } :
        TermRec).silent, true) := by
  simp [TermRec.takePlaying, trimMark, h]

/-- Neither the start of playout nor a trim touches the last output, the errored run or the concealed counter. -/
theorem TermRec.trimmed_started_keeps (prime : Nat) (t : TermRec) :
    (t.started.trimmed prime).lastOrigin = t.lastOrigin ∧ (t.started.trimmed prime).lastBlock = t.lastBlock ∧
      (t.started.trimmed prime).errored = t.errored ∧
      (t.started.trimmed prime).counters.concealed = t.counters.concealed := by
  unfold TermRec.trimmed TermRec.started
  split <;> split <;> exact ⟨rfl, rfl, rfl, rfl⟩

/-! ### The delivered entry (R28) -/

theorem QEntry.errored_iff (e : QEntry) :
    e.errored = true ↔ e = .placeholder ∨ ∃ samples, e = .parcel samples true := by
  cases e <;> simp [QEntry.errored]

theorem TermRec.deliver_good (t : TermRec) (samples : Block) :
    t.deliver (.parcel samples false) = { t with lastBlock := samples, lastOrigin := .good, errored := 0 } := rfl

theorem entryOutput_of_errored {e : QEntry} (h : e.errored = true) (origin : Origin) (block : Block) :
    entryOutput e origin block = if origin = .good then (block.map halve, .concealed) else (silence, .silent) := by
  obtain rfl | ⟨samples, rfl⟩ := (QEntry.errored_iff e).1 h <;> rfl

theorem TermRec.deliver_of_errored {e : QEntry} (h : e.errored = true) (t : TermRec) :
    t.deliver e = { t with
      lastBlock := if t.lastOrigin = .good then t.lastBlock.map halve else silence
      lastOrigin := if t.lastOrigin = .good then .concealed else .silent
      errored := min 255 (t.errored + 1)
      counters := { t.counters with concealed := min 65535 (t.counters.concealed + 1) } } := by
  by_cases g : t.lastOrigin = .good <;> simp [TermRec.deliver, entryOutput_of_errored h, h, g, inc16, holdAdd]

/-- The halved sample is in the range of a sample, so nothing is cut off. -/
theorem halve_toInt (x : Sample) : (halve x).toInt = (x.toInt + 1) / 2 := by
  have low := BitVec.le_toInt x
  have high := BitVec.toInt_lt (x := x)
  unfold halve
  rw [BitVec.toInt_ofInt_eq_self (by decide)] <;> omega

/-- A queue that may be taken from delivers the head that the trim has left. -/
theorem TermRec.take_of_entry {q : TermRec} {prime : Nat} {e : QEntry} {rest : List QEntry}
    (ready : q.playing = true ∨ prime ≤ q.queue.length) (head : (q.started.trimmed prime).queue = e :: rest) :
    (q.take prime).1 = TermRec.deliver { q.started.trimmed prime with queue := rest } e := by
  rw [TermRec.take_of_ready ready, TermRec.takePlaying_of_entry head]

theorem TermRec.take_of_errored {q : TermRec} {prime : Nat} {e : QEntry} {rest : List QEntry}
    (ready : q.playing = true ∨ prime ≤ q.queue.length) (head : (q.started.trimmed prime).queue = e :: rest)
    (h : e.errored = true) :
    (q.take prime).1 = { q.started.trimmed prime with
      queue := rest
      lastBlock := if q.lastOrigin = .good then q.lastBlock.map halve else silence
      lastOrigin := if q.lastOrigin = .good then .concealed else .silent
      errored := min 255 (q.errored + 1)
      counters := { (q.started.trimmed prime).counters with concealed := min 65535 (q.counters.concealed + 1) } } := by
  obtain ⟨origin, block, run, count⟩ := q.trimmed_started_keeps prime
  rw [TermRec.take_of_entry ready head, TermRec.deliver_of_errored h]
  simp only [origin, block, run, count]

/-- A take without an entry: silence, and from a PLAYING queue an underflow (R25, R27). -/
theorem TermRec.take_of_nothing {q : TermRec} {prime : Nat}
    (h : (q.playing = false ∧ q.queue.length < prime) ∨ (q.playing = true ∧ q.queue = [])) :
    q.take prime =
      ({ q with
          playing := false, lastBlock := silence, lastOrigin := .silent
          counters := if q.playing then { q.counters with underflow := min 65535 (q.counters.underflow + 1) }
            else q.counters },
        q.playing) := by
  obtain ⟨priming, depth⟩ | ⟨playing, empty⟩ := h
  · rw [TermRec.take_of_below_prime priming depth]
    simp [TermRec.silent, priming]
  · rw [TermRec.take_of_ready (.inl playing)]
    simp [TermRec.started, TermRec.takePlaying_of_empty, TermRec.silent, playing, empty, inc16, holdAdd]

/-- Outside DISABLED and FAULT a line's take is its queue's, and the output is the delivered block (R29). -/
theorem takeLine_of_audible {state : LineState} (prime : Nat) (q : TermRec) (enabled : state ≠ .disabled)
    (sound : state ≠ .fault) :
    (takeLine state prime q).term = (q.take prime).1 ∧
      (takeLine state prime q).delivered =
        { block := (q.take prime).1.lastBlock, origin := (q.take prime).1.lastOrigin
          playing := (q.take prime).1.playing } := by
  cases state with
  | disabled => exact absurd rfl enabled
  | fault => exact absurd rfl sound
  | _ => exact ⟨rfl, rfl⟩

/-- Settles O30: a take from an entry is a delivery from the started and trimmed queue, by the entry's error and the last
output's origin; a take without an entry is silence. -/
theorem concealmentCoversOneErroredFrame : Obligations.ConcealmentCoversOneErroredFrame := by
  unfold Obligations.ConcealmentCoversOneErroredFrame
  refine ⟨?entry, ?nothing, fun _ prime q enabled sound => takeLine_of_audible prime q enabled sound, ?halved⟩
  case entry =>
    intro prime q base e rest mark from_ slipped ready hbase head t errored
    have eq : base = q.started.trimmed prime := by
      rw [hbase]
      unfold TermRec.started TermRec.trimmed
      by_cases playing : q.playing = true <;> simp [from_, slipped, mark, trimMark, playing, inc16, holdAdd]
    subst eq
    refine ⟨?good, fun bad after => ?concealed, fun bad after => ?silent⟩
    case good =>
      rintro samples rfl
      exact TermRec.take_of_entry ready head
    case concealed =>
      have result : t = _ := TermRec.take_of_errored ready head ((QEntry.errored_iff e).2 bad)
      have block : t.lastBlock = q.lastBlock.map halve := by simp [result, after]
      refine ⟨?_, fun i => ?_⟩
      · rw [block, result]; simp [after]
      · rw [block, Table.get_map, halve_toInt]
    case silent =>
      have result : t = _ := TermRec.take_of_errored ready head ((QEntry.errored_iff e).2 bad)
      rw [result]; simp [after]
  case nothing =>
    intro prime q h t starved
    have result := TermRec.take_of_nothing h
    exact ⟨congrArg Prod.fst result, congrArg Prod.snd result⟩
  case halved =>
    simp only [halve_toInt]
    decide

end Sys2Proof.Machine
end

section
/-! SUPPORT and O22. The arrival of a parcel: the sequence check, the offers to the receive queue, and the event around them
(R20, R22 to R24). -/

namespace Sys2Proof.Machine

/-! ### The sequence check (R22) -/

/-- R22: the arrivals that are accepted with `n` placeholders. -/
def AcceptedAfterGap (last : Option Byte) (a : Byte) (n : Nat) : Prop :=
  (n = 0 ∧ last = none) ∨ (n ≤ 2 ∧ ∃ s, last = some s ∧ a = s + BitVec.ofNat 8 (n + 1))

theorem sequenceCheck_of_accepted {last : Option Byte} {a : Byte} {n : Nat} (h : AcceptedAfterGap last a n) :
    sequenceCheck last a = .accept n := by
  obtain ⟨rfl, rfl⟩ | ⟨small, s, rfl, rfl⟩ := h
  · rfl
  · have count : n = 0 ∨ n = 1 ∨ n = 2 := by omega
    obtain rfl | rfl | rfl := count <;> simp [sequenceCheck]

theorem sequenceCheck_same (a : Byte) : sequenceCheck (some a) a = .duplicate := by
  simp [sequenceCheck]

theorem sequenceCheck_of_other {s a : Byte} (h0 : a ≠ s) (h1 : a ≠ s + 1#8) (h2 : a ≠ s + 2#8) (h3 : a ≠ s + 3#8) :
    sequenceCheck (some s) a = .resync (s + 1#8) := by
  simp [sequenceCheck, h0, h1, h2, h3]

theorem AcceptedAfterGap.le_two {last : Option Byte} {a : Byte} {n : Nat} (h : AcceptedAfterGap last a n) : n ≤ 2 := by
  obtain ⟨rfl, -⟩ | ⟨small, -⟩ := h
  · omega
  · exact small

/-! ### Arrivals that are not accepted in sequence (R22, R24) -/

/-- The last sequence again is a duplicate, which counts alone. -/
theorem TermRec.arrive_of_duplicate {t : TermRec} {seq : Byte} (h : t.lastSeq = some seq) (l : LineNo) (err : Bool)
    (samples : Block) :
    t.arrive l seq err samples =
      { term := { t with counters := { t.counters with duplicate := min 65535 (t.counters.duplicate + 1) } }
        notes := []
        filtered := false } := by
  unfold TermRec.arrive
  rw [h, sequenceCheck_same]
  rfl

/-- R24: any other sequence re-primes the queue from the arriving parcel. -/
theorem TermRec.arrive_of_other {t : TermRec} {s seq : Byte} (known : t.lastSeq = some s) (h0 : seq ≠ s)
    (h1 : seq ≠ s + 1#8) (h2 : seq ≠ s + 2#8) (h3 : seq ≠ s + 3#8) (l : LineNo) (err : Bool) (samples : Block) :
    t.arrive l seq err samples =
      { term := { t with
          queue := [.parcel samples err], playing := false, lastSeq := some seq, episode := false
          counters := { t.counters with resync := min 65535 (t.counters.resync + 1) } }
        notes := [.rxResync l (s + 1#8) seq]
        filtered := true } := by
  unfold TermRec.arrive
  rw [known, sequenceCheck_of_other h0 h1 h2 h3]
  rfl

/-! ### The offers (R23) -/

/-- R23: an entry that finds room; a parcel closes the overflow episode. -/
def TermRec.append (e : QEntry) (t : TermRec) : TermRec :=
  { t with queue := t.queue ++ [e], episode := t.episode && !e.isParcel }

/-- R23: `k` entries dropped for want of room; the episode is open. -/
def TermRec.dropping (k : Nat) (t : TermRec) : TermRec :=
  { t with episode := true, counters := { t.counters with overflow := min 65535 (t.counters.overflow + k) } }

theorem TermRec.dropping_dropping (j k : Nat) (t : TermRec) : (t.dropping j).dropping k = t.dropping (j + k) := by
  have count : min 65535 (min 65535 (t.counters.overflow + j) + k) = min 65535 (t.counters.overflow + (j + k)) := by
    omega
  simp [TermRec.dropping, count]

theorem TermRec.offer_of_room {t : TermRec} (room : t.queue.length < 16) (e : QEntry) :
    t.offer e = (t.append e, false) := by
  simp [TermRec.offer, TermRec.append, room]

theorem TermRec.offer_of_full {t : TermRec} (full : t.queue.length = 16) (e : QEntry) :
    t.offer e = (t.dropping 1, !t.episode) := by
  simp [TermRec.offer, TermRec.dropping, full, inc16, holdAdd]

/-- R23: `n` placeholders and then an entry offered in turn, with the notes of the drops. -/
def TermRec.offers (l : LineNo) (e : QEntry) : Nat → TermRec → TermRec × List NoteBody
  | 0, t => ((t.offer e).1, overflowNote l (t.offer e))
  | n + 1, t =>
    let rest := TermRec.offers l e n (t.offer .placeholder).1
    (rest.1, overflowNote l (t.offer .placeholder) ++ rest.2)

/-- An accepted arrival sets the last sequence and makes its offers. -/
theorem TermRec.arrive_of_accepted {t : TermRec} {seq : Byte} {n : Nat} (h : AcceptedAfterGap t.lastSeq seq n)
    (l : LineNo) (err : Bool) (samples : Block) :
    t.arrive l seq err samples =
      let x := TermRec.offers l (.parcel samples err) n { t with lastSeq := some seq }
      { term := x.1, notes := x.2, filtered := true } := by
  have count : n = 0 ∨ n = 1 ∨ n = 2 := by have := h.le_two; omega
  unfold TermRec.arrive
  rw [sequenceCheck_of_accepted h]
  obtain rfl | rfl | rfl := count
  · rfl
  · rfl
  · simp [TermRec.offers]

/-- The note of a first drop, where it opens the episode. -/
def TermRec.dropNote (l : LineNo) (t : TermRec) : List NoteBody :=
  if t.episode = false then [.rxOverflow l (min 65535 (t.counters.overflow + 1))] else []

theorem TermRec.overflowNote_dropping (l : LineNo) (t : TermRec) :
    overflowNote l (t.dropping 1, !t.episode) = t.dropNote l := by
  cases h : t.episode <;> simp [overflowNote, TermRec.dropNote, TermRec.dropping, h]

/-- A full queue drops every offer, and only the first drop can open the episode. -/
theorem TermRec.offers_of_full {t : TermRec} (full : t.queue.length = 16) (l : LineNo) (e : QEntry) (n : Nat) :
    TermRec.offers l e n t = (t.dropping (n + 1), t.dropNote l) := by
  induction n generalizing t with
  | zero => simp [TermRec.offers, TermRec.offer_of_full full, TermRec.overflowNote_dropping]
  | succ n ih =>
    have full' : (t.dropping 1).queue.length = 16 := full
    have quiet : (t.dropping 1).dropNote l = [] := rfl
    simp only [TermRec.offers, TermRec.offer_of_full full, TermRec.overflowNote_dropping, ih full', quiet,
      TermRec.dropping_dropping, List.append_nil, Nat.add_comm 1]

/-- Whether `n` placeholders and a parcel overflow the queue. -/
def TermRec.overflows (n : Nat) (t : TermRec) : Bool := 16 < t.queue.length + n + 1

/-- The record after `n` placeholders and a parcel: the queue takes what fits, the counter the rest. -/
def TermRec.afterOffers (e : QEntry) (n : Nat) (t : TermRec) : TermRec :=
  { t with
    queue := (t.queue ++ List.replicate n QEntry.placeholder ++ [e]).take 16
    episode := t.overflows n
    counters := { t.counters with
      overflow := if t.overflows n then min 65535 (t.counters.overflow + (t.queue.length + n + 1 - 16))
        else t.counters.overflow } }

theorem TermRec.overflows_of_full {t : TermRec} (full : t.queue.length = 16) (n : Nat) : t.overflows n = true := by
  simp [TermRec.overflows, full, Nat.add_assoc]

theorem TermRec.overflows_append (t : TermRec) (e : QEntry) (n : Nat) :
    (t.append e).overflows n = t.overflows (n + 1) := by
  have depth : t.queue.length + 1 + n + 1 = t.queue.length + (n + 1) + 1 := by omega
  simp [TermRec.append, TermRec.overflows, depth]

theorem TermRec.afterOffers_of_full {t : TermRec} (full : t.queue.length = 16) (e : QEntry) (n : Nat) :
    t.afterOffers e n = t.dropping (n + 1) := by
  have overflow := TermRec.overflows_of_full full n
  simp [TermRec.afterOffers, TermRec.dropping, overflow, full, Nat.add_assoc]

theorem TermRec.afterOffers_of_room {t : TermRec} (room : t.queue.length < 16) (samples : Block) (err : Bool) :
    t.afterOffers (.parcel samples err) 0 = t.append (.parcel samples err) := by
  have fits : t.overflows 0 = false := by simp [TermRec.overflows]; omega
  have all : (t.queue ++ [QEntry.parcel samples err]).take 16 = t.queue ++ [.parcel samples err] :=
    List.take_of_length_le (by simp; omega)
  simp [TermRec.afterOffers, TermRec.append, QEntry.isParcel, fits, all]

theorem TermRec.afterOffers_append (t : TermRec) (e : QEntry) (n : Nat) :
    (t.append .placeholder).afterOffers e n = t.afterOffers e (n + 1) := by
  have depth : t.queue.length + 1 + n + 1 = t.queue.length + (n + 1) + 1 := by omega
  simp only [TermRec.afterOffers, TermRec.overflows_append]
  simp [TermRec.append, depth, List.replicate_succ]

theorem TermRec.dropNote_append_placeholder (l : LineNo) (t : TermRec) :
    (t.append .placeholder).dropNote l = t.dropNote l := by
  simp [TermRec.dropNote, TermRec.append, QEntry.isParcel]

/-- The offers of an accepted arrival, by induction on the placeholders: one that finds room leaves a longer queue, and one
that finds none is followed by drops alone. -/
theorem TermRec.offers_eq (l : LineNo) (samples : Block) (err : Bool) (n : Nat) (t : TermRec)
    (bounded : t.queue.length ≤ 16) :
    TermRec.offers l (.parcel samples err) n t =
      (t.afterOffers (.parcel samples err) n, if t.overflows n then t.dropNote l else []) := by
  induction n generalizing t with
  | zero =>
    obtain room | full := Nat.lt_or_eq_of_le bounded
    · have fits : t.overflows 0 = false := by simp [TermRec.overflows]; omega
      simp [TermRec.offers, TermRec.offer_of_room room, overflowNote, TermRec.afterOffers_of_room room, fits]
    · rw [TermRec.offers_of_full full, TermRec.afterOffers_of_full full, if_pos (TermRec.overflows_of_full full 0)]
  | succ n ih =>
    obtain room | full := Nat.lt_or_eq_of_le bounded
    · have bounded' : (t.append .placeholder).queue.length ≤ 16 := by simp [TermRec.append]; omega
      simp [TermRec.offers, TermRec.offer_of_room room, overflowNote, ih _ bounded', TermRec.afterOffers_append,
        TermRec.overflows_append, TermRec.dropNote_append_placeholder]
    · rw [TermRec.offers_of_full full, TermRec.afterOffers_of_full full, if_pos (TermRec.overflows_of_full full _)]

/-- In FAULT no note tells of the drop (R23). -/
theorem TermRec.dropNote_outside_fault (l : LineNo) (state : LineState) (overflow : Bool) (t : TermRec) :
    (if state = .fault then [] else if overflow then t.dropNote l else []) =
      if overflow ∧ t.episode = false ∧ state ≠ .fault then [.rxOverflow l (min 65535 (t.counters.overflow + 1))]
        else [] := by
  by_cases fault : state = .fault
  · simp [fault]
  · cases overflow <;> simp [fault, TermRec.dropNote]

/-! ### The event of an arrival (R20, R22) -/

/-- The filter writes its line's signalling record, and may raise the accepted change (R40). -/
theorem filterCode_cases (l : LineNo) (code : Code) (w : Work) :
    (∃ r, filterCode l code w = w.putLine l r) ∨ ∃ r, filterCode l code w = (w.putLine l r).raise (.accepted l) := by
  unfold filterCode
  dsimp only
  generalize (if (w.line l).candidate = some code then min 15 ((w.line l).run + 1) else 1) = run
  split
  · exact .inl ⟨_, rfl⟩
  · split
    · exact .inr ⟨_, rfl⟩
    · exact .inl ⟨_, rfl⟩

theorem filterCode_floor (l : LineNo) (code : Code) (w : Work) :
    ∃ r, (filterCode l code w).floor = { w.floor with lsv := w.floor.lsv.set l r } := by
  obtain ⟨r, e⟩ | ⟨r, e⟩ := filterCode_cases l code w <;> exact ⟨r, by simp [e]⟩

theorem filterCode_notes (l : LineNo) (code : Code) (w : Work) : (filterCode l code w).notes = w.notes := by
  obtain ⟨r, e⟩ | ⟨r, e⟩ := filterCode_cases l code w <;> simp [e]

/-- An arrival outside TEST before its code goes to the filter: the checked record is written and its notes are raised, but not
in FAULT (R20, R22). -/
def recordArrival (x : Parcel) (a : Arrived) (w : Work) : Work :=
  let w2 := (restartDead x.line w).putTerm x.line a.term
  if (w.line x.line).state = .fault then w2 else w2.noteAll a.notes

theorem acceptParcel_of_listening {x : Parcel} {w : Work} (listening : (w.line x.line).state ≠ .test) :
    let a := (w.term x.line).arrive x.line x.sequence x.err x.samples
    acceptParcel x w = if a.filtered then filterCode x.line x.code (recordArrival x a w) else recordArrival x a w := by
  have sameTerm : (restartDead x.line w).term x.line = w.term x.line := by simp [restartDead, Work.term]
  simp only [acceptParcel, if_neg listening, sameTerm, recordArrival]

theorem recordArrival_floor (x : Parcel) (a : Arrived) (w : Work) :
    ∃ lsv, (recordArrival x a w).floor = { w.floor with ltm := w.floor.ltm.set x.line a.term, lsv := lsv } := by
  unfold recordArrival
  dsimp only
  split <;> exact ⟨_, by simp [restartDead]; rfl⟩

theorem recordArrival_notes (x : Parcel) (a : Arrived) (w : Work) :
    (recordArrival x a w).notes = w.notes ++ if (w.line x.line).state = .fault then [] else a.notes := by
  unfold recordArrival
  dsimp only
  split <;> simp [restartDead]

/-- The filter adds nothing to the record and the notes of an arrival outside TEST. -/
theorem acceptParcel_does {x : Parcel} {w : Work} (listening : (w.line x.line).state ≠ .test) :
    let a := (w.term x.line).arrive x.line x.sequence x.err x.samples
    (∃ lsv, (acceptParcel x w).floor = { w.floor with ltm := w.floor.ltm.set x.line a.term, lsv := lsv }) ∧
      (acceptParcel x w).notes = w.notes ++ if (w.line x.line).state = .fault then [] else a.notes := by
  intro a
  obtain ⟨lsv, floor⟩ := recordArrival_floor x a w
  rw [acceptParcel_of_listening listening, ← recordArrival_notes]
  split
  · obtain ⟨r, filtered⟩ := filterCode_floor x.line x.code (recordArrival x a w)
    exact ⟨⟨lsv.set x.line r, by rw [filtered, floor]⟩, filterCode_notes ..⟩
  · exact ⟨⟨lsv, floor⟩, rfl⟩

theorem exec_lineParcelArrival (parcel : List Byte) (s : State) :
    exec (.lineParcelArrival parcel) s = execLineParcelArrival parcel s := rfl

/-- The arrival of a parcel for a line of a PRESENT card that is neither DISABLED nor in TEST: the line's record, the notes
and what stays. -/
theorem lineParcelArrival_checked {parcel : List Byte} {x : Parcel} {s : State} (quiet : s.due = [])
    (running : s.rc.runState = .running) (parsed : parseParcel parcel = some x)
    (present : (s.floor.lhp.cards.get (lineCard x.line)).present = true)
    (enabled : (s.floor.lsv.get x.line).state ≠ .disabled) (listening : (s.floor.lsv.get x.line).state ≠ .test) :
    let a := (s.floor.ltm.get x.line).arrive x.line x.sequence x.err x.samples
    ∃ t, exec (.lineParcelArrival parcel) s = .next t ∧ BesideFloor s t ∧
      t.floor.ltm = s.floor.ltm.set x.line a.term ∧
      Journalled s (if (s.floor.lsv.get x.line).state = .fault then [] else a.notes) t := by
  obtain ⟨⟨lsv, floor⟩, notes⟩ := acceptParcel_does (w := Work.of s.floor) listening
  have taken : parcelArrival parcel (Work.of s.floor) = acceptParcel x (Work.of s.floor) := by
    have both : (s.floor.lhp.cards.get (lineCard x.line)).present = true ∧ (s.floor.lsv.get x.line).state ≠ .disabled :=
      ⟨present, enabled⟩
    simp only [parcelArrival, parsed]
    exact if_pos both
  refine ⟨s.commit (acceptParcel x (Work.of s.floor)), ?_, ⟨rfl, rfl, rfl, rfl, rfl⟩, ?_, ?_⟩
  · rw [exec_lineParcelArrival]
    simp [execLineParcelArrival, settle_quiet quiet, State.running, running, State.onFloor, taken]
  · rw [State.commit_floor, floor]
    rfl
  · rw [Journalled, State.commit_jnu, notes]
    rfl

/-- Settles O22: the record and the notes of the arrival are those of the sequence check, which accepts, counts a duplicate or
resynchronises; an accepted arrival's are those of its offers. -/
theorem arrivalsFollowTheSequenceCheck : Obligations.ArrivalsFollowTheSequenceCheck := by
  unfold Obligations.ArrivalsFollowTheSequenceCheck
  intro parcel x s quiet running parsed present enabled listening bounded q a
  obtain ⟨t, taken, beside, ltm, journal⟩ := lineParcelArrival_checked quiet running parsed present enabled listening
  have record : t.floor.ltm.get x.line = (q.arrive x.line a x.err x.samples).term := by
    rw [ltm, Table.get_set_self]
  refine ⟨t, taken, beside, fun l other => by rw [ltm, Table.get_set_ne _ _ other.symm], ?accepted, ?duplicate, ?resync⟩
  case accepted =>
    intro n gap full overflow
    have arrived := TermRec.arrive_of_accepted gap x.line x.err x.samples
    rw [TermRec.offers_eq x.line x.samples x.err n { q with lastSeq := some a } bounded] at arrived
    rw [arrived] at record journal
    refine ⟨record, ?_⟩
    rwa [TermRec.dropNote_outside_fault] at journal
  case duplicate =>
    intro same
    have arrived := TermRec.arrive_of_duplicate same x.line x.err x.samples
    rw [arrived] at record journal
    rw [ite_self] at journal
    exact ⟨journal, record⟩
  case resync =>
    intro last known h0 h1 h2 h3
    have arrived := TermRec.arrive_of_other known h0 h1 h2 h3 x.line x.err x.samples
    rw [arrived] at record journal
    refine ⟨record, fun sound => ?_, fun fault => ?_⟩
    · rwa [if_neg sound] at journal
    · rwa [if_pos fault] at journal

end Sys2Proof.Machine
end

section
/-! SUPPORT and O50. PTT_TARGET: its argument fields, its checks in order, and the one record that it writes (R112, R177). -/

namespace Sys2Proof.Machine

/-! ### The argument fields (R177) -/

theorem indexArg_of_val {bound n : Nat} {i : Fin bound} (h : n = i.val) : indexArg bound n = some i := by
  subst h
  simp [indexArg]

theorem indexArg_of_le {bound n : Nat} (h : bound ≤ n) : indexArg bound n = none := by
  simp [indexArg, h]

/-- A hoot field that names a target is read as that target. -/
theorem targetArg_of_field {n : Byte} {target : Option HootNo} (h : n.toNat = hootField target) :
    targetArg n = target.elim .none .hoot := by
  unfold targetArg
  cases target with
  | none => exact if_pos (BitVec.eq_of_toNat_eq h)
  | some k =>
    have inRange : n.toNat < 32 := by rw [h]; exact k.isLt
    have named : n ≠ 0xFF#8 := by
      rintro rfl
      exact absurd inRange (by decide)
    rw [if_neg named, hootArg, indexArg_of_val h]
    rfl

theorem targetArg_of_bad {n : Byte} (high : 32 ≤ n.toNat) (other : n.toNat ≠ 255) : targetArg n = .bad := by
  have named : n ≠ 0xFF#8 := fun e => other (e ▸ rfl)
  rw [targetArg, if_neg named, hootArg, indexArg_of_le high]

/-! ### A talk record and its entry (R117) -/

theorem TalkRec.retarget_eq_iff (x : TalkRec) (target : Option HootNo) :
    x = { x with target := target } ↔ x.target = target := by
  cases x
  simp

/-- The position's entry is handed over when its talk record changes. -/
theorem Work.putTalk_handed (w : Work) (p : PositionNo) (r : TalkRec) :
    (w.putTalk p r).handed = w.handed ++ if w.talk p = r then [] else [.position p] := by
  unfold Work.putTalk Work.handIf
  by_cases same : w.talk p = r <;> simp [same]

/-! ### The order (R112) -/

theorem mayTalk_iff (r : HootRec) (p : PositionNo) :
    mayTalk r p = true ↔ inMask r.roster p = true ∧ inMask r.talk p = true := by
  simp [mayTalk]

theorem pttTargetOrder_of_bad {position hoot : Byte}
    (bad : 32 ≤ position.toNat ∨ (32 ≤ hoot.toNat ∧ hoot.toNat ≠ 255)) (w : Work) :
    pttTargetOrder position hoot w = refuse .badNumber w := by
  unfold pttTargetOrder
  obtain high | ⟨high, other⟩ := bad
  · rw [positionArg, indexArg_of_le high]
  · rw [targetArg_of_bad high other]
    cases positionArg position <;> rfl

/-- The checks of a PTT_TARGET whose numbers are in range, in the order in which they are made. -/
theorem pttTargetOrder_eq {position hoot : Byte} {p : PositionNo} {target : Option HootNo}
    (hp : position.toNat = p.val) (ht : hoot.toNat = hootField target) (w : Work) :
    pttTargetOrder position hoot w =
      if (w.talk p).status ≠ .idle then refuse .micBusy w
      else if ¬ ∀ k, target = some k → mayTalk (w.hoot k) p = true then refuse .notRostered w
      else writeTarget p target w := by
  rw [pttTargetOrder, positionArg, indexArg_of_val hp, targetArg_of_field ht]
  cases target <;> simp

theorem exec_pttTarget (position hoot : Byte) (s : State) :
    exec (.pttTarget position hoot) s =
      takeOrder (.pttTarget position hoot) false (floorOrder (pttTargetOrder position hoot)) s := rfl

/-- A PTT_TARGET that passes its checks: the answer, the one record written, and what is handed to STW. -/
theorem pttTarget_taken {position hoot : Byte} {s : State} {p : PositionNo} {target : Option HootNo}
    (turn : Turn (.pttTarget position hoot) false s)
    (passed : pttTargetOrder position hoot (Work.of s.floor) = writeTarget p target (Work.of s.floor)) :
    let x := s.floor.cnc.talks.get p
    ∃ t, exec (.pttTarget position hoot) s = .next t ∧
      Completed s { code := .ok, data := data1 (hootField x.target) } t ∧
      t.floor = { s.floor with cnc := { s.floor.cnc with talks := s.floor.cnc.talks.set p { x with target := target } } } ∧
      t.jnu = s.jnu ∧
      t.stw = (if x.target = target then [] else [.position p]).foldl (Stw.hand t.floor) s.stw := by
  intro x
  let w : Work := (Work.of s.floor).putTalk p { x with target := target }
  obtain ⟨done, floor, jnu, stw⟩ :=
    completed_of_commit s w { code := .ok, data := data1 (hootField x.target) } (Work.putTalk_raised ..)
  refine ⟨_, ?_, done, ?_, ?_, ?_⟩
  · rw [exec_pttTarget, takeOrder_taken turn, passed]
    rfl
  · rw [floor, Work.putTalk_floor]
    rfl
  · rw [jnu, Work.putTalk_notes]
    rfl
  · have handed : w.handed = if x.target = target then [] else [.position p] := by
      simp only [← TalkRec.retarget_eq_iff]
      exact Work.putTalk_handed ..
    rw [stw, floor, handed]

/-- Settles O50: a bad number fails before the checks; in range the status is checked before the rights; what passes writes
the target alone, and the position's entry is handed over exactly when that changes the record. -/
theorem pttTargetIsWrittenAlone : Obligations.PttTargetIsWrittenAlone := by
  unfold Obligations.PttTargetIsWrittenAlone
  intro position hoot s turn
  refine ⟨fun bad => takeOrder_refused turn (exec_pttTarget ..) (pttTargetOrder_of_bad bad _), ?inRange⟩
  case inRange =>
    intro p target hp ht x allowed
    have field : hoot.toNat = hootField target := by cases target <;> exact ht
    have checks := pttTargetOrder_eq hp field (Work.of s.floor)
    have rights : allowed ↔ ∀ k, target = some k → mayTalk ((Work.of s.floor).hoot k) p = true := by
      simp only [mayTalk_iff]
      rfl
    refine ⟨fun busy => ?busy, fun idle barred => ?barred, fun idle may => ?passes⟩
    case busy =>
      exact takeOrder_refused turn (exec_pttTarget ..) (checks.trans (if_pos busy))
    case barred =>
      exact takeOrder_refused turn (exec_pttTarget ..)
        (checks.trans ((if_neg (not_not.2 idle)).trans (if_pos (rights.not.1 barred))))
    case passes =>
      obtain ⟨t, taken, done, floor, jnu, stw⟩ := pttTarget_taken turn
        (checks.trans ((if_neg (not_not.2 idle)).trans (if_neg (not_not.2 (rights.1 may)))))
      refine ⟨t, taken, ?answer, floor, jnu, fun changed => ?handed, fun same => ?stands⟩
      case answer =>
        cases previous : x.target with
        | none => rw [previous] at done; exact done
        | some k => rw [previous] at done; exact done
      case handed =>
        rw [stw, if_neg changed, Stw.mem_hands]
        exact .inr (List.mem_singleton_self _)
      case stands =>
        rw [stw, if_pos same]
        rfl

end Sys2Proof.Machine
end
